-- ==== Sys2Proof/Word.lean ====
section
/-! DEFINITION. The two machine words of the MC6809 core: the 8-bit byte and the 16-bit word (00_scope.md R8). -/

namespace Sys2Proof

/-- An 8-bit value: a memory byte, an accumulator, DP (00_scope.md R8, `u8` of R11). -/
abbrev Byte := BitVec 8

/-- A 16-bit value: an address, an index register, a stack pointer, PC (00_scope.md R8, `u16` of R11). -/
abbrev Word := BitVec 16

end Sys2Proof
end

