-- ==== Sys2Proof/Syntax.lean ====
section
/-! DEFINITION. The syntax of instructions: one constructor per mnemonic of spec/opcode_table.json, its operand argument
naming the row (addressing mode) of that mnemonic (30_encoding.md R132 to R146, R160, R165, R167, R168). -/

namespace Sys2Proof

/-- A base register of indexed mode, coded 00 X, 01 Y, 10 U, 11 S (30_encoding.md R139). -/
inductive IdxReg where
  | x | y | u | s
deriving DecidableEq, Repr

/-- The sub-mode in bits 3..0 of a post-byte with bit 7 set, with its offset bytes (30_encoding.md R140). -/
inductive IdxMode where
  /-- `,R+` -/
  | inc1
  /-- `,R++` -/
  | inc2
  /-- `,-R` -/
  | dec1
  /-- `,--R` -/
  | dec2
  /-- `,R` -/
  | zero
  /-- `B,R` -/
  | accB
  /-- `A,R` -/
  | accA
  /-- `n8,R` -/
  | off8 (n : Byte)
  /-- `n16,R` -/
  | off16 (n : Word)
  /-- `D,R` -/
  | accD
  /-- `n8,PCR` -/
  | pcr8 (n : Byte)
  /-- `n16,PCR` -/
  | pcr16 (n : Word)
  /-- `[n16]` -/
  | extInd (n : Word)
  /-- a reserved sub-mode, 0111, 1010 or 1110 (30_encoding.md R146) -/
  | reserved (m : BitVec 4)
deriving DecidableEq, Repr

/-- An indexed operand: the post-byte with its offset bytes (30_encoding.md R139, R140). -/
inductive Idx where
  /-- `n5,R`: never indirect -/
  | off5 (r : IdxReg) (n : BitVec 5)
  /-- bit 7 set: base register, indirect bit, sub-mode -/
  | mode (r : IdxReg) (ind : Bool) (m : IdxMode)
deriving DecidableEq, Repr

/-- A memory operand: direct, indexed or extended (30_encoding.md R136, R137, R139). -/
inductive Mem where
  | dir (dd : Byte)
  | idx (x : Idx)
  | ext (a : Word)
deriving DecidableEq, Repr

/-- An 8-bit source operand: immediate or memory (30_encoding.md R135). -/
inductive Src8 where
  | imm (v : Byte)
  | mem (m : Mem)
deriving DecidableEq, Repr

/-- A 16-bit source operand: immediate or memory (30_encoding.md R135). -/
inductive Src16 where
  | imm (v : Word)
  | mem (m : Mem)
deriving DecidableEq, Repr

/-- A register selector of TFR and EXG (30_encoding.md R160); `sink` keeps its undefined nibble (R161). -/
inductive Sel where
  | d | x | y | u | s | pc | a | b | cc | dp
  | sink (n : BitVec 4)
deriving DecidableEq, Repr

/-- The instructions. The RESET stub, opcode 0x3E, is `reset`. -/
inductive Instr where
  -- Loads, stores and load-effective-address (40_load_store.md)
  | lda (src : Src8)
  | ldb (src : Src8)
  | ldd (src : Src16)
  | ldx (src : Src16)
  | ldy (src : Src16)
  | ldu (src : Src16)
  | lds (src : Src16)
  | sta (m : Mem)
  | stb (m : Mem)
  | std (m : Mem)
  | stx (m : Mem)
  | sty (m : Mem)
  | stu (m : Mem)
  | sts (m : Mem)
  | leax (x : Idx)
  | leay (x : Idx)
  | leas (x : Idx)
  | leau (x : Idx)
  -- Add, subtract and compare (41_add_sub_compare.md)
  | adda (src : Src8)
  | addb (src : Src8)
  | adca (src : Src8)
  | adcb (src : Src8)
  | addd (src : Src16)
  | suba (src : Src8)
  | subb (src : Src8)
  | sbca (src : Src8)
  | sbcb (src : Src8)
  | subd (src : Src16)
  | cmpa (src : Src8)
  | cmpb (src : Src8)
  | cmpd (src : Src16)
  | cmpx (src : Src16)
  | cmpy (src : Src16)
  | cmpu (src : Src16)
  | cmps (src : Src16)
  -- Logical operations and condition codes (42_logical_cc.md)
  | anda (src : Src8)
  | andb (src : Src8)
  | ora (src : Src8)
  | orb (src : Src8)
  | eora (src : Src8)
  | eorb (src : Src8)
  | bita (src : Src8)
  | bitb (src : Src8)
  | andcc (mask : Byte)
  | orcc (mask : Byte)
  -- Shifts, rotates and single-operand operations (43_shift_unary.md)
  | asra
  | asrb
  | asr (m : Mem)
  | lsra
  | lsrb
  | lsr (m : Mem)
  | asla
  | aslb
  | asl (m : Mem)
  | rola
  | rolb
  | rol (m : Mem)
  | rora
  | rorb
  | ror (m : Mem)
  | inca
  | incb
  | inc (m : Mem)
  | deca
  | decb
  | dec (m : Mem)
  | nega
  | negb
  | neg (m : Mem)
  | clra
  | clrb
  | clr (m : Mem)
  | coma
  | comb
  | com (m : Mem)
  | tsta
  | tstb
  | tst (m : Mem)
  -- Multiply, decimal adjust, sign extend, ABX, transfers, NOP (44_misc_alu.md)
  | mul
  | daa
  | sex
  | abx
  | tfr (src dst : Sel)
  | exg (r1 r2 : Sel)
  | nop
  -- Short branches (45_control_flow.md)
  | bra (off : Byte)
  | brn (off : Byte)
  | bhi (off : Byte)
  | bls (off : Byte)
  | bcc (off : Byte)
  | bcs (off : Byte)
  | bne (off : Byte)
  | beq (off : Byte)
  | bvc (off : Byte)
  | bvs (off : Byte)
  | bpl (off : Byte)
  | bmi (off : Byte)
  | bge (off : Byte)
  | blt (off : Byte)
  | bgt (off : Byte)
  | ble (off : Byte)
  -- Long branches (45_control_flow.md)
  | lbra (off : Word)
  | lbrn (off : Word)
  | lbhi (off : Word)
  | lbls (off : Word)
  | lbcc (off : Word)
  | lbcs (off : Word)
  | lbne (off : Word)
  | lbeq (off : Word)
  | lbvc (off : Word)
  | lbvs (off : Word)
  | lbpl (off : Word)
  | lbmi (off : Word)
  | lbge (off : Word)
  | lblt (off : Word)
  | lbgt (off : Word)
  | lble (off : Word)
  -- Calls, jumps and return (45_control_flow.md)
  | bsr (off : Byte)
  | lbsr (off : Word)
  | jmp (m : Mem)
  | jsr (m : Mem)
  | rts
  -- Stack (46_stack.md)
  | pshs (mask : Byte)
  | puls (mask : Byte)
  | pshu (mask : Byte)
  | pulu (mask : Byte)
  -- Software interrupts, waits, return from interrupt, the RESET stub (47_interrupt_ops.md)
  | swi
  | swi2
  | swi3
  | cwai (mask : Byte)
  | sync
  | rti
  | reset
deriving DecidableEq, Repr

end Sys2Proof
end

