-- ==== Sys2Proof/WellFormed.lean ====
section
/-! DEFINITION. What an instruction term must satisfy to stand for bytes: the two operand kinds that carry a raw nibble
carry one of the nibbles the spec gives that kind (30_encoding.md R146, R160). Every other operand fits by its type. -/

namespace Sys2Proof

/-- A reserved indexed sub-mode is 0111, 1010 or 1110 (30_encoding.md R146). -/
def IdxMode.wf : IdxMode → Bool
  | .reserved m => m == 0x7 || m == 0xA || m == 0xE
  | _ => true

def Idx.wf : Idx → Bool
  | .off5 _ _ => true
  | .mode _ _ m => m.wf

def Mem.wf : Mem → Bool
  | .idx x => x.wf
  | _ => true

def Src8.wf : Src8 → Bool
  | .imm _ => true
  | .mem m => m.wf

def Src16.wf : Src16 → Bool
  | .imm _ => true
  | .mem m => m.wf

/-- The undefined sink's nibble is none of the ten register selectors (30_encoding.md R160). -/
def Sel.wf : Sel → Bool
  | .sink n => n == 0x6 || n == 0x7 || n == 0xC || n == 0xD || n == 0xE || n == 0xF
  | _ => true

/-- An instruction is well formed when its operand is. -/
def Instr.wf (i : Instr) : Bool :=
  match i with
  | .lda src | .ldb src | .adda src | .addb src | .adca src | .adcb src | .suba src | .subb src | .sbca src
  | .sbcb src | .cmpa src | .cmpb src | .anda src | .andb src | .ora src | .orb src | .eora src | .eorb src
  | .bita src | .bitb src => src.wf
  | .ldd src | .ldx src | .ldy src | .ldu src | .lds src | .addd src | .subd src | .cmpd src | .cmpx src
  | .cmpy src | .cmpu src | .cmps src => src.wf
  | .sta m | .stb m | .std m | .stx m | .sty m | .stu m | .sts m | .asr m | .lsr m | .asl m | .rol m | .ror m
  | .inc m | .dec m | .neg m | .clr m | .com m | .tst m | .jmp m | .jsr m => m.wf
  | .leax x | .leay x | .leas x | .leau x => x.wf
  | .tfr r1 r2 | .exg r1 r2 => r1.wf && r2.wf
  | .andcc _ | .orcc _ | .bra _ | .brn _ | .bhi _ | .bls _ | .bcc _ | .bcs _ | .bne _ | .beq _ | .bvc _
  | .bvs _ | .bpl _ | .bmi _ | .bge _ | .blt _ | .bgt _ | .ble _ | .lbra _ | .lbrn _ | .lbhi _ | .lbls _
  | .lbcc _ | .lbcs _ | .lbne _ | .lbeq _ | .lbvc _ | .lbvs _ | .lbpl _ | .lbmi _ | .lbge _ | .lblt _
  | .lbgt _ | .lble _ | .bsr _ | .lbsr _ | .pshs _ | .puls _ | .pshu _ | .pulu _ | .cwai _ => true
  | .asra | .asrb | .lsra | .lsrb | .asla | .aslb | .rola | .rolb | .rora | .rorb | .inca | .incb | .deca
  | .decb | .nega | .negb | .clra | .clrb | .coma | .comb | .tsta | .tstb | .mul | .daa | .sex | .abx | .nop
  | .rts | .swi | .swi2 | .swi3 | .sync | .rti | .reset => true

end Sys2Proof
end

