-- ==== Sys2Proof/Decode.lean ====
section
/-! DEFINITION. From bytes to instructions and back (30_encoding.md): the opcode table as rows of (opcode number, form), the
decoder over any list of bytes, the encoder, and the byte order of the instruction stream. -/

namespace Sys2Proof

/-! ## Bytes, words and fields -/

/-- The word with these two bytes, high byte first in memory (20_memory.md R85; `a:b` of 00_scope.md R11). -/
def wordOf (hi lo : Byte) : Word := hi ++ lo

/-- The high byte of a word, the one at the lower address (20_memory.md R85). -/
def highByte (w : Word) : Byte := w.extractLsb' 8 8

/-- The low byte of a word (20_memory.md R85). -/
def lowByte (w : Word) : Byte := w.extractLsb' 0 8

/-- Bits 7..4 of a byte. -/
def highNibble (b : Byte) : BitVec 4 := b.extractLsb' 4 4

/-- Bits 3..0 of a byte. -/
def lowNibble (b : Byte) : BitVec 4 := b.extractLsb' 0 4

/-! ## Register selectors (30_encoding.md R160) -/

/-- The register a TFR/EXG nibble selects. -/
def selOf (n : BitVec 4) : Sel :=
  match n.toNat with
  | 0 => .d | 1 => .x | 2 => .y | 3 => .u | 4 => .s | 5 => .pc
  | 8 => .a | 9 => .b | 10 => .cc | 11 => .dp
  | _ => .sink n

/-- The nibble of a TFR/EXG selector. -/
def Sel.nibble : Sel → BitVec 4
  | .d => 0x0 | .x => 0x1 | .y => 0x2 | .u => 0x3 | .s => 0x4 | .pc => 0x5
  | .a => 0x8 | .b => 0x9 | .cc => 0xA | .dp => 0xB
  | .sink n => n

/-! ## The indexed post-byte (30_encoding.md R139, R140) -/

/-- The base register of bits 6..5. -/
def idxRegOf (rr : BitVec 2) : IdxReg :=
  match rr.toNat with
  | 0 => .x | 1 => .y | 2 => .u | _ => .s

/-- The two bits that name a base register. -/
def IdxReg.code : IdxReg → BitVec 2
  | .x => 0 | .y => 1 | .u => 2 | .s => 3

/-- How many offset bytes follow the post-byte, and whether they are one word: none, a byte or a word (R140, R143). -/
inductive Offset where
  | none | byte | word
deriving DecidableEq, Repr

/-- The offset bytes a post-byte asks for (R140, R143). A reserved sub-mode asks for none. -/
def offsetOf (pb : Byte) : Offset :=
  if pb.getLsbD 7 then
    match (lowNibble pb).toNat with
    | 0x8 | 0xC => .byte
    | 0x9 | 0xD | 0xF => .word
    | _ => .none
  else .none

/-- The sub-mode of bits 3..0, given the offset bytes as a byte and as a word (R140, R146). -/
def idxModeOf (m : BitVec 4) (n8 : Byte) (n16 : Word) : IdxMode :=
  match m.toNat with
  | 0x0 => .inc1 | 0x1 => .inc2 | 0x2 => .dec1 | 0x3 => .dec2 | 0x4 => .zero
  | 0x5 => .accB | 0x6 => .accA | 0x8 => .off8 n8 | 0x9 => .off16 n16 | 0xB => .accD
  | 0xC => .pcr8 n8 | 0xD => .pcr16 n16 | 0xF => .extInd n16
  | _ => .reserved m

/-- Bits 3..0 of a sub-mode (R140). -/
def IdxMode.code : IdxMode → BitVec 4
  | .inc1 => 0x0 | .inc2 => 0x1 | .dec1 => 0x2 | .dec2 => 0x3 | .zero => 0x4
  | .accB => 0x5 | .accA => 0x6 | .off8 _ => 0x8 | .off16 _ => 0x9 | .accD => 0xB
  | .pcr8 _ => 0xC | .pcr16 _ => 0xD | .extInd _ => 0xF
  | .reserved m => m

/-- The offset bytes of a sub-mode, in fetch order (R143). -/
def IdxMode.offsetBytes : IdxMode → List Byte
  | .off8 n | .pcr8 n => [n]
  | .off16 n | .pcr16 n | .extInd n => [highByte n, lowByte n]
  | _ => []

/-- The indexed operand of a post-byte and its offset bytes (R139, R140). -/
def idxOf (pb n8 : Byte) (n16 : Word) : Idx :=
  if pb.getLsbD 7 then
    .mode (idxRegOf (pb.extractLsb' 5 2)) (pb.getLsbD 4) (idxModeOf (lowNibble pb) n8 n16)
  else .off5 (idxRegOf (pb.extractLsb' 5 2)) (pb.extractLsb' 0 5)

/-- Decode an indexed operand from the bytes after the opcode (R139, R143). -/
def decodeIdx : List Byte → Option (Idx × List Byte)
  | [] => none
  | pb :: rest =>
    match offsetOf pb with
    | .none => some (idxOf pb 0 0, rest)
    | .byte =>
      match rest with
      | n :: rest' => some (idxOf pb n 0, rest')
      | [] => none
    | .word =>
      match rest with
      | hi :: lo :: rest' => some (idxOf pb 0 (wordOf hi lo), rest')
      | _ => none

/-- The post-byte of an indexed operand (R139). -/
def Idx.postByte : Idx → Byte
  | .off5 r n => (0#1 ++ r.code) ++ n
  | .mode r ind m => ((1#1 ++ r.code) ++ BitVec.ofBool ind) ++ m.code

/-- The bytes of an indexed operand: post-byte and offset bytes (R139, R143). -/
def Idx.bytes : Idx → List Byte
  | .off5 r n => [(Idx.off5 r n).postByte]
  | .mode r ind m => (Idx.mode r ind m).postByte :: m.offsetBytes

/-! ## The opcode table (30_encoding.md R167, R168) -/

/-- What follows an opcode, and the instruction it makes (the formats of 30_encoding.md R166). -/
inductive Form where
  | inh (i : Instr)
  | byte (f : Byte → Instr)
  | word (f : Word → Instr)
  | idx (f : Idx → Instr)

/-- The four rows of an 8-bit source operand: immediate, direct, indexed, extended, a column (0x10) apart (R167). -/
def src8Rows (op : Nat) (f : Src8 → Instr) : List (Nat × Form) :=
  [(op, .byte fun b => f (.imm b)), (op + 0x10, .byte fun b => f (.mem (.dir b))),
    (op + 0x20, .idx fun x => f (.mem (.idx x))), (op + 0x30, .word fun w => f (.mem (.ext w)))]

/-- The four rows of a 16-bit source operand (R167, R168). -/
def src16Rows (op : Nat) (f : Src16 → Instr) : List (Nat × Form) :=
  [(op, .word fun w => f (.imm w)), (op + 0x10, .byte fun b => f (.mem (.dir b))),
    (op + 0x20, .idx fun x => f (.mem (.idx x))), (op + 0x30, .word fun w => f (.mem (.ext w)))]

/-- The three rows of a memory operation of rows 0x0_ (direct), 0x6_ (indexed) and 0x7_ (extended) (R167). -/
def rmwRows (op : Nat) (f : Mem → Instr) : List (Nat × Form) :=
  [(op, .byte fun b => f (.dir b)), (op + 0x60, .idx fun x => f (.idx x)), (op + 0x70, .word fun w => f (.ext w))]

/-- The three rows of a store or of JSR: direct, indexed, extended (R167, R168). -/
def storeRows (op : Nat) (f : Mem → Instr) : List (Nat × Form) :=
  [(op, .byte fun b => f (.dir b)), (op + 0x10, .idx fun x => f (.idx x)), (op + 0x20, .word fun w => f (.ext w))]

/-- 8-bit loads, additions and logical operations (30_encoding.md R167). -/
def rowsSrc8 : List (Nat × Form) :=
  List.flatten
    [src8Rows 0x86 .lda, src8Rows 0xC6 .ldb, src8Rows 0x8B .adda, src8Rows 0xCB .addb,
      src8Rows 0x89 .adca, src8Rows 0xC9 .adcb, src8Rows 0x84 .anda, src8Rows 0xC4 .andb,
      src8Rows 0x8A .ora, src8Rows 0xCA .orb, src8Rows 0x88 .eora, src8Rows 0xC8 .eorb]

/-- 8-bit subtractions, comparisons and bit tests (30_encoding.md R167). -/
def rowsSrc8Sub : List (Nat × Form) :=
  List.flatten
    [src8Rows 0x80 .suba, src8Rows 0xC0 .subb, src8Rows 0x82 .sbca, src8Rows 0xC2 .sbcb,
      src8Rows 0x81 .cmpa, src8Rows 0xC1 .cmpb, src8Rows 0x85 .bita, src8Rows 0xC5 .bitb]

/-- 16-bit operations with a 16-bit source operand (30_encoding.md R167, R168). -/
def rowsSrc16 : List (Nat × Form) :=
  List.flatten
    [src16Rows 0xCC .ldd, src16Rows 0x8E .ldx, src16Rows 0x108E .ldy, src16Rows 0xCE .ldu,
      src16Rows 0x10CE .lds, src16Rows 0xC3 .addd, src16Rows 0x83 .subd, src16Rows 0x1083 .cmpd,
      src16Rows 0x8C .cmpx, src16Rows 0x108C .cmpy, src16Rows 0x1183 .cmpu, src16Rows 0x118C .cmps]

/-- Rows 0x0_, 0x6_ and 0x7_: one-operand operations on memory, and JMP (30_encoding.md R167). -/
def rowsRmw : List (Nat × Form) :=
  List.flatten
    [rmwRows 0x07 .asr, rmwRows 0x04 .lsr, rmwRows 0x08 .asl, rmwRows 0x09 .rol,
      rmwRows 0x06 .ror, rmwRows 0x0C .inc, rmwRows 0x0A .dec, rmwRows 0x00 .neg,
      rmwRows 0x0F .clr, rmwRows 0x03 .com, rmwRows 0x0D .tst, rmwRows 0x0E .jmp]

/-- Stores and JSR: direct, indexed and extended, with no immediate form (30_encoding.md R167, R168). -/
def rowsStore : List (Nat × Form) :=
  List.flatten
    [storeRows 0x97 .sta, storeRows 0xD7 .stb, storeRows 0xDD .std, storeRows 0x9F .stx,
      storeRows 0x109F .sty, storeRows 0xDF .stu, storeRows 0x10DF .sts, storeRows 0x9D .jsr]

/-- Inherent operations (30_encoding.md R134). -/
def rowsInherent : List (Nat × Form) :=
  List.flatten
    [[(0x47, .inh .asra), (0x57, .inh .asrb), (0x44, .inh .lsra), (0x54, .inh .lsrb)],
      [(0x48, .inh .asla), (0x58, .inh .aslb), (0x49, .inh .rola), (0x59, .inh .rolb)],
      [(0x46, .inh .rora), (0x56, .inh .rorb), (0x4C, .inh .inca), (0x5C, .inh .incb)],
      [(0x4A, .inh .deca), (0x5A, .inh .decb), (0x40, .inh .nega), (0x50, .inh .negb)],
      [(0x4F, .inh .clra), (0x5F, .inh .clrb), (0x43, .inh .coma), (0x53, .inh .comb)],
      [(0x4D, .inh .tsta), (0x5D, .inh .tstb), (0x3D, .inh .mul), (0x19, .inh .daa)],
      [(0x1D, .inh .sex), (0x3A, .inh .abx), (0x12, .inh .nop), (0x39, .inh .rts)],
      [(0x3F, .inh .swi), (0x103F, .inh .swi2), (0x113F, .inh .swi3), (0x13, .inh .sync)],
      [(0x3B, .inh .rti), (0x3E, .inh .reset)]]

/-- Operations with one operand byte: short branches, BSR, push/pull masks, CC masks, TFR and EXG (30_encoding.md R135, R138). -/
def rowsByte : List (Nat × Form) :=
  List.flatten
    [[(0x1C, .byte .andcc), (0x1A, .byte .orcc), (0x20, .byte .bra), (0x21, .byte .brn)],
      [(0x22, .byte .bhi), (0x23, .byte .bls), (0x24, .byte .bcc), (0x25, .byte .bcs)],
      [(0x26, .byte .bne), (0x27, .byte .beq), (0x28, .byte .bvc), (0x29, .byte .bvs)],
      [(0x2A, .byte .bpl), (0x2B, .byte .bmi), (0x2C, .byte .bge), (0x2D, .byte .blt)],
      [(0x2E, .byte .bgt), (0x2F, .byte .ble), (0x8D, .byte .bsr), (0x34, .byte .pshs)],
      [(0x35, .byte .puls), (0x36, .byte .pshu), (0x37, .byte .pulu), (0x3C, .byte .cwai)],
      [(0x1F, .byte fun pb => .tfr (selOf (highNibble pb)) (selOf (lowNibble pb))), (0x1E, .byte fun pb => .exg (selOf (highNibble pb)) (selOf (lowNibble pb)))]]

/-- Long branches and LBSR (30_encoding.md R138, R168). -/
def rowsWord : List (Nat × Form) :=
  List.flatten
    [[(0x16, .word .lbra), (0x1021, .word .lbrn), (0x1022, .word .lbhi), (0x1023, .word .lbls)],
      [(0x1024, .word .lbcc), (0x1025, .word .lbcs), (0x1026, .word .lbne), (0x1027, .word .lbeq)],
      [(0x1028, .word .lbvc), (0x1029, .word .lbvs), (0x102A, .word .lbpl), (0x102B, .word .lbmi)],
      [(0x102C, .word .lbge), (0x102D, .word .lblt), (0x102E, .word .lbgt), (0x102F, .word .lble)],
      [(0x17, .word .lbsr)]]

/-- LEA: indexed mode only (40_load_store.md section 3). -/
def rowsIndexed : List (Nat × Form) :=
  List.flatten
    [[(0x30, .idx .leax), (0x31, .idx .leay), (0x32, .idx .leas), (0x33, .idx .leau)]]

/-- The opcode table, family by family: 269 rows (30_encoding.md R169). -/
def opFamilies : List (List (Nat × Form)) :=
  [rowsSrc8, rowsSrc8Sub, rowsSrc16, rowsRmw, rowsStore, rowsInherent, rowsByte, rowsWord, rowsIndexed]

/-- The first row of this opcode number in a family. -/
def findRow (op : Nat) : List (Nat × Form) → Option Form
  | [] => none
  | (n, f) :: rows => if n = op then some f else findRow op rows

/-- `OPTABLE[opcode]` (30_encoding.md R133): an opcode number with no row raises UnknownOpcode (R147). -/
def formOf (op : Nat) : Option Form := opFamilies.findSome? (findRow op)

/-! ## Decoding -/

/-- The byte is a page prefix, 0x10 or 0x11 (30_encoding.md R130). -/
def isPrefix (b : Byte) : Bool := b == 0x10 || b == 0x11

/-- The opcode number of a prefix and the byte after it (30_encoding.md R130). -/
def pagedOpcode (p b : Byte) : Nat := p.toNat * 256 + b.toNat

/-- Decode the operand bytes of a form (30_encoding.md R132, R135 to R139). -/
def decodeForm : Form → List Byte → Option (Instr × List Byte)
  | .inh i, rest => some (i, rest)
  | .byte f, b :: rest => some (f b, rest)
  | .byte _, [] => none
  | .word f, hi :: lo :: rest => some (f (wordOf hi lo), rest)
  | .word _, _ => none
  | .idx f, bytes => (decodeIdx bytes).map fun p => (f p.1, p.2)

/-- Decode the operand bytes of an opcode number; none if the table has no such row (30_encoding.md R147). -/
def decodeOp (op : Nat) (rest : List Byte) : Option (Instr × List Byte) :=
  (formOf op).bind fun f => decodeForm f rest

/-- Decode the first instruction of a byte list, with the bytes after it: total, and `none` on an unknown opcode number
or when the list ends inside the instruction (30_encoding.md R130, R133, R147). -/
def decode : List Byte → Option (Instr × List Byte)
  | [] => none
  | b :: rest =>
    if isPrefix b then
      match rest with
      | [] => none
      | b1 :: rest' => decodeOp (pagedOpcode b b1) rest'
    else decodeOp b.toNat rest

/-! ## Encoding -/

/-- The column of an 8-bit source operand, as an offset from the immediate opcode (30_encoding.md R167). -/
def Src8.column : Src8 → Nat
  | .imm _ => 0 | .mem (.dir _) => 0x10 | .mem (.idx _) => 0x20 | .mem (.ext _) => 0x30

/-- The column of a 16-bit source operand, as an offset from the immediate opcode (30_encoding.md R167, R168). -/
def Src16.column : Src16 → Nat
  | .imm _ => 0 | .mem (.dir _) => 0x10 | .mem (.idx _) => 0x20 | .mem (.ext _) => 0x30

/-- The row of a memory operation, as an offset from its direct opcode in row 0x0_ (30_encoding.md R167). -/
def Mem.rmwColumn : Mem → Nat
  | .dir _ => 0 | .idx _ => 0x60 | .ext _ => 0x70

/-- The column of a store or of JSR, as an offset from its direct opcode (30_encoding.md R167, R168). -/
def Mem.storeColumn : Mem → Nat
  | .dir _ => 0 | .idx _ => 0x10 | .ext _ => 0x20

/-- The opcode number of an instruction (opcode_table.json, 30_encoding.md R167, R168). -/
def opcodeOf : Instr → Nat
  | .lda src => 0x86 + src.column
  | .ldb src => 0xC6 + src.column
  | .ldd src => 0xCC + src.column
  | .ldx src => 0x8E + src.column
  | .ldy src => 0x108E + src.column
  | .ldu src => 0xCE + src.column
  | .lds src => 0x10CE + src.column
  | .sta m => 0x97 + m.storeColumn
  | .stb m => 0xD7 + m.storeColumn
  | .std m => 0xDD + m.storeColumn
  | .stx m => 0x9F + m.storeColumn
  | .sty m => 0x109F + m.storeColumn
  | .stu m => 0xDF + m.storeColumn
  | .sts m => 0x10DF + m.storeColumn
  | .leax _ => 0x30
  | .leay _ => 0x31
  | .leas _ => 0x32
  | .leau _ => 0x33
  | .adda src => 0x8B + src.column
  | .addb src => 0xCB + src.column
  | .adca src => 0x89 + src.column
  | .adcb src => 0xC9 + src.column
  | .addd src => 0xC3 + src.column
  | .suba src => 0x80 + src.column
  | .subb src => 0xC0 + src.column
  | .sbca src => 0x82 + src.column
  | .sbcb src => 0xC2 + src.column
  | .subd src => 0x83 + src.column
  | .cmpa src => 0x81 + src.column
  | .cmpb src => 0xC1 + src.column
  | .cmpd src => 0x1083 + src.column
  | .cmpx src => 0x8C + src.column
  | .cmpy src => 0x108C + src.column
  | .cmpu src => 0x1183 + src.column
  | .cmps src => 0x118C + src.column
  | .anda src => 0x84 + src.column
  | .andb src => 0xC4 + src.column
  | .ora src => 0x8A + src.column
  | .orb src => 0xCA + src.column
  | .eora src => 0x88 + src.column
  | .eorb src => 0xC8 + src.column
  | .bita src => 0x85 + src.column
  | .bitb src => 0xC5 + src.column
  | .andcc _ => 0x1C
  | .orcc _ => 0x1A
  | .asra => 0x47
  | .asrb => 0x57
  | .asr m => 0x07 + m.rmwColumn
  | .lsra => 0x44
  | .lsrb => 0x54
  | .lsr m => 0x04 + m.rmwColumn
  | .asla => 0x48
  | .aslb => 0x58
  | .asl m => 0x08 + m.rmwColumn
  | .rola => 0x49
  | .rolb => 0x59
  | .rol m => 0x09 + m.rmwColumn
  | .rora => 0x46
  | .rorb => 0x56
  | .ror m => 0x06 + m.rmwColumn
  | .inca => 0x4C
  | .incb => 0x5C
  | .inc m => 0x0C + m.rmwColumn
  | .deca => 0x4A
  | .decb => 0x5A
  | .dec m => 0x0A + m.rmwColumn
  | .nega => 0x40
  | .negb => 0x50
  | .neg m => 0x00 + m.rmwColumn
  | .clra => 0x4F
  | .clrb => 0x5F
  | .clr m => 0x0F + m.rmwColumn
  | .coma => 0x43
  | .comb => 0x53
  | .com m => 0x03 + m.rmwColumn
  | .tsta => 0x4D
  | .tstb => 0x5D
  | .tst m => 0x0D + m.rmwColumn
  | .mul => 0x3D
  | .daa => 0x19
  | .sex => 0x1D
  | .abx => 0x3A
  | .tfr _ _ => 0x1F
  | .exg _ _ => 0x1E
  | .nop => 0x12
  | .bra _ => 0x20
  | .brn _ => 0x21
  | .bhi _ => 0x22
  | .bls _ => 0x23
  | .bcc _ => 0x24
  | .bcs _ => 0x25
  | .bne _ => 0x26
  | .beq _ => 0x27
  | .bvc _ => 0x28
  | .bvs _ => 0x29
  | .bpl _ => 0x2A
  | .bmi _ => 0x2B
  | .bge _ => 0x2C
  | .blt _ => 0x2D
  | .bgt _ => 0x2E
  | .ble _ => 0x2F
  | .lbra _ => 0x16
  | .lbrn _ => 0x1021
  | .lbhi _ => 0x1022
  | .lbls _ => 0x1023
  | .lbcc _ => 0x1024
  | .lbcs _ => 0x1025
  | .lbne _ => 0x1026
  | .lbeq _ => 0x1027
  | .lbvc _ => 0x1028
  | .lbvs _ => 0x1029
  | .lbpl _ => 0x102A
  | .lbmi _ => 0x102B
  | .lbge _ => 0x102C
  | .lblt _ => 0x102D
  | .lbgt _ => 0x102E
  | .lble _ => 0x102F
  | .bsr _ => 0x8D
  | .lbsr _ => 0x17
  | .jmp m => 0x0E + m.rmwColumn
  | .jsr m => 0x9D + m.storeColumn
  | .rts => 0x39
  | .pshs _ => 0x34
  | .puls _ => 0x35
  | .pshu _ => 0x36
  | .pulu _ => 0x37
  | .swi => 0x3F
  | .swi2 => 0x103F
  | .swi3 => 0x113F
  | .cwai _ => 0x3C
  | .sync => 0x13
  | .rti => 0x3B
  | .reset => 0x3E

def Mem.bytes : Mem → List Byte
  | .dir dd => [dd]
  | .idx x => x.bytes
  | .ext a => [highByte a, lowByte a]

def Src8.bytes : Src8 → List Byte
  | .imm v => [v]
  | .mem m => m.bytes

def Src16.bytes : Src16 → List Byte
  | .imm v => [highByte v, lowByte v]
  | .mem m => m.bytes

/-- The operand bytes of an instruction (30_encoding.md R166). -/
def operandBytes (i : Instr) : List Byte :=
  match i with
  | .lda src | .ldb src | .adda src | .addb src | .adca src | .adcb src | .suba src | .subb src | .sbca src
  | .sbcb src | .cmpa src | .cmpb src | .anda src | .andb src | .ora src | .orb src | .eora src | .eorb src
  | .bita src | .bitb src => src.bytes
  | .ldd src | .ldx src | .ldy src | .ldu src | .lds src | .addd src | .subd src | .cmpd src | .cmpx src
  | .cmpy src | .cmpu src | .cmps src => src.bytes
  | .sta m | .stb m | .std m | .stx m | .sty m | .stu m | .sts m | .asr m | .lsr m | .asl m | .rol m | .ror m
  | .inc m | .dec m | .neg m | .clr m | .com m | .tst m | .jmp m | .jsr m => m.bytes
  | .leax x | .leay x | .leas x | .leau x => x.bytes
  | .tfr r1 r2 | .exg r1 r2 => [r1.nibble ++ r2.nibble]
  | .andcc b | .orcc b | .bra b | .brn b | .bhi b | .bls b | .bcc b | .bcs b | .bne b | .beq b | .bvc b
  | .bvs b | .bpl b | .bmi b | .bge b | .blt b | .bgt b | .ble b | .bsr b | .pshs b | .puls b | .pshu b
  | .pulu b | .cwai b => [b]
  | .lbra w | .lbrn w | .lbhi w | .lbls w | .lbcc w | .lbcs w | .lbne w | .lbeq w | .lbvc w | .lbvs w
  | .lbpl w | .lbmi w | .lbge w | .lblt w | .lbgt w | .lble w | .lbsr w => [highByte w, lowByte w]
  | .asra | .asrb | .lsra | .lsrb | .asla | .aslb | .rola | .rolb | .rora | .rorb | .inca | .incb | .deca
  | .decb | .nega | .negb | .clra | .clrb | .coma | .comb | .tsta | .tstb | .mul | .daa | .sex | .abx | .nop
  | .rts | .swi | .swi2 | .swi3 | .sync | .rti | .reset => []

/-- The one or two bytes of an opcode number (30_encoding.md R130). -/
def opcodeBytes (op : Nat) : List Byte :=
  if op < 0x100 then [BitVec.ofNat 8 op] else [BitVec.ofNat 8 (op / 0x100), BitVec.ofNat 8 op]

/-- The bytes of an instruction, in memory order (30_encoding.md R166). -/
def encode (i : Instr) : List Byte := opcodeBytes (opcodeOf i) ++ operandBytes i

/-- How many bytes the instruction has (30_encoding.md R132). -/
def instrLength (i : Instr) : Nat := (encode i).length

/-! ## The table's numbering of an instruction's bits -/

/-- The five bytes, in memory order, of the instruction whose bits are `w` as spec/opcode_table.json numbers them. The
table numbers a page-0 opcode as bits 7..0 and a paged opcode with its prefix in bits 15..8 ("fixed" of its rows), so a
number whose bits 15..8 are a prefix has its first two bytes in that order; every other byte follows in rising order.
DEDUCED, log 11. -/
def tableBytes (nbits w : Nat) : List Byte :=
  let v := w % 2 ^ nbits
  let byte := fun k => BitVec.ofNat 8 (v / 256 ^ k)
  let rest := [byte 2, byte 3, byte 4]
  if isPrefix (byte 1) then byte 1 :: byte 0 :: rest else byte 0 :: byte 1 :: rest

/-- The instruction this decoder reads from a word of the opcode table, its operand bytes zero above `nbits`. -/
def decodeTableWord (nbits w : Nat) : Option Instr :=
  (decode (tableBytes nbits w)).map Prod.fst

end Sys2Proof
end

