-- ==== Sys2Proof/Config.lean ====
section
/-! DEFINITION. What a machine fixes once (the parameters of 00_scope.md R9, as plain data) and the free values, which
nothing constrains (a device's free functions, which see the whole of its world, stand in Machine/State.lean). `Params` stands in `State.cfg`, which no step writes, so a claim about every state is a claim about
every value of every parameter. -/

namespace Sys2Proof

/-- An inclusive address range `[lo, hi]` (20_memory.md R82). -/
structure Window where
  lo : Word
  hi : Word
deriving DecidableEq, Repr

/-- Parameter `cycle_policy` (20_memory.md R98): whether each CPU byte access adds a cycle on top of the base count. -/
inductive CyclePolicy where
  | datasheet
  | source
deriving DecidableEq, Repr

/-- Parameter `undef_flag_policy` (10_state.md R52): an undefined flag keeps its value, or takes a free one. -/
inductive UndefPolicy where
  | preserve
  | arbitrary
deriving DecidableEq, Repr

/-- Binary operators of a device's expressions. Comparisons give 1 for true and 0 for false; `sub` stops at 0; `div` and
`mod` by 0 give 0 and the dividend. -/
inductive DevOp where
  | add | sub | mul | div | mod | band | bor | bxor | shl | shr | eq | lt
deriving DecidableEq, Repr

/-- What an expression reads of the host queues, at an entry counted from the oldest; 0 past a queue's end. -/
inductive HostLook where
  | keyCount | keyAt
  | displayCount | displayAddrAt | displayValueAt
  | statusCount | statusCycles | statusPc
  | requestCount | requestAddrAt
  | responseCount
deriving DecidableEq, Repr

/-- What a device's script may look at (20_memory.md R89, 60_exceptions.md R670): the callback's arguments, the device
state, the memory, the request lines, the host queues, and the last value a bus read of its own gave. No CPU register.
DESIGN CHOICE, log 5. -/
inductive DevExpr where
  | lit (n : Nat)
  /-- the callback's address argument (0 where the callback has none) -/
  | addr
  /-- the callback's value argument: the byte or word written, the `delta` of a sync callback, the kind of an `ack` -/
  | value
  /-- the callback's `cycles` argument (0 where the callback has none) -/
  | cycles
  /-- cell `k` of the device state -/
  | cell (k : DevExpr)
  /-- the backing store's byte at an address modulo 2^16 -/
  | stored (a : DevExpr)
  | irqLine
  | firqLine
  | nmiLatch
  | host (l : HostLook) (k : DevExpr)
  | reply
  /-- entry `k` of the CPU's state: an argument of a handler of opcode 0x3E, and 0 in every callback -/
  | cpu (k : Nat)
  /-- function number `k` of all of these, which nothing constrains (`Config.freeDevice`) -/
  | free (k : Nat)
  | bin (op : DevOp) (l r : DevExpr)
deriving DecidableEq, Repr

/-- What a device's script may do (20_memory.md R89): change its own state and the request state, make bus accesses of
its own, take a key, enqueue host events, fail, and answer or pass. DESIGN CHOICE, log 5. -/
inductive DevAct where
  | setCell (k e : DevExpr)
  | setReply (e : DevExpr)
  | setIrq (e : DevExpr)
  | setFirq (e : DevExpr)
  | latchNmi
  | readByte (a : DevExpr)
  | readWord (a : DevExpr)
  | writeByte (a v : DevExpr)
  | writeWord (a v : DevExpr)
  | takeKey
  | postKey (code : DevExpr)
  | postDisplay (a v : DevExpr)
  /-- a status of these cycles, PC and CC byte -/
  | postStatus (c p f : DevExpr)
  /-- a peek request -/
  | postPeek (a n : DevExpr)
  /-- a poke request of one byte -/
  | postPoke (a v : DevExpr)
  /-- a response of one byte -/
  | postResponse (v : DevExpr)
  /-- function number `k`, which nothing constrains, gives new device state, lines and host queues (`Config.freeWorld`);
  a set NMI latch stays set -/
  | world (k : Nat)
  /-- raise an error: PeripheralFault (60_exceptions.md R600) -/
  | fail (e : DevExpr)
  /-- end: a read answers `Some e`, a write is `consumed` -/
  | answer (e : DevExpr)
  /-- end: a read answers `None`, a write passes -/
  | pass
deriving DecidableEq, Repr

/-- One line of a script: the action is taken when the guard is not 0. -/
structure DevRule where
  guard : DevExpr
  act : DevAct
deriving DecidableEq, Repr

/-- A callback as plain data: its rules run in order, over and over for so many rounds, to the first `answer`, `pass` or
failure; a script that comes to its end passes. The rounds are counted out at the start, so a script always ends ("A
callback is total", 60_exceptions.md R670). DESIGN CHOICE, log 5. -/
structure Script where
  rules : List DevRule := []
  rounds : DevExpr := .lit 1
deriving DecidableEq, Repr

/-- A callback registered over an address range ("Range registration expands to per-address entries", 20_memory.md R88). -/
structure Registration where
  range : Window
  script : Script
deriving DecidableEq, Repr

/-- The four callback maps (20_memory.md R88). A later registration of an address replaces an earlier one. -/
structure Registry where
  readByte : List Registration := []
  writeByte : List Registration := []
  readWord : List Registration := []
  writeWord : List Registration := []
deriving DecidableEq, Repr

/-- A sync callback `(period_in_cycles, fn)` (60_exceptions.md R660). -/
structure SyncCallback where
  period : Nat
  script : Script
deriving DecidableEq, Repr

/-- A device's `reset()` (70_reset_and_hazards.md R700) and acknowledge hook `ack(kind)` (60_exceptions.md R611). -/
structure Device where
  reset : Script := { }
  ack : Script := { }
deriving DecidableEq, Repr

/-- A piece of the CPU's and the scheduler's state that a machine's handler of opcode 0x3E may write. -/
inductive MachineField where
  | a | b | dp | cc | x | y | u | s | pc | wait | nmiArmed | nmiLatch | running
  | lastCall (i : Nat)
deriving DecidableEq, Repr

/-- What a machine's handler of opcode 0x3E may do (47_interrupt_ops.md R550). -/
inductive HandlerAct where
  /-- all that a device may do, as a part of the CPU's step; the script's answer is the next `reply` -/
  | run (script : Script)
  /-- write these fields at once, each with its value modulo its width -/
  | load (writes : List (MachineField × DevExpr))
  /-- add to the cost of the instruction -/
  | cost (e : DevExpr)
deriving DecidableEq, Repr

/-- One line of a handler: the action is taken when the guard is not 0. -/
structure HandlerRule where
  guard : DevExpr
  act : HandlerAct
deriving DecidableEq, Repr

/-- Parameter `reset_op`, "a function of the machine state with its cycle cost": what opcode 0x3E does
(47_interrupt_ops.md R550). `handler` is a machine's own function, as rules run in order (DESIGN CHOICE, log 15). -/
inductive ResetOp where
  | nop
  | reset
  | handler (rules : List HandlerRule)
deriving DecidableEq, Repr

/-- What of an NMI ends a SYNC wait. 60_exceptions.md R640 and R642 say `nmi_pending`, a latch that is armed, and
47_interrupt_ops.md R542 says `nmi_latch`; no ruling of the spec chooses. DESIGN CHOICE, log 22. -/
inductive SyncNmi where
  | armed
  | latched
deriving DecidableEq, Repr

/-- The parameters a machine fixes at construction (00_scope.md R9, 10_state.md R53). `syncNmi` is the model's own, for the
two readings of the SYNC wait (log 22). -/
structure Params where
  ramWindow : Window
  romWindow : Window
  registry : Registry := { }
  syncCallbacks : List SyncCallback := []
  devices : List Device := []
  cyclePolicy : CyclePolicy := .datasheet
  undefFlags : UndefPolicy := .preserve
  resetOp : ResetOp := .nop
  cwaiEntryCycles : Nat := 0
  syncNmi : SyncNmi := .armed
deriving DecidableEq, Repr

/-- The parameters `State.reset` carries: configuration A of 95_test_vectors.md, with no callback and no device.
DESIGN CHOICE, log 2. -/
def Params.plain : Params :=
  { ramWindow := { lo := 0x0000, hi := 0xBFFF }, romWindow := { lo := 0xC000, hi := 0xFFFF } }

/-- To which depth of nested callbacks a callback is run at once, before deeper ones are tried (Machine/Ops.lean). What a
callback does is the same whatever this number is. Log 6. -/
def Config.callbackDepth : Nat := 32

/-- A free flag: draw number `n` (10_state.md R52 `arbitrary`, 70_reset_and_hazards.md R700 `reset_draw`). Log 3. -/
opaque Config.freeFlag : Nat → Bool

/-- A free byte: draw number `n` (70_reset_and_hazards.md R700 `reset_draw`). Log 3. -/
opaque Config.freeByte : Nat → Byte

/-- A free word: draw number `n` (70_reset_and_hazards.md R700 `reset_draw`). Log 3. -/
opaque Config.freeWord : Nat → Word

/-- A free burst length less one: draw number `n` (60_exceptions.md R662 "draw (N >= 1)"). Log 3. -/
opaque Config.freeBurst : Nat → Nat

end Sys2Proof
end

