-- ==== Sys2Proof/Machine/State.lean ====
section
/-! DEFINITION. The machine state of the MC6809 core (10_state.md R30 to R54, R53) as plain data, the ways a step can stop,
the state right after reset, and the updates of the state's fields. -/

namespace Sys2Proof.Machine

/-! ## Registers -/

/-- The condition code byte, one field per flag, bit 7 to bit 0 (10_state.md R36). All eight bits exist, so this is the
whole byte: `CC.toByte` and `CC.ofByte` (Machine/Flags.lean) read and write it whole (R37). -/
structure CC where
  e : Bool
  f : Bool
  h : Bool
  i : Bool
  n : Bool
  z : Bool
  v : Bool
  c : Bool
deriving DecidableEq, Repr

/-- The register file (10_state.md R30). D is no storage (R32). -/
structure Regs where
  a : Byte
  b : Byte
  dp : Byte
  cc : CC
  x : Word
  y : Word
  u : Word
  s : Word
  pc : Word
deriving DecidableEq, Repr

/-- An accumulator an 8-bit operation names. -/
inductive Acc where
  | a | b
deriving DecidableEq, Repr

/-- A 16-bit register an operation names; `d` is the alias of A:B (10_state.md R32). -/
inductive Reg16 where
  | d | x | y | u | s
deriving DecidableEq, Repr

/-- The stack an operation uses (10_state.md R33). -/
inductive Stk where
  | s | u
deriving DecidableEq, Repr

/-! ## Hidden state -/

/-- The wait state (10_state.md R46). -/
inductive Wait where
  | none | cwai | sync
deriving DecidableEq, Repr

/-- The fatal error kinds (60_exceptions.md R600). -/
inductive FaultKind where
  | outOfRange | unknownOpcode | peripheralFault
deriving DecidableEq, Repr

/-- The `info` of a fault record (60_exceptions.md R600, 20_memory.md R95). -/
inductive FaultInfo where
  /-- UnknownOpcode: `pc` and the opcode number -/
  | opcode (pc : Word) (opcode : Nat)
  /-- OutOfRange: the address and the value offered -/
  | range (addr : Word) (val : Nat)
  /-- PeripheralFault: `pc`, the opcode if one had been fetched, and the device's error -/
  | device (pc : Word) (opcode : Option Nat) (error : Nat)
deriving DecidableEq, Repr

/-- The fault record `(kind, pc, info)` (10_state.md R48, 60_exceptions.md R601). -/
structure FaultRecord where
  kind : FaultKind
  pc : Word
  info : FaultInfo
deriving DecidableEq, Repr

/-- The interrupt request state (10_state.md R47). -/
structure Lines where
  irq : Bool := false
  firq : Bool := false
  nmiLatch : Bool := false
deriving DecidableEq, Repr, Inhabited

/-- The backing store (20_memory.md R81): addresses strictly rising, no entry equal to what an unlisted address holds
(Machine/Ops.lean). -/
abbrev Memory := List Host.Cell

/-! ## The scheduler -/

/-- Where the scheduler stands (60_exceptions.md R662): `stepped` is before any run, where each turn is one `CpuStep`;
`bounded n` is a run of `RunBounded` with `n` steps left, over at 0; `burst n` is a free run with `n` CPU steps left before the
boundary; `ended` is the end of a free run (R665). DESIGN CHOICE, log 7. -/
inductive Phase where
  | stepped
  | bounded (left : Nat)
  | burst (left : Nat)
  | ended
deriving DecidableEq, Repr

/-- The scheduler's state (10_state.md R53; 60_exceptions.md R660, R663). -/
structure Sched where
  /-- `cycles` at the last call of each sync callback, in registration order -/
  lastCall : List Nat := []
  running : Bool := true
  phase : Phase := .stepped
deriving DecidableEq, Repr

/-! ## The host -/

/-- A memory request of the host (60_exceptions.md R684). The bytes of a poke may be out of range. -/
inductive Request where
  | peek (addr : Word) (n : Nat)
  | poke (addr : Word) (bytes : List Nat)
deriving DecidableEq, Repr

/-- The answer to a request (60_exceptions.md R684). -/
inductive Response where
  | bytes (bs : List Byte)
  | done
  | outOfRange
deriving DecidableEq, Repr

/-- A status post: the cycle count, PC and the flags (60_exceptions.md R682). -/
structure Status where
  cycles : Nat
  pc : Word
  cc : CC
deriving DecidableEq, Repr

/-- The host queues, oldest entry first (60_exceptions.md R680). `statusQ` holds at most one entry. -/
structure HostQueues where
  keyQ : List Nat := []
  displayQ : List (Nat × Nat) := []
  statusQ : Option Status := none
  reqQ : List Request := []
  respQ : List Response := []
deriving DecidableEq, Repr, Inhabited

/-! ## What a callback sees and changes (20_memory.md R89, 60_exceptions.md R670) -/

/-- The arguments of a callback: an address, the value written or the `delta` or the kind, and `cycles`, each 0 where the
callback has none; and, for a handler of opcode 0x3E alone, the CPU's state. -/
structure CbArgs where
  addr : Nat := 0
  value : Nat := 0
  cycles : Nat := 0
  cpu : List Nat := []
deriving DecidableEq, Repr

/-- All that a callback is a function of: "(arguments, dev, lines, mem, host)" (60_exceptions.md R670), and the last value a
bus access of its own gave. -/
structure DevView where
  args : CbArgs
  reply : Nat
  dev : List Nat
  lines : Lines
  mem : Memory
  host : HostQueues
deriving DecidableEq, Repr

/-- What a callback changes other than through the bus. -/
structure DevWorld where
  dev : List Nat
  lines : Lines
  host : HostQueues
deriving DecidableEq, Repr, Inhabited

/-- A snapshot (10_state.md R54): the registers with CC, `cycles`, `nmi_armed` and the RAM window's bytes (a byte not
listed is 0). -/
structure Snapshot where
  regs : Regs
  cycles : Nat
  nmiArmed : Bool
  ram : Memory
deriving DecidableEq, Repr

/-- A move of the host between two steps (60_exceptions.md R673, R681; 70_reset_and_hazards.md R701, R704). -/
inductive HostMove where
  /-- `key_down(code)` (60_exceptions.md R673) -/
  | keyDown (code : Nat)
  | request (r : Request)
  | takeDisplay
  | takeStatus
  | takeResponse
  /-- `running <- false` (60_exceptions.md R681) -/
  | stop
  /-- the reset sequence (70_reset_and_hazards.md R701) -/
  | reset
  /-- restore a snapshot, at the next boundary (70_reset_and_hazards.md R704) -/
  | restore (snap : Snapshot)
deriving DecidableEq, Repr

/-- What comes next: a turn of the CPU and scheduler, a move of the host, or the start of a run, `RunFree()` or
`RunBounded(K)` (60_exceptions.md R662), once no run is going on. DESIGN CHOICE, log 8. -/
inductive Turn where
  | cpu
  | host (m : HostMove)
  | startFree
  | startBounded (steps : Nat)
deriving DecidableEq, Repr

/-! ## How a step can stop -/

/-- Why a step answers no next state. -/
inductive Fault where
  /-- The CPU holds a fault record and it is its turn: "A faulted CPU takes no further step" (60_exceptions.md R601).
  Raised by `cpuStep` before any run; in a run the turn passes (R662). Safe: the machine of the spec takes no step here
  either. -/
  | cpuHalted
  /-- The run has ended, a free one after a boundary or a bounded one after its K steps, and no other turn can come
  (60_exceptions.md R665). Raised by `turn`. Safe: the run is over. -/
  | runEnded
  /-- A callback that calls callbacks without end: "a hang the model must keep (it does not terminate)" (20_memory.md
  R91). Raised by the bus. Safe: the machine of the spec makes no step here either, and a nest of callbacks that comes to
  its end, however deep, never raises it (log 6). -/
  | callbackHang
deriving DecidableEq, Repr

/-- Why an instruction has no meaning. -/
inductive Refusal where
  /-- The instruction is not modelled. Raised by no arm of this model. Safe. -/
  | notModelled (mnemonic : String)
deriving DecidableEq, Repr

end Sys2Proof.Machine

namespace Sys2Proof

/-- A free value of a device: function `k` of what the callback sees, at draw number `n` (60_exceptions.md R670). Log 3,
log 5. -/
opaque Config.freeDevice : (k n : Nat) → Machine.DevView → Nat

/-- A free change of a device's world: function `k` of what the callback sees, at draw number `n` (60_exceptions.md R670).
Log 3, log 5. -/
opaque Config.freeWorld : (k n : Nat) → Machine.DevView → Machine.DevWorld

end Sys2Proof

namespace Sys2Proof.Machine

/-! ## The state -/

/-- The whole machine (10_state.md R53), the parameters it was built with, and the model's own `draws`. -/
structure State where
  /-- the parameters, written by no step (10_state.md R53) -/
  cfg : Params
  regs : Regs
  /-- the cycle counter (10_state.md R45) -/
  cycles : Nat
  wait : Wait
  /-- NMI has been armed by an explicit load of S (10_state.md R47, 60_exceptions.md R613) -/
  nmiArmed : Bool
  fault : Option FaultRecord
  lines : Lines
  mem : Memory
  /-- the devices' state: cell `k` is entry `k`, 0 past the end (10_state.md R53, 60_exceptions.md R670) -/
  dev : List Nat
  sched : Sched
  host : HostQueues
  /-- the turns that come next; an empty agenda is the CPU's turn (log 8) -/
  agenda : List Turn
  /-- how many free values have been taken (the model's own, log 3) -/
  draws : Nat
deriving DecidableEq, Repr

/-- The condition code right after reset: E = F = I = 1 (10_state.md R36); the rest is the draw, 0 here. DESIGN CHOICE, log 1. -/
def CC.atReset : CC :=
  { e := true, f := true, h := false, i := true, n := false, z := false, v := false, c := false }

/-- The machine right after construction and reset (70_reset_and_hazards.md R700, R702): DP = 0, PC = read_word(0xFFFE),
which is 0 with no ROM image loaded. The registers the spec leaves to `reset_draw` are 0. DESIGN CHOICE, log 1, log 2. -/
def State.reset : State :=
  { cfg := Params.plain
    regs := { a := 0, b := 0, dp := 0, cc := CC.atReset, x := 0, y := 0, u := 0, s := 0, pc := 0 }
    cycles := 0
    wait := .none
    nmiArmed := false
    fault := none
    lines := { }
    mem := []
    dev := []
    sched := { }
    host := { }
    agenda := []
    draws := 0 }

/-! ## Updates -/

def State.withRegs (s : State) (r : Regs) : State := { s with regs := r }
def State.addCycles (s : State) (n : Nat) : State := { s with cycles := s.cycles + n }
def State.withCycles (s : State) (n : Nat) : State := { s with cycles := n }
def State.withWait (s : State) (w : Wait) : State := { s with wait := w }
def State.withNmiArmed (s : State) (b : Bool) : State := { s with nmiArmed := b }
def State.withFault (s : State) (f : Option FaultRecord) : State := { s with fault := f }
def State.withLines (s : State) (l : Lines) : State := { s with lines := l }
def State.withMem (s : State) (m : Memory) : State := { s with mem := m }
def State.withDev (s : State) (d : List Nat) : State := { s with dev := d }
def State.withSched (s : State) (x : Sched) : State := { s with sched := x }
def State.withHost (s : State) (h : HostQueues) : State := { s with host := h }
def State.withAgenda (s : State) (l : List Turn) : State := { s with agenda := l }
/-- The state after `n` free values have been taken (log 3). -/
def State.drawn (s : State) (n : Nat) : State := { s with draws := s.draws + n }

/-! ## Computations over the state -/

/-- An error that ends a computation before its end (60_exceptions.md R600, R601): the two kinds a bus access can raise,
and the hang of log 6. -/
inductive Raise where
  | outOfRange (addr : Word) (val : Nat)
  | peripheral (error : Nat)
  | hang
deriving DecidableEq, Repr

/-- A computation over the state that answers a value, or stops at an error and keeps the changes made so far
(60_exceptions.md R601 "writes already made by this step stay"). -/
abbrev M (α : Type) : Type := EStateM Raise State α

/-- The outcome of a step of this machine. -/
abbrev Outcome : Type := Host.Outcome State Fault Refusal

end Sys2Proof.Machine
end

