-- ==== Sys2Proof/Machine/Ops.lean ====
section
/-! DEFINITION. The operations every instruction is built from: the backing store, the bus with its callbacks, register
access, the stacks, taking an exception and returning from one, the reset sequence, and how a fault is recorded
(20_memory.md, 10_state.md, 60_exceptions.md, 70_reset_and_hazards.md R700). -/

namespace Sys2Proof.Machine

/-! ## The backing store (20_memory.md R81) -/

/-- What an address no entry names holds: 0x00 (70_reset_and_hazards.md R702: RAM zeroed, the rest 0x00). Log 9. -/
def blankByte : Byte := 0

/-- The byte at an address. -/
def Memory.read : Memory → Nat → Byte
  | [], _ => blankByte
  | (k, v) :: m, a => if k = a then v else Memory.read m a

/-- The memory with one byte written, in canonical form: rising addresses, no blank entry. -/
def Memory.write : Memory → Nat → Byte → Memory
  | [], a, v => if v = blankByte then [] else [(a, v)]
  | (k, w) :: m, a, v =>
    if a < k then (if v = blankByte then (k, w) :: m else (a, v) :: (k, w) :: m)
    else if a = k then (if v = blankByte then m else (a, v) :: m)
    else (k, w) :: Memory.write m a v

/-- Every address is at least `lo` and below 2^16, addresses rise strictly, and no entry is blank. -/
def Memory.wfFrom : Nat → Memory → Bool
  | _, [] => true
  | lo, (k, v) :: m => decide (lo ≤ k) && decide (k < 65536) && decide (v ≠ blankByte) && Memory.wfFrom (k + 1) m

/-- The canonical form. -/
def Memory.wf (m : Memory) : Bool := Memory.wfFrom 0 m

/-- `load(addr, bytes)` for bytes that fit: the run written from an address on (20_memory.md R83). -/
def Memory.load : Memory → Nat → List Byte → Memory
  | m, _, [] => m
  | m, a, v :: vs => Memory.load (m.write a v) (a + 1) vs

/-- The regions of the address space (20_memory.md R82). -/
inductive Region where
  | ram | rom | unmapped
deriving DecidableEq, Repr

/-- The address is in the inclusive range. -/
def covers (w : Window) (a : Word) : Bool := decide (w.lo.toNat ≤ a.toNat) && decide (a.toNat ≤ w.hi.toNat)

/-- The region of an address (20_memory.md R82). -/
def region (cfg : Params) (a : Word) : Region :=
  if covers cfg.ramWindow a then .ram else if covers cfg.romWindow a then .rom else .unmapped

/-- What a read that no callback answers gives: the stored byte in RAM and ROM, 0 in unmapped space (20_memory.md R92). -/
def State.backing (s : State) (a : Word) : Byte :=
  match region s.cfg a with
  | .ram | .rom => s.mem.read a.toNat
  | .unmapped => 0

/-- What a write that no callback consumes does: it lands in RAM and is dropped elsewhere (20_memory.md R95). -/
def State.storeByte (s : State) (a : Word) (v : Byte) : State :=
  match region s.cfg a with
  | .ram => s.withMem (s.mem.write a.toNat v)
  | .rom | .unmapped => s

/-! ## The whole CC byte (10_state.md R36, R37) -/

/-- CC as a byte: E F H I N Z V C from bit 7 to bit 0. -/
def CC.toByte (c : CC) : Byte :=
  BitVec.ofBool c.e ++ BitVec.ofBool c.f ++ BitVec.ofBool c.h ++ BitVec.ofBool c.i ++
    BitVec.ofBool c.n ++ BitVec.ofBool c.z ++ BitVec.ofBool c.v ++ BitVec.ofBool c.c

/-- The flags of a byte written to CC: all eight are written (10_state.md R37). -/
def CC.ofByte (b : Byte) : CC :=
  { e := b.getLsbD 7, f := b.getLsbD 6, h := b.getLsbD 5, i := b.getLsbD 4
    n := b.getLsbD 3, z := b.getLsbD 2, v := b.getLsbD 1, c := b.getLsbD 0 }

/-! ## Cycles (20_memory.md R98) -/

/-- `n` byte transfers of the CPU's: under `cycle_policy = source` each adds a cycle. -/
def State.access (s : State) (n : Nat) : State :=
  match s.cfg.cyclePolicy with
  | .source => s.addCycles n
  | .datasheet => s

/-- The cycles of `n` byte transfers, for a CPU-initiated access only (20_memory.md R91, R98). -/
def countAccess (byCpu : Bool) (n : Nat) : M Unit :=
  modify fun s => if byCpu then s.access n else s

/-! ## Callbacks (20_memory.md R88, R89; log 5) -/

/-- The callback registered at an address: the last registration that covers it (20_memory.md R88). -/
def lookup (rs : List Registration) (a : Word) : Option Script :=
  rs.foldl (fun found r => if covers r.range a then some r.script else found) none

/-- Entry `k` of a list of numbers, 0 past its end. -/
def cellAt : List Nat → Nat → Nat
  | [], _ => 0
  | x :: _, 0 => x
  | _ :: xs, k + 1 => cellAt xs k

/-- The list with entry `k` set, grown with zeros where it is too short. -/
def setCellAt : List Nat → Nat → Nat → List Nat
  | [], 0, v => [v]
  | [], k + 1, v => 0 :: setCellAt [] k v
  | _ :: xs, 0, v => v :: xs
  | x :: xs, k + 1, v => x :: setCellAt xs k v

def evalOp : DevOp → Nat → Nat → Nat
  | .add, l, r => l + r
  | .sub, l, r => l - r
  | .mul, l, r => l * r
  | .div, l, r => l / r
  | .mod, l, r => l % r
  | .band, l, r => l &&& r
  | .bor, l, r => l ||| r
  | .bxor, l, r => l ^^^ r
  | .shl, l, r => l <<< r
  | .shr, l, r => l >>> r
  | .eq, l, r => if l = r then 1 else 0
  | .lt, l, r => if l < r then 1 else 0

/-- The address a request names. -/
def Request.address : Request → Nat
  | .peek a _ | .poke a _ => a.toNat

/-- What an expression reads of the host queues. -/
def lookHost (h : HostQueues) (k : Nat) : HostLook → Nat
  | .keyCount => h.keyQ.length
  | .keyAt => cellAt h.keyQ k
  | .displayCount => h.displayQ.length
  | .displayAddrAt => cellAt (h.displayQ.map Prod.fst) k
  | .displayValueAt => cellAt (h.displayQ.map Prod.snd) k
  | .statusCount => h.statusQ.toList.length
  | .statusCycles => cellAt (h.statusQ.toList.map Status.cycles) k
  | .statusPc => cellAt (h.statusQ.toList.map fun p => p.pc.toNat) k
  | .requestCount => h.reqQ.length
  | .requestAddrAt => cellAt (h.reqQ.map Request.address) k
  | .responseCount => h.respQ.length

/-- What a callback sees (60_exceptions.md R670). -/
def State.view (s : State) (args : CbArgs) (reply : Nat) : DevView :=
  { args := args, reply := reply, dev := s.dev, lines := s.lines, mem := s.mem, host := s.host }

/-- The value of a device's expression: a function of the arguments, the device state, the lines, the memory and the host
queues, and of no CPU register (20_memory.md R89). -/
def evalExpr (s : State) (args : CbArgs) (reply : Nat) : DevExpr → Nat
  | .lit n => n
  | .addr => args.addr
  | .value => args.value
  | .cycles => args.cycles
  | .cell k => cellAt s.dev (evalExpr s args reply k)
  | .stored a => (s.mem.read (evalExpr s args reply a % 65536)).toNat
  | .irqLine => s.lines.irq.toNat
  | .firqLine => s.lines.firq.toNat
  | .nmiLatch => s.lines.nmiLatch.toNat
  | .host l k => lookHost s.host (evalExpr s args reply k) l
  | .reply => reply
  | .cpu k => cellAt args.cpu k
  | .free k => Config.freeDevice k s.draws (s.view args reply)
  | .bin op l r => evalOp op (evalExpr s args reply l) (evalExpr s args reply r)

/-- Runs a callback and gives its answer: `some v` (a read answers v, a write is consumed), or `none` (a pass). -/
abbrev Runner : Type := Script → CbArgs → M (Option Nat)

/-! ## The bus (20_memory.md R92 to R96), over a runner of callbacks -/

/-- `read_byte(addr)` (20_memory.md R92); a callback's answer must fit in 8 bits (60_exceptions.md R600). The record of one that
does not holds the address read and the answer. DEDUCED, log 23. -/
def busReadByte (run : Runner) (byCpu : Bool) (a : Word) : M Byte := do
  countAccess byCpu 1
  let s ← get
  match lookup s.cfg.registry.readByte a with
  | none => return s.backing a
  | some cb =>
    match ← run cb { addr := a.toNat, cycles := s.cycles } with
    | some v => if v ≤ 0xFF then return BitVec.ofNat 8 v else throw (.outOfRange a v)
    | none => return (← get).backing a

/-- `write_byte(addr, val)` (20_memory.md R95). The value is a number, since a device may offer one out of range. -/
def busWriteByte (run : Runner) (byCpu : Bool) (a : Word) (val : Nat) : M Unit := do
  if val ≤ 0xFF then
    countAccess byCpu 1
    let s ← get
    match lookup s.cfg.registry.writeByte a with
    | none => modify fun s => s.storeByte a (BitVec.ofNat 8 val)
    | some cb =>
      match ← run cb { addr := a.toNat, value := val, cycles := s.cycles } with
      | some _ => return ()
      | none => modify fun s => s.storeByte a (BitVec.ofNat 8 val)
  else throw (.outOfRange a val)

/-- `read_word(addr)`: two byte reads, high byte first, unless a word callback at the first address answers
(20_memory.md R87, R93). A pass of that callback reads the bytes with no further cycles. The
record of an answer out of range is as for a byte. DEDUCED, log 23. -/
def busReadWord (run : Runner) (byCpu : Bool) (a : Word) : M Word := do
  match lookup (← get).cfg.registry.readWord a with
  | none =>
    let hi ← busReadByte run byCpu a
    let lo ← busReadByte run byCpu (a + 1)
    return wordOf hi lo
  | some cb =>
    countAccess byCpu 2
    match ← run cb { addr := a.toNat, cycles := (← get).cycles } with
    | some w => if w ≤ 0xFFFF then return BitVec.ofNat 16 w else throw (.outOfRange a w)
    | none =>
      let hi ← busReadByte run false a
      let lo ← busReadByte run false (a + 1)
      return wordOf hi lo

/-- `write_word(addr, val)`: high byte first at the lower address (20_memory.md R87, R96). -/
def busWriteWord (run : Runner) (byCpu : Bool) (a : Word) (val : Nat) : M Unit := do
  if val ≤ 0xFFFF then
    match lookup (← get).cfg.registry.writeWord a with
    | none =>
      busWriteByte run byCpu a (val / 0x100)
      busWriteByte run byCpu (a + 1) (val % 0x100)
    | some cb =>
      countAccess byCpu 2
      match ← run cb { addr := a.toNat, value := val, cycles := (← get).cycles } with
      | some _ => return ()
      | none =>
        busWriteByte run false a (val / 0x100)
        busWriteByte run false (a + 1) (val % 0x100)
  else throw (.outOfRange a val)

/-! ## Running a callback -/

/-- Changes the host queues. -/
def modifyHost (f : HostQueues → HostQueues) : M Unit := modify fun s => s.withHost (f s.host)

/-- A free change of a device's world: its state, the lines (a set NMI latch stays set, 20_memory.md R89) and the host
queues. Log 5. -/
def State.freeWorld (s : State) (args : CbArgs) (reply k : Nat) : State :=
  let w := Config.freeWorld k s.draws (s.view args reply)
  ((s.withDev w.dev).withLines { w.lines with nmiLatch := s.lines.nmiLatch || w.lines.nmiLatch }).withHost w.host

/-- The value a script offers to a write: the CPU's own is a u8 or a u16, modulo the width, so that no instruction offers one
out of range (20_memory.md R97); a callback's may be any. -/
def offered (byCpu : Bool) (size v : Nat) : Nat := if byCpu then v % size else v

/-- One action that does not end the script; it gives the new value of `reply`. The bus accesses are full accesses, those of
the CPU's step if `byCpu` and else a callback's, which add no cycles (20_memory.md R91, R98). -/
def runAct (run : Runner) (byCpu : Bool) (args : CbArgs) (reply : Nat) (act : DevAct) : M Nat := do
  let s ← get
  let value := evalExpr s args reply
  let word := fun e => BitVec.ofNat 16 (value e)
  match act with
  | .setCell k e =>
    modify fun s => s.withDev (setCellAt s.dev (value k) (value e))
    return reply
  | .setReply e => return value e
  | .setIrq e =>
    modify fun s => s.withLines { s.lines with irq := value e != 0 }
    return reply
  | .setFirq e =>
    modify fun s => s.withLines { s.lines with firq := value e != 0 }
    return reply
  | .latchNmi =>
    modify fun s => s.withLines { s.lines with nmiLatch := true }
    return reply
  | .readByte a =>
    let v ← busReadByte run byCpu (word a)
    return v.toNat
  | .readWord a =>
    let v ← busReadWord run byCpu (word a)
    return v.toNat
  | .writeByte a v =>
    busWriteByte run byCpu (word a) (offered byCpu 0x100 (value v))
    return reply
  | .writeWord a v =>
    busWriteWord run byCpu (word a) (offered byCpu 0x10000 (value v))
    return reply
  | .takeKey =>
    modifyHost fun h => { h with keyQ := h.keyQ.tail }
    return reply
  | .postKey c =>
    modifyHost fun h => { h with keyQ := h.keyQ ++ [value c] }
    return reply
  | .postDisplay a v =>
    modifyHost fun h => { h with displayQ := h.displayQ ++ [(value a, value v)] }
    return reply
  | .postStatus c p f =>
    modifyHost fun h => { h with statusQ := some ⟨value c, word p, CC.ofByte (BitVec.ofNat 8 (value f))⟩ }
    return reply
  | .postPeek a n =>
    modifyHost fun h => { h with reqQ := h.reqQ ++ [.peek (word a) (value n)] }
    return reply
  | .postPoke a v =>
    modifyHost fun h => { h with reqQ := h.reqQ ++ [.poke (word a) [value v]] }
    return reply
  | .postResponse v =>
    modifyHost fun h => { h with respQ := h.respQ ++ [.bytes [BitVec.ofNat 8 (value v)]] }
    return reply
  | .world k =>
    modify fun s => s.freeWorld args reply k
    return reply
  | .fail e => throw (.peripheral (value e))
  | .answer _ | .pass => return reply

/-- How one round of a script ends: it goes on with this `reply`, or the callback ends with this answer. -/
inductive Flow where
  | next (reply : Nat)
  | done (answer : Option Nat)
deriving DecidableEq, Repr

/-- The rules of a script in order, once; an `answer` or a `pass` ends the callback. -/
def runRules (run : Runner) (byCpu : Bool) (args : CbArgs) : List DevRule → Nat → M Flow
  | [], reply => return .next reply
  | rule :: rest, reply => do
    let s ← get
    if evalExpr s args reply rule.guard = 0 then runRules run byCpu args rest reply
    else
      match rule.act with
      | .answer e => return .done (some (evalExpr s args reply e))
      | .pass => return .done none
      | act =>
        let reply' ← runAct run byCpu args reply act
        runRules run byCpu args rest reply'

/-- The rounds of a script; past the last one it passes. -/
def runRounds (run : Runner) (byCpu : Bool) (args : CbArgs) (rules : List DevRule) : Nat → Nat → M (Option Nat)
  | 0, _ => return none
  | n + 1, reply => do
    match ← runRules run byCpu args rules reply with
    | .next reply' => runRounds run byCpu args rules n reply'
    | .done v => return v

/-- A script run whole, from its count of rounds on. It takes one free draw, so that two runs see different free values. -/
def runBody (run : Runner) (byCpu : Bool) (script : Script) (args : CbArgs) : M (Option Nat) := do
  let rounds := evalExpr (← get) args 0 script.rounds
  let r ← runRounds run byCpu args script.rules rounds 0
  modify fun s => s.drawn 1
  return r

/-- A callback whose own accesses may nest callbacks `depth` deep; `hang` if that is not deep enough. Its accesses add no
cycles (20_memory.md R91). -/
def runScript : Nat → Runner
  | 0, _, _ => throw .hang
  | depth + 1, script, args => runBody (runScript depth) false script args

/-- What a callback does: the ending of its run to a depth that is enough, from this depth on; `none` if no depth is: it
calls callbacks without end (20_memory.md R91). Log 6. -/
def deepen (script : Script) (args : CbArgs) (s : State) (depth : Nat) : Option (EStateM.Result Raise State (Option Nat)) :=
  match runScript depth script args s with
  | .error .hang _ => deepen script args s (depth + 1)
  | r => some r
partial_fixpoint

/-- The runner of every callback: it runs the callbacks that a callback's own accesses reach to their end, however deep
they nest, and raises `hang` where they have none (20_memory.md R91). Log 6. -/
def runCallback : Runner := fun script args s =>
  match runScript Config.callbackDepth script args s with
  | .error .hang t =>
    match deepen script args s Config.callbackDepth with
    | some r => r
    | none => .error .hang t
  | r => r

/-- Runs scripts one after another and ignores their answers. -/
def runAll (args : CbArgs) : List Script → M Unit
  | [] => return ()
  | sc :: rest => do
    let _ ← runCallback sc args
    runAll args rest

/-! ## The CPU's memory primitives (00_scope.md R13) -/

/-- `MemRead(addr, 1)`. -/
def read8 (a : Word) : M Byte := busReadByte runCallback true a

/-- `MemRead(addr, 2)`. -/
def read16 (a : Word) : M Word := busReadWord runCallback true a

/-- `MemWrite(addr, 1, v)`. -/
def write8 (a : Word) (v : Byte) : M Unit := busWriteByte runCallback true a v.toNat

/-- `MemWrite(addr, 2, v)`. -/
def write16 (a : Word) (v : Word) : M Unit := busWriteWord runCallback true a v.toNat

/-! ## Registers (10_state.md R30 to R34) -/

/-- The register file. -/
def getRegs : M Regs := do return (← get).regs

/-- Changes the register file. -/
def modifyRegs (f : Regs → Regs) : M Unit := modify fun s => s.withRegs (f s.regs)

def Regs.acc (r : Regs) : Acc → Byte
  | .a => r.a
  | .b => r.b

def Regs.setAcc (r : Regs) : Acc → Byte → Regs
  | .a, v => { r with a := v }
  | .b, v => { r with b := v }

/-- D, composed of A and B (10_state.md R32). -/
def Regs.d (r : Regs) : Word := wordOf r.a r.b

/-- A write of D decomposes into A and B (10_state.md R32). -/
def Regs.setD (r : Regs) (v : Word) : Regs := { r with a := highByte v, b := lowByte v }

def Regs.reg16 (r : Regs) : Reg16 → Word
  | .d => r.d
  | .x => r.x
  | .y => r.y
  | .u => r.u
  | .s => r.s

def Regs.setReg16 (r : Regs) : Reg16 → Word → Regs
  | .d, v => r.setD v
  | .x, v => { r with x := v }
  | .y, v => { r with y := v }
  | .u, v => { r with u := v }
  | .s, v => { r with s := v }

def Regs.setCC (r : Regs) (c : CC) : Regs := { r with cc := c }

def Regs.setPc (r : Regs) (a : Word) : Regs := { r with pc := a }

/-- Changes the condition codes. -/
def modifyCC (f : CC → CC) : M Unit := modifyRegs fun r => r.setCC (f r.cc)

/-- `PC <- a`. -/
def setPc (a : Word) : M Unit := modifyRegs fun r => r.setPc a

/-- NMI is armed by an explicit load of S and by nothing else (60_exceptions.md R613). -/
def armNmi : Reg16 → M Unit
  | .s => modify fun s => s.withNmiArmed true
  | .d | .x | .y | .u => return ()

/-- The cost of a step is added after it has run (70_reset_and_hazards.md R730). -/
def addCycles (n : Nat) : M Unit := modify fun s => s.addCycles n

/-! ## Undefined flags (10_state.md R52) -/

/-- `undef(f)` for a flag that held `old`: kept, or a free draw. Log 3, log 4. -/
def undefFlag (old : Bool) : M Bool := do
  let s ← get
  match s.cfg.undefFlags with
  | .preserve => return old
  | .arbitrary =>
    set (s.drawn 1)
    return Config.freeFlag s.draws

/-! ## The stacks (20_memory.md R110 to R113) -/

def Regs.sp (r : Regs) : Stk → Word
  | .s => r.s
  | .u => r.u

def Regs.setSp (r : Regs) : Stk → Word → Regs
  | .s, v => { r with s := v }
  | .u, v => { r with u := v }

/-- `Push8(SP, v)`: SP moves before the write (20_memory.md R110), so a write that fails leaves it moved. Log 21. -/
def push8 (k : Stk) (v : Byte) : M Unit := do
  modifyRegs fun r => r.setSp k (r.sp k - 1)
  write8 ((← getRegs).sp k) v

/-- `Push16(SP, v)`: SP moves before the write (20_memory.md R111), so a write that fails leaves it moved. Log 21. -/
def push16 (k : Stk) (v : Word) : M Unit := do
  modifyRegs fun r => r.setSp k (r.sp k - 2)
  write16 ((← getRegs).sp k) v

/-- `Pull8(SP)` (20_memory.md R112). -/
def pull8 (k : Stk) : M Byte := do
  let v ← read8 ((← getRegs).sp k)
  modifyRegs fun r => r.setSp k (r.sp k + 1)
  return v

/-- `Pull16(SP)` (20_memory.md R113). -/
def pull16 (k : Stk) : M Word := do
  let v ← read16 ((← getRegs).sp k)
  modifyRegs fun r => r.setSp k (r.sp k + 2)
  return v

/-! ## Taking an exception and returning from one (60_exceptions.md R620 to R624, 47_interrupt_ops.md R530 to R545) -/

/-- The entire frame, pushed on S: PC, U, Y, X, DP, B, A, CC (60_exceptions.md R620). -/
def pushEntire : M Unit := do
  push16 .s (← getRegs).pc
  push16 .s (← getRegs).u
  push16 .s (← getRegs).y
  push16 .s (← getRegs).x
  push8 .s (← getRegs).dp
  push8 .s (← getRegs).b
  push8 .s (← getRegs).a
  push8 .s (← getRegs).cc.toByte

/-- The fast frame, pushed on S: PC, CC (60_exceptions.md R620). -/
def pushFast : M Unit := do
  push16 .s (← getRegs).pc
  push8 .s (← getRegs).cc.toByte

/-- What an entry stacks: the entire state with E set, PC and CC with E clear, or nothing because CWAI has already
stacked it (60_exceptions.md R620, R624). -/
inductive Frame where
  | entire | fast | stacked
deriving DecidableEq, Repr

/-- The hardware interrupts (60_exceptions.md R610). -/
inductive Irq where
  | nmi | firq | irq
deriving DecidableEq, Repr

/-- One exception entry: its frame, the masks it sets, its vector, and whom it acknowledges. -/
structure Entry where
  frame : Frame
  setI : Bool
  setF : Bool
  vector : Word
  ack : Option Irq
deriving DecidableEq, Repr

/-- E is set for an entire frame and cleared for a fast one before the push (60_exceptions.md R621, R622). -/
def pushFrame : Frame → M Unit
  | .entire => do
    modifyCC fun c => { c with e := true }
    pushEntire
  | .fast => do
    modifyCC fun c => { c with e := false }
    pushFast
  | .stacked => return ()

/-- The number of a kind in an `ack(kind)` call (60_exceptions.md R611). DESIGN CHOICE, log 13. -/
def Irq.code : Irq → Nat
  | .nmi => 0
  | .firq => 1
  | .irq => 2

/-- Every registered `ack`, once, in registration order (60_exceptions.md R611). -/
def acknowledge (k : Irq) : M Unit := do
  runAll { value := k.code } ((← get).cfg.devices.map Device.ack)

/-- Taking an exception, every kind of it: push the frame, then set the masks, then load PC from the vector, then
acknowledge (60_exceptions.md R611, R621 to R624; 47_interrupt_ops.md R530 to R532). -/
def takeException (e : Entry) : M Unit := do
  pushFrame e.frame
  modifyCC fun c => { c with i := c.i || e.setI, f := c.f || e.setF }
  setPc (← read16 e.vector)
  match e.ack with
  | some k => acknowledge k
  | none => return ()

/-- Returning from an exception: CC is pulled, and its E says whether the entire state or only PC follows; the entire
frame costs 9 cycles more (47_interrupt_ops.md R545, 70_reset_and_hazards.md R730). -/
def returnFromException : M Unit := do
  let c ← pull8 .s
  modifyCC fun _ => CC.ofByte c
  if (CC.ofByte c).e then
    let a ← pull8 .s
    modifyRegs fun r => { r with a := a }
    let b ← pull8 .s
    modifyRegs fun r => { r with b := b }
    let dp ← pull8 .s
    modifyRegs fun r => { r with dp := dp }
    let x ← pull16 .s
    modifyRegs fun r => { r with x := x }
    let y ← pull16 .s
    modifyRegs fun r => { r with y := y }
    let u ← pull16 .s
    modifyRegs fun r => { r with u := u }
    setPc (← pull16 .s)
    addCycles 9
  else setPc (← pull16 .s)

/-! ## Reset (70_reset_and_hazards.md R700) -/

/-- The RESET vector (20_memory.md R100). -/
def resetVector : Word := 0xFFFE

/-- The registers and CC after the draws of a reset: E = F = I = 1, DP = 0, the rest free (70_reset_and_hazards.md R700).
Log 3. -/
def Regs.atReset (r : Regs) (n : Nat) : Regs :=
  { r with
    a := Config.freeByte n
    b := Config.freeByte (n + 1)
    dp := 0
    cc :=
      { e := true, f := true, i := true
        h := Config.freeFlag n
        n := Config.freeFlag (n + 1)
        z := Config.freeFlag (n + 2)
        v := Config.freeFlag (n + 3)
        c := Config.freeFlag (n + 4) }
    x := Config.freeWord n
    y := Config.freeWord (n + 1)
    u := Config.freeWord (n + 2)
    s := Config.freeWord (n + 3) }

/-- The reset sequence: every device's `reset()` in registration order, then the registers, then the vector. Memory,
`cycles`, the scheduler and the host queues stay (70_reset_and_hazards.md R700). -/
def resetSequence : M Unit := do
  runAll { } ((← get).cfg.devices.map Device.reset)
  modify fun s =>
    ((((((s.withRegs (s.regs.atReset s.draws)).drawn 5).withWait .none).withNmiArmed false).withLines
      { s.lines with nmiLatch := false }).withFault none)
  setPc (← read16 resetVector)

/-! ## Faults (60_exceptions.md R600, R601) -/

/-- A fault is recorded and the run is stopped; what the step has already written stays (60_exceptions.md R601). -/
def State.recordFault (s : State) (kind : FaultKind) (pc : Word) (info : FaultInfo) : State :=
  (s.withFault (some ⟨kind, pc, info⟩)).withSched { s.sched with running := false }

/-- How an error ends a step: with the fault recorded at `pc` and no cost added, or, for a hang, with no next state
(60_exceptions.md R601, log 6, log 12). -/
def endFaulted (pc : Word) (opcode : Option Nat) : Raise → State → Outcome
  | .peripheral err, s => .next (s.recordFault .peripheralFault pc (.device pc opcode err))
  | .outOfRange a v, s => .next (s.recordFault .outOfRange pc (.range a v))
  | .hang, _ => .fault .callbackHang

/-- How an error inside the reset sequence ends a step: "recorded as a PeripheralFault with pc = 0xFFFE"
(70_reset_and_hazards.md R700). An OutOfRange is recorded so too, with the value offered as its error. -/
def endFaultedReset : Raise → State → Outcome
  | .peripheral err, s => .next (s.recordFault .peripheralFault resetVector (.device resetVector none err))
  | .outOfRange _ v, s => .next (s.recordFault .peripheralFault resetVector (.device resetVector none v))
  | .hang, _ => .fault .callbackHang

/-- The reset sequence as a step of its own (70_reset_and_hazards.md R700, R701). -/
def resetStep (s : State) : Outcome :=
  match resetSequence s with
  | .ok _ s' => .next s'
  | .error e s' => endFaultedReset e s'

end Sys2Proof.Machine
end

