-- ==== Sys2Proof/Machine/Flags.lean ====
section
/-! DEFINITION. Every flag computation of the spec: the functions of 10_state.md R49 to R51 and of 43_shift_unary.md section
0, as pure functions of CC, and the computations that read and write CC with them. A flag a function does not name is
unchanged. -/

namespace Sys2Proof.Machine

/-- Bit 7 of a byte (`msb8`, 00_scope.md R10). -/
def bit7 (r : Byte) : Bool := r.getLsbD 7

/-- Bit 15 of a word (`msb16`, 00_scope.md R10). -/
def bit15 (r : Word) : Bool := r.getLsbD 15

/-- `NZ8(r)` (10_state.md R49). -/
def CC.nz8 (c : CC) (r : Byte) : CC := { c with n := bit7 r, z := r == 0 }

/-- `NZ16(r)` (10_state.md R49). -/
def CC.nz16 (c : CC) (r : Word) : CC := { c with n := bit15 r, z := r == 0 }

/-- The flags of loads, stores and logical operations: N and Z from the value, V cleared (40_load_store.md, 42_logical_cc.md). -/
def CC.nz8v0 (c : CC) (r : Byte) : CC := { c.nz8 r with v := false }

/-- The same for a word (40_load_store.md). -/
def CC.nz16v0 (c : CC) (r : Word) : CC := { c.nz16 r with v := false }

/-! ## Sums and differences (10_state.md R50, R51) -/

/-- The exact sum `a + b + c`. -/
def sum8 (a b : Byte) (cin : Bool) : Nat := a.toNat + b.toNat + cin.toNat

/-- The value `Add8` returns (10_state.md R50). -/
def add8Result (a b : Byte) (cin : Bool) : Byte := BitVec.ofNat 8 (sum8 a b cin)

/-- The flags of `Add8` (10_state.md R50). -/
def CC.add8 (c : CC) (a b : Byte) (cin : Bool) : CC :=
  let r := add8Result a b cin
  { c with
    h := ((a ^^^ b ^^^ r) &&& 0x10) != 0
    n := bit7 r
    z := r == 0
    v := ((a ^^^ b ^^^ 0x80) &&& (a ^^^ r) &&& 0x80) != 0
    c := decide (sum8 a b cin > 0xFF) }

/-- The exact difference `a - b - c`. -/
def diff8 (a b : Byte) (cin : Bool) : Int := (a.toNat : Int) - b.toNat - cin.toNat

/-- The value `Sub8` returns (10_state.md R51). -/
def sub8Result (a b : Byte) (cin : Bool) : Byte := BitVec.ofInt 8 (diff8 a b cin)

/-- The flags of `Sub8` but for H, which the spec calls undefined and the argument `h` gives (10_state.md R51, R52). -/
def CC.sub8 (c : CC) (a b : Byte) (cin h : Bool) : CC :=
  let r := sub8Result a b cin
  { c with
    h := h
    n := bit7 r
    z := r == 0
    v := ((a ^^^ b) &&& (a ^^^ r) &&& 0x80) != 0
    c := decide (diff8 a b cin < 0) }

/-- The value `Add16` returns (10_state.md R51). -/
def add16Result (a b : Word) : Word := BitVec.ofNat 16 (a.toNat + b.toNat)

/-- The flags of `Add16`; H is not written (10_state.md R51). -/
def CC.add16 (c : CC) (a b : Word) : CC :=
  let r := add16Result a b
  { c with
    n := bit15 r
    z := r == 0
    v := ((a ^^^ b ^^^ 0x8000) &&& (a ^^^ r) &&& 0x8000) != 0
    c := decide (a.toNat + b.toNat > 0xFFFF) }

/-- The value `Sub16` returns (10_state.md R51). -/
def sub16Result (a b : Word) : Word := BitVec.ofInt 16 ((a.toNat : Int) - b.toNat)

/-- The flags of `Sub16`; H is not written (10_state.md R51). -/
def CC.sub16 (c : CC) (a b : Word) : CC :=
  let r := sub16Result a b
  { c with
    n := bit15 r
    z := r == 0
    v := ((a ^^^ b) &&& (a ^^^ r) &&& 0x8000) != 0
    c := decide ((a.toNat : Int) - b.toNat < 0) }

/-! ## One-operand functions (43_shift_unary.md section 0): result, then flags -/

def asr8Result (a : Byte) : Byte := (a &&& 0x80) ||| (a >>> 1)

/-- ASR8; H is undefined and given. -/
def CC.asr8 (c : CC) (a : Byte) (h : Bool) : CC :=
  { c.nz8 (asr8Result a) with c := a.getLsbD 0, h := h }

def lsr8Result (a : Byte) : Byte := a >>> 1

/-- LSR8. -/
def CC.lsr8 (c : CC) (a : Byte) : CC :=
  { c with c := a.getLsbD 0, n := false, z := lsr8Result a == 0 }

def asl8Result (a : Byte) : Byte := a <<< 1

/-- ASL8; H is undefined and given. -/
def CC.asl8 (c : CC) (a : Byte) (h : Bool) : CC :=
  { c.nz8 (asl8Result a) with c := a.getLsbD 7, v := a.getLsbD 7 ^^ a.getLsbD 6, h := h }

/-- The old carry becomes bit 0. -/
def rol8Result (a : Byte) (cin : Bool) : Byte := (a <<< 1) ||| BitVec.ofNat 8 cin.toNat

/-- ROL8. -/
def CC.rol8 (c : CC) (a : Byte) : CC :=
  { c.nz8 (rol8Result a c.c) with c := a.getLsbD 7, v := a.getLsbD 7 ^^ a.getLsbD 6 }

/-- The old carry becomes bit 7. -/
def ror8Result (a : Byte) (cin : Bool) : Byte := (BitVec.ofNat 8 cin.toNat <<< 7) ||| (a >>> 1)

/-- ROR8. -/
def CC.ror8 (c : CC) (a : Byte) : CC :=
  { c.nz8 (ror8Result a c.c) with c := a.getLsbD 0 }

def inc8Result (a : Byte) : Byte := a + 1

/-- INC8. -/
def CC.inc8 (c : CC) (a : Byte) : CC := { c.nz8 (inc8Result a) with v := a == 0x7F }

def dec8Result (a : Byte) : Byte := a - 1

/-- DEC8. -/
def CC.dec8 (c : CC) (a : Byte) : CC := { c.nz8 (dec8Result a) with v := a == 0x80 }

def neg8Result (a : Byte) : Byte := 0 - a

/-- NEG8; H is undefined and given. -/
def CC.neg8 (c : CC) (a : Byte) (h : Bool) : CC :=
  { c.nz8 (neg8Result a) with v := a == 0x80, c := a != 0, h := h }

/-- CLR8. -/
def CC.clr8 (c : CC) : CC := { c with n := false, z := true, v := false, c := false }

def com8Result (a : Byte) : Byte := ~~~a

/-- COM8. -/
def CC.com8 (c : CC) (a : Byte) : CC := { c.nz8 (com8Result a) with v := false, c := true }

/-! ## Multiply and decimal adjust (44_misc_alu.md R400, R405) -/

/-- The product of MUL (44_misc_alu.md R400). -/
def mulResult (a b : Byte) : Word := BitVec.ofNat 16 (a.toNat * b.toNat)

/-- The flags of MUL: Z from the product, C its bit 7 (44_misc_alu.md R400). -/
def CC.mul (c : CC) (a b : Byte) : CC :=
  let p := mulResult a b
  { c with z := p == 0, c := p.getLsbD 7 }

/-- DAA's correction (44_misc_alu.md R405). -/
def daaCorrection (c : CC) (a : Byte) : Nat :=
  let lo := (lowNibble a).toNat
  let hi := (highNibble a).toNat
  (if lo > 9 || c.h then 0x06 else 0) + (if hi > 9 || c.c || (hi > 8 && lo > 9) then 0x60 else 0)

/-- DAA's result (44_misc_alu.md R405). -/
def daaResult (c : CC) (a : Byte) : Byte := BitVec.ofNat 8 (a.toNat + daaCorrection c a)

/-- DAA's flags: a set C is kept; V is undefined and given (44_misc_alu.md R405, 10_state.md R52). -/
def CC.daa (c : CC) (a : Byte) (v : Bool) : CC :=
  { c.nz8 (daaResult c a) with c := c.c || decide (a.toNat + daaCorrection c a > 0xFF), v := v }

/-! ## The computations: they write CC and answer the result -/

def getCC : M CC := do return (← getRegs).cc

/-- `Add8(a, b, c)` (10_state.md R50). -/
def add8 (a b : Byte) (cin : Bool) : M Byte := do
  modifyCC fun c => c.add8 a b cin
  return add8Result a b cin

/-- `Sub8(a, b, c)` (10_state.md R51). -/
def sub8 (a b : Byte) (cin : Bool) : M Byte := do
  let h ← undefFlag (← getCC).h
  modifyCC fun c => c.sub8 a b cin h
  return sub8Result a b cin

/-- `Add16(a, b)` (10_state.md R51). -/
def add16 (a b : Word) : M Word := do
  modifyCC fun c => c.add16 a b
  return add16Result a b

/-- `Sub16(a, b)` (10_state.md R51). -/
def sub16 (a b : Word) : M Word := do
  modifyCC fun c => c.sub16 a b
  return sub16Result a b

/-- ASR8 (43_shift_unary.md section 0). -/
def asr8 (a : Byte) : M Byte := do
  let h ← undefFlag (← getCC).h
  modifyCC fun c => c.asr8 a h
  return asr8Result a

/-- LSR8. -/
def lsr8 (a : Byte) : M Byte := do
  modifyCC fun c => c.lsr8 a
  return lsr8Result a

/-- ASL8. -/
def asl8 (a : Byte) : M Byte := do
  let h ← undefFlag (← getCC).h
  modifyCC fun c => c.asl8 a h
  return asl8Result a

/-- ROL8: the carry is read before it is written. -/
def rol8 (a : Byte) : M Byte := do
  let cin := (← getCC).c
  modifyCC fun c => c.rol8 a
  return rol8Result a cin

/-- ROR8: the carry is read before it is written. -/
def ror8 (a : Byte) : M Byte := do
  let cin := (← getCC).c
  modifyCC fun c => c.ror8 a
  return ror8Result a cin

/-- INC8. -/
def inc8 (a : Byte) : M Byte := do
  modifyCC fun c => c.inc8 a
  return inc8Result a

/-- DEC8. -/
def dec8 (a : Byte) : M Byte := do
  modifyCC fun c => c.dec8 a
  return dec8Result a

/-- NEG8. -/
def neg8 (a : Byte) : M Byte := do
  let h ← undefFlag (← getCC).h
  modifyCC fun c => c.neg8 a h
  return neg8Result a

/-- CLR8: the old value does not matter. -/
def clr8 (_a : Byte) : M Byte := do
  modifyCC CC.clr8
  return 0

/-- COM8. -/
def com8 (a : Byte) : M Byte := do
  modifyCC fun c => c.com8 a
  return com8Result a

/-- TST8: nothing is written back. -/
def tst8 (a : Byte) : M Unit := modifyCC fun c => c.nz8v0 a

end Sys2Proof.Machine
end

