-- ==== Sys2Proof/Machine/Operands.lean ====
section
/-! DEFINITION. Operands: effective addresses with their index updates and indirect reads, immediate and memory operands,
and the register selectors of TFR and EXG (30_encoding.md R134 to R146, R160, R161; 44_misc_alu.md R420). The operand bytes
have been fetched, so PC is the address just past the instruction. -/

namespace Sys2Proof.Machine

/-- `sext_8(v)` (00_scope.md R11). -/
def sext8 (v : Byte) : Word := v.signExtend 16

/-- `sext_5(v)` (00_scope.md R11). -/
def sext5 (v : BitVec 5) : Word := v.signExtend 16

/-- `zext_8(v)` (00_scope.md R11). -/
def zext8 (v : Byte) : Word := v.zeroExtend 16

/-- The base register of indexed mode (30_encoding.md R139). -/
def IdxReg.toReg16 : IdxReg → Reg16
  | .x => .x
  | .y => .y
  | .u => .u
  | .s => .s

/-- The effective address of a sub-mode before any indirection, and the registers after the index update
(30_encoding.md R140, R141). A reserved sub-mode gives 0xFFFF and updates nothing (R146). -/
def modeEA (r : Reg16) (m : IdxMode) (regs : Regs) : Word × Regs :=
  let base := regs.reg16 r
  match m with
  | .inc1 => (base, regs.setReg16 r (base + 1))
  | .inc2 => (base, regs.setReg16 r (base + 2))
  | .dec1 => (base - 1, regs.setReg16 r (base - 1))
  | .dec2 => (base - 2, regs.setReg16 r (base - 2))
  | .zero => (base, regs)
  | .accB => (base + sext8 regs.b, regs)
  | .accA => (base + sext8 regs.a, regs)
  | .off8 n => (base + sext8 n, regs)
  | .off16 n => (base + n, regs)
  | .accD => (base + regs.d, regs)
  | .pcr8 n => (regs.pc + sext8 n, regs)
  | .pcr16 n => (regs.pc + n, regs)
  | .extInd n => (n, regs)
  | .reserved _ => (0xFFFF, regs)

/-- The address is read again as a pointer: bit 4 of the post-byte in every sub-mode but the reserved ones, and always in
`[n16]` (30_encoding.md R141, R144 to R146). -/
def modeIndirect (ind : Bool) : IdxMode → Bool
  | .extInd _ => true
  | .reserved _ => false
  | _ => ind

/-- The effective address before any indirection and the registers after the index update, for any memory operand. -/
def Mem.baseEA (m : Mem) (regs : Regs) : Word × Regs :=
  match m with
  | .dir dd => (wordOf regs.dp dd, regs)
  | .ext a => (a, regs)
  | .idx (.off5 r n) => (regs.reg16 (IdxReg.toReg16 r) + sext5 n, regs)
  | .idx (.mode r _ mo) => modeEA (IdxReg.toReg16 r) mo regs

/-- The operand reads its address through a pointer (30_encoding.md R144). -/
def Mem.indirect : Mem → Bool
  | .idx (.mode _ ind mo) => modeIndirect ind mo
  | .idx (.off5 _ _) | .dir _ | .ext _ => false

/-- Resolve a memory operand: index update, then the indirect read if there is one (30_encoding.md R136, R137, R141). -/
def effectiveAddress (m : Mem) : M Word := do
  let regs ← getRegs
  let ea := (Mem.baseEA m regs).1
  modifyRegs fun r => (Mem.baseEA m r).2
  if Mem.indirect m then read16 ea else return ea

/-- `Operand8(mode)`, the effective address resolved first (30_encoding.md section 2, R135). -/
def operand8 : Src8 → M Byte
  | .imm v => return v
  | .mem m => do read8 (← effectiveAddress m)

/-- `Operand16(mode)` (30_encoding.md section 2, R135). -/
def operand16 : Src16 → M Word
  | .imm v => return v
  | .mem m => do read16 (← effectiveAddress m)

/-! ## Register selectors (44_misc_alu.md R420) -/

/-- What a selector names: an 8-bit value or a 16-bit value. -/
inductive SelValue where
  | byte (v : Byte)
  | word (v : Word)
deriving DecidableEq, Repr

/-- `ReadSel(s)`: PC is the next instruction's address; the undefined sink reads 0xFFFF (44_misc_alu.md R420, 30_encoding.md R161). -/
def readSel (r : Regs) : Sel → SelValue
  | .d => .word r.d
  | .x => .word r.x
  | .y => .word r.y
  | .u => .word r.u
  | .s => .word r.s
  | .pc => .word r.pc
  | .a => .byte r.a
  | .b => .byte r.b
  | .cc => .byte (CC.toByte r.cc)
  | .dp => .byte r.dp
  | .sink _ => .word 0xFFFF

/-- `Convert(v, from, 16)`: a byte is padded with ones (44_misc_alu.md R420). -/
def SelValue.toWord : SelValue → Word
  | .byte v => wordOf 0xFF v
  | .word v => v

/-- `Convert(v, from, 8)`: a word gives its low byte (44_misc_alu.md R420). -/
def SelValue.toByte : SelValue → Byte
  | .byte v => v
  | .word v => lowByte v

/-- The registers after `WriteSel(s, Convert(v, from, width(s)))`; a write of the sink is discarded (44_misc_alu.md R420). -/
def writeSelRegs (r : Regs) (v : SelValue) : Sel → Regs
  | .d => r.setD v.toWord
  | .x => { r with x := v.toWord }
  | .y => { r with y := v.toWord }
  | .u => { r with u := v.toWord }
  | .s => { r with s := v.toWord }
  | .pc => r.setPc v.toWord
  | .a => { r with a := v.toByte }
  | .b => { r with b := v.toByte }
  | .cc => r.setCC (CC.ofByte v.toByte)
  | .dp => { r with dp := v.toByte }
  | .sink _ => r

/-- The selector is S, whose explicit load arms NMI (60_exceptions.md R613). -/
def Sel.isS : Sel → Bool
  | .s => true
  | _ => false

/-- `WriteSel` with the width conversion (44_misc_alu.md R420). -/
def writeSel (sel : Sel) (v : SelValue) : M Unit := do
  modifyRegs fun r => writeSelRegs r v sel
  if Sel.isS sel then armNmi .s else return ()

end Sys2Proof.Machine
end

