-- ==== Sys2Proof/Machine/Execute.lean ====
section
/-! DEFINITION. The cost of an instruction (70_reset_and_hazards.md R730, R731; opcode_table.json) and the frame every
meaning runs in: its body, then its cost, or the fault that ended it (30_encoding.md R133, 60_exceptions.md R601). -/

namespace Sys2Proof.Machine

/-! ## Cycles (70_reset_and_hazards.md R731) -/

/-- The base count of a row: immediate, direct, indexed or extended. -/
def pick8 : Src8 → Nat → Nat → Nat → Nat → Nat
  | .imm _, imm, _, _, _ => imm
  | .mem (.dir _), _, dir, _, _ => dir
  | .mem (.idx _), _, _, idx, _ => idx
  | .mem (.ext _), _, _, _, ext => ext

/-- The base count of a row: immediate, direct, indexed or extended. -/
def pick16 : Src16 → Nat → Nat → Nat → Nat → Nat
  | .imm _, imm, _, _, _ => imm
  | .mem (.dir _), _, dir, _, _ => dir
  | .mem (.idx _), _, _, idx, _ => idx
  | .mem (.ext _), _, _, _, ext => ext

/-- The base count of a row: direct, indexed or extended. -/
def pickMem : Mem → Nat → Nat → Nat → Nat
  | .dir _, dir, _, _ => dir
  | .idx _, _, idx, _ => idx
  | .ext _, _, _, ext => ext

/-- The base cycles of an instruction's row (`cycles` of opcode_table.json). The RESET stub prices itself (`reset_op`). -/
def baseCycles (i : Instr) : Nat :=
  match i with
  | .lda src | .ldb src | .adda src | .addb src | .adca src | .adcb src | .suba src | .subb src | .sbca src
  | .sbcb src | .cmpa src | .cmpb src | .anda src | .andb src | .ora src | .orb src | .eora src | .eorb src
  | .bita src | .bitb src => pick8 src 2 4 4 5
  | .ldd src | .ldx src | .ldu src => pick16 src 3 5 5 6
  | .ldy src | .lds src | .addd src | .subd src | .cmpx src => pick16 src 4 6 6 7
  | .cmpd src | .cmpy src | .cmpu src | .cmps src => pick16 src 5 7 7 8
  | .sta m | .stb m => pickMem m 4 4 5
  | .std m | .stx m | .stu m => pickMem m 5 5 6
  | .sty m | .sts m | .asr m | .lsr m | .asl m | .rol m | .ror m | .inc m | .dec m | .neg m | .clr m | .com m
  | .tst m => pickMem m 6 6 7
  | .jmp m => pickMem m 3 3 4
  | .jsr m => pickMem m 7 7 8
  | .reset => 0
  | .asra | .asrb | .lsra | .lsrb | .asla | .aslb | .rola | .rolb | .rora | .rorb | .inca | .incb | .deca
  | .decb | .nega | .negb | .clra | .clrb | .coma | .comb | .tsta | .tstb | .daa | .sex | .nop => 2
  | .andcc _ | .orcc _ | .abx | .bra _ | .brn _ | .bhi _ | .bls _ | .bcc _ | .bcs _ | .bne _ | .beq _
  | .bvc _ | .bvs _ | .bpl _ | .bmi _ | .bge _ | .blt _ | .bgt _ | .ble _ => 3
  | .leax _ | .leay _ | .leas _ | .leau _ | .sync => 4
  | .lbra _ | .lbrn _ | .lbhi _ | .lbls _ | .lbcc _ | .lbcs _ | .lbne _ | .lbeq _ | .lbvc _ | .lbvs _
  | .lbpl _ | .lbmi _ | .lbge _ | .lblt _ | .lbgt _ | .lble _ | .rts | .pshs _ | .puls _ | .pshu _ | .pulu _ => 5
  | .tfr _ _ | .rti => 6
  | .bsr _ => 7
  | .exg _ _ => 8
  | .lbsr _ => 9
  | .mul => 11
  | .swi => 19
  | .swi2 | .swi3 | .cwai _ => 20

/-- `base` of the indexed algorithm, without the indirect read (30_encoding.md R141). -/
def IdxMode.baseExtra : IdxMode → Nat
  | .inc1 => 2 | .inc2 => 3 | .dec1 => 2 | .dec2 => 3 | .zero => 0
  | .accB => 1 | .accA => 1 | .off8 _ => 1 | .off16 _ => 4 | .accD => 4
  | .pcr8 _ => 1 | .pcr16 _ => 5 | .extInd _ => 2
  | .reserved _ => 0

/-- `idx_extra` of an indexed operand: 3 more for the indirect read (30_encoding.md R140, R141). -/
def Idx.extra : Idx → Nat
  | .off5 _ _ => 1
  | .mode _ ind m => IdxMode.baseExtra m + (if modeIndirect ind m then 3 else 0)

/-- `idx_extra` of a memory operand (70_reset_and_hazards.md R730). -/
def Mem.idxExtra : Mem → Nat
  | .idx x => Idx.extra x
  | .dir _ | .ext _ => 0

/-- `pulled_or_pushed_bytes(m)` (46_stack.md). -/
def maskBytes (m : Byte) : Nat :=
  2 * ((m.getLsbD 7).toNat + (m.getLsbD 6).toNat + (m.getLsbD 5).toNat + (m.getLsbD 4).toNat) +
    ((m.getLsbD 3).toNat + (m.getLsbD 2).toNat + (m.getLsbD 1).toNat + (m.getLsbD 0).toNat)

/-- The part of the cost the operand decides: indexed extras, and one cycle per byte pushed or pulled (70_reset_and_hazards.md R730). -/
def operandCycles (i : Instr) : Nat :=
  match i with
  | .lda (.mem m) | .ldb (.mem m) | .adda (.mem m) | .addb (.mem m) | .adca (.mem m) | .adcb (.mem m)
  | .suba (.mem m) | .subb (.mem m) | .sbca (.mem m) | .sbcb (.mem m) | .cmpa (.mem m) | .cmpb (.mem m)
  | .anda (.mem m) | .andb (.mem m) | .ora (.mem m) | .orb (.mem m) | .eora (.mem m) | .eorb (.mem m)
  | .bita (.mem m) | .bitb (.mem m) => Mem.idxExtra m
  | .ldd (.mem m) | .ldx (.mem m) | .ldy (.mem m) | .ldu (.mem m) | .lds (.mem m) | .addd (.mem m)
  | .subd (.mem m) | .cmpd (.mem m) | .cmpx (.mem m) | .cmpy (.mem m) | .cmpu (.mem m) | .cmps (.mem m) => Mem.idxExtra m
  | .sta m | .stb m | .std m | .stx m | .sty m | .stu m | .sts m | .asr m | .lsr m | .asl m | .rol m | .ror m
  | .inc m | .dec m | .neg m | .clr m | .com m | .tst m | .jmp m | .jsr m => Mem.idxExtra m
  | .leax x | .leay x | .leas x | .leau x => Idx.extra x
  | .pshs mask | .puls mask | .pshu mask | .pulu mask => maskBytes mask
  | .lda (.imm _) | .ldb (.imm _) | .adda (.imm _) | .addb (.imm _) | .adca (.imm _) | .adcb (.imm _)
  | .suba (.imm _) | .subb (.imm _) | .sbca (.imm _) | .sbcb (.imm _) | .cmpa (.imm _) | .cmpb (.imm _)
  | .anda (.imm _) | .andb (.imm _) | .ora (.imm _) | .orb (.imm _) | .eora (.imm _) | .eorb (.imm _)
  | .bita (.imm _) | .bitb (.imm _) => 0
  | .ldd (.imm _) | .ldx (.imm _) | .ldy (.imm _) | .ldu (.imm _) | .lds (.imm _) | .addd (.imm _)
  | .subd (.imm _) | .cmpd (.imm _) | .cmpx (.imm _) | .cmpy (.imm _) | .cmpu (.imm _) | .cmps (.imm _) => 0
  | .andcc _ | .orcc _ | .bra _ | .brn _ | .bhi _ | .bls _ | .bcc _ | .bcs _ | .bne _ | .beq _ | .bvc _
  | .bvs _ | .bpl _ | .bmi _ | .bge _ | .blt _ | .bgt _ | .ble _ | .lbra _ | .lbrn _ | .lbhi _ | .lbls _
  | .lbcc _ | .lbcs _ | .lbne _ | .lbeq _ | .lbvc _ | .lbvs _ | .lbpl _ | .lbmi _ | .lbge _ | .lblt _
  | .lbgt _ | .lble _ | .bsr _ | .lbsr _ | .cwai _ | .tfr _ _ | .exg _ _ => 0
  | .asra | .asrb | .lsra | .lsrb | .asla | .aslb | .rola | .rolb | .rora | .rorb | .inca | .incb | .deca
  | .decb | .nega | .negb | .clra | .clrb | .coma | .comb | .tsta | .tstb | .mul | .daa | .sex | .abx | .nop
  | .rts | .swi | .swi2 | .swi3 | .sync | .rti | .reset => 0

/-- The cost of an instruction but for what its run decides (a taken long branch, RTI's entire frame, `reset_op`), which
its body adds (70_reset_and_hazards.md R730). -/
def instrCycles (i : Instr) : Nat := baseCycles i + operandCycles i

/-! ## The frame of a meaning -/

/-- The address of the instruction's first byte, when PC is the address just past it (30_encoding.md R133 `op_addr`). -/
def opAddr (i : Instr) (s : State) : Word := s.regs.pc - BitVec.ofNat 16 (instrLength i)

/-- A meaning's outcome: its body run, then its cost added; or the fault that ended the body, recorded with the
instruction's address and opcode and without the cost (30_encoding.md R133, 60_exceptions.md R600, R601). -/
def instruction (i : Instr) (body : M Unit) (s : State) : Outcome :=
  match body s with
  | .ok _ s' => .next (s'.addCycles (instrCycles i))
  | .error e s' => endFaulted (opAddr i s) (some (opcodeOf i)) e s'

end Sys2Proof.Machine
end

