-- ==== Sys2Proof/Machine/AddSub.lean ====
section
/-! DEFINITION. The meanings of add, subtract and compare (41_add_sub_compare.md). -/

namespace Sys2Proof.Machine

/-- `R <- Add8(R, m, 0)` (41_add_sub_compare.md section 1). -/
def addTo (r : Acc) (src : Src8) : M Unit := do
  let m ← operand8 src
  let v ← add8 ((← getRegs).acc r) m false
  modifyRegs fun g => g.setAcc r v

/-- `R <- Add8(R, m, CC.C)`; C is read before it is written (41_add_sub_compare.md R252). -/
def addCarryTo (r : Acc) (src : Src8) : M Unit := do
  let m ← operand8 src
  let v ← add8 ((← getRegs).acc r) m (← getCC).c
  modifyRegs fun g => g.setAcc r v

/-- `D <- Add16(D, m)` (41_add_sub_compare.md R254). -/
def addToD (src : Src16) : M Unit := do
  let m ← operand16 src
  let v ← add16 (← getRegs).d m
  modifyRegs fun g => g.setD v

/-- `R <- Sub8(R, m, 0)` (41_add_sub_compare.md section 2). -/
def subFrom (r : Acc) (src : Src8) : M Unit := do
  let m ← operand8 src
  let v ← sub8 ((← getRegs).acc r) m false
  modifyRegs fun g => g.setAcc r v

/-- `R <- Sub8(R, m, CC.C)` (41_add_sub_compare.md R262). -/
def subBorrowFrom (r : Acc) (src : Src8) : M Unit := do
  let m ← operand8 src
  let v ← sub8 ((← getRegs).acc r) m (← getCC).c
  modifyRegs fun g => g.setAcc r v

/-- `D <- Sub16(D, m)` (41_add_sub_compare.md R264). -/
def subFromD (src : Src16) : M Unit := do
  let m ← operand16 src
  let v ← sub16 (← getRegs).d m
  modifyRegs fun g => g.setD v

/-- `Sub8(R, m, 0)` with the result discarded (41_add_sub_compare.md section 3). -/
def compare8 (r : Acc) (src : Src8) : M Unit := do
  let m ← operand8 src
  let _ ← sub8 ((← getRegs).acc r) m false

/-- `Sub16(R, m)` with the result discarded; an index register the operand updated is compared as updated
(41_add_sub_compare.md section 3, R273). -/
def compare16 (r : Reg16) (src : Src16) : M Unit := do
  let m ← operand16 src
  let _ ← sub16 ((← getRegs).reg16 r) m

/-- ADDA: add to A (R250). -/
def execAdda (src : Src8) (s : State) : Outcome := instruction (.adda src) (addTo .a src) s

/-- ADDB: add to B (R251). -/
def execAddb (src : Src8) (s : State) : Outcome := instruction (.addb src) (addTo .b src) s

/-- ADCA: add with carry to A (R252). -/
def execAdca (src : Src8) (s : State) : Outcome := instruction (.adca src) (addCarryTo .a src) s

/-- ADCB: add with carry to B (R253). -/
def execAdcb (src : Src8) (s : State) : Outcome := instruction (.adcb src) (addCarryTo .b src) s

/-- ADDD: add to D (R254). -/
def execAddd (src : Src16) (s : State) : Outcome := instruction (.addd src) (addToD src) s

/-- SUBA: subtract from A (R260). -/
def execSuba (src : Src8) (s : State) : Outcome := instruction (.suba src) (subFrom .a src) s

/-- SUBB: subtract from B (R261). -/
def execSubb (src : Src8) (s : State) : Outcome := instruction (.subb src) (subFrom .b src) s

/-- SBCA: subtract with borrow from A (R262). -/
def execSbca (src : Src8) (s : State) : Outcome := instruction (.sbca src) (subBorrowFrom .a src) s

/-- SBCB: subtract with borrow from B (R263). -/
def execSbcb (src : Src8) (s : State) : Outcome := instruction (.sbcb src) (subBorrowFrom .b src) s

/-- SUBD: subtract from D (R264). -/
def execSubd (src : Src16) (s : State) : Outcome := instruction (.subd src) (subFromD src) s

/-- CMPA: compare A (R270). -/
def execCmpa (src : Src8) (s : State) : Outcome := instruction (.cmpa src) (compare8 .a src) s

/-- CMPB: compare B (R271). -/
def execCmpb (src : Src8) (s : State) : Outcome := instruction (.cmpb src) (compare8 .b src) s

/-- CMPD: compare D (R272). -/
def execCmpd (src : Src16) (s : State) : Outcome := instruction (.cmpd src) (compare16 .d src) s

/-- CMPX: compare X (R273). -/
def execCmpx (src : Src16) (s : State) : Outcome := instruction (.cmpx src) (compare16 .x src) s

/-- CMPY: compare Y (R274). -/
def execCmpy (src : Src16) (s : State) : Outcome := instruction (.cmpy src) (compare16 .y src) s

/-- CMPU: compare U (R275). -/
def execCmpu (src : Src16) (s : State) : Outcome := instruction (.cmpu src) (compare16 .u src) s

/-- CMPS: compare S (R276). -/
def execCmps (src : Src16) (s : State) : Outcome := instruction (.cmps src) (compare16 .s src) s

end Sys2Proof.Machine
end

