-- ==== Sys2Proof/Machine/Branch.lean ====
section
/-! DEFINITION. The meanings of branches, jumps, calls and RTS (45_control_flow.md). None writes a flag. -/

namespace Sys2Proof.Machine

/-! ## Predicates (45_control_flow.md R450) -/

/-- Cond_BHI. -/
def condHi (c : CC) : Bool := !c.c && !c.z

/-- Cond_BLS. -/
def condLs (c : CC) : Bool := c.c || c.z

/-- Cond_BCC. -/
def condCc (c : CC) : Bool := !c.c

/-- Cond_BCS. -/
def condCs (c : CC) : Bool := c.c

/-- Cond_BNE. -/
def condNe (c : CC) : Bool := !c.z

/-- Cond_BEQ. -/
def condEq (c : CC) : Bool := c.z

/-- Cond_BVC. -/
def condVc (c : CC) : Bool := !c.v

/-- Cond_BVS. -/
def condVs (c : CC) : Bool := c.v

/-- Cond_BPL. -/
def condPl (c : CC) : Bool := !c.n

/-- Cond_BMI. -/
def condMi (c : CC) : Bool := c.n

/-- Cond_BGE. -/
def condGe (c : CC) : Bool := c.n == c.v

/-- Cond_BLT. -/
def condLt (c : CC) : Bool := c.n != c.v

/-- Cond_BGT. -/
def condGt (c : CC) : Bool := !c.z && c.n == c.v

/-- Cond_BLE. -/
def condLe (c : CC) : Bool := c.z || c.n != c.v

/-! ## Primitives -/

/-- `Branch8(cond)`: the offset is added to the address past the instruction (45_control_flow.md R450, 30_encoding.md R138). -/
def branch8 (cond : CC → Bool) (off : Byte) : M Unit := do
  let r ← getRegs
  if cond r.cc then setPc (r.pc + sext8 off) else return ()

/-- `Branch16(cond)` of a conditional branch: one cycle more when taken (45_control_flow.md R450, 70_reset_and_hazards.md R730). -/
def branch16 (cond : CC → Bool) (off : Word) : M Unit := do
  let r ← getRegs
  if cond r.cc then
    setPc (r.pc + off)
    addCycles 1
  else return ()

/-- LBRA's branch: always taken, at one cost (45_control_flow.md R470, 70_reset_and_hazards.md R731). -/
def branch16Always (off : Word) : M Unit := modifyRegs fun r => r.setPc (r.pc + off)

/-- A call: PC, the address past the instruction, is pushed on S, and PC becomes the target (45_control_flow.md section 4). -/
def callTo (target : Word) : M Unit := do
  push16 .s (← getRegs).pc
  setPc target

/-- BSR and LBSR: the target is computed from the PC that is pushed (45_control_flow.md R490, R491). -/
def callRelative (off : Word) : M Unit := do
  callTo ((← getRegs).pc + off)

/-- JMP (45_control_flow.md R492). -/
def jumpTo (m : Mem) : M Unit := do
  setPc (← effectiveAddress m)

/-- JSR: the address is resolved before the push (45_control_flow.md R493). -/
def callMem (m : Mem) : M Unit := do
  callTo (← effectiveAddress m)

/-- RTS (45_control_flow.md R494). -/
def returnFromCall : M Unit := do
  setPc (← pull16 .s)

/-- BRA: branch always (R451). -/
def execBra (off : Byte) (s : State) : Outcome := instruction (.bra off) (branch8 (fun _ => true) off) s

/-- BRN: branch never (R452). -/
def execBrn (off : Byte) (s : State) : Outcome := instruction (.brn off) (branch8 (fun _ => false) off) s

/-- BHI: branch if higher, unsigned (R453). -/
def execBhi (off : Byte) (s : State) : Outcome := instruction (.bhi off) (branch8 condHi off) s

/-- BLS: branch if lower or same, unsigned (R454). -/
def execBls (off : Byte) (s : State) : Outcome := instruction (.bls off) (branch8 condLs off) s

/-- BCC: branch if carry clear (BHS) (R455). -/
def execBcc (off : Byte) (s : State) : Outcome := instruction (.bcc off) (branch8 condCc off) s

/-- BCS: branch if carry set (BLO) (R456). -/
def execBcs (off : Byte) (s : State) : Outcome := instruction (.bcs off) (branch8 condCs off) s

/-- BNE: branch if not equal (R457). -/
def execBne (off : Byte) (s : State) : Outcome := instruction (.bne off) (branch8 condNe off) s

/-- BEQ: branch if equal (R458). -/
def execBeq (off : Byte) (s : State) : Outcome := instruction (.beq off) (branch8 condEq off) s

/-- BVC: branch if overflow clear (R459). -/
def execBvc (off : Byte) (s : State) : Outcome := instruction (.bvc off) (branch8 condVc off) s

/-- BVS: branch if overflow set (R460). -/
def execBvs (off : Byte) (s : State) : Outcome := instruction (.bvs off) (branch8 condVs off) s

/-- BPL: branch if plus (R461). -/
def execBpl (off : Byte) (s : State) : Outcome := instruction (.bpl off) (branch8 condPl off) s

/-- BMI: branch if minus (R462). -/
def execBmi (off : Byte) (s : State) : Outcome := instruction (.bmi off) (branch8 condMi off) s

/-- BGE: branch if greater or equal, signed (R463). -/
def execBge (off : Byte) (s : State) : Outcome := instruction (.bge off) (branch8 condGe off) s

/-- BLT: branch if less than, signed (R464). -/
def execBlt (off : Byte) (s : State) : Outcome := instruction (.blt off) (branch8 condLt off) s

/-- BGT: branch if greater than, signed (R465). -/
def execBgt (off : Byte) (s : State) : Outcome := instruction (.bgt off) (branch8 condGt off) s

/-- BLE: branch if less or equal, signed (R466). -/
def execBle (off : Byte) (s : State) : Outcome := instruction (.ble off) (branch8 condLe off) s

/-- LBRA: long branch always (R470). -/
def execLbra (off : Word) (s : State) : Outcome := instruction (.lbra off) (branch16Always off) s

/-- LBRN: long branch never (R471). -/
def execLbrn (off : Word) (s : State) : Outcome := instruction (.lbrn off) (return ()) s

/-- LBHI: long branch if higher, unsigned (R472). -/
def execLbhi (off : Word) (s : State) : Outcome := instruction (.lbhi off) (branch16 condHi off) s

/-- LBLS: long branch if lower or same, unsigned (R473). -/
def execLbls (off : Word) (s : State) : Outcome := instruction (.lbls off) (branch16 condLs off) s

/-- LBCC: long branch if carry clear (LBHS) (R474). -/
def execLbcc (off : Word) (s : State) : Outcome := instruction (.lbcc off) (branch16 condCc off) s

/-- LBCS: long branch if carry set (LBLO) (R475). -/
def execLbcs (off : Word) (s : State) : Outcome := instruction (.lbcs off) (branch16 condCs off) s

/-- LBNE: long branch if not equal (R476). -/
def execLbne (off : Word) (s : State) : Outcome := instruction (.lbne off) (branch16 condNe off) s

/-- LBEQ: long branch if equal (R477). -/
def execLbeq (off : Word) (s : State) : Outcome := instruction (.lbeq off) (branch16 condEq off) s

/-- LBVC: long branch if overflow clear (R478). -/
def execLbvc (off : Word) (s : State) : Outcome := instruction (.lbvc off) (branch16 condVc off) s

/-- LBVS: long branch if overflow set (R479). -/
def execLbvs (off : Word) (s : State) : Outcome := instruction (.lbvs off) (branch16 condVs off) s

/-- LBPL: long branch if plus (R480). -/
def execLbpl (off : Word) (s : State) : Outcome := instruction (.lbpl off) (branch16 condPl off) s

/-- LBMI: long branch if minus (R481). -/
def execLbmi (off : Word) (s : State) : Outcome := instruction (.lbmi off) (branch16 condMi off) s

/-- LBGE: long branch if greater or equal, signed (R482). -/
def execLbge (off : Word) (s : State) : Outcome := instruction (.lbge off) (branch16 condGe off) s

/-- LBLT: long branch if less than, signed (R483). -/
def execLblt (off : Word) (s : State) : Outcome := instruction (.lblt off) (branch16 condLt off) s

/-- LBGT: long branch if greater than, signed (R484). -/
def execLbgt (off : Word) (s : State) : Outcome := instruction (.lbgt off) (branch16 condGt off) s

/-- LBLE: long branch if less or equal, signed (R485). -/
def execLble (off : Word) (s : State) : Outcome := instruction (.lble off) (branch16 condLe off) s

/-- BSR: branch to subroutine (R490). -/
def execBsr (off : Byte) (s : State) : Outcome := instruction (.bsr off) (callRelative (sext8 off)) s

/-- LBSR: long branch to subroutine (R491). -/
def execLbsr (off : Word) (s : State) : Outcome := instruction (.lbsr off) (callRelative off) s

/-- JMP: jump (R492). -/
def execJmp (m : Mem) (s : State) : Outcome := instruction (.jmp m) (jumpTo m) s

/-- JSR: jump to subroutine (R493). -/
def execJsr (m : Mem) (s : State) : Outcome := instruction (.jsr m) (callMem m) s

/-- RTS: return from subroutine (R494). -/
def execRts (s : State) : Outcome := instruction .rts (returnFromCall) s

end Sys2Proof.Machine
end

