-- ==== Sys2Proof/Machine/Interrupt.lean ====
section
/-! DEFINITION. The meanings of SWI, SWI2, SWI3, CWAI, SYNC, RTI and the RESET stub (47_interrupt_ops.md). -/

namespace Sys2Proof.Machine

/-- SWI's entry: entire frame, then I and F, vector 0xFFFA (47_interrupt_ops.md R530). -/
def swiEntry : Entry := { frame := .entire, setI := true, setF := true, vector := 0xFFFA, ack := none }

/-- SWI2's entry: entire frame, no mask, vector 0xFFF4 (47_interrupt_ops.md R531). -/
def swi2Entry : Entry := { frame := .entire, setI := false, setF := false, vector := 0xFFF4, ack := none }

/-- SWI3's entry: entire frame, no mask, vector 0xFFF2 (47_interrupt_ops.md R532). -/
def swi3Entry : Entry := { frame := .entire, setI := false, setF := false, vector := 0xFFF2, ack := none }

/-- CWAI's body: CC ANDed with the mask, then E set and the entire state pushed, then the wait (47_interrupt_ops.md R540). -/
def clearAndWait (mask : Byte) : M Unit := do
  modifyCC fun c => CC.ofByte (c.toByte &&& mask)
  pushFrame .entire
  modify fun s => s.withWait .cwai

/-! ## A machine's own handler of opcode 0x3E (47_interrupt_ops.md R550; log 15) -/

/-- The number of a wait state for a handler. -/
def Wait.code : Wait → Nat
  | .none => 0
  | .cwai => 1
  | .sync => 2

/-- The wait state of a number. -/
def Wait.ofCode : Nat → Wait
  | 0 => .none
  | 1 => .cwai
  | _ => .sync

/-- The CPU's and the scheduler's state as a handler sees it: A, B, DP, CC, X, Y, U, S, PC, the wait, whether NMI is armed,
`running`, and the last calls. -/
def State.cpuView (s : State) : List Nat :=
  [s.regs.a.toNat, s.regs.b.toNat, s.regs.dp.toNat, (CC.toByte s.regs.cc).toNat, s.regs.x.toNat, s.regs.y.toNat,
    s.regs.u.toNat, s.regs.s.toNat, s.regs.pc.toNat, s.wait.code, s.nmiArmed.toNat, s.sched.running.toNat] ++
    s.sched.lastCall

/-- What a handler gets: the whole machine state. -/
def State.handlerArgs (s : State) : CbArgs := { cycles := s.cycles, cpu := s.cpuView }

/-- The state with one field written, the value taken modulo the field's width. -/
def State.setField (s : State) (v : Nat) : MachineField → State
  | .a => s.withRegs { s.regs with a := BitVec.ofNat 8 v }
  | .b => s.withRegs { s.regs with b := BitVec.ofNat 8 v }
  | .dp => s.withRegs { s.regs with dp := BitVec.ofNat 8 v }
  | .cc => s.withRegs { s.regs with cc := CC.ofByte (BitVec.ofNat 8 v) }
  | .x => s.withRegs { s.regs with x := BitVec.ofNat 16 v }
  | .y => s.withRegs { s.regs with y := BitVec.ofNat 16 v }
  | .u => s.withRegs { s.regs with u := BitVec.ofNat 16 v }
  | .s => s.withRegs { s.regs with s := BitVec.ofNat 16 v }
  | .pc => s.withRegs { s.regs with pc := BitVec.ofNat 16 v }
  | .wait => s.withWait (Wait.ofCode v)
  | .nmiArmed => s.withNmiArmed (v != 0)
  | .nmiLatch => s.withLines { s.lines with nmiLatch := v != 0 }
  | .running => s.withSched { s.sched with running := v != 0 }
  | .lastCall i => s.withSched { s.sched with lastCall := s.sched.lastCall.set i v }

/-- The state with several fields written, every value computed from the state before. -/
def State.loadFields (s : State) (reply : Nat) (writes : List (MachineField × DevExpr)) : State :=
  writes.foldl (fun t w => t.setField (evalExpr s s.handlerArgs reply w.2) w.1) s

/-- A handler's rules in order; it gives the cost they add up to. A script's bus accesses are made by a step of the CPU and by
no callback, so they count under `source`, and those of the callbacks they reach do not (20_memory.md R91, R98), and the values
it writes are a u8 or a u16 (R97). Memory is
written through the bus alone (R83, R84). DESIGN CHOICE, log 15. -/
def runHandler : List HandlerRule → (reply cost : Nat) → M Nat
  | [], _, cost => return cost
  | rule :: rest, reply, cost => do
    let s ← get
    if evalExpr s s.handlerArgs reply rule.guard = 0 then runHandler rest reply cost
    else
      match rule.act with
      | .run script =>
        let answer ← runBody runCallback true script s.handlerArgs
        runHandler rest (answer.getD reply) cost
      | .load writes =>
        set (s.loadFields reply writes)
        runHandler rest reply cost
      | .cost e => runHandler rest reply (cost + evalExpr s s.handlerArgs reply e)

/-- A handler and then its cost (70_reset_and_hazards.md R730). -/
def resetHandler (rules : List HandlerRule) : M Unit := do
  addCycles (← runHandler rules 0 0)

/-! ## The meanings -/

/-- SWI: software interrupt, which masks IRQ and FIRQ (R530). -/
def execSwi (s : State) : Outcome := instruction .swi (takeException swiEntry) s

/-- SWI2: software interrupt 2 (R531). -/
def execSwi2 (s : State) : Outcome := instruction .swi2 (takeException swi2Entry) s

/-- SWI3: software interrupt 3 (R532). -/
def execSwi3 (s : State) : Outcome := instruction .swi3 (takeException swi3Entry) s

/-- CWAI: clear CC bits, stack the entire state and wait (R540). -/
def execCwai (mask : Byte) (s : State) : Outcome := instruction (.cwai mask) (clearAndWait mask) s

/-- SYNC: wait for an interrupt request (R542). -/
def execSync (s : State) : Outcome := instruction .sync (modify fun s => s.withWait .sync) s

/-- RTI: return from interrupt (R545). -/
def execRti (s : State) : Outcome := instruction .rti (returnFromException) s

/-- RESET (opcode 0x3E): the machine's `reset_op` with its own cost: a no-op of 2 cycles, the reset sequence at no cost, or
a machine's handler (R550; log 15). -/
def execReset (s : State) : Outcome :=
  match s.cfg.resetOp with
  | .nop => instruction .reset (addCycles 2) s
  | .reset => resetStep s
  | .handler rules => instruction .reset (resetHandler rules) s

end Sys2Proof.Machine
end

