-- ==== Sys2Proof/Machine/LoadStore.lean ====
section
/-! DEFINITION. The meanings of loads, stores and load-effective-address (40_load_store.md). -/

namespace Sys2Proof.Machine

/-- `Load8(R, mode)` (40_load_store.md). -/
def load8 (r : Acc) (src : Src8) : M Unit := do
  let v ← operand8 src
  modifyRegs fun g => g.setAcc r v
  modifyCC fun c => c.nz8v0 v

/-- `Load16(R, mode)`; an explicit load of S arms NMI (40_load_store.md, R206; 60_exceptions.md R613). -/
def load16 (r : Reg16) (src : Src16) : M Unit := do
  let v ← operand16 src
  modifyRegs fun g => g.setReg16 r v
  modifyCC fun c => c.nz16v0 v
  armNmi r

/-- `Store8(R)`: the write, then the flags; the destination is not read (40_load_store.md). -/
def store8 (r : Acc) (m : Mem) : M Unit := do
  let ea ← effectiveAddress m
  let v := (← getRegs).acc r
  write8 ea v
  modifyCC fun c => c.nz8v0 v

/-- `Store16(R)`: a register the operand's index update changed is stored as updated (40_load_store.md, 30_encoding.md R142). -/
def store16 (r : Reg16) (m : Mem) : M Unit := do
  let ea ← effectiveAddress m
  let v := (← getRegs).reg16 r
  write16 ea v
  modifyCC fun c => c.nz16v0 v

/-- The register takes the effective address; an explicit load of S arms NMI (40_load_store.md R232, R233). -/
def lea (r : Reg16) (x : Idx) : M Unit := do
  let ea ← effectiveAddress (.idx x)
  modifyRegs fun g => g.setReg16 r ea
  armNmi r

/-- The register takes the effective address and Z says whether it is 0 (40_load_store.md R230, R231). -/
def leaZ (r : Reg16) (x : Idx) : M Unit := do
  let ea ← effectiveAddress (.idx x)
  modifyRegs fun g => g.setReg16 r ea
  modifyCC fun c => { c with z := ea == 0 }

/-- LDA: load A (R200). -/
def execLda (src : Src8) (s : State) : Outcome := instruction (.lda src) (load8 .a src) s

/-- LDB: load B (R201). -/
def execLdb (src : Src8) (s : State) : Outcome := instruction (.ldb src) (load8 .b src) s

/-- LDD: load D (R202). -/
def execLdd (src : Src16) (s : State) : Outcome := instruction (.ldd src) (load16 .d src) s

/-- LDX: load X (R203). -/
def execLdx (src : Src16) (s : State) : Outcome := instruction (.ldx src) (load16 .x src) s

/-- LDY: load Y (R204). -/
def execLdy (src : Src16) (s : State) : Outcome := instruction (.ldy src) (load16 .y src) s

/-- LDU: load U (R205). -/
def execLdu (src : Src16) (s : State) : Outcome := instruction (.ldu src) (load16 .u src) s

/-- LDS: load S, which arms NMI (R206). -/
def execLds (src : Src16) (s : State) : Outcome := instruction (.lds src) (load16 .s src) s

/-- STA: store A (R210). -/
def execSta (m : Mem) (s : State) : Outcome := instruction (.sta m) (store8 .a m) s

/-- STB: store B (R211). -/
def execStb (m : Mem) (s : State) : Outcome := instruction (.stb m) (store8 .b m) s

/-- STD: store D (R212). -/
def execStd (m : Mem) (s : State) : Outcome := instruction (.std m) (store16 .d m) s

/-- STX: store X (R213). -/
def execStx (m : Mem) (s : State) : Outcome := instruction (.stx m) (store16 .x m) s

/-- STY: store Y (R214). -/
def execSty (m : Mem) (s : State) : Outcome := instruction (.sty m) (store16 .y m) s

/-- STU: store U (R215). -/
def execStu (m : Mem) (s : State) : Outcome := instruction (.stu m) (store16 .u m) s

/-- STS: store S (R216). -/
def execSts (m : Mem) (s : State) : Outcome := instruction (.sts m) (store16 .s m) s

/-- LEAX: load X with an effective address; Z from it (R230). -/
def execLeax (x : Idx) (s : State) : Outcome := instruction (.leax x) (leaZ .x x) s

/-- LEAY: load Y with an effective address; Z from it (R231). -/
def execLeay (x : Idx) (s : State) : Outcome := instruction (.leay x) (leaZ .y x) s

/-- LEAS: load S with an effective address; no flags, arms NMI (R232). -/
def execLeas (x : Idx) (s : State) : Outcome := instruction (.leas x) (lea .s x) s

/-- LEAU: load U with an effective address; no flags (R233). -/
def execLeau (x : Idx) (s : State) : Outcome := instruction (.leau x) (lea .u x) s

end Sys2Proof.Machine
end

