-- ==== Sys2Proof/Machine/Logic.lean ====
section
/-! DEFINITION. The meanings of the logical operations and of ANDCC and ORCC (42_logical_cc.md). -/

namespace Sys2Proof.Machine

/-- `Logic8(R, op, mode, true)` (42_logical_cc.md). -/
def logicInto (r : Acc) (op : Byte → Byte → Byte) (src : Src8) : M Unit := do
  let m ← operand8 src
  let v := op ((← getRegs).acc r) m
  modifyRegs fun g => g.setAcc r v
  modifyCC fun c => c.nz8v0 v

/-- `Logic8(R, &, mode, false)`: "AND without writeback" (42_logical_cc.md R306). -/
def bitTest (r : Acc) (src : Src8) : M Unit := do
  let m ← operand8 src
  let v := (← getRegs).acc r &&& m
  modifyCC fun c => c.nz8v0 v

/-- ANDA: AND into A (R300). -/
def execAnda (src : Src8) (s : State) : Outcome := instruction (.anda src) (logicInto .a (fun a m => a &&& m) src) s

/-- ANDB: AND into B (R301). -/
def execAndb (src : Src8) (s : State) : Outcome := instruction (.andb src) (logicInto .b (fun a m => a &&& m) src) s

/-- ORA: inclusive OR into A (R302). -/
def execOra (src : Src8) (s : State) : Outcome := instruction (.ora src) (logicInto .a (fun a m => a ||| m) src) s

/-- ORB: inclusive OR into B (R303). -/
def execOrb (src : Src8) (s : State) : Outcome := instruction (.orb src) (logicInto .b (fun a m => a ||| m) src) s

/-- EORA: exclusive OR into A (R304). -/
def execEora (src : Src8) (s : State) : Outcome := instruction (.eora src) (logicInto .a (fun a m => a ^^^ m) src) s

/-- EORB: exclusive OR into B (R305). -/
def execEorb (src : Src8) (s : State) : Outcome := instruction (.eorb src) (logicInto .b (fun a m => a ^^^ m) src) s

/-- BITA: bit test A (R306). -/
def execBita (src : Src8) (s : State) : Outcome := instruction (.bita src) (bitTest .a src) s

/-- BITB: bit test B (R307). -/
def execBitb (src : Src8) (s : State) : Outcome := instruction (.bitb src) (bitTest .b src) s

/-- ANDCC: AND an immediate into CC (R310). -/
def execAndcc (mask : Byte) (s : State) : Outcome :=
  instruction (.andcc mask) (modifyCC fun c => CC.ofByte (c.toByte &&& mask)) s

/-- ORCC: OR an immediate into CC (R311). -/
def execOrcc (mask : Byte) (s : State) : Outcome :=
  instruction (.orcc mask) (modifyCC fun c => CC.ofByte (c.toByte ||| mask)) s

end Sys2Proof.Machine
end

