-- ==== Sys2Proof/Machine/MiscAlu.lean ====
section
/-! DEFINITION. The meanings of MUL, DAA, SEX, ABX, TFR, EXG and NOP (44_misc_alu.md). -/

namespace Sys2Proof.Machine

/-- The product goes to D; Z and C come from it (44_misc_alu.md R400). -/
def mulAB : M Unit := do
  let r ← getRegs
  modifyCC fun c => c.mul r.a r.b
  modifyRegs fun g => g.setD (mulResult r.a r.b)

/-- The correction of DAA; V is undefined (44_misc_alu.md R405, 10_state.md R52). -/
def decimalAdjust : M Unit := do
  let r ← getRegs
  let v ← undefFlag r.cc.v
  modifyRegs fun g => { g with a := daaResult r.cc r.a }
  modifyCC fun c => c.daa r.a v

/-- A becomes B's sign; N and Z come from D (44_misc_alu.md R410). -/
def signExtendB : M Unit := do
  modifyRegs fun g => { g with a := if bit7 g.b then 0xFF else 0x00 }
  modifyRegs fun g => g.setCC (g.cc.nz16 g.d)

/-- TFR (44_misc_alu.md R421). -/
def transfer (src dst : Sel) : M Unit := do
  let r ← getRegs
  writeSel dst (readSel r src)

/-- EXG: both are read before either is written, and the second is written last (44_misc_alu.md R422). -/
def exchange (r1 r2 : Sel) : M Unit := do
  let r ← getRegs
  writeSel r1 (readSel r r2)
  writeSel r2 (readSel r r1)

/-- MUL: unsigned multiply A by B into D (R400). -/
def execMul (s : State) : Outcome := instruction .mul (mulAB) s

/-- DAA: decimal adjust A (R405). -/
def execDaa (s : State) : Outcome := instruction .daa (decimalAdjust) s

/-- SEX: sign-extend B into A (R410). -/
def execSex (s : State) : Outcome := instruction .sex (signExtendB) s

/-- ABX: add B to X, unsigned; no flags (R415). -/
def execAbx (s : State) : Outcome := instruction .abx (modifyRegs fun r => { r with x := r.x + zext8 r.b }) s

/-- TFR: transfer a register to a register (R421). -/
def execTfr (src dst : Sel) (s : State) : Outcome := instruction (.tfr src dst) (transfer src dst) s

/-- EXG: exchange two registers (R422). -/
def execExg (r1 r2 : Sel) (s : State) : Outcome := instruction (.exg r1 r2) (exchange r1 r2) s

/-- NOP: no operation (R430). -/
def execNop (s : State) : Outcome := instruction .nop (return ()) s

end Sys2Proof.Machine
end

