-- ==== Sys2Proof/Machine/ShiftUnary.lean ====
section
/-! DEFINITION. The meanings of shifts, rotates and single-operand operations on A, on B and on a memory byte (43_shift_unary.md). -/

namespace Sys2Proof.Machine

/-- `OnA(f)` and `OnB(f)` (43_shift_unary.md section 0). -/
def onAcc (f : Byte → M Byte) (r : Acc) : M Unit := do
  let v ← f ((← getRegs).acc r)
  modifyRegs fun g => g.setAcc r v

/-- `OnMem(f)`: one read and one write at EA; a fault on the write leaves the flags computed (43_shift_unary.md section 0). -/
def onMem (f : Byte → M Byte) (m : Mem) : M Unit := do
  let ea ← effectiveAddress m
  let v ← f (← read8 ea)
  write8 ea v

/-- `ClrMem`: the flags, then the write; no read (43_shift_unary.md section 0, R376). -/
def clearMem (m : Mem) : M Unit := do
  let ea ← effectiveAddress m
  let v ← clr8 0
  write8 ea v

/-- `TST8` of an accumulator (43_shift_unary.md R380, R381). -/
def testAcc (r : Acc) : M Unit := do
  tst8 ((← getRegs).acc r)

/-- `TstMem`: a read and no write (43_shift_unary.md section 0, R382). -/
def testMem (m : Mem) : M Unit := do
  let ea ← effectiveAddress m
  tst8 (← read8 ea)

/-- ASRA: arithmetic shift right, A (R350). -/
def execAsra (s : State) : Outcome := instruction .asra (onAcc asr8 .a) s

/-- ASRB: arithmetic shift right, B (R351). -/
def execAsrb (s : State) : Outcome := instruction .asrb (onAcc asr8 .b) s

/-- ASR: arithmetic shift right, a memory byte (R352). -/
def execAsr (m : Mem) (s : State) : Outcome := instruction (.asr m) (onMem asr8 m) s

/-- LSRA: logical shift right, A (R353). -/
def execLsra (s : State) : Outcome := instruction .lsra (onAcc lsr8 .a) s

/-- LSRB: logical shift right, B (R354). -/
def execLsrb (s : State) : Outcome := instruction .lsrb (onAcc lsr8 .b) s

/-- LSR: logical shift right, a memory byte (R355). -/
def execLsr (m : Mem) (s : State) : Outcome := instruction (.lsr m) (onMem lsr8 m) s

/-- ASLA: shift left (LSL), A (R356). -/
def execAsla (s : State) : Outcome := instruction .asla (onAcc asl8 .a) s

/-- ASLB: shift left (LSL), B (R357). -/
def execAslb (s : State) : Outcome := instruction .aslb (onAcc asl8 .b) s

/-- ASL: shift left (LSL), a memory byte (R358). -/
def execAsl (m : Mem) (s : State) : Outcome := instruction (.asl m) (onMem asl8 m) s

/-- ROLA: rotate left through C, A (R359). -/
def execRola (s : State) : Outcome := instruction .rola (onAcc rol8 .a) s

/-- ROLB: rotate left through C, B (R360). -/
def execRolb (s : State) : Outcome := instruction .rolb (onAcc rol8 .b) s

/-- ROL: rotate left through C, a memory byte (R361). -/
def execRol (m : Mem) (s : State) : Outcome := instruction (.rol m) (onMem rol8 m) s

/-- RORA: rotate right through C, A (R362). -/
def execRora (s : State) : Outcome := instruction .rora (onAcc ror8 .a) s

/-- RORB: rotate right through C, B (R363). -/
def execRorb (s : State) : Outcome := instruction .rorb (onAcc ror8 .b) s

/-- ROR: rotate right through C, a memory byte (R364). -/
def execRor (m : Mem) (s : State) : Outcome := instruction (.ror m) (onMem ror8 m) s

/-- INCA: increment, A (R365). -/
def execInca (s : State) : Outcome := instruction .inca (onAcc inc8 .a) s

/-- INCB: increment, B (R366). -/
def execIncb (s : State) : Outcome := instruction .incb (onAcc inc8 .b) s

/-- INC: increment, a memory byte (R367). -/
def execInc (m : Mem) (s : State) : Outcome := instruction (.inc m) (onMem inc8 m) s

/-- DECA: decrement, A (R368). -/
def execDeca (s : State) : Outcome := instruction .deca (onAcc dec8 .a) s

/-- DECB: decrement, B (R369). -/
def execDecb (s : State) : Outcome := instruction .decb (onAcc dec8 .b) s

/-- DEC: decrement, a memory byte (R370). -/
def execDec (m : Mem) (s : State) : Outcome := instruction (.dec m) (onMem dec8 m) s

/-- NEGA: negate, A (R371). -/
def execNega (s : State) : Outcome := instruction .nega (onAcc neg8 .a) s

/-- NEGB: negate, B (R372). -/
def execNegb (s : State) : Outcome := instruction .negb (onAcc neg8 .b) s

/-- NEG: negate, a memory byte (R373). -/
def execNeg (m : Mem) (s : State) : Outcome := instruction (.neg m) (onMem neg8 m) s

/-- CLRA: clear A (R374). -/
def execClra (s : State) : Outcome := instruction .clra (onAcc clr8 .a) s

/-- CLRB: clear B (R375). -/
def execClrb (s : State) : Outcome := instruction .clrb (onAcc clr8 .b) s

/-- CLR: clear a memory byte, which is not read (R376). -/
def execClr (m : Mem) (s : State) : Outcome := instruction (.clr m) (clearMem m) s

/-- COMA: complement A (R377). -/
def execComa (s : State) : Outcome := instruction .coma (onAcc com8 .a) s

/-- COMB: complement B (R378). -/
def execComb (s : State) : Outcome := instruction .comb (onAcc com8 .b) s

/-- COM: complement a memory byte (R379). -/
def execCom (m : Mem) (s : State) : Outcome := instruction (.com m) (onMem com8 m) s

/-- TSTA: test A (R380). -/
def execTsta (s : State) : Outcome := instruction .tsta (testAcc .a) s

/-- TSTB: test B (R381). -/
def execTstb (s : State) : Outcome := instruction .tstb (testAcc .b) s

/-- TST: test a memory byte, which is not written (R382). -/
def execTst (m : Mem) (s : State) : Outcome := instruction (.tst m) (testMem m) s

end Sys2Proof.Machine
end

