-- ==== Sys2Proof/Machine/Stack.lean ====
section
/-! DEFINITION. The meanings of PSHS, PULS, PSHU and PULU (46_stack.md). -/

namespace Sys2Proof.Machine

/-- The other stack pointer, which mask bit 6 names (30_encoding.md R165). -/
def Stk.other : Stk → Reg16
  | .s => .u
  | .u => .s

/-- The computation runs if bit `k` of the mask is set. -/
def whenBit (m : Byte) (k : Nat) (act : M Unit) : M Unit := if m.getLsbD k then act else return ()

/-- `PushMask(SP, OTHER, m)` (46_stack.md). -/
def pushMask (k : Stk) (m : Byte) : M Unit := do
  whenBit m 7 (do push16 k (← getRegs).pc)
  whenBit m 6 (do push16 k ((← getRegs).reg16 (Stk.other k)))
  whenBit m 5 (do push16 k (← getRegs).y)
  whenBit m 4 (do push16 k (← getRegs).x)
  whenBit m 3 (do push8 k (← getRegs).dp)
  whenBit m 2 (do push8 k (← getRegs).b)
  whenBit m 1 (do push8 k (← getRegs).a)
  whenBit m 0 (do push8 k (← getRegs).cc.toByte)

/-- Pull a byte and give it to the registers. -/
def pull8Into (k : Stk) (f : Regs → Byte → Regs) : M Unit := do
  let v ← pull8 k
  modifyRegs fun r => f r v

/-- Pull a word and give it to the registers. -/
def pull16Into (k : Stk) (f : Regs → Word → Regs) : M Unit := do
  let v ← pull16 k
  modifyRegs fun r => f r v

/-- `PullMask(SP, OTHER, m)`, the reverse order; PULU of S then arms NMI (46_stack.md R511, R513; 60_exceptions.md R613). -/
def pullMask (k : Stk) (m : Byte) : M Unit := do
  whenBit m 0 (pull8Into k fun r v => r.setCC (CC.ofByte v))
  whenBit m 1 (pull8Into k fun r v => { r with a := v })
  whenBit m 2 (pull8Into k fun r v => { r with b := v })
  whenBit m 3 (pull8Into k fun r v => { r with dp := v })
  whenBit m 4 (pull16Into k fun r v => { r with x := v })
  whenBit m 5 (pull16Into k fun r v => { r with y := v })
  whenBit m 6 (pull16Into k fun r v => r.setReg16 (Stk.other k) v)
  whenBit m 7 (pull16Into k fun r v => r.setPc v)
  whenBit m 6 (armNmi (Stk.other k))

/-- PSHS: push registers on the system stack (R510). -/
def execPshs (mask : Byte) (s : State) : Outcome := instruction (.pshs mask) (pushMask .s mask) s

/-- PULS: pull registers from the system stack (R511). -/
def execPuls (mask : Byte) (s : State) : Outcome := instruction (.puls mask) (pullMask .s mask) s

/-- PSHU: push registers on the user stack (R512). -/
def execPshu (mask : Byte) (s : State) : Outcome := instruction (.pshu mask) (pushMask .u mask) s

/-- PULU: pull registers from the user stack; pulling S arms NMI (R513). -/
def execPulu (mask : Byte) (s : State) : Outcome := instruction (.pulu mask) (pullMask .u mask) s

end Sys2Proof.Machine
end

