-- ==== Sys2Proof/Machine/Cpu.lean ====
section
/-! DEFINITION. The CPU's one transition: fetching and running an instruction, interrupt entries, and the wait states
(30_encoding.md R130 to R133, R147; 60_exceptions.md R601, R612 to R614, R621 to R624, R640 to R642). -/

namespace Sys2Proof.Machine

/-! ## Fetching (30_encoding.md R130, R131) -/

/-- `FetchByte()` (30_encoding.md R131). -/
def fetchByte : M Byte := do
  let v ← read8 (← getRegs).pc
  modifyRegs fun r => r.setPc (r.pc + 1)
  return v

/-- `FetchWord()`, as the two bytes it reads (30_encoding.md R131). -/
def fetchWord : M (List Byte) := do
  let v ← read16 (← getRegs).pc
  modifyRegs fun r => r.setPc (r.pc + 2)
  return [highByte v, lowByte v]

/-- The opcode number: one byte, or a prefix and the byte after it (30_encoding.md R130, R133; 47_interrupt_ops.md R555). -/
def fetchOpcode : M Nat := do
  let b0 ← fetchByte
  if isPrefix b0 then
    let b1 ← fetchByte
    return pagedOpcode b0 b1
  else return b0.toNat

/-- The offset bytes a post-byte asks for (30_encoding.md R141, R143). -/
def fetchOffset : Offset → M (List Byte)
  | .none => return []
  | .byte => do return [← fetchByte]
  | .word => fetchWord

/-- The operand bytes of a form, each fetched as the byte or the word the spec fetches (30_encoding.md R132, R135 to R141). -/
def fetchOperand : Form → M (List Byte)
  | .inh _ => return []
  | .byte _ => do return [← fetchByte]
  | .word _ => fetchWord
  | .idx _ => do
    let pb ← fetchByte
    let offset ← fetchOffset (offsetOf pb)
    return pb :: offset

/-- UnknownOpcode: the fault is recorded at the opcode's address; only its bytes have been fetched (30_encoding.md R147,
60_exceptions.md R600). -/
def unknownOpcode (pc : Word) (op : Nat) (s : State) : Outcome :=
  .next (s.recordFault .unknownOpcode pc (.opcode pc op))

/-- `ExecuteOne()`: fetch the opcode, look its row up, fetch the operand bytes, decode, and run the instruction's meaning
(30_encoding.md R133). An error in a fetch ends the step faulted (60_exceptions.md R602). -/
def executeOne (s : State) : Outcome :=
  match fetchOpcode s with
  | .error e s1 => endFaulted s.regs.pc none e s1
  | .ok op s1 =>
    match formOf op with
    | none => unknownOpcode s.regs.pc op s1
    | some form =>
      match fetchOperand form s1 with
      | .error e s2 => endFaulted s.regs.pc (some op) e s2
      | .ok bytes s2 =>
        match decode (opcodeBytes op ++ bytes) with
        | some (i, _) => exec i s2
        | none => unknownOpcode s.regs.pc op s2

/-! ## Interrupts (60_exceptions.md sections 2 and 3) -/

def State.nmiPending (s : State) : Bool := s.lines.nmiLatch && s.nmiArmed

def State.firqPending (s : State) : Bool := s.lines.firq && !s.regs.cc.f

def State.irqPending (s : State) : Bool := s.lines.irq && !s.regs.cc.i

/-- The highest pending request, NMI before FIRQ before IRQ (60_exceptions.md R612, R614). -/
def State.pending (s : State) : Option Irq :=
  if s.nmiPending then some .nmi
  else if s.firqPending then some .firq
  else if s.irqPending then some .irq
  else none

/-- The vector of a hardware interrupt (20_memory.md R100). -/
def Irq.vector : Irq → Word
  | .nmi => 0xFFFC
  | .firq => 0xFFF6
  | .irq => 0xFFF8

/-- The frame of a hardware interrupt (60_exceptions.md R621 to R623). -/
def Irq.frame : Irq → Frame
  | .nmi | .irq => .entire
  | .firq => .fast

/-- FIRQ and NMI set F as well as I (60_exceptions.md R621 to R624). -/
def Irq.setsF : Irq → Bool
  | .nmi | .firq => true
  | .irq => false

/-- The entry of a hardware interrupt over a frame (60_exceptions.md R621 to R624). -/
def Irq.entry (k : Irq) (frame : Frame) : Entry :=
  { frame := frame, setI := true, setF := k.setsF, vector := k.vector, ack := some k }

/-- The cost of an interrupt entry (70_reset_and_hazards.md R730, R731). -/
def Irq.cycles : Irq → Nat
  | .nmi | .irq => 19
  | .firq => 10

/-- NMI entry clears the latch; the lines of IRQ and FIRQ are the devices' (60_exceptions.md R610, R623, R624). -/
def clearLatch : Irq → M Unit
  | .nmi => modify fun s => s.withLines { s.lines with nmiLatch := false }
  | .firq | .irq => return ()

/-- An ordinary entry and its cost (60_exceptions.md R621 to R623). -/
def interruptEntry (k : Irq) : M Unit := do
  clearLatch k
  takeException (k.entry k.frame)
  addCycles k.cycles

/-- The entry that ends a CWAI wait: nothing is pushed, E stays (60_exceptions.md R624). -/
def cwaiEntry (k : Irq) : M Unit := do
  clearLatch k
  takeException (k.entry .stacked)
  modify fun s => s.withWait .none
  addCycles (← get).cfg.cwaiEntryCycles

/-- A step that is an entry; an error in it is recorded at the PC of the boundary (60_exceptions.md R601). -/
def entryStep (entry : M Unit) (s : State) : Outcome :=
  match entry s with
  | .ok _ s' => .next s'
  | .error e s' => endFaulted s.regs.pc none e s'

/-! ## The step (60_exceptions.md R640) -/

/-- The part of `CpuStep` outside the waits: the highest pending interrupt, or the next instruction (60_exceptions.md R640). -/
def serve (s : State) : Outcome :=
  match s.pending with
  | some k => entryStep (interruptEntry k) s
  | none => executeOne s

/-- `CwaiStep()`: an unmasked request ends the wait; otherwise an idle cycle (60_exceptions.md R641). -/
def cwaiStep (s : State) : Outcome :=
  match s.pending with
  | some k => entryStep (cwaiEntry k) s
  | none => .next (s.addCycles 1)

/-- An NMI that ends a SYNC wait: a pending one (60_exceptions.md R640, R642), or the latch alone (47_interrupt_ops.md R542), as
the machine's parameter chooses. DESIGN CHOICE, log 22. -/
def State.syncNmiEnds (s : State) : Bool :=
  match s.cfg.syncNmi with
  | .armed => s.nmiPending
  | .latched => s.lines.nmiLatch

/-- A request that ends a SYNC wait, masked or not (60_exceptions.md R642, 47_interrupt_ops.md R542). -/
def State.syncEnds (s : State) : Bool := s.syncNmiEnds || s.lines.firq || s.lines.irq

/-- The SYNC wait: an idle cycle, or the wait ends and this step goes on (60_exceptions.md R640, R642). -/
def syncStep (s : State) : Outcome :=
  if s.syncEnds then serve (s.withWait .none) else .next (s.addCycles 1)

/-- `CpuStep()` (60_exceptions.md R640). A faulted CPU takes no step (R601). -/
def cpuStep (s : State) : Outcome :=
  match s.fault with
  | some _ => .fault .cpuHalted
  | none =>
    match s.wait with
    | .none => serve s
    | .cwai => cwaiStep s
    | .sync => syncStep s

end Sys2Proof.Machine
end

