-- ==== Sys2Proof/Machine/Scheduler.lean ====
section
/-! DEFINITION. The scheduler's boundaries, the host's moves, construction and snapshots (60_exceptions.md sections 6 to 8;
70_reset_and_hazards.md R700 to R704; 10_state.md R54). -/

namespace Sys2Proof.Machine

/-! ## Sync callbacks (60_exceptions.md R661) -/

/-- Call `i` of the list fires if at least its period has passed since its last call; its call is then recorded. Where
`cycles` has been set back behind the last call, it does not fire, whatever its period, as R661's pseudocode says. DEDUCED,
log 24. -/
def fireSync (i : Nat) (cb : SyncCallback) : M Unit := do
  let s ← get
  if cellAt s.sched.lastCall i + cb.period ≤ s.cycles then
    let _ ← runCallback cb.script { value := s.cycles - cellAt s.sched.lastCall i, cycles := s.cycles }
    modify fun t => t.withSched { t.sched with lastCall := setCellAt t.sched.lastCall i t.cycles }
  else return ()

/-- `FireSyncCallbacks()` from entry `i` on, in registration order. -/
def fireSyncs : Nat → List SyncCallback → M Unit
  | _, [] => return ()
  | i, cb :: rest => do
    fireSync i cb
    fireSyncs (i + 1) rest

/-! ## Host requests (60_exceptions.md R684) -/

/-- The run `[a, a + n)` stays inside the address space (20_memory.md R83). -/
def fitsSpace (a : Word) (n : Nat) : Bool := decide (a.toNat + n ≤ 65536)

/-- `n` bytes from an address on, as the bus would give them without callbacks (60_exceptions.md R684). -/
def peekBytes (s : State) (a : Word) : Nat → List Byte
  | 0 => []
  | n + 1 => s.backing a :: peekBytes s (a + 1) n

/-- One request answered: a poke writes the store in any region, or nothing at all (60_exceptions.md R684). A peek past
0xFFFF answers OutOfRange too (log 14). -/
def serveRequest (r : Request) (s : State) : State :=
  match r with
  | .peek a n =>
    if fitsSpace a n then s.withHost { s.host with respQ := s.host.respQ ++ [.bytes (peekBytes s a n)] }
    else s.withHost { s.host with respQ := s.host.respQ ++ [.outOfRange] }
  | .poke a bytes =>
    if fitsSpace a bytes.length && bytes.all (fun b => decide (b ≤ 0xFF)) then
      (s.withMem (s.mem.load a.toNat (bytes.map (BitVec.ofNat 8)))).withHost
        { s.host with respQ := s.host.respQ ++ [.done] }
    else s.withHost { s.host with respQ := s.host.respQ ++ [.outOfRange] }

/-- Every request, oldest first (60_exceptions.md R684). -/
def serveRequests (rs : List Request) (s : State) : State := rs.foldl (fun t r => serveRequest r t) s

/-- `ServeHostRequests()`: the queue is emptied (60_exceptions.md R684). -/
def State.serveHost (s : State) : State :=
  serveRequests s.host.reqQ (s.withHost { s.host with reqQ := [] })

/-- `PostStatus()`: latest wins (60_exceptions.md R682). -/
def State.postStatus (s : State) : State :=
  s.withHost { s.host with statusQ := some ⟨s.cycles, s.regs.pc, s.regs.cc⟩ }

/-! ## Boundaries and bursts (60_exceptions.md R662, R663) -/

/-- The burst after a boundary: a drawn length of at least 1 if the run goes on, the end of the run if not
(60_exceptions.md R662, R665). Log 3. -/
def State.nextBurst (s : State) : State :=
  if s.sched.running then
    (s.withSched { s.sched with phase := .burst (Config.freeBurst s.draws + 1) }).drawn 1
  else s.withSched { s.sched with phase := .ended }

/-- `Boundary()`: sync callbacks, host requests, status; then the loop tests `running` (60_exceptions.md R663). -/
def boundary : M Unit := do
  fireSyncs 0 (← get).cfg.syncCallbacks
  modify fun s => (s.serveHost.postStatus).nextBurst

/-- A boundary that a failing sync callback ends: the fault is recorded at the PC of the boundary, what follows in the
boundary is not done, and the run ends (60_exceptions.md R601, R661). Log 16. -/
def endRun : Outcome → Outcome
  | .next s => .next (s.withSched { s.sched with phase := .ended })
  | .fault r => .fault r
  | .refused r => .refused r

/-- The boundary as a step of its own. -/
def boundaryStep (s : State) : Outcome :=
  match boundary s with
  | .ok _ s' => .next s'
  | .error e s' => endRun (endFaulted s.regs.pc none e s')

/-- One of the counted steps of a burst or of a bounded run, with the phase that is then left; a faulted CPU takes none, and
its turn passes (60_exceptions.md R662, "if fault == none: CpuStep()"). -/
def countedStep (left : Phase) (s : State) : Outcome :=
  let t := s.withSched { s.sched with phase := left }
  match s.fault with
  | some _ => .next t
  | none => cpuStep t

/-- The CPU's and scheduler's turn, by the phase (60_exceptions.md R662, R665). -/
def turn (s : State) : Outcome :=
  match s.sched.phase with
  | .stepped => cpuStep s
  | .bounded (n + 1) => countedStep (.bounded n) s
  | .burst (n + 1) => countedStep (.burst n) s
  | .burst 0 => boundaryStep s
  | .bounded 0 | .ended => .fault .runEnded

/-! ## Snapshots (10_state.md R54, 70_reset_and_hazards.md R704) -/

/-- The address exists and lies in the RAM window (20_memory.md R82). -/
def inRam (cfg : Params) (a : Nat) : Bool := decide (a < 65536) && (region cfg (BitVec.ofNat 16 a) == .ram)

/-- The entries of a memory in the RAM window. -/
def ramPart (cfg : Params) (m : Memory) : Memory := m.filter fun cell => inRam cfg cell.1

/-- The entries of a memory outside the RAM window. -/
def restPart (cfg : Params) (m : Memory) : Memory := m.filter fun cell => !inRam cfg cell.1

/-- The machine is at a boundary, "the point after a burst where sync callbacks and host requests are served"
(00_scope.md R17). -/
def State.atBoundary (s : State) : Bool := s.sched.phase == .burst 0

/-- The snapshot of a machine that is at a boundary and not waiting (10_state.md R54). -/
def State.snapshot (s : State) : Option Snapshot :=
  if s.atBoundary && s.wait == .none then
    some { regs := s.regs, cycles := s.cycles, nmiArmed := s.nmiArmed, ram := ramPart s.cfg s.mem }
  else none

/-- A list of bytes written one after another. -/
def Memory.writeAll : Memory → List Host.Cell → Memory
  | m, [] => m
  | m, (a, v) :: rest => Memory.writeAll (m.write a v) rest

/-- A snapshot restored: the registers, `cycles`, `nmi_armed` and the RAM window are written, the wait and the fault are
cleared, the rest stays (70_reset_and_hazards.md R704). A byte of the snapshot outside the RAM window is not written. -/
def State.restore (s : State) (snap : Snapshot) : State :=
  (((((s.withRegs snap.regs).withCycles snap.cycles).withNmiArmed snap.nmiArmed).withMem
    (Memory.writeAll (restPart s.cfg s.mem) (ramPart s.cfg snap.ram))).withWait .none).withFault none

/-! ## Host moves (60_exceptions.md R673, R681; 70_reset_and_hazards.md R701) -/

/-- One move of the host, between two steps. -/
def hostMove (m : HostMove) (s : State) : Outcome :=
  match m with
  | .keyDown code => .next (s.withHost { s.host with keyQ := s.host.keyQ ++ [code] })
  | .request r => .next (s.withHost { s.host with reqQ := s.host.reqQ ++ [r] })
  | .takeDisplay => .next (s.withHost { s.host with displayQ := s.host.displayQ.tail })
  | .takeStatus => .next (s.withHost { s.host with statusQ := none })
  | .takeResponse => .next (s.withHost { s.host with respQ := s.host.respQ.tail })
  | .stop => .next (s.withSched { s.sched with running := false })
  | .reset => resetStep s
  | .restore snap => .next (s.restore snap)

/-- The start of `RunFree()`: its loop tests `running` first (60_exceptions.md R662). -/
def startFree (s : State) : Outcome := .next s.nextBurst

/-- The start of `RunBounded(K)` (60_exceptions.md R662). -/
def startBounded (steps : Nat) (s : State) : Outcome := .next (s.withSched { s.sched with phase := .bounded steps })

/-- No run is going on: none has started, or the last one has ended (60_exceptions.md R665). -/
def State.idle (s : State) : Bool :=
  match s.sched.phase with
  | .stepped | .bounded 0 | .ended => true
  | .bounded (_ + 1) | .burst _ => false

/-- Whether a turn can come now: a snapshot is restored at a boundary only (70_reset_and_hazards.md R704), a run starts
once no run is going on, and every other turn comes between any two steps (60_exceptions.md R681). Log 8. -/
def Turn.due (s : State) : Turn → Bool
  | .host (.restore _) => s.atBoundary
  | .startFree | .startBounded _ => s.idle
  | .cpu | .host (.keyDown _) | .host (.request _) | .host .takeDisplay | .host .takeStatus | .host .takeResponse
  | .host .stop | .host .reset => true

/-! ## Construction (70_reset_and_hazards.md R702) -/

/-- The windows are ranges and are disjoint (20_memory.md R82). -/
def Params.wf (cfg : Params) : Bool :=
  decide (cfg.ramWindow.lo.toNat ≤ cfg.ramWindow.hi.toNat) && decide (cfg.romWindow.lo.toNat ≤ cfg.romWindow.hi.toNat) &&
    (decide (cfg.ramWindow.hi.toNat < cfg.romWindow.lo.toNat) || decide (cfg.romWindow.hi.toNat < cfg.ramWindow.lo.toNat))

/-- How many addresses the ROM window has. -/
def romSize (cfg : Params) : Nat := cfg.romWindow.hi.toNat - cfg.romWindow.lo.toNat + 1

/-- The machine before its first reset: memory filled, queues empty, lines false (70_reset_and_hazards.md R702). The
registers, CC, the wait, the NMI arming and the fault are the reset that follows' to write; where a fault ends that reset early,
those it has not come to are as in State.reset. DESIGN CHOICE, log 25. -/
def blankMachine (cfg : Params) (mem : Memory) (dev : List Nat) : State :=
  { State.reset with
    cfg := cfg
    mem := mem
    dev := dev
    sched := { lastCall := cfg.syncCallbacks.map fun _ => 0, running := true, phase := .stepped } }

/-- `Construct`, but for the reset it ends with: the RAM contents (`ram_init`, an address not listed is 0), then the ROM
image; refused on windows that overlap and on an image longer than its window (70_reset_and_hazards.md R702, 20_memory.md R82). -/
def construct (cfg : Params) (ramInit : List Host.Cell) (romImage : List Byte) (dev : List Nat) : Option State :=
  if Params.wf cfg && decide (romImage.length ≤ romSize cfg) then
    some (blankMachine cfg
      (Memory.load (Memory.writeAll [] (ramPart cfg ramInit)) cfg.romWindow.lo.toNat romImage) dev)
  else none

/-- Power-up: construction followed by a reset (70_reset_and_hazards.md R701, R702). -/
def powerUp (cfg : Params) (ramInit : List Host.Cell) (romImage : List Byte) (dev : List Nat) : Option Outcome :=
  (construct cfg ramInit romImage dev).map resetStep

/-! ## Loading a program from outside -/

/-- Bytes written to the backing store from an address on, wrapping at the top of the address space (log 10). -/
def State.storeProgram (s : State) (a : Word) : List Byte → State
  | [] => s
  | v :: vs => (s.withMem (s.mem.write a.toNat v)).storeProgram (a + 1) vs

end Sys2Proof.Machine
end

