-- ==== Sys2Proof/Machine/Step.lean ====
section
/-! DEFINITION. The machine's step, and placing an instruction where the step fetches its next one. -/

namespace Sys2Proof.Machine

/-- A turn taken: the CPU's and scheduler's, the host's, or the start of a run (60_exceptions.md R640, R662, R681). -/
def takeTurn (s : State) : Turn → Outcome
  | .cpu => turn s
  | .host m => hostMove m s
  | .startFree => startFree s
  | .startBounded steps => startBounded steps s

/-- One step: the next turn of the agenda, if it can come now, and else, while it waits, the CPU's and scheduler's turn.
Log 8. -/
def step (s : State) : Host.Outcome State Fault Refusal :=
  match s.agenda with
  | [] => turn s
  | t :: rest => if t.due s then takeTurn (s.withAgenda rest) t else turn s

/-- The state with an instruction's five bytes stored where the step fetches: at PC and after it, wrapping at the top of
the address space, directly in the backing store. Log 10, log 11. -/
def State.withFetchWord (s : State) (nbits w : Nat) : State := s.storeProgram s.regs.pc (tableBytes nbits w)

end Sys2Proof.Machine
end

