-- ==== Sys2Proof/Safety.lean ====
section
/-! DEFINITION. The terms claims are stated in: what a safe run is, the invariant of the machine, machines with no bus
callback, and the values and states that the rules of spec/ give an instruction on such a machine, written over the backing
store with no computation that can stop. -/

namespace Sys2Proof.Machine

/-! ## Runs and invariant -/

/-- `k` steps from a state all answer a next state, and no fault is recorded at the end: "A claim about a run takes fault =
none at the end as a premise" (60_exceptions.md R665). -/
def State.SafeRun (s : State) (k : Nat) : Prop :=
  ∃ t : State, Sys2Proof.core.run k s = Host.Outcome.next t ∧ t.fault = none

/-- What every step keeps: the memory is in canonical form, the windows are disjoint ranges (20_memory.md R82), and there
is one last call for each sync callback (60_exceptions.md R660). -/
def State.Inv (s : State) : Prop :=
  Memory.wf s.mem = true ∧ Params.wf s.cfg = true ∧
    s.sched.lastCall.length = s.cfg.syncCallbacks.length

/-- No bus callback is registered at any address, in any of the four maps (20_memory.md R88). -/
def State.Quiet (s : State) : Prop :=
  ∀ a, lookup s.cfg.registry.readByte a = none ∧ lookup s.cfg.registry.writeByte a = none ∧
    lookup s.cfg.registry.readWord a = none ∧ lookup s.cfg.registry.writeWord a = none

/-! ## Callbacks one after another -/

/-- The computations run from s to t, each once, in the order of the list. -/
def RunsInOrder : List (M Unit) → State → State → Prop
  | [], s, t => t = s
  | x :: rest, s, t => ∃ u : State, x s = .ok ⟨⟩ u ∧ RunsInOrder rest u t

/-- The computations run from s, in the order of the list, up to one that stops with this error in this state. -/
def FailsInOrder : List (M Unit) → State → Raise → State → Prop
  | [], _, _, _ => False
  | x :: rest, s, e, t => x s = .error e t ∨ ∃ u : State, x s = .ok ⟨⟩ u ∧ FailsInOrder rest u e t

/-- A callback whose answer nobody looks at. -/
def callOnce (script : Script) (args : CbArgs) : M Unit := do
  let _ ← runCallback script args

/-- The acknowledge calls of an entry, one for each device, in registration order (60_exceptions.md R611). -/
def State.ackCalls (s : State) (k : Irq) : List (M Unit) :=
  s.cfg.devices.map fun d => callOnce d.ack { value := k.code }

/-- The device resets of the reset sequence, in registration order (70_reset_and_hazards.md R700). -/
def State.resetCalls (s : State) : List (M Unit) := s.cfg.devices.map fun d => callOnce d.reset { }

/-- The sync callbacks of a boundary, in registration order (60_exceptions.md R661). -/
def State.syncCalls (s : State) : List (M Unit) := s.cfg.syncCallbacks.zipIdx.map fun e => fireSync e.2 e.1

/-- The state with a PeripheralFault recorded and the run stopped (60_exceptions.md R600, R601). -/
def State.deviceFault (s : State) (pc : Word) (op : Option Nat) (e : Nat) : State :=
  (s.withFault (some ⟨.peripheralFault, pc, .device pc op e⟩)).withSched { s.sched with running := false }

/-! ## Values of a machine with no bus callback -/

/-- The cycles `n` byte transfers of the CPU's add (20_memory.md R98). -/
def accessCost (cfg : Params) (n : Nat) : Nat :=
  match cfg.cyclePolicy with
  | .source => n
  | .datasheet => 0

/-- The word at an address, high byte first, the second address wrapping (20_memory.md R85, R87, R93). -/
def State.word (s : State) (a : Word) : Word := wordOf (s.backing a) (s.backing (a + 1))

/-- The state with a word stored, high byte first (20_memory.md R87, R95, R96). -/
def State.storeWord (s : State) (a v : Word) : State :=
  (s.storeByte a (highByte v)).storeByte (a + 1) (lowByte v)

/-- The address a memory operand resolves to (30_encoding.md R136, R137, R141, R144). -/
def Mem.target (m : Mem) (s : State) : Word :=
  if Mem.indirect m then s.word (Mem.baseEA m s.regs).1 else (Mem.baseEA m s.regs).1

/-- The registers after the index update of a memory operand (30_encoding.md R141). -/
def Mem.after (m : Mem) (r : Regs) : Regs := (Mem.baseEA m r).2

/-- The byte transfers of resolving a memory operand: the indirect read (30_encoding.md R144). -/
def Mem.transfers (m : Mem) : Nat := if Mem.indirect m then 2 else 0

/-- The value of an 8-bit source operand (30_encoding.md R135). -/
def Src8.value (src : Src8) (s : State) : Byte :=
  match src with
  | .imm v => v
  | .mem m => s.backing (Mem.target m s)

/-- The registers after an 8-bit source operand's index update. -/
def Src8.after (src : Src8) (r : Regs) : Regs :=
  match src with
  | .imm _ => r
  | .mem m => Mem.after m r

/-- The byte transfers of reading an 8-bit source operand. -/
def Src8.transfers (src : Src8) : Nat :=
  match src with
  | .imm _ => 0
  | .mem m => Mem.transfers m + 1

/-- The value of a 16-bit source operand (30_encoding.md R135). -/
def Src16.value (src : Src16) (s : State) : Word :=
  match src with
  | .imm v => v
  | .mem m => s.word (Mem.target m s)

/-- The registers after a 16-bit source operand's index update. -/
def Src16.after (src : Src16) (r : Regs) : Regs :=
  match src with
  | .imm _ => r
  | .mem m => Mem.after m r

/-- The byte transfers of reading a 16-bit source operand. -/
def Src16.transfers (src : Src16) : Nat :=
  match src with
  | .imm _ => 0
  | .mem m => Mem.transfers m + 2

/-- The state after an instruction whose body left these registers and made `n` byte transfers: nothing else of the state
has changed, and the transfers' cycles and the cost have been added (20_memory.md R98, 70_reset_and_hazards.md R730). -/
def State.finish (s : State) (i : Instr) (r : Regs) (n : Nat) : State :=
  ((s.withRegs r).addCycles (accessCost s.cfg n)).addCycles (instrCycles i)

/-! ## Frames on a stack -/

/-- The bytes a push mask stacks, from the final stack pointer upward (46_stack.md R510, 60_exceptions.md R620). -/
def frameBytes (k : Stk) (m : Byte) (r : Regs) : List Byte :=
  (if m.getLsbD 0 then [CC.toByte r.cc] else []) ++ ((if m.getLsbD 1 then [r.a] else []) ++
  ((if m.getLsbD 2 then [r.b] else []) ++ ((if m.getLsbD 3 then [r.dp] else []) ++
  ((if m.getLsbD 4 then [highByte r.x, lowByte r.x] else []) ++
  ((if m.getLsbD 5 then [highByte r.y, lowByte r.y] else []) ++
  ((if m.getLsbD 6 then [highByte (r.reg16 (Stk.other k)), lowByte (r.reg16 (Stk.other k))] else []) ++
  (if m.getLsbD 7 then [highByte r.pc, lowByte r.pc] else [])))))))

/-- What the bus reads at an address once these bytes have been stored from `base` upward, wrapping: the byte where it
landed in RAM, and the old byte elsewhere (20_memory.md R87, R95). -/
def State.overlay (s : State) (base : Word) (bytes : List Byte) (a : Word) : Byte :=
  if region s.cfg a = .ram then (bytes[(a - base).toNat]?).getD (s.backing a) else s.backing a

/-- How far above the stack pointer a pull finds the register of mask bit `k` (46_stack.md, `PullMask`). -/
def pullOffset (m : Byte) (k : Nat) : Word := BitVec.ofNat 16 (maskBytes (m &&& BitVec.ofNat 8 (2 ^ k - 1)))

/-- The byte a pull finds for mask bit `k`. -/
def State.pullByte (s : State) (st : Stk) (m : Byte) (k : Nat) : Byte :=
  s.backing (s.regs.sp st + pullOffset m k)

/-- The word a pull finds for mask bit `k`. -/
def State.pullWord (s : State) (st : Stk) (m : Byte) (k : Nat) : Word :=
  s.word (s.regs.sp st + pullOffset m k)

/-- The stack pointer has moved up over the bytes a mask pulls, and every register the mask names holds what the pull
found for it (46_stack.md, `PullMask`). -/
def pulledRegs (s : State) (st : Stk) (m : Byte) : Regs :=
  let r := s.regs
  let moved := r.sp st + BitVec.ofNat 16 (maskBytes m)
  { cc := if m.getLsbD 0 then CC.ofByte (s.pullByte st m 0) else r.cc
    a := if m.getLsbD 1 then s.pullByte st m 1 else r.a
    b := if m.getLsbD 2 then s.pullByte st m 2 else r.b
    dp := if m.getLsbD 3 then s.pullByte st m 3 else r.dp
    x := if m.getLsbD 4 then s.pullWord st m 4 else r.x
    y := if m.getLsbD 5 then s.pullWord st m 5 else r.y
    s := match st with
      | .s => moved
      | .u => if m.getLsbD 6 then s.pullWord st m 6 else r.s
    u := match st with
      | .s => if m.getLsbD 6 then s.pullWord st m 6 else r.u
      | .u => moved
    pc := if m.getLsbD 7 then s.pullWord st m 7 else r.pc }

/-! ## Which registers an instruction may write -/

/-- The registers of 10_state.md R30, D aside, which is A and B. -/
inductive RegName where
  | a | b | dp | cc | x | y | u | s | pc
deriving DecidableEq, Repr

/-- The value a register holds, as a number. -/
def Regs.value (r : Regs) : RegName → Nat
  | .a => r.a.toNat
  | .b => r.b.toNat
  | .dp => r.dp.toNat
  | .cc => (CC.toByte r.cc).toNat
  | .x => r.x.toNat
  | .y => r.y.toNat
  | .u => r.u.toNat
  | .s => r.s.toNat
  | .pc => r.pc.toNat

def IdxReg.name : IdxReg → RegName
  | .x => .x
  | .y => .y
  | .u => .u
  | .s => .s

/-- The index register an operand moves: that of an auto-increment or auto-decrement (30_encoding.md R140). -/
def Idx.moved : Idx → List RegName
  | .mode r _ .inc1 | .mode r _ .inc2 | .mode r _ .dec1 | .mode r _ .dec2 => [IdxReg.name r]
  | .off5 _ _ => []
  | .mode _ _ .zero | .mode _ _ .accB | .mode _ _ .accA | .mode _ _ (.off8 _) | .mode _ _ (.off16 _) | .mode _ _ .accD
  | .mode _ _ (.pcr8 _) | .mode _ _ (.pcr16 _) | .mode _ _ (.extInd _) | .mode _ _ (.reserved _) => []

def Mem.moved : Mem → List RegName
  | .idx x => Idx.moved x
  | .dir _ | .ext _ => []

def Src8.moved : Src8 → List RegName
  | .mem m => Mem.moved m
  | .imm _ => []

def Src16.moved : Src16 → List RegName
  | .mem m => Mem.moved m
  | .imm _ => []

/-- The registers a write of a selector reaches (30_encoding.md R160, R161). -/
def Sel.written : Sel → List RegName
  | .d => [.a, .b]
  | .x => [.x]
  | .y => [.y]
  | .u => [.u]
  | .s => [.s]
  | .pc => [.pc]
  | .a => [.a]
  | .b => [.b]
  | .cc => [.cc]
  | .dp => [.dp]
  | .sink _ => []

/-- The registers a pull mask names, with the other stack pointer (30_encoding.md R165). -/
def maskNames (other : RegName) (m : Byte) : List RegName :=
  [(0, .cc), (1, .a), (2, .b), (3, .dp), (4, .x), (5, .y), (6, other), (7, .pc)].filterMap fun e =>
    if m.getLsbD e.1 then some e.2 else none

/-- The registers an instruction may write, by the instruction files of spec/ (40_load_store.md to 47_interrupt_ops.md);
every other register it leaves alone. Opcode 0x3E under `nop` writes none. -/
def written (i : Instr) : List RegName :=
  match i with
  | .lda src | .adda src | .adca src | .suba src | .sbca src | .anda src | .ora src | .eora src =>
    [.a, .cc] ++ Src8.moved src
  | .ldb src | .addb src | .adcb src | .subb src | .sbcb src | .andb src | .orb src | .eorb src =>
    [.b, .cc] ++ Src8.moved src
  | .cmpa src | .cmpb src | .bita src | .bitb src => [.cc] ++ Src8.moved src
  | .ldd src | .addd src | .subd src => [.a, .b, .cc] ++ Src16.moved src
  | .ldx src => [.x, .cc] ++ Src16.moved src
  | .ldy src => [.y, .cc] ++ Src16.moved src
  | .ldu src => [.u, .cc] ++ Src16.moved src
  | .lds src => [.s, .cc] ++ Src16.moved src
  | .cmpd src | .cmpx src | .cmpy src | .cmpu src | .cmps src => [.cc] ++ Src16.moved src
  | .sta m | .stb m | .std m | .stx m | .sty m | .stu m | .sts m | .asr m | .lsr m | .asl m | .rol m | .ror m
  | .inc m | .dec m | .neg m | .clr m | .com m | .tst m => [.cc] ++ Mem.moved m
  | .leax x => [.x, .cc] ++ Idx.moved x
  | .leay x => [.y, .cc] ++ Idx.moved x
  | .leas x => [.s] ++ Idx.moved x
  | .leau x => [.u] ++ Idx.moved x
  | .andcc _ | .orcc _ | .tsta | .tstb => [.cc]
  | .asra | .lsra | .asla | .rola | .rora | .inca | .deca | .nega | .clra | .coma | .daa | .sex => [.a, .cc]
  | .asrb | .lsrb | .aslb | .rolb | .rorb | .incb | .decb | .negb | .clrb | .comb => [.b, .cc]
  | .mul => [.a, .b, .cc]
  | .abx => [.x]
  | .tfr _ r2 => Sel.written r2
  | .exg r1 r2 => Sel.written r1 ++ Sel.written r2
  | .nop | .brn _ | .lbrn _ | .sync | .reset => []
  | .bra _ | .bhi _ | .bls _ | .bcc _ | .bcs _ | .bne _ | .beq _ | .bvc _ | .bvs _ | .bpl _ | .bmi _ | .bge _
  | .blt _ | .bgt _ | .ble _ | .lbra _ | .lbhi _ | .lbls _ | .lbcc _ | .lbcs _ | .lbne _ | .lbeq _ | .lbvc _
  | .lbvs _ | .lbpl _ | .lbmi _ | .lbge _ | .lblt _ | .lbgt _ | .lble _ => [.pc]
  | .bsr _ | .lbsr _ | .rts => [.s, .pc]
  | .jmp m => [.pc] ++ Mem.moved m
  | .jsr m => [.s, .pc] ++ Mem.moved m
  | .pshs _ => [.s]
  | .pshu _ => [.u]
  | .puls m => [.s] ++ maskNames .u m
  | .pulu m => [.u] ++ maskNames .s m
  | .swi | .swi2 | .swi3 => [.s, .pc, .cc]
  | .cwai _ => [.s, .cc]
  | .rti => [.a, .b, .dp, .cc, .x, .y, .u, .s, .pc]

/-- The instruction explicitly loads S, which arms NMI (60_exceptions.md R613). -/
def armsNmi (i : Instr) : Bool :=
  match i with
  | .lds _ | .leas _ => true
  | .tfr _ r2 => Sel.isS r2
  | .exg r1 r2 => Sel.isS r1 || Sel.isS r2
  | .pulu m => m.getLsbD 6
  | _ => false

end Sys2Proof.Machine
end

