-- ==== Sys2Proof/Certificates/Slice0/Obligations.lean ====
section
/-! DEFINITION. The statements about this machine that the provers prove, each from the rules of spec/. A statement over
`State.Quiet` is about machines with no bus callback; its conclusion names the whole next state, so it says at once that
the instruction completes, what it computes, and that nothing else changes: `State.finish` changes the registers and
`cycles` only, and `State.storeByte` at most one byte of RAM. -/

open Sys2Proof Sys2Proof.Machine

/-! ## Loads, stores, load-effective-address (40_load_store.md) -/

/-- LDA and LDB (40_load_store.md section 1): the register takes the operand, N and Z come from it, V is cleared, and every
other register and flag is as the operand's index update left it. -/
def Obligations.LoadByteResult : Prop :=
  ∀ (s : State) (src : Src8), s.Quiet →
    let x := Src8.value src s
    let r := Src8.after src s.regs
    let cc := { r.cc with n := x.getLsbD 7, z := x == 0, v := false }
    exec (.lda src) s = .next (s.finish (.lda src) { r with a := x, cc := cc } (Src8.transfers src)) ∧
    exec (.ldb src) s = .next (s.finish (.ldb src) { r with b := x, cc := cc } (Src8.transfers src))

/-- LDD, LDX, LDY, LDU and LDS (40_load_store.md section 1): D is A:B, and LDS arms NMI. -/
def Obligations.LoadWordResult : Prop :=
  ∀ (s : State) (src : Src16), s.Quiet →
    let x := Src16.value src s
    let r := Src16.after src s.regs
    let cc := { r.cc with n := x.getLsbD 15, z := x == 0, v := false }
    let n := Src16.transfers src
    exec (.ldd src) s = .next (s.finish (.ldd src) { r with a := highByte x, b := lowByte x, cc := cc } n) ∧
    exec (.ldx src) s = .next (s.finish (.ldx src) { r with x := x, cc := cc } n) ∧
    exec (.ldy src) s = .next (s.finish (.ldy src) { r with y := x, cc := cc } n) ∧
    exec (.ldu src) s = .next (s.finish (.ldu src) { r with u := x, cc := cc } n) ∧
    exec (.lds src) s = .next ((s.withNmiArmed true).finish (.lds src) { r with s := x, cc := cc } n)

/-- STA and STB (40_load_store.md section 2): the byte goes to the operand's address, no register but the index register
changes, and every other byte reads as before. -/
def Obligations.StoreByteResult : Prop :=
  ∀ (s : State) (m : Mem), s.Quiet →
    let ea := Mem.target m s
    let r := Mem.after m s.regs
    exec (.sta m) s = .next ((s.storeByte ea r.a).finish (.sta m)
      { r with cc := { r.cc with n := r.a.getLsbD 7, z := r.a == 0, v := false } } (Mem.transfers m + 1)) ∧
    exec (.stb m) s = .next ((s.storeByte ea r.b).finish (.stb m)
      { r with cc := { r.cc with n := r.b.getLsbD 7, z := r.b == 0, v := false } } (Mem.transfers m + 1)) ∧
    ∀ v a, (a ≠ ea → (s.storeByte ea v).backing a = s.backing a) ∧
      (s.mem.wf = true → region s.cfg ea = .ram → (s.storeByte ea v).backing ea = v) ∧
      (region s.cfg ea ≠ .ram → s.storeByte ea v = s)

/-- STD, STX, STY, STU and STS (40_load_store.md section 2): the register, as the operand's index update left it, goes to
the operand's address and the one after it, high byte first. -/
def Obligations.StoreWordResult : Prop :=
  ∀ (s : State) (m : Mem), s.Quiet →
    let ea := Mem.target m s
    let r := Mem.after m s.regs
    let cc := fun x : Word => { r.cc with n := x.getLsbD 15, z := x == 0, v := false }
    let n := Mem.transfers m + 2
    exec (.std m) s = .next ((s.storeWord ea (wordOf r.a r.b)).finish (.std m) { r with cc := cc (wordOf r.a r.b) } n) ∧
    exec (.stx m) s = .next ((s.storeWord ea r.x).finish (.stx m) { r with cc := cc r.x } n) ∧
    exec (.sty m) s = .next ((s.storeWord ea r.y).finish (.sty m) { r with cc := cc r.y } n) ∧
    exec (.stu m) s = .next ((s.storeWord ea r.u).finish (.stu m) { r with cc := cc r.u } n) ∧
    exec (.sts m) s = .next ((s.storeWord ea r.s).finish (.sts m) { r with cc := cc r.s } n) ∧
    ∀ v a, (a ≠ ea → a ≠ ea + 1 → (s.storeWord ea v).backing a = s.backing a) ∧
      (s.mem.wf = true → region s.cfg ea = .ram → (s.storeWord ea v).backing ea = highByte v) ∧
      (s.mem.wf = true → region s.cfg (ea + 1) = .ram → (s.storeWord ea v).backing (ea + 1) = lowByte v)

/-- LEAX, LEAY, LEAS and LEAU (40_load_store.md section 3): the register takes the effective address; LEAX and LEAY write Z
and no other flag, LEAS and LEAU no flag, and LEAS arms NMI. -/
def Obligations.LoadEffectiveAddressResult : Prop :=
  ∀ (s : State) (x : Idx), s.Quiet →
    let ea := Mem.target (.idx x) s
    let r := Mem.after (.idx x) s.regs
    let n := Mem.transfers (.idx x)
    exec (.leax x) s = .next (s.finish (.leax x) { r with x := ea, cc := { r.cc with z := ea == 0 } } n) ∧
    exec (.leay x) s = .next (s.finish (.leay x) { r with y := ea, cc := { r.cc with z := ea == 0 } } n) ∧
    exec (.leas x) s = .next ((s.withNmiArmed true).finish (.leas x) { r with s := ea } n) ∧
    exec (.leau x) s = .next (s.finish (.leau x) { r with u := ea } n)

/-! ## Add, subtract and compare (41_add_sub_compare.md) -/

/-- ADDA, ADDB, ADCA and ADCB (41_add_sub_compare.md section 1): the sum modulo 256, counting C for the two with carry,
and H, N, Z, V and C by `Add8`. -/
def Obligations.AddByteResult : Prop :=
  ∀ (s : State) (src : Src8), s.Quiet →
    let m := Src8.value src s
    let r := Src8.after src s.regs
    let n := Src8.transfers src
    let add := fun (x : Byte) (c : Bool) => BitVec.ofNat 8 (x.toNat + m.toNat + c.toNat)
    exec (.adda src) s = .next (s.finish (.adda src) { r with a := add r.a false, cc := r.cc.add8 r.a m false } n) ∧
    exec (.addb src) s = .next (s.finish (.addb src) { r with b := add r.b false, cc := r.cc.add8 r.b m false } n) ∧
    exec (.adca src) s = .next (s.finish (.adca src) { r with a := add r.a r.cc.c, cc := r.cc.add8 r.a m r.cc.c } n) ∧
    exec (.adcb src) s = .next (s.finish (.adcb src) { r with b := add r.b r.cc.c, cc := r.cc.add8 r.b m r.cc.c } n)

/-- SUBA, SUBB, SBCA, SBCB, CMPA and CMPB (41_add_sub_compare.md sections 2 and 3): the difference modulo 256, less C for
the two with borrow, discarded by the compares; N, Z, V and C by `Sub8`. H is undefined: under `preserve` it is kept, and
under `arbitrary` it is some value, the same state else. -/
def Obligations.SubtractByteResult : Prop :=
  ∀ (s : State) (src : Src8), s.Quiet →
    let m := Src8.value src s
    let r := Src8.after src s.regs
    let k := Src8.transfers src
    let sub := fun (x : Byte) (c : Bool) => BitVec.ofInt 8 ((x.toNat : Int) - m.toNat - c.toNat)
    let kept := fun (h : Bool) (n : Nat) => s.cfg.undefFlags = .preserve → h = r.cc.h ∧ n = 0
    (∃ h n, kept h n ∧ exec (.suba src) s = .next ((s.drawn n).finish (.suba src)
      { r with a := sub r.a false, cc := r.cc.sub8 r.a m false h } k)) ∧
    (∃ h n, kept h n ∧ exec (.subb src) s = .next ((s.drawn n).finish (.subb src)
      { r with b := sub r.b false, cc := r.cc.sub8 r.b m false h } k)) ∧
    (∃ h n, kept h n ∧ exec (.sbca src) s = .next ((s.drawn n).finish (.sbca src)
      { r with a := sub r.a r.cc.c, cc := r.cc.sub8 r.a m r.cc.c h } k)) ∧
    (∃ h n, kept h n ∧ exec (.sbcb src) s = .next ((s.drawn n).finish (.sbcb src)
      { r with b := sub r.b r.cc.c, cc := r.cc.sub8 r.b m r.cc.c h } k)) ∧
    (∃ h n, kept h n ∧ exec (.cmpa src) s = .next ((s.drawn n).finish (.cmpa src)
      { r with cc := r.cc.sub8 r.a m false h } k)) ∧
    (∃ h n, kept h n ∧ exec (.cmpb src) s = .next ((s.drawn n).finish (.cmpb src)
      { r with cc := r.cc.sub8 r.b m false h } k))

/-- ADDD, SUBD, CMPD, CMPX, CMPY, CMPU and CMPS (41_add_sub_compare.md): 16-bit sums and differences, discarded by the
compares, which read an index register as the operand's update left it; N, Z, V and C by `Add16` and `Sub16`, and H kept. -/
def Obligations.WordArithmeticResult : Prop :=
  ∀ (s : State) (src : Src16), s.Quiet →
    let m := Src16.value src s
    let r := Src16.after src s.regs
    let d := wordOf r.a r.b
    let k := Src16.transfers src
    let sum := BitVec.ofNat 16 (d.toNat + m.toNat)
    let diff := BitVec.ofInt 16 ((d.toNat : Int) - m.toNat)
    exec (.addd src) s = .next (s.finish (.addd src)
      { r with a := highByte sum, b := lowByte sum, cc := r.cc.add16 d m } k) ∧
    exec (.subd src) s = .next (s.finish (.subd src)
      { r with a := highByte diff, b := lowByte diff, cc := r.cc.sub16 d m } k) ∧
    exec (.cmpd src) s = .next (s.finish (.cmpd src) { r with cc := r.cc.sub16 d m } k) ∧
    exec (.cmpx src) s = .next (s.finish (.cmpx src) { r with cc := r.cc.sub16 r.x m } k) ∧
    exec (.cmpy src) s = .next (s.finish (.cmpy src) { r with cc := r.cc.sub16 r.y m } k) ∧
    exec (.cmpu src) s = .next (s.finish (.cmpu src) { r with cc := r.cc.sub16 r.u m } k) ∧
    exec (.cmps src) s = .next (s.finish (.cmps src) { r with cc := r.cc.sub16 r.s m } k)

/-! ## Logical operations (42_logical_cc.md) -/

/-- ANDA, ANDB, ORA, ORB, EORA, EORB, BITA and BITB (42_logical_cc.md section 1): N and Z from the result, V cleared,
every other flag kept; BIT writes no register. -/
def Obligations.LogicResult : Prop :=
  ∀ (s : State) (src : Src8), s.Quiet →
    let m := Src8.value src s
    let r := Src8.after src s.regs
    let k := Src8.transfers src
    let cc := fun x : Byte => { r.cc with n := x.getLsbD 7, z := x == 0, v := false }
    exec (.anda src) s = .next (s.finish (.anda src) { r with a := r.a &&& m, cc := cc (r.a &&& m) } k) ∧
    exec (.andb src) s = .next (s.finish (.andb src) { r with b := r.b &&& m, cc := cc (r.b &&& m) } k) ∧
    exec (.ora src) s = .next (s.finish (.ora src) { r with a := r.a ||| m, cc := cc (r.a ||| m) } k) ∧
    exec (.orb src) s = .next (s.finish (.orb src) { r with b := r.b ||| m, cc := cc (r.b ||| m) } k) ∧
    exec (.eora src) s = .next (s.finish (.eora src) { r with a := r.a ^^^ m, cc := cc (r.a ^^^ m) } k) ∧
    exec (.eorb src) s = .next (s.finish (.eorb src) { r with b := r.b ^^^ m, cc := cc (r.b ^^^ m) } k) ∧
    exec (.bita src) s = .next (s.finish (.bita src) { r with cc := cc (r.a &&& m) } k) ∧
    exec (.bitb src) s = .next (s.finish (.bitb src) { r with cc := cc (r.b &&& m) } k)

/-- ANDCC and ORCC (42_logical_cc.md section 2), flag by flag: a flag is cleared where the mask has a 0, set where it has
a 1, and kept else; nothing else changes. The mask is the byte after 0x1C and 0x1A; ORCC of 0x50 masks FIRQ and IRQ. -/
def Obligations.ConditionCodeMaskResult : Prop :=
  ∀ (s : State) (m : Byte),
    let c := s.regs.cc
    exec (.andcc m) s = .next (s.finish (.andcc m)
      { s.regs with cc :=
        { e := c.e && m.getLsbD 7, f := c.f && m.getLsbD 6, h := c.h && m.getLsbD 5, i := c.i && m.getLsbD 4
          n := c.n && m.getLsbD 3, z := c.z && m.getLsbD 2, v := c.v && m.getLsbD 1, c := c.c && m.getLsbD 0 } } 0) ∧
    exec (.orcc m) s = .next (s.finish (.orcc m)
      { s.regs with cc :=
        { e := c.e || m.getLsbD 7, f := c.f || m.getLsbD 6, h := c.h || m.getLsbD 5, i := c.i || m.getLsbD 4
          n := c.n || m.getLsbD 3, z := c.z || m.getLsbD 2, v := c.v || m.getLsbD 1, c := c.c || m.getLsbD 0 } } 0) ∧
    decode [0x1C, m] = some (.andcc m, []) ∧ decode [0x1A, m] = some (.orcc m, []) ∧
    ∀ t, exec (.orcc 0x50) s = .next t → t.firqPending = false ∧ t.irqPending = false

/-! ## Shifts and single-operand operations (43_shift_unary.md) -/

/-- The operations on A and on B whose flags the spec all defines (43_shift_unary.md): LSR, ROL, ROR, INC, DEC, CLR, COM and
TST. Only the accumulator and the flags named change. -/
def Obligations.UnaryAccumulatorResult : Prop :=
  (∀ s : State,
    let r := s.regs
    let a := r.a
    let c := r.cc
    let rol := (a <<< 1) ||| BitVec.ofNat 8 c.c.toNat
    let ror := (a >>> 1) ||| (BitVec.ofNat 8 c.c.toNat <<< 7)
    exec .lsra s = .next (s.finish .lsra
      { r with a := a >>> 1, cc := { c with n := false, z := a >>> 1 == 0, c := a.getLsbD 0 } } 0) ∧
    exec .rola s = .next (s.finish .rola
      { r with a := rol, cc := { c with n := rol.getLsbD 7, z := rol == 0, v := a.getLsbD 7 ^^ a.getLsbD 6
                                        c := a.getLsbD 7 } } 0) ∧
    exec .rora s = .next (s.finish .rora
      { r with a := ror, cc := { c with n := c.c, z := ror == 0, c := a.getLsbD 0 } } 0) ∧
    exec .inca s = .next (s.finish .inca
      { r with a := a + 1, cc := { c with n := (a + 1).getLsbD 7, z := a + 1 == 0, v := a == 0x7F } } 0) ∧
    exec .deca s = .next (s.finish .deca
      { r with a := a - 1, cc := { c with n := (a - 1).getLsbD 7, z := a - 1 == 0, v := a == 0x80 } } 0) ∧
    exec .clra s = .next (s.finish .clra
      { r with a := 0, cc := { c with n := false, z := true, v := false, c := false } } 0) ∧
    exec .coma s = .next (s.finish .coma
      { r with a := ~~~a, cc := { c with n := (~~~a).getLsbD 7, z := ~~~a == 0, v := false, c := true } } 0) ∧
    exec .tsta s = .next (s.finish .tsta
      { r with cc := { c with n := a.getLsbD 7, z := a == 0, v := false } } 0)) ∧
  (∀ s : State,
    let r := s.regs
    let b := r.b
    let c := r.cc
    let rol := (b <<< 1) ||| BitVec.ofNat 8 c.c.toNat
    let ror := (b >>> 1) ||| (BitVec.ofNat 8 c.c.toNat <<< 7)
    exec .lsrb s = .next (s.finish .lsrb
      { r with b := b >>> 1, cc := { c with n := false, z := b >>> 1 == 0, c := b.getLsbD 0 } } 0) ∧
    exec .rolb s = .next (s.finish .rolb
      { r with b := rol, cc := { c with n := rol.getLsbD 7, z := rol == 0, v := b.getLsbD 7 ^^ b.getLsbD 6
                                        c := b.getLsbD 7 } } 0) ∧
    exec .rorb s = .next (s.finish .rorb
      { r with b := ror, cc := { c with n := c.c, z := ror == 0, c := b.getLsbD 0 } } 0) ∧
    exec .incb s = .next (s.finish .incb
      { r with b := b + 1, cc := { c with n := (b + 1).getLsbD 7, z := b + 1 == 0, v := b == 0x7F } } 0) ∧
    exec .decb s = .next (s.finish .decb
      { r with b := b - 1, cc := { c with n := (b - 1).getLsbD 7, z := b - 1 == 0, v := b == 0x80 } } 0) ∧
    exec .clrb s = .next (s.finish .clrb
      { r with b := 0, cc := { c with n := false, z := true, v := false, c := false } } 0) ∧
    exec .comb s = .next (s.finish .comb
      { r with b := ~~~b, cc := { c with n := (~~~b).getLsbD 7, z := ~~~b == 0, v := false, c := true } } 0) ∧
    exec .tstb s = .next (s.finish .tstb
      { r with cc := { c with n := b.getLsbD 7, z := b == 0, v := false } } 0))

/-- The operations that leave H undefined: ASR, ASL and NEG, on A, on B and on a memory byte (43_shift_unary.md). H is
kept under `preserve` and is some value under `arbitrary`, the same state else. ASR is the arithmetic shift, and NEG the
difference from 0. -/
def Obligations.UnaryUndefinedHResult : Prop :=
  (∀ s : State,
    let r := s.regs
    let kept := fun (h : Bool) (n : Nat) => s.cfg.undefFlags = .preserve → h = r.cc.h ∧ n = 0
    let asr := fun (x : Byte) (h : Bool) =>
      { r.cc with n := x.getLsbD 7, z := x.sshiftRight 1 == 0, c := x.getLsbD 0, h := h }
    let asl := fun (x : Byte) (h : Bool) =>
      { r.cc with n := x.getLsbD 6, z := x <<< 1 == 0, v := x.getLsbD 7 ^^ x.getLsbD 6, c := x.getLsbD 7, h := h }
    let neg := fun (x : Byte) (h : Bool) =>
      { r.cc with n := (-x).getLsbD 7, z := x == 0, v := x == 0x80, c := x != 0, h := h }
    (∃ h n, kept h n ∧ exec .asra s =
      .next ((s.drawn n).finish .asra { r with a := r.a.sshiftRight 1, cc := asr r.a h } 0)) ∧
    (∃ h n, kept h n ∧ exec .asrb s =
      .next ((s.drawn n).finish .asrb { r with b := r.b.sshiftRight 1, cc := asr r.b h } 0)) ∧
    (∃ h n, kept h n ∧ exec .asla s =
      .next ((s.drawn n).finish .asla { r with a := r.a <<< 1, cc := asl r.a h } 0)) ∧
    (∃ h n, kept h n ∧ exec .aslb s =
      .next ((s.drawn n).finish .aslb { r with b := r.b <<< 1, cc := asl r.b h } 0)) ∧
    (∃ h n, kept h n ∧ exec .nega s =
      .next ((s.drawn n).finish .nega { r with a := -r.a, cc := neg r.a h } 0)) ∧
    (∃ h n, kept h n ∧ exec .negb s =
      .next ((s.drawn n).finish .negb { r with b := -r.b, cc := neg r.b h } 0))) ∧
  (∀ (s : State) (m : Mem), s.Quiet →
    let ea := Mem.target m s
    let r := Mem.after m s.regs
    let x := s.backing ea
    let k := Mem.transfers m + 2
    let kept := fun (h : Bool) (n : Nat) => s.cfg.undefFlags = .preserve → h = r.cc.h ∧ n = 0
    (∃ h n, kept h n ∧ exec (.asr m) s = .next (((s.storeByte ea (x.sshiftRight 1)).drawn n).finish (.asr m)
      { r with cc := { r.cc with n := x.getLsbD 7, z := x.sshiftRight 1 == 0, c := x.getLsbD 0, h := h } } k)) ∧
    (∃ h n, kept h n ∧ exec (.asl m) s = .next (((s.storeByte ea (x <<< 1)).drawn n).finish (.asl m)
      { r with cc := { r.cc with n := x.getLsbD 6, z := x <<< 1 == 0, v := x.getLsbD 7 ^^ x.getLsbD 6
                                 c := x.getLsbD 7, h := h } } k)) ∧
    (∃ h n, kept h n ∧ exec (.neg m) s = .next (((s.storeByte ea (-x)).drawn n).finish (.neg m)
      { r with cc := { r.cc with n := (-x).getLsbD 7, z := x == 0, v := x == 0x80, c := x != 0, h := h } } k)))

/-- The memory forms with defined flags (43_shift_unary.md): LSR, ROL, ROR, INC, DEC and COM read the byte and write the
result back to the same address; CLR writes without reading; TST reads without writing. -/
def Obligations.UnaryMemoryResult : Prop :=
  ∀ (s : State) (m : Mem), s.Quiet →
    let ea := Mem.target m s
    let r := Mem.after m s.regs
    let x := s.backing ea
    let c := r.cc
    let rol := (x <<< 1) ||| BitVec.ofNat 8 c.c.toNat
    let ror := (x >>> 1) ||| (BitVec.ofNat 8 c.c.toNat <<< 7)
    let k := Mem.transfers m
    exec (.lsr m) s = .next ((s.storeByte ea (x >>> 1)).finish (.lsr m)
      { r with cc := { c with n := false, z := x >>> 1 == 0, c := x.getLsbD 0 } } (k + 2)) ∧
    exec (.rol m) s = .next ((s.storeByte ea rol).finish (.rol m)
      { r with cc := { c with n := rol.getLsbD 7, z := rol == 0, v := x.getLsbD 7 ^^ x.getLsbD 6
                              c := x.getLsbD 7 } } (k + 2)) ∧
    exec (.ror m) s = .next ((s.storeByte ea ror).finish (.ror m)
      { r with cc := { c with n := c.c, z := ror == 0, c := x.getLsbD 0 } } (k + 2)) ∧
    exec (.inc m) s = .next ((s.storeByte ea (x + 1)).finish (.inc m)
      { r with cc := { c with n := (x + 1).getLsbD 7, z := x + 1 == 0, v := x == 0x7F } } (k + 2)) ∧
    exec (.dec m) s = .next ((s.storeByte ea (x - 1)).finish (.dec m)
      { r with cc := { c with n := (x - 1).getLsbD 7, z := x - 1 == 0, v := x == 0x80 } } (k + 2)) ∧
    exec (.com m) s = .next ((s.storeByte ea (~~~x)).finish (.com m)
      { r with cc := { c with n := (~~~x).getLsbD 7, z := ~~~x == 0, v := false, c := true } } (k + 2)) ∧
    exec (.clr m) s = .next ((s.storeByte ea 0).finish (.clr m)
      { r with cc := { c with n := false, z := true, v := false, c := false } } (k + 1)) ∧
    exec (.tst m) s = .next (s.finish (.tst m)
      { r with cc := { c with n := x.getLsbD 7, z := x == 0, v := false } } (k + 1))

/-! ## Multiply, decimal adjust, sign extend, ABX, NOP, transfers (44_misc_alu.md) -/

/-- MUL, SEX, ABX and NOP (44_misc_alu.md): the unsigned product in D with Z and C from it; A filled with B's sign and N and
Z from D; B added to X unsigned, no flag; nothing. -/
def Obligations.MiscellaneousResult : Prop :=
  ∀ s : State,
    let r := s.regs
    let p := BitVec.ofNat 16 (r.a.toNat * r.b.toNat)
    let d := r.b.signExtend 16
    exec .mul s = .next (s.finish .mul
      { r with a := highByte p, b := lowByte p, cc := { r.cc with z := p == 0, c := p.getLsbD 7 } } 0) ∧
    exec .sex s = .next (s.finish .sex
      { r with a := highByte d, cc := { r.cc with n := r.b.getLsbD 7, z := r.b == 0 } } 0) ∧
    exec .abx s = .next (s.finish .abx { r with x := BitVec.ofNat 16 (r.x.toNat + r.b.toNat) } 0) ∧
    exec .nop s = .next (s.finish .nop r 0)

/-- DAA (44_misc_alu.md R405): 0x06 is added if the low nibble is above 9 or H is set, and 0x60 if the high nibble is above
9, C is set, or the high nibble is above 8 and the low one above 9; N and Z from A; a set C is kept; V is undefined. -/
def Obligations.DecimalAdjustResult : Prop :=
  ∀ s : State,
    let r := s.regs
    let lo := r.a.toNat % 16
    let hi := r.a.toNat / 16
    let low := if 9 < lo ∨ r.cc.h = true then 0x06 else 0
    let high := if 9 < hi ∨ r.cc.c = true ∨ (8 < hi ∧ 9 < lo) then 0x60 else 0
    let sum := r.a.toNat + (low + high)
    let x := BitVec.ofNat 8 sum
    ∃ v n, (s.cfg.undefFlags = .preserve → v = r.cc.v ∧ n = 0) ∧
      exec .daa s = .next ((s.drawn n).finish .daa
        { r with a := x, cc := { r.cc with n := x.getLsbD 7, z := x == 0, v := v, c := r.cc.c || decide (0xFF < sum) } } 0)

/-- TFR and EXG (44_misc_alu.md R420 to R422): TFR writes the source's value, converted, to the destination; EXG reads both
before it writes either, and writes the second last, an order that is the spec's own choice (D24). A transfer or exchange into
S arms NMI (60_exceptions.md R613, D7, the spec's own choice too). Nothing else changes. The high
nibble of the byte after 0x1F and 0x1E is the source or the first, the low one the destination or the second. -/
def Obligations.TransferResult : Prop :=
  ∀ (s : State) (r1 r2 : Sel),
    exec (.tfr r1 r2) s = .next ((s.withNmiArmed (s.nmiArmed || Sel.isS r2)).finish (.tfr r1 r2)
      (writeSelRegs s.regs (readSel s.regs r1) r2) 0) ∧
    exec (.exg r1 r2) s = .next ((s.withNmiArmed (s.nmiArmed || Sel.isS r1 || Sel.isS r2)).finish (.exg r1 r2)
      (writeSelRegs (writeSelRegs s.regs (readSel s.regs r2) r1) (readSel s.regs r1) r2) 0) ∧
    ∀ pb : Byte,
      decode [0x1F, pb] = some (.tfr (selOf (pb.extractLsb' 4 4)) (selOf (pb.extractLsb' 0 4)), []) ∧
      decode [0x1E, pb] = some (.exg (selOf (pb.extractLsb' 4 4)) (selOf (pb.extractLsb' 0 4)), [])

/-- Selectors (44_misc_alu.md R420, 30_encoding.md R160, R161): which nibble names which, what each reads, how widths
convert, and that a write reaches the selected register and no other; the sink reads 0xFFFF and discards writes. -/
def Obligations.SelectorRules : Prop :=
  ∀ (r : Regs) (v : SelValue) (n : BitVec 4),
    let w := match v with
      | .byte b => wordOf 0xFF b
      | .word x => x
    let l := match v with
      | .byte b => b
      | .word x => lowByte x
    (readSel r .d = .word (wordOf r.a r.b) ∧ readSel r .x = .word r.x ∧ readSel r .y = .word r.y ∧
      readSel r .u = .word r.u ∧ readSel r .s = .word r.s ∧ readSel r .pc = .word r.pc ∧
      readSel r .a = .byte r.a ∧ readSel r .b = .byte r.b ∧ readSel r .cc = .byte (CC.toByte r.cc) ∧
      readSel r .dp = .byte r.dp ∧ readSel r (.sink n) = .word 0xFFFF) ∧
    (writeSelRegs r v .d = { r with a := highByte w, b := lowByte w } ∧ writeSelRegs r v .x = { r with x := w } ∧
      writeSelRegs r v .y = { r with y := w } ∧ writeSelRegs r v .u = { r with u := w } ∧
      writeSelRegs r v .s = { r with s := w } ∧ writeSelRegs r v .pc = { r with pc := w } ∧
      writeSelRegs r v .a = { r with a := l } ∧ writeSelRegs r v .b = { r with b := l } ∧
      writeSelRegs r v .dp = { r with dp := l } ∧
      (∃ c, CC.toByte c = l ∧ writeSelRegs r v .cc = { r with cc := c }) ∧ writeSelRegs r v (.sink n) = r) ∧
    ([0x0, 0x1, 0x2, 0x3, 0x4, 0x5, 0x6, 0x7, 0x8, 0x9, 0xA, 0xB, 0xC, 0xD, 0xE, 0xF].map selOf =
      [.d, .x, .y, .u, .s, .pc, .sink 0x6, .sink 0x7, .a, .b, .cc, .dp, .sink 0xC, .sink 0xD, .sink 0xE, .sink 0xF])

/-! ## Branches, jumps, calls and returns (45_control_flow.md) -/

/-- The short branches (45_control_flow.md R450 and section 2): PC takes the sum of the address past the instruction and
the signed offset, modulo 2^16, exactly when the condition of the table holds; nothing else changes. -/
def Obligations.ShortBranchResult : Prop :=
  ∀ (s : State) (off : Byte),
    let r := s.regs
    let target := BitVec.ofInt 16 ((r.pc.toNat : Int) + off.toInt)
    let goes := fun (i : Instr) (a : Word) => exec i s = .next (s.finish i { r with pc := a } 0)
    goes (.bra off) target ∧ goes (.brn off) r.pc ∧
    goes (.bhi off) (if r.cc.c = false ∧ r.cc.z = false then target else r.pc) ∧
    goes (.bls off) (if r.cc.c = true ∨ r.cc.z = true then target else r.pc) ∧
    goes (.bcc off) (if r.cc.c = false then target else r.pc) ∧
    goes (.bcs off) (if r.cc.c = true then target else r.pc) ∧
    goes (.bne off) (if r.cc.z = false then target else r.pc) ∧
    goes (.beq off) (if r.cc.z = true then target else r.pc) ∧
    goes (.bvc off) (if r.cc.v = false then target else r.pc) ∧
    goes (.bvs off) (if r.cc.v = true then target else r.pc) ∧
    goes (.bpl off) (if r.cc.n = false then target else r.pc) ∧
    goes (.bmi off) (if r.cc.n = true then target else r.pc) ∧
    goes (.bge off) (if r.cc.n = r.cc.v then target else r.pc) ∧
    goes (.blt off) (if r.cc.n ≠ r.cc.v then target else r.pc) ∧
    goes (.bgt off) (if r.cc.z = false ∧ r.cc.n = r.cc.v then target else r.pc) ∧
    goes (.ble off) (if r.cc.z = true ∨ r.cc.n ≠ r.cc.v then target else r.pc)

/-- The long branches (45_control_flow.md R450 and section 3): as the short ones with a 16-bit offset, and one cycle more for
a conditional branch that is taken (70_reset_and_hazards.md R730). -/
def Obligations.LongBranchResult : Prop :=
  ∀ (s : State) (off : Word),
    let r := s.regs
    let target := BitVec.ofNat 16 (r.pc.toNat + off.toNat)
    let goes := fun (i : Instr) (a : Word) => exec i s = .next (s.finish i { r with pc := a } 0)
    let may := fun (i : Instr) (p : Prop) =>
      (p → exec i s = .next ((s.finish i { r with pc := target } 0).addCycles 1)) ∧
      (¬p → exec i s = .next (s.finish i r 0))
    goes (.lbra off) target ∧ goes (.lbrn off) r.pc ∧
    may (.lbhi off) (r.cc.c = false ∧ r.cc.z = false) ∧
    may (.lbls off) (r.cc.c = true ∨ r.cc.z = true) ∧
    may (.lbcc off) (r.cc.c = false) ∧
    may (.lbcs off) (r.cc.c = true) ∧
    may (.lbne off) (r.cc.z = false) ∧
    may (.lbeq off) (r.cc.z = true) ∧
    may (.lbvc off) (r.cc.v = false) ∧
    may (.lbvs off) (r.cc.v = true) ∧
    may (.lbpl off) (r.cc.n = false) ∧
    may (.lbmi off) (r.cc.n = true) ∧
    may (.lbge off) (r.cc.n = r.cc.v) ∧
    may (.lblt off) (r.cc.n ≠ r.cc.v) ∧
    may (.lbgt off) (r.cc.z = false ∧ r.cc.n = r.cc.v) ∧
    may (.lble off) (r.cc.z = true ∨ r.cc.n ≠ r.cc.v)

/-- JMP, JSR, BSR, LBSR and RTS (45_control_flow.md section 4): a jump to the effective address; a call pushes the address
past the instruction on S, high byte at the lower address, once the target is known; RTS pulls PC from S. -/
def Obligations.JumpAndCallResult : Prop :=
  ∀ (s : State) (m : Mem) (o8 : Byte) (o16 : Word), s.Quiet →
    let ea := Mem.target m s
    let r := Mem.after m s.regs
    let k := Mem.transfers m
    let g := s.regs
    let call := fun (i : Instr) (target : Word) =>
      exec i s = .next ((s.storeWord (g.s - 2) g.pc).finish i { g with s := g.s - 2, pc := target } 2)
    exec (.jmp m) s = .next (s.finish (.jmp m) { r with pc := ea } k) ∧
    exec (.jsr m) s = .next ((s.storeWord (r.s - 2) r.pc).finish (.jsr m) { r with s := r.s - 2, pc := ea } (k + 2)) ∧
    call (.bsr o8) (g.pc + o8.signExtend 16) ∧ call (.lbsr o16) (g.pc + o16) ∧
    exec .rts s = .next (s.finish .rts { g with pc := s.word g.s, s := g.s + 2 } 2)

/-! ## Stack push and pull (46_stack.md) -/

/-- PSHS and PSHU (46_stack.md R510, R512): the registers the mask names are stacked in the order PC, U or S, Y, X, DP, B,
A, CC, so that CC, if named, lies lowest, each word high byte first; the stack pointer moves down by their number of bytes;
no other register and no other byte changes, and what falls outside RAM is dropped. -/
def Obligations.PushResult : Prop :=
  ∀ (s : State) (m : Byte), s.Quiet → s.mem.wf = true →
    ∀ k : Stk,
      let i := match k with
        | .s => Instr.pshs m
        | .u => Instr.pshu m
      let bytes := frameBytes k m s.regs
      let sp := s.regs.sp k - BitVec.ofNat 16 (maskBytes m)
      bytes.length = maskBytes m ∧
      ∃ mem' : Memory,
        exec i s = .next ((s.withMem mem').finish i (s.regs.setSp k sp) (maskBytes m)) ∧
        ∀ a, (s.withMem mem').backing a = s.overlay sp bytes a

/-- PULS and PULU (46_stack.md R511, R513): each register the mask names, in the order CC, A, B, DP, X, Y, U or S, PC, takes
what lies above the bytes of the registers before it, and the stack pointer moves up past them all; memory is unchanged,
and PULU of S arms NMI. -/
def Obligations.PullResult : Prop :=
  ∀ (s : State) (m : Byte), s.Quiet →
    exec (.puls m) s = .next (s.finish (.puls m) (pulledRegs s .s m) (maskBytes m)) ∧
    exec (.pulu m) s = .next ((s.withNmiArmed (s.nmiArmed || m.getLsbD 6)).finish (.pulu m)
      (pulledRegs s .u m) (maskBytes m))

/-- Source invariant 7 (20_memory.md R113, 46_stack.md R511): with the stack bytes in RAM, PSHS m and then PULS m with the
same mask bring every register back and S to where it was; PC too if the mask names it, and PC stays where it is else. So do
PSHU m and PULU m. -/
def Obligations.PushThenPullRestores : Prop :=
  ∀ (s t : State) (m : Byte) (k : Stk) (pc : Word), s.Quiet → s.mem.wf = true →
    (∀ j, j < maskBytes m →
      region s.cfg (s.regs.sp k - BitVec.ofNat 16 (maskBytes m) + BitVec.ofNat 16 j) = .ram) →
    (match k with
      | .s => exec (.pshs m) s
      | .u => exec (.pshu m) s) = .next t →
    ∃ u : State, (match k with
      | .s => exec (.puls m) (t.withRegs (t.regs.setPc pc))
      | .u => exec (.pulu m) (t.withRegs (t.regs.setPc pc))) = .next u ∧
      u.regs = s.regs.setPc (if m.getLsbD 7 then s.regs.pc else pc) ∧ u.mem = t.mem

/-! ## Software interrupts, waits, return from interrupt, the RESET stub (47_interrupt_ops.md) -/

/-- SWI, SWI2 and SWI3 (47_interrupt_ops.md R530 to R532): E is set, the entire frame is stacked on S with PC the address past
the instruction, then SWI alone sets I and F, and PC is read at 0xFFFA, 0xFFF4 or 0xFFF2. Nothing else changes. -/
def Obligations.SoftwareInterruptResult : Prop :=
  ∀ s : State, s.Quiet → s.mem.wf = true →
    let r := { s.regs with cc := { s.regs.cc with e := true } }
    let sp := s.regs.s - 12
    ∃ mem' : Memory,
      (∀ a, (s.withMem mem').backing a = s.overlay sp (frameBytes .s 0xFF r) a) ∧
      exec .swi s = .next ((s.withMem mem').finish .swi
        { r with s := sp, cc := { r.cc with i := true, f := true }, pc := (s.withMem mem').word 0xFFFA } 14) ∧
      exec .swi2 s = .next ((s.withMem mem').finish .swi2
        { r with s := sp, pc := (s.withMem mem').word 0xFFF4 } 14) ∧
      exec .swi3 s = .next ((s.withMem mem').finish .swi3
        { r with s := sp, pc := (s.withMem mem').word 0xFFF2 } 14)

/-- CWAI and SYNC (47_interrupt_ops.md R540, R542): CWAI ANDs the mask into CC, sets E, stacks the entire frame on S and
waits; SYNC waits and changes nothing else. -/
def Obligations.WaitInstructionResult : Prop :=
  ∀ (s : State) (m : Byte), s.Quiet → s.mem.wf = true →
    let r := { s.regs with cc := { CC.ofByte (s.regs.cc.toByte &&& m) with e := true } }
    let sp := s.regs.s - 12
    (∃ mem' : Memory,
      (∀ a, (s.withMem mem').backing a = s.overlay sp (frameBytes .s 0xFF r) a) ∧
      exec (.cwai m) s = .next (((s.withMem mem').withWait .cwai).finish (.cwai m) { r with s := sp } 12)) ∧
    exec .sync s = .next ((s.withWait .sync).finish .sync s.regs 0)

/-- RTI (47_interrupt_ops.md R545): CC is pulled; its E says whether the whole frame follows, for 9 cycles more, or only PC.
Memory is unchanged and NMI is not armed. -/
def Obligations.ReturnFromInterruptResult : Prop :=
  ∀ s : State, s.Quiet →
    ((CC.ofByte (s.backing s.regs.s)).e = true →
      exec .rti s = .next ((s.finish .rti (pulledRegs s .s 0xFF) 12).addCycles 9)) ∧
    ((CC.ofByte (s.backing s.regs.s)).e = false →
      exec .rti s = .next (s.finish .rti (pulledRegs s .s 0x81) 3))

/-- Opcode 0x3E (47_interrupt_ops.md R550): under `nop` only `cycles` changes, by 2; under `reset` it is the reset sequence,
at no cost; under a machine's handler it is that handler with its cost: the rules run in order, and a handler may do what a
device may, load any fields of the machine at once from its whole state, and set its cost, as in the example that exchanges
A with B and stops the run for 7 cycles. A script's bus accesses are those of a step of the CPU and count under `source`
(20_memory.md R98), as in the examples that read a byte and write a byte or a word on a machine with no bus callback, and what
it writes is in range whatever number the script gives (R97). That handlers are rules is the
model's choice (log 15). -/
def Obligations.ResetStubResult : Prop :=
  ∀ s : State,
    (s.cfg.resetOp = .nop → exec .reset s = .next (s.addCycles 2)) ∧
    (s.cfg.resetOp = .reset → exec .reset s = resetStep s) ∧
    (∀ rules, s.cfg.resetOp = .handler rules →
      (∀ cost t, runHandler rules 0 0 s = .ok cost t → exec .reset s = .next (t.addCycles cost)) ∧
      (∀ e t, runHandler rules 0 0 s = .error (.peripheral e) t →
        exec .reset s = .next (t.deviceFault (s.regs.pc - 1) (some 0x3E) e))) ∧
    (∀ (rule : HandlerRule) (rest : List HandlerRule) (reply cost : Nat),
      let value := evalExpr s s.handlerArgs reply
      runHandler [] reply cost s = .ok cost s ∧
      (value rule.guard = 0 → runHandler (rule :: rest) reply cost s = runHandler rest reply cost s) ∧
      (value rule.guard ≠ 0 →
        (∀ sc, rule.act = .run sc →
          (∀ v t, runBody runCallback true sc s.handlerArgs s = .ok v t →
            runHandler (rule :: rest) reply cost s = runHandler rest (v.getD reply) cost t) ∧
          (∀ e t, runBody runCallback true sc s.handlerArgs s = .error e t → runHandler (rule :: rest) reply cost s = .error e t)) ∧
        (∀ ws, rule.act = .load ws →
          runHandler (rule :: rest) reply cost s = runHandler rest reply cost (s.loadFields reply ws)) ∧
        (∀ e, rule.act = .cost e → runHandler (rule :: rest) reply cost s = runHandler rest reply (cost + value e) s))) ∧
    (s.cfg.resetOp = .handler [⟨.lit 1, .load [(.a, .cpu 1), (.b, .cpu 0), (.running, .lit 0)]⟩, ⟨.lit 1, .cost (.lit 7)⟩] →
      exec .reset s = .next (((s.withRegs { s.regs with a := s.regs.b, b := s.regs.a }).withSched
        { s.sched with running := false }).addCycles 7)) ∧
    (∀ a v n : Nat, s.Quiet →
      (s.cfg.resetOp = .handler [⟨.lit 1, .run { rules := [⟨.lit 1, .readByte (.lit a)⟩] }⟩, ⟨.lit 1, .cost (.lit n)⟩] →
        exec .reset s = .next (((s.addCycles (accessCost s.cfg 1)).drawn 1).addCycles n)) ∧
      (s.cfg.resetOp = .handler [⟨.lit 1, .run { rules := [⟨.lit 1, .writeByte (.lit a) (.lit v)⟩] }⟩] →
        exec .reset s = .next (((s.storeByte (BitVec.ofNat 16 a) (BitVec.ofNat 8 v)).addCycles (accessCost s.cfg 1)).drawn 1)) ∧
      (s.cfg.resetOp = .handler [⟨.lit 1, .run { rules := [⟨.lit 1, .writeWord (.lit a) (.lit v)⟩] }⟩] →
        exec .reset s = .next (((s.storeWord (BitVec.ofNat 16 a) (BitVec.ofNat 16 v)).addCycles (accessCost s.cfg 2)).drawn 1)))

/-- The reset sequence on a machine with no bus callback (70_reset_and_hazards.md R700): every device's `reset()`, each once
and in registration order; then E, F and I are set, DP and the wait and NMI states are cleared, the fault is cleared, and PC
is read at 0xFFFE; A, B, X, Y, U, S and the other flags are some values (the spec's `reset_draw`), and nothing else changes.
A device's reset that fails is recorded as PeripheralFault with pc 0xFFFE, with no opcode (log 18). -/
def Obligations.ResetSequenceResult : Prop :=
  ∀ s t : State, s.Quiet →
    (RunsInOrder s.resetCalls s t →
      ∃ (a b : Byte) (x y u sp : Word) (h n z v c : Bool) (k : Nat),
        resetStep s = .next (((((((t.withRegs
          { a := a, b := b, dp := 0
            cc := { e := true, f := true, h := h, i := true, n := n, z := z, v := v, c := c }
            x := x, y := y, u := u, s := sp, pc := t.word 0xFFFE }).withWait .none).withNmiArmed false).withLines
          { t.lines with nmiLatch := false }).withFault none).drawn k).addCycles (accessCost s.cfg 2))) ∧
    (∀ e, FailsInOrder s.resetCalls s (.peripheral e) t → resetStep s = .next (t.deviceFault 0xFFFE none e))

/-! ## Encodings (30_encoding.md) -/

/-- Decoding the bytes of any well-formed instruction gives it back, with every operand, and leaves what follows. -/
def Obligations.DecodeOfEncode : Prop :=
  ∀ (i : Instr) (rest : List Byte), i.wf = true → decode (encode i ++ rest) = some (i, rest)

/-- What decodes is well formed and is the encoding of what it decodes to: every word has one meaning (30_encoding.md R132,
R166). -/
def Obligations.EncodeOfDecode : Prop :=
  ∀ (bytes rest : List Byte) (i : Instr), decode bytes = some (i, rest) → i.wf = true ∧ bytes = encode i ++ rest

/-- The opcode numbers with no row (30_encoding.md R147): no bytes after them make an instruction. A step that fetches one
records UnknownOpcode at the opcode's address, with the address and the number, stops the run, and does nothing else: the
state is the one the opcode fetches left. -/
def Obligations.AbsentOpcodes : Prop :=
  let absent := fun op : Nat => ∀ rest, decode (opcodeBytes op ++ rest) = none
  let page0 := [0x01, 0x02, 0x05, 0x0B, 0x14, 0x15, 0x18, 0x1B, 0x38, 0x41, 0x42, 0x45, 0x4B, 0x4E, 0x51, 0x52, 0x55, 0x5B,
    0x5E, 0x61, 0x62, 0x65, 0x6B, 0x71, 0x72, 0x75, 0x7B, 0x87, 0x8F, 0xC7, 0xCD, 0xCF]
  let page2 := [0x103F, 0x1083, 0x108C, 0x108E, 0x1093, 0x109C, 0x109E, 0x109F, 0x10A3, 0x10AC, 0x10AE, 0x10AF, 0x10B3,
    0x10BC, 0x10BE, 0x10BF, 0x10CE, 0x10DE, 0x10DF, 0x10EE, 0x10EF, 0x10FE, 0x10FF]
  let page3 := [0x113F, 0x1183, 0x118C, 0x1193, 0x119C, 0x11A3, 0x11AC, 0x11B3, 0x11BC]
  (∀ op, op < 0x100 → op ≠ 0x10 → op ≠ 0x11 → (absent op ↔ op ∈ page0)) ∧
  (∀ op, 0x1000 ≤ op → op < 0x1100 → (absent op ↔ ¬((0x1021 ≤ op ∧ op ≤ 0x102F) ∨ op ∈ page2))) ∧
  (∀ op, 0x1100 ≤ op → op < 0x1200 → (absent op ↔ op ∉ page3)) ∧
  ∀ (s t : State) (op : Nat), s.fault = none → s.wait = .none → s.pending = none →
    fetchOpcode s = .ok op t → absent op →
    cpuStep s = .next ((t.withFault (some ⟨.unknownOpcode, s.regs.pc, .opcode s.regs.pc op⟩)).withSched
      { t.sched with running := false })

/-- Words written out from the spec's encodings (30_encoding.md R139, R140, R160, R165; opcode_table.json), one or two a
family, decode to the instruction they stand for. A sanity statement. -/
def Obligations.DecodedWords : Prop :=
  decode [0b10000110, 0x42] = some (.lda (.imm 0x42), []) ∧
  decode [0b11101101, 0b10110011] = some (.std (.idx (.mode .y true .dec2)), []) ∧
  decode [0b00110000, 0b00011111] = some (.leax (.off5 .x 0b11111), []) ∧
  decode [0b10110000, 0x12, 0x34] = some (.suba (.mem (.ext 0x1234)), []) ∧
  decode [0x10, 0b10000011, 0xAB, 0xCD] = some (.cmpd (.imm 0xABCD), []) ∧
  decode [0b10010100, 0x7F] = some (.anda (.mem (.dir 0x7F)), []) ∧
  decode [0b00011010, 0x50] = some (.orcc 0x50, []) ∧
  decode [0b01100100, 0b11101001, 0x01, 0x02] = some (.lsr (.idx (.mode .s false (.off16 0x0102))), []) ∧
  decode [0b00011111, 0b10001011] = some (.tfr .a .dp, []) ∧
  decode [0b00111101] = some (.mul, []) ∧
  decode [0b00100111, 0xFE] = some (.beq 0xFE, []) ∧
  decode [0x10, 0b00101111, 0x80, 0x00] = some (.lble 0x8000, []) ∧
  decode [0b10101101, 0b10011111, 0xFF, 0xF0] = some (.jsr (.idx (.mode .x true (.extInd 0xFFF0))), []) ∧
  decode [0b00110100, 0b01000111] = some (.pshs 0b01000111, []) ∧
  decode [0x11, 0b00111111] = some (.swi3, []) ∧
  decode [0b00111100, 0xEF] = some (.cwai 0xEF, [])

/-- Operands. Indexed ones row by row of the sub-mode table (30_encoding.md R140): the post-byte and its offset bytes, the
effective address and the base register after the update, over the integers and then modulo 2^16, whether the address is
read through, and the extra cycles. The row before the last is the reserved sub-modes: the address is 0xFFFF, nothing moves,
nothing is read, and resolving the operand changes no state at all, on any machine (R146). Last, the direct and extended
addresses (R136, R137), the immediate literals and the memory values (R135), and the read through an address (R144). -/
def Obligations.IndexedModes : Prop :=
  ∀ (g : Regs) (r : IdxReg) (ind : Bool) (n5 : BitVec 5) (n8 : Byte) (n16 : Word),
    let base : Int := (g.reg16 (IdxReg.toReg16 r)).toNat
    let moved := fun d : Int => g.setReg16 (IdxReg.toReg16 r) (BitVec.ofInt 16 (base + d))
    let rr : Nat := match r with
      | .x => 0
      | .y => 1
      | .u => 2
      | .s => 3
    let off8 := [n8]
    let off16 := [highByte n16, lowByte n16]
    let indirectBit := if ind then 16 else 0
    let row := fun (m : IdxMode) (code : Nat) (offset : List Byte) (ea : Int) (after : Regs) (through : Bool)
        (extra : Nat) =>
      let x := Idx.mode r ind m
      (∃ pb : Byte, x.bytes = pb :: offset ∧ pb.toNat = 128 + 32 * rr + indirectBit + code) ∧
      Mem.baseEA (.idx x) g = (BitVec.ofInt 16 ea, after) ∧ Mem.indirect (.idx x) = through ∧ Idx.extra x = extra
    (∃ pb : Byte, Idx.bytes (.off5 r n5) = [pb] ∧ pb.toNat = 32 * rr + n5.toNat) ∧
    (Mem.baseEA (.idx (.off5 r n5)) g = (BitVec.ofInt 16 (base + n5.toInt), g) ∧
      Mem.indirect (.idx (.off5 r n5)) = false ∧ Idx.extra (.off5 r n5) = 1) ∧
    row .inc1 0x0 [] base (moved 1) ind (if ind then 5 else 2) ∧
    row .inc2 0x1 [] base (moved 2) ind (if ind then 6 else 3) ∧
    row .dec1 0x2 [] (base - 1) (moved (-1)) ind (if ind then 5 else 2) ∧
    row .dec2 0x3 [] (base - 2) (moved (-2)) ind (if ind then 6 else 3) ∧
    row .zero 0x4 [] base g ind (if ind then 3 else 0) ∧
    row .accB 0x5 [] (base + g.b.toInt) g ind (if ind then 4 else 1) ∧
    row .accA 0x6 [] (base + g.a.toInt) g ind (if ind then 4 else 1) ∧
    row (.off8 n8) 0x8 off8 (base + n8.toInt) g ind (if ind then 4 else 1) ∧
    row (.off16 n16) 0x9 off16 (base + n16.toNat) g ind (if ind then 7 else 4) ∧
    row .accD 0xB [] (base + (wordOf g.a g.b).toNat) g ind (if ind then 7 else 4) ∧
    row (.pcr8 n8) 0xC off8 (g.pc.toNat + n8.toInt) g ind (if ind then 4 else 1) ∧
    row (.pcr16 n16) 0xD off16 (g.pc.toNat + n16.toNat) g ind (if ind then 8 else 5) ∧
    row (.extInd n16) 0xF off16 n16.toNat g true 5 ∧
    (∀ m : BitVec 4, m = 0x7 ∨ m = 0xA ∨ m = 0xE →
      row (.reserved m) m.toNat [] 0xFFFF g false 0 ∧
      (∀ s : State, effectiveAddress (.idx (.mode r ind (.reserved m))) s = .ok 0xFFFF s)) ∧
    Mem.baseEA (.dir n8) g = (BitVec.ofNat 16 (256 * g.dp.toNat + n8.toNat), g) ∧
    Mem.baseEA (.ext n16) g = (n16, g) ∧
    (∀ m : Mem, m = .dir n8 ∨ m = .ext n16 → Mem.indirect m = false ∧ Mem.idxExtra m = 0) ∧
    (∀ x : Idx, Mem.idxExtra (.idx x) = Idx.extra x) ∧
    ∀ (s : State) (m : Mem),
      let at16 := fun a : Word => 256 * (s.backing a).toNat + (s.backing (BitVec.ofNat 16 (a.toNat + 1))).toNat
      (Mem.indirect m = false → Mem.target m s = (Mem.baseEA m s.regs).1) ∧
      (Mem.indirect m = true → (Mem.target m s).toNat = at16 (Mem.baseEA m s.regs).1) ∧
      Mem.after m g = (Mem.baseEA m g).2 ∧
      Src8.value (.imm n8) s = n8 ∧ Src8.after (.imm n8) g = g ∧
      Src8.value (.mem m) s = s.backing (Mem.target m s) ∧ Src8.after (.mem m) g = Mem.after m g ∧
      Src16.value (.imm n16) s = n16 ∧ Src16.after (.imm n16) g = g ∧
      (Src16.value (.mem m) s).toNat = at16 (Mem.target m s) ∧ Src16.after (.mem m) g = Mem.after m g

/-- What an instruction costs, row by row of opcode_table.json (`cycles`) and of 70_reset_and_hazards.md R730 and R731: the
base of its mnemonic and mode, the extra cycles of its indexed operand, and one cycle per byte pushed or pulled. The cycle of
a taken long branch, the 9 of RTI's entire frame and the cost of opcode 0x3E are in the statements of those instructions. -/
def Obligations.InstructionCosts : Prop :=
  ∀ (v m : Byte) (w : Word) (x : Idx) (r1 r2 : Sel),
    let rowMem := fun (f : Mem → Instr) (dir idx ext : Nat) =>
      instrCycles (f (.dir v)) = dir ∧ instrCycles (f (.idx x)) = idx + Idx.extra x ∧ instrCycles (f (.ext w)) = ext
    let row8 := fun (f : Src8 → Instr) (imm dir idx ext : Nat) =>
      instrCycles (f (.imm v)) = imm ∧ rowMem (fun a => f (.mem a)) dir idx ext
    let row16 := fun (f : Src16 → Instr) (imm dir idx ext : Nat) =>
      instrCycles (f (.imm w)) = imm ∧ rowMem (fun a => f (.mem a)) dir idx ext
    let all := fun (is : List Instr) (n : Nat) => ∀ i, i ∈ is → instrCycles i = n
    (∀ f, f ∈ [Instr.lda, .ldb, .adda, .addb, .adca, .adcb, .suba, .subb, .sbca, .sbcb, .cmpa, .cmpb, .anda, .andb, .ora,
      .orb, .eora, .eorb, .bita, .bitb] → row8 f 2 4 4 5) ∧
    (∀ f, f ∈ [Instr.ldd, .ldx, .ldu] → row16 f 3 5 5 6) ∧
    (∀ f, f ∈ [Instr.ldy, .lds, .addd, .subd, .cmpx] → row16 f 4 6 6 7) ∧
    (∀ f, f ∈ [Instr.cmpd, .cmpy, .cmpu, .cmps] → row16 f 5 7 7 8) ∧
    (∀ f, f ∈ [Instr.sta, .stb] → rowMem f 4 4 5) ∧
    (∀ f, f ∈ [Instr.std, .stx, .stu] → rowMem f 5 5 6) ∧
    (∀ f, f ∈ [Instr.sty, .sts, .asr, .lsr, .asl, .rol, .ror, .inc, .dec, .neg, .clr, .com, .tst] → rowMem f 6 6 7) ∧
    rowMem .jmp 3 3 4 ∧ rowMem .jsr 7 7 8 ∧
    (∀ f, f ∈ [Instr.leax, .leay, .leas, .leau] → instrCycles (f x) = 4 + Idx.extra x) ∧
    (∀ f, f ∈ [Instr.pshs, .puls, .pshu, .pulu] → instrCycles (f m) = 5 + maskBytes m) ∧
    all [.asra, .asrb, .lsra, .lsrb, .asla, .aslb, .rola, .rolb, .rora, .rorb, .inca, .incb, .deca, .decb, .nega, .negb,
      .clra, .clrb, .coma, .comb, .tsta, .tstb, .nop, .daa, .sex] 2 ∧
    all [.andcc m, .orcc m, .abx] 3 ∧
    all [.bra v, .brn v, .bhi v, .bls v, .bcc v, .bcs v, .bne v, .beq v, .bvc v, .bvs v, .bpl v, .bmi v, .bge v, .blt v,
      .bgt v, .ble v] 3 ∧
    all [.sync] 4 ∧
    all [.lbra w, .lbrn w, .lbhi w, .lbls w, .lbcc w, .lbcs w, .lbne w, .lbeq w, .lbvc w, .lbvs w, .lbpl w, .lbmi w,
      .lbge w, .lblt w, .lbgt w, .lble w, .rts] 5 ∧
    all [.tfr r1 r2, .rti] 6 ∧ all [.bsr v] 7 ∧ all [.exg r1 r2] 8 ∧ all [.lbsr w] 9 ∧ all [.mul] 11 ∧ all [.swi] 19 ∧
    all [.swi2, .swi3, .cwai m] 20

/-! ## Registers and condition codes (10_state.md) -/

/-- D is A:B (10_state.md R32): a read composes, a write decomposes and touches nothing else, and each sees the other at once. -/
def Obligations.DAlias : Prop :=
  ∀ (r : Regs) (v : Word) (x : Byte),
    r.d.toNat = 256 * r.a.toNat + r.b.toNat ∧
    (∃ a b : Byte, r.setD v = { r with a := a, b := b } ∧ a.toNat = v.toNat / 256 ∧ b.toNat = v.toNat % 256) ∧
    (r.setD v).d = v ∧
    (r.setAcc .a x).d.toNat = 256 * x.toNat + r.b.toNat ∧
    (r.setAcc .b x).d.toNat = 256 * r.a.toNat + x.toNat

/-- CC as a byte (10_state.md R37): what is set is what is got, for every byte and every CC; bit 7 to bit 0 are E, F, H, I,
N, Z, V, C, each read by name; and a write of the byte writes all eight. -/
def Obligations.WholeConditionCode : Prop :=
  (∀ b : Byte, CC.toByte (CC.ofByte b) = b) ∧
  (∀ c : CC, CC.ofByte (CC.toByte c) = c) ∧
  (∀ c : CC, (CC.toByte c).getLsbD 7 = c.e ∧ (CC.toByte c).getLsbD 6 = c.f ∧ (CC.toByte c).getLsbD 5 = c.h ∧
    (CC.toByte c).getLsbD 4 = c.i ∧ (CC.toByte c).getLsbD 3 = c.n ∧ (CC.toByte c).getLsbD 2 = c.z ∧
    (CC.toByte c).getLsbD 1 = c.v ∧ (CC.toByte c).getLsbD 0 = c.c) ∧
  (∀ b : Byte, CC.ofByte b =
    { e := b.getLsbD 7, f := b.getLsbD 6, h := b.getLsbD 5, i := b.getLsbD 4
      n := b.getLsbD 3, z := b.getLsbD 2, v := b.getLsbD 1, c := b.getLsbD 0 })

/-- `Add8` (10_state.md R50): the sum, and its five flags by the spec's formulas over the integer sum r; and what they mean
(R38 to R42): H is the carry out of bit 3, N bit 7 of the result, Z a zero result, V a signed sum outside -128..127, C an
unsigned sum above 255. E, F and I stay. -/
def Obligations.AddByteFlags : Prop :=
  ∀ (c : CC) (a b : Byte) (cin : Bool),
    let r := a.toNat + b.toNat + cin.toNat
    let exact : Int := a.toInt + b.toInt + cin.toNat
    (add8Result a b cin).toNat = r % 256 ∧
    c.add8 a b cin =
      { c with
        h := decide ((a.toNat ^^^ b.toNat ^^^ r) &&& 0x10 ≠ 0)
        n := r.testBit 7
        z := decide (r % 256 = 0)
        v := decide ((a.toNat ^^^ b.toNat ^^^ 0x80) &&& (a.toNat ^^^ r) &&& 0x80 ≠ 0)
        c := decide (0xFF < r) } ∧
    c.add8 a b cin =
      { c with
        h := decide (16 ≤ a.toNat % 16 + b.toNat % 16 + cin.toNat)
        n := decide (128 ≤ r % 256)
        z := decide (r % 256 = 0)
        v := decide (exact < -128 ∨ 127 < exact)
        c := decide (256 ≤ r) }

/-- `Sub8`, `Add16` and `Sub16` (10_state.md R51): the results modulo 2^8 and 2^16, and the flags by the spec's formulas; and
what they mean (R39 to R42): N the top bit of the result, Z a zero result, V a signed result out of range, C a carry out or
a borrow. H is whatever `undef(H)` gives in `Sub8` and stays in the other two. E, F and I stay. -/
def Obligations.SubtractAndWordFlags : Prop :=
  (∀ (c : CC) (a b : Byte) (cin h : Bool),
    let r : Int := (a.toNat : Int) - b.toNat - cin.toNat
    let x := (r % 256).toNat
    let exact : Int := a.toInt - b.toInt - cin.toNat
    (sub8Result a b cin).toNat = x ∧
    c.sub8 a b cin h =
      { c with
        h := h
        n := x.testBit 7
        z := decide (x = 0)
        v := decide ((a.toNat ^^^ b.toNat) &&& (a.toNat ^^^ x) &&& 0x80 ≠ 0)
        c := decide (r < 0) } ∧
    (c.sub8 a b cin h).n = decide (128 ≤ r % 256) ∧
    (c.sub8 a b cin h).v = decide (exact < -128 ∨ 127 < exact)) ∧
  (∀ (c : CC) (a b : Word),
    let r := a.toNat + b.toNat
    let exact := a.toInt + b.toInt
    (add16Result a b).toNat = r % 65536 ∧
    c.add16 a b =
      { c with
        n := r.testBit 15
        z := decide (r % 65536 = 0)
        v := decide ((a.toNat ^^^ b.toNat ^^^ 0x8000) &&& (a.toNat ^^^ r) &&& 0x8000 ≠ 0)
        c := decide (0xFFFF < r) } ∧
    (c.add16 a b).n = decide (32768 ≤ r % 65536) ∧
    (c.add16 a b).v = decide (exact < -32768 ∨ 32767 < exact)) ∧
  (∀ (c : CC) (a b : Word),
    let r : Int := (a.toNat : Int) - b.toNat
    let x := (r % 65536).toNat
    let exact := a.toInt - b.toInt
    (sub16Result a b).toNat = x ∧
    c.sub16 a b =
      { c with
        n := x.testBit 15
        z := decide (x = 0)
        v := decide ((a.toNat ^^^ b.toNat) &&& (a.toNat ^^^ x) &&& 0x8000 ≠ 0)
        c := decide (r < 0) } ∧
    (c.sub16 a b).n = decide (32768 ≤ r % 65536) ∧ (c.sub16 a b).z = decide (a = b) ∧
    (c.sub16 a b).v = decide (exact < -32768 ∨ 32767 < exact))

/-! ## The bus (20_memory.md) -/

/-- Byte accesses on any machine, of the CPU or of a callback (20_memory.md R92, R95): the access is counted if it is the
CPU's under `source`; a callback at the address is run and its answer taken, and a pass falls through; RAM and ROM read as
stored and unmapped space as 0; a write lands in RAM and is dropped elsewhere; a value above 0xFF raises OutOfRange before
anything else, and so does a callback's answer above 0xFF, whose record of the address read is the model's choice (log 23). Of
two registrations that cover an address the later one is
called (R88). A callback is the model's script (log 5), and gets the address, the value written and `cycles` (R89). -/
def Obligations.ByteAccessRules : Prop :=
  ∀ (s : State) (a : Word) (v : Nat) (byCpu : Bool),
    let inRam := fun u : State => u.cfg.ramWindow.lo.toNat ≤ a.toNat ∧ a.toNat ≤ u.cfg.ramWindow.hi.toNat
    let inRom := fun u : State => u.cfg.romWindow.lo.toNat ≤ a.toNat ∧ a.toNat ≤ u.cfg.romWindow.hi.toNat
    let counted := if byCpu = true ∧ s.cfg.cyclePolicy = .source then s.addCycles 1 else s
    let readFalls := fun u : State =>
      busReadByte runCallback byCpu a s =
        .ok (if inRam u ∨ inRom u then u.mem.read a.toNat else 0) u
    let writeFalls := fun u : State =>
      busWriteByte runCallback byCpu a v s =
        .ok ⟨⟩ (if inRam u then u.withMem (u.mem.write a.toNat (BitVec.ofNat 8 v)) else u)
    (lookup [] a = none ∧ ∀ (rs : List Registration) (g : Registration), lookup (rs ++ [g]) a =
      if g.range.lo.toNat ≤ a.toNat ∧ a.toNat ≤ g.range.hi.toNat then some g.script else lookup rs a) ∧
    (lookup s.cfg.registry.readByte a = none → readFalls counted) ∧
    (∀ cb, lookup s.cfg.registry.readByte a = some cb →
      (∀ w t, runCallback cb { addr := a.toNat, cycles := counted.cycles } counted = .ok (some w) t → w ≤ 0xFF →
        busReadByte runCallback byCpu a s = .ok (BitVec.ofNat 8 w) t) ∧
      (∀ w t, runCallback cb { addr := a.toNat, cycles := counted.cycles } counted = .ok (some w) t → 0xFF < w →
        busReadByte runCallback byCpu a s = .error (.outOfRange a w) t) ∧
      (∀ t, runCallback cb { addr := a.toNat, cycles := counted.cycles } counted = .ok none t → readFalls t) ∧
      (∀ e t, runCallback cb { addr := a.toNat, cycles := counted.cycles } counted = .error e t → busReadByte runCallback byCpu a s = .error e t)) ∧
    (0xFF < v → busWriteByte runCallback byCpu a v s = .error (.outOfRange a v) s) ∧
    (v ≤ 0xFF → lookup s.cfg.registry.writeByte a = none → writeFalls counted) ∧
    (v ≤ 0xFF → ∀ cb, lookup s.cfg.registry.writeByte a = some cb →
      (∀ w t, runCallback cb { addr := a.toNat, value := v, cycles := counted.cycles } counted = .ok (some w) t →
        busWriteByte runCallback byCpu a v s = .ok ⟨⟩ t) ∧
      (∀ t, runCallback cb { addr := a.toNat, value := v, cycles := counted.cycles } counted = .ok none t → writeFalls t) ∧
      (∀ e t, runCallback cb { addr := a.toNat, value := v, cycles := counted.cycles } counted = .error e t → busWriteByte runCallback byCpu a v s = .error e t))

/-- Word accesses on any machine (20_memory.md R87, R93, R96): two byte accesses, the high byte first at the lower address and
the second address wrapping, unless a word callback at the first address answers; its pass makes the two byte accesses
uncounted; an error in the first byte ends the access before the second. The record of a word callback's answer above 0xFFFF
is the model's choice (log 23). -/
def Obligations.WordAccessRules : Prop :=
  ∀ (s : State) (a : Word) (v : Nat) (byCpu : Bool),
    let counted := if byCpu = true ∧ s.cfg.cyclePolicy = .source then s.addCycles 2 else s
    let readWord := busReadWord runCallback byCpu a s
    let writeWord := busWriteWord runCallback byCpu a v s
    let second : Word := BitVec.ofNat 16 (a.toNat + 1)
    let readBytes := fun (c : Bool) (u : State) =>
      (∀ hi lo t1 t2, busReadByte runCallback c a u = .ok hi t1 → busReadByte runCallback c second t1 = .ok lo t2 →
        readWord = .ok (BitVec.ofNat 16 (256 * hi.toNat + lo.toNat)) t2) ∧
      (∀ e t, busReadByte runCallback c a u = .error e t → readWord = .error e t) ∧
      (∀ hi e t1 t2, busReadByte runCallback c a u = .ok hi t1 → busReadByte runCallback c second t1 = .error e t2 →
        readWord = .error e t2)
    let writeBytes := fun (c : Bool) (u : State) =>
      (∀ t1 t2, busWriteByte runCallback c a (v / 256) u = .ok ⟨⟩ t1 →
        busWriteByte runCallback c second (v % 256) t1 = .ok ⟨⟩ t2 → writeWord = .ok ⟨⟩ t2) ∧
      (∀ e t, busWriteByte runCallback c a (v / 256) u = .error e t → writeWord = .error e t) ∧
      (∀ e t1 t2, busWriteByte runCallback c a (v / 256) u = .ok ⟨⟩ t1 →
        busWriteByte runCallback c second (v % 256) t1 = .error e t2 → writeWord = .error e t2)
    (lookup s.cfg.registry.readWord a = none → readBytes byCpu s) ∧
    (∀ cb, lookup s.cfg.registry.readWord a = some cb →
      (∀ w t, runCallback cb { addr := a.toNat, cycles := counted.cycles } counted = .ok (some w) t → w ≤ 0xFFFF → readWord = .ok (BitVec.ofNat 16 w) t) ∧
      (∀ w t, runCallback cb { addr := a.toNat, cycles := counted.cycles } counted = .ok (some w) t → 0xFFFF < w → readWord = .error (.outOfRange a w) t) ∧
      (∀ t, runCallback cb { addr := a.toNat, cycles := counted.cycles } counted = .ok none t → readBytes false t) ∧
      (∀ e t, runCallback cb { addr := a.toNat, cycles := counted.cycles } counted = .error e t → readWord = .error e t)) ∧
    (0xFFFF < v → writeWord = .error (.outOfRange a v) s) ∧
    (v ≤ 0xFFFF → lookup s.cfg.registry.writeWord a = none → writeBytes byCpu s) ∧
    (v ≤ 0xFFFF → ∀ cb, lookup s.cfg.registry.writeWord a = some cb →
      (∀ w t, runCallback cb { addr := a.toNat, value := v, cycles := counted.cycles } counted = .ok (some w) t → writeWord = .ok ⟨⟩ t) ∧
      (∀ t, runCallback cb { addr := a.toNat, value := v, cycles := counted.cycles } counted = .ok none t → writeBytes false t) ∧
      (∀ e t, runCallback cb { addr := a.toNat, value := v, cycles := counted.cycles } counted = .error e t → writeWord = .error e t))

/-- Source invariant 6 (20_memory.md R96): where both bytes are RAM and no callback is registered at them, a word written
reads back, whatever the address (0xFFFF and 0x0000 too); the two bytes hold its halves, high byte first, and every other
byte of the store is as before. Nothing else but `cycles` changes. -/
def Obligations.WordReadBack : Prop :=
  ∀ (s : State) (a v : Word), s.mem.wf = true → region s.cfg a = .ram → region s.cfg (a + 1) = .ram →
    lookup s.cfg.registry.writeWord a = none → lookup s.cfg.registry.readWord a = none →
    (∀ b, b = a ∨ b = a + 1 →
      lookup s.cfg.registry.writeByte b = none ∧ lookup s.cfg.registry.readByte b = none) →
    ∃ mem' : Memory, Memory.wf mem' = true ∧
      write16 a v s = .ok ⟨⟩ ((s.withMem mem').addCycles (accessCost s.cfg 2)) ∧
      read16 a ((s.withMem mem').addCycles (accessCost s.cfg 2)) =
        .ok v (((s.withMem mem').addCycles (accessCost s.cfg 2)).addCycles (accessCost s.cfg 2)) ∧
      Memory.read mem' a.toNat = highByte v ∧ Memory.read mem' (a + 1).toNat = lowByte v ∧
      ∀ b, b ≠ a.toNat → b ≠ (a + 1).toNat → Memory.read mem' b = s.mem.read b

/-- What a callback can and cannot reach (20_memory.md R89): however it ends, the registers, `cycles`, the wait, the NMI
arming, the fault, the parameters, the scheduler and the turns are as before, and so is every byte of the store outside the
RAM window; a set NMI latch stays set. And it cannot read a register: on the machine with other registers it does and
answers the same. A callback is the model's script (log 5). -/
def Obligations.CallbackIsolation : Prop :=
  ∀ (script : Script) (args : CbArgs) (s : State),
    let kept := fun t : State =>
      t.regs = s.regs ∧ t.cycles = s.cycles ∧ t.wait = s.wait ∧ t.nmiArmed = s.nmiArmed ∧ t.fault = s.fault ∧
      t.cfg = s.cfg ∧ t.sched = s.sched ∧ t.agenda = s.agenda ∧ (s.lines.nmiLatch = true → t.lines.nmiLatch = true) ∧
      ∀ a : Word, region s.cfg a ≠ .ram → t.mem.read a.toNat = s.mem.read a.toNat
    (∀ v t, runCallback script args s = .ok v t →
      kept t ∧ ∀ r : Regs, runCallback script args (s.withRegs r) = .ok v (t.withRegs r)) ∧
    (∀ e t, runCallback script args s = .error e t →
      kept t ∧ ∀ r : Regs, runCallback script args (s.withRegs r) = .error e (t.withRegs r))

/-- Nested callbacks (20_memory.md R91; 60_exceptions.md R670): a callback whose nest comes to its end at some depth does what
its run does at that depth, however deep; it hangs exactly if it comes to its end at no depth. One that does not hang runs
its rounds of rules with every callback that its own accesses reach run to its end in turn. That a hang is an error of the
bus, and the step's fault `callbackHang`, is the model's form of "it does not terminate" (log 6). -/
def Obligations.CallbackNesting : Prop :=
  ∀ (script : Script) (args : CbArgs) (s : State),
    (∀ (d : Nat), (∀ t, runScript d script args s ≠ .error .hang t) →
      runCallback script args s = runScript d script args s) ∧
    ((∃ t, runCallback script args s = .error .hang t) ↔ ∀ d, ∃ t, runScript d script args s = .error .hang t) ∧
    ((∀ t, runCallback script args s ≠ .error .hang t) →
      runCallback script args s =
        match runRounds runCallback false args script.rules (evalExpr s args 0 script.rounds) 0 s with
        | .ok v t => .ok v (t.drawn 1)
        | .error e t => .error e t)

/-! ## The step (30_encoding.md R133, 60_exceptions.md) -/

/-- A step runs the decoded instruction (30_encoding.md R131, R133): on a machine with no bus callback, where no fault, wait
or request stands in the way and it is the CPU's turn, before any run, in a bounded run or in a burst, if the bytes at PC
decode to i then the step is exec of i with PC moved past i's bytes and the fetches counted. The run or burst has then one step
less to go (the phase is the model's form of the scheduler's loop, log 7). -/
def Obligations.StepRunsDecodedInstruction : Prop :=
  ∀ (s : State) (i : Instr) (rest : List Byte), s.Quiet → s.agenda = [] → s.fault = none → s.wait = .none →
    s.pending = none → decode (peekBytes s s.regs.pc 5) = some (i, rest) →
    let fetched := fun u : State =>
      (u.withRegs (s.regs.setPc (s.regs.pc + BitVec.ofNat 16 (instrLength i)))).addCycles (accessCost s.cfg (instrLength i))
    (s.sched.phase = .stepped → step s = exec i (fetched s)) ∧
    ∀ n,
      (s.sched.phase = .bounded (n + 1) →
        step s = exec i (fetched (s.withSched { s.sched with phase := .bounded n }))) ∧
      (s.sched.phase = .burst (n + 1) → step s = exec i (fetched (s.withSched { s.sched with phase := .burst n })))

/-- `CpuStep` (60_exceptions.md R640, R641, R642): no step when faulted; a CWAI wait that an unmasked request ends through
R624's entry and that idles a cycle else; a SYNC wait that any request ends, masked or not, the step going on as an
ordinary one, and that idles a cycle else, where the parameter `syncNmi` says whether an NMI latch that is not armed is
such a request (the model's choice, log 22: R640 and R642 say no, 47_interrupt_ops.md R542 says yes); then NMI, FIRQ, IRQ in
that order, an NMI only once armed, FIRQ and IRQ only unmasked; and the next instruction where none is pending. -/
def Obligations.CpuStepRules : Prop :=
  ∀ s : State,
    let nmi := s.lines.nmiLatch = true ∧ s.nmiArmed = true
    let firq := s.lines.firq = true ∧ s.regs.cc.f = false
    let irq := s.lines.irq = true ∧ s.regs.cc.i = false
    let wakes := s.lines.nmiLatch = true ∧ (s.nmiArmed = true ∨ s.cfg.syncNmi = .latched)
    (s.fault ≠ none → cpuStep s = .fault .cpuHalted) ∧
    (s.fault = none →
      (s.wait = .cwai →
        (nmi → cpuStep s = entryStep (cwaiEntry .nmi) s) ∧
        (¬nmi → firq → cpuStep s = entryStep (cwaiEntry .firq) s) ∧
        (¬nmi → ¬firq → irq → cpuStep s = entryStep (cwaiEntry .irq) s) ∧
        (¬nmi → ¬firq → ¬irq → cpuStep s = .next (s.addCycles 1))) ∧
      (s.wait = .sync →
        ((wakes ∨ s.lines.firq = true ∨ s.lines.irq = true) → cpuStep s = cpuStep (s.withWait .none)) ∧
        (¬wakes → s.lines.firq = false → s.lines.irq = false → cpuStep s = .next (s.addCycles 1))) ∧
      (s.wait = .none →
        (nmi → cpuStep s = entryStep (interruptEntry .nmi) s) ∧
        (¬nmi → firq → cpuStep s = entryStep (interruptEntry .firq) s) ∧
        (¬nmi → ¬firq → irq → cpuStep s = entryStep (interruptEntry .irq) s) ∧
        (¬nmi → ¬firq → ¬irq → cpuStep s = executeOne s)))

/-- Masking (60_exceptions.md R612): NMI is pending when latched and armed, FIRQ when its line is up and F is clear, IRQ when
its line is up and I is clear. And on a machine with no bus callback, where no device can answer, no instruction lowers a
line, clears the latch or reads either: a masked request stays asserted, and with other lines the instruction does the
same. -/
def Obligations.InterruptMasking : Prop :=
  ∀ s : State,
    (s.nmiPending = true ↔ s.lines.nmiLatch = true ∧ s.nmiArmed = true) ∧
    (s.firqPending = true ↔ s.lines.firq = true ∧ s.regs.cc.f = false) ∧
    (s.irqPending = true ↔ s.lines.irq = true ∧ s.regs.cc.i = false) ∧
    ∀ (i : Instr) (t : State), s.Quiet → (i = .reset → s.cfg.resetOp = .nop) → exec i s = .next t →
      t.lines = s.lines ∧ ∀ l : Lines, exec i (s.withLines l) = .next (t.withLines l)

/-- What an interrupt entry does (60_exceptions.md R611, R620 to R624; 70_reset_and_hazards.md R730, R731), on a machine with
no bus callback. NMI and IRQ set E and stack the entire frame, FIRQ clears E and stacks PC and CC; then I is set, and F too
for NMI and FIRQ, and PC is read at the vector; NMI's latch is cleared. Then every device's `ack(kind)` is called once, in
registration order, and 19, 10 and 19 cycles are added; an `ack` that fails ends the step with the fault recorded. A CWAI
wait ends with nothing stacked, E kept, the same calls, and the parameter's cycles; a SYNC wait is over. Nothing else
changes. The kinds' numbers are the model's (log 13), and so is the record's missing opcode (log 18). -/
def Obligations.InterruptEntryResult : Prop :=
  ∀ s : State, s.Quiet → s.mem.wf = true → s.fault = none →
    let r := s.regs
    let nmi := s.lines.nmiLatch = true ∧ s.nmiArmed = true
    let firq := s.lines.firq = true ∧ r.cc.f = false
    let irq := s.lines.irq = true ∧ r.cc.i = false
    let full := { r with cc := { r.cc with e := true } }
    let fast := { r with cc := { r.cc with e := false } }
    let entered := fun (mem' : Memory) (w : Wait) (g : Regs) (l : Lines) (n : Nat) =>
      ((((s.withMem mem').withWait w).withRegs g).withLines l).addCycles (accessCost s.cfg n)
    let ends := fun (k : Irq) (u : State) (c : Nat) =>
      (∀ t, RunsInOrder (s.ackCalls k) u t → cpuStep s = .next ((t.withWait .none).addCycles c)) ∧
      (∀ e t, FailsInOrder (s.ackCalls k) u (.peripheral e) t → cpuStep s = .next (t.deviceFault r.pc none e))
    let unlatched := { s.lines with nmiLatch := false }
    (s.wait ≠ .cwai →
      (nmi → ∃ mem' : Memory,
        (∀ a, (s.withMem mem').backing a = s.overlay (r.s - 12) (frameBytes .s 0xFF full) a) ∧
        ends .nmi (entered mem' .none { full with s := r.s - 12, cc := { full.cc with i := true, f := true }
                                                  pc := (s.withMem mem').word 0xFFFC } unlatched 14) 19) ∧
      (¬nmi → firq → ∃ mem' : Memory,
        (∀ a, (s.withMem mem').backing a = s.overlay (r.s - 3) (frameBytes .s 0x81 fast) a) ∧
        ends .firq (entered mem' .none { fast with s := r.s - 3, cc := { fast.cc with i := true, f := true }
                                                   pc := (s.withMem mem').word 0xFFF6 } s.lines 5) 10) ∧
      (¬nmi → ¬firq → irq → ∃ mem' : Memory,
        (∀ a, (s.withMem mem').backing a = s.overlay (r.s - 12) (frameBytes .s 0xFF full) a) ∧
        ends .irq (entered mem' .none { full with s := r.s - 12, cc := { full.cc with i := true }
                                                  pc := (s.withMem mem').word 0xFFF8 } s.lines 14) 19)) ∧
    (s.wait = .cwai →
      (nmi → ends .nmi (entered s.mem .cwai { r with cc := { r.cc with i := true, f := true }, pc := s.word 0xFFFC }
        unlatched 2) s.cfg.cwaiEntryCycles) ∧
      (¬nmi → firq → ends .firq (entered s.mem .cwai { r with cc := { r.cc with i := true, f := true }, pc := s.word 0xFFF6 }
        s.lines 2) s.cfg.cwaiEntryCycles) ∧
      (¬nmi → ¬firq → irq → ends .irq (entered s.mem .cwai { r with cc := { r.cc with i := true }, pc := s.word 0xFFF8 }
        s.lines 2) s.cfg.cwaiEntryCycles))

/-- Source invariant 8 (60_exceptions.md R625, R627; 47_interrupt_ops.md R545): where the frame's bytes are RAM, an interrupt
entry and then, from any registers a handler may hold with S back at the frame, RTI restores the interrupted program: every
register and CC after an entire frame, with the E the entry set; PC, S and CC after a FIRQ, with E clear. -/
def Obligations.EntryThenRtiRestores : Prop :=
  ∀ (s t : State) (k : Irq) (g : Regs), s.Quiet → s.mem.wf = true → s.cfg.devices = [] → s.fault = none →
    s.wait ≠ .cwai → s.pending = some k →
    (∀ j, j < (match k with
      | .nmi | .irq => 12
      | .firq => 3) → region s.cfg (s.regs.s - BitVec.ofNat 16 (j + 1)) = .ram) →
    cpuStep s = .next t → g.s = t.regs.s →
    ∃ u : State, exec .rti (t.withRegs g) = .next u ∧ u.mem = t.mem ∧
      u.regs = match k with
        | .nmi | .irq => { s.regs with cc := { s.regs.cc with e := true } }
        | .firq => { g with pc := s.regs.pc, s := s.regs.s, cc := { s.regs.cc with e := false } }

/-! ## Rules of the whole machine -/

/-- Which registers an instruction may write (10_state.md R33, R34, R35, R43 and the instruction files): on any machine, with
any callbacks, and whether it completes or faults part way, an instruction leaves every register outside `written i` as it
was. So only TFR, EXG, PULS, PULU and RTI write DP, and only branches, jumps, calls, returns, pulls, transfers and
interrupts write PC. Opcode 0x3E where it is the reset sequence or a machine's handler is in the statements about it. -/
def Obligations.RegisterFrame : Prop :=
  ∀ (s t : State) (i : Instr) (n : RegName), (i = .reset → s.cfg.resetOp = .nop) → exec i s = .next t →
    n ∉ written i → t.regs.value n = s.regs.value n

/-- NMI arming, the wait and the rest of the system state (10_state.md R46; 60_exceptions.md R613, R681), on any machine: an
instruction that completes arms NMI exactly if it explicitly loads S, and none disarms it; only CWAI and SYNC start a wait;
and no instruction changes the parameters, the turns, the sync callbacks' calls or clears a fault. With no bus callback, none
changes the device state, the request lines or the host queues. Opcode 0x3E other than as a no-op is left out. -/
def Obligations.SystemStateFrame : Prop :=
  ∀ (s t : State) (i : Instr), (i = .reset → s.cfg.resetOp = .nop) → exec i s = .next t →
    (t.fault = none → t.nmiArmed = (s.nmiArmed || armsNmi i)) ∧
    (s.nmiArmed = true → t.nmiArmed = true) ∧
    (t.fault = none → t.wait = match i with
      | .cwai _ => .cwai
      | .sync => .sync
      | _ => s.wait) ∧
    t.cfg = s.cfg ∧ t.agenda = s.agenda ∧ t.sched.lastCall = s.sched.lastCall ∧ t.sched.phase = s.sched.phase ∧
    (s.fault ≠ none → t.fault ≠ none) ∧
    (s.Quiet → t.dev = s.dev ∧ t.lines = s.lines ∧ t.host = s.host ∧ t.fault = s.fault ∧ t.sched = s.sched)

/-- "ROM regions are read-only from the CPU side" (20_memory.md R81, R84, R95): no step of the CPU, with any callbacks and any
devices, changes a byte of the store outside the RAM window, and each such address without a callback reads as before. -/
def Obligations.RomUnchanged : Prop :=
  ∀ (s t : State) (a : Word), cpuStep s = .next t → region s.cfg a ≠ .ram →
    t.mem.read a.toNat = s.mem.read a.toNat ∧ t.backing a = s.backing a

/-- The parameters never change (10_state.md R53, 20_memory.md R88), and `cycles` only grows, the host's restore of a snapshot
apart (10_state.md R45, 70_reset_and_hazards.md R704). -/
def Obligations.ConfigurationFixedCyclesGrow : Prop :=
  ∀ s t : State, step s = .next t →
    t.cfg = s.cfg ∧ ((∀ snap rest, s.agenda ≠ Turn.host (.restore snap) :: rest) → s.cycles ≤ t.cycles)

/-- Every step keeps the invariant: the memory in canonical form, the windows disjoint ranges, one last call for each sync
callback (20_memory.md R81, R82; 60_exceptions.md R660). -/
def Obligations.InvariantKept : Prop :=
  ∀ s t : State, s.Inv → step s = .next t → t.Inv

/-- The state after reset meets the invariant and is as the reset sequence leaves it (70_reset_and_hazards.md R700): E, F and I
set, DP clear, no wait, no fault, NMI neither armed nor latched, PC the word at 0xFFFE, `cycles` 0. -/
def Obligations.ResetState : Prop :=
  let s := State.reset
  s.Inv ∧ s.regs.cc.e = true ∧ s.regs.cc.f = true ∧ s.regs.cc.i = true ∧ s.regs.dp = 0 ∧ s.wait = .none ∧
    s.fault = none ∧ s.nmiArmed = false ∧ s.lines.nmiLatch = false ∧ s.regs.pc = s.word 0xFFFE ∧ s.cycles = 0

/-- How a step can stop (60_exceptions.md R601, R640, R665; 20_memory.md R91): no step is refused, and one answers no next state
only on a faulted CPU before any run, at the end of a free or a bounded run, or where callbacks call callbacks without end. In
a run a faulted CPU's turn passes (R662); that it stops before any run, that the turn after a run stops, and that a hang is a
fault, are the model's choices (logs 6, 7, 12). So on a machine with no bus callback, every step of a CPU without a fault, and every step of
a run, before the end of the run answers a next state, and so does every move of the host and every start of a run that can come (log 8). -/
def Obligations.StepOutcomes : Prop :=
  ∀ s : State,
    (∀ r, step s ≠ .refused r) ∧
    (step s = .fault .cpuHalted → s.fault ≠ none ∧ s.sched.phase = .stepped) ∧
    (step s = .fault .runEnded → s.sched.phase = .ended ∨ s.sched.phase = .bounded 0) ∧
    (s.Quiet →
      step s ≠ .fault .callbackHang ∧
      ((s.fault = none ∨ s.sched.phase ≠ .stepped) → s.sched.phase ≠ .ended → s.sched.phase ≠ .bounded 0 → ∃ t, step s = .next t) ∧
      (∀ m rest, s.agenda = m :: rest → m ≠ .cpu → m.due s = true → ∃ t, step s = .next t))

/-- The fault state (60_exceptions.md R600, R601; 70_reset_and_hazards.md R700). A step of the CPU that faults records the
address of the instruction's first byte, or PC at the boundary, or 0xFFFE for a fault inside the reset sequence, with the
info of its kind; stops the run; and under `datasheet` adds no cycles. An instruction's fault is a PeripheralFault with its
opcode or an OutOfRange with the value, as a device of LDA's operand shows; in a fetch of the opcode there is no opcode
(log 18). A faulted CPU changes nothing any more: in a burst and in a bounded run its turns pass (R662, log 7). Only the host's reset or a
restored snapshot clears a fault. The record stands in a next state (log 12). -/
def Obligations.FaultRecording : Prop :=
  ∀ s t : State,
    (∀ f, s.fault = none → cpuStep s = .next t → t.fault = some f →
      (f.pc = s.regs.pc ∨ (f.pc = 0xFFFE ∧ s.cfg.resetOp = .reset)) ∧ t.sched.running = false ∧
      (s.cfg.cyclePolicy = .datasheet → t.cycles = s.cycles) ∧
      match f.info with
      | .opcode pc op => f.kind = .unknownOpcode ∧ pc = f.pc ∧ ∀ rest, decode (opcodeBytes op ++ rest) = none
      | .range _ v => f.kind = .outOfRange ∧ 0xFF < v
      | .device pc _ _ => f.kind = .peripheralFault ∧ pc = f.pc) ∧
    (∀ i f, (i = .reset → s.cfg.resetOp ≠ .reset) → s.fault = none → exec i s = .next t → t.fault = some f →
      f.pc = s.regs.pc - BitVec.ofNat 16 (instrLength i) ∧
      ((∃ e, f.kind = .peripheralFault ∧ f.info = .device f.pc (some (opcodeOf i)) e) ∨
        ∃ a v, 0xFF < v ∧ f.kind = .outOfRange ∧ f.info = .range a v)) ∧
    (∀ (a : Word) (e : Nat), read8 a s = .error (.peripheral e) t →
      exec (.lda (.mem (.ext a))) s = .next (t.deviceFault (s.regs.pc - 3) (some 0xB6) e)) ∧
    (∀ (a b : Word) (v : Nat), read8 a s = .error (.outOfRange b v) t →
      exec (.lda (.mem (.ext a))) s = .next ((t.withFault (some ⟨.outOfRange, s.regs.pc - 3, .range b v⟩)).withSched
        { t.sched with running := false })) ∧
    (∀ e : Nat, s.fault = none → s.wait = .none → s.pending = none → fetchOpcode s = .error (.peripheral e) t →
      cpuStep s = .next (t.deviceFault s.regs.pc none e)) ∧
    (s.fault ≠ none → s.agenda = [] → ∀ n,
      (s.sched.phase = .burst (n + 1) → step s = .next (s.withSched { s.sched with phase := .burst n })) ∧
      (s.sched.phase = .bounded (n + 1) → step s = .next (s.withSched { s.sched with phase := .bounded n }))) ∧
    (s.fault ≠ none → step s = .next t →
      (∀ rest, s.agenda ≠ Turn.host .reset :: rest) → (∀ snap rest, s.agenda ≠ Turn.host (.restore snap) :: rest) →
      t.fault ≠ none)

/-! ## The scheduler and the host (60_exceptions.md sections 6 to 8) -/

/-- A burst boundary and a bounded run (60_exceptions.md R661, R662, R663, R665, R682, R684). A sync callback fires exactly when at least its
period has passed since its last call, with the cycles passed as its argument, and the call is recorded (it does not fire
while `cycles` is behind that call, the model's reading, log 24). A boundary step
fires them all in registration order, then serves every request oldest first on an emptied queue, then posts the status, and
then goes on with a burst of at least one step if `running`, or ends the run. A failing sync callback ends the boundary and
the run with the fault recorded: that it does is the model's reading (log 16), and that the record then has no opcode is the
model's choice (log 18), where R600 names one. A run starts only when none is going on; a free one tests `running` first.
`RunBounded(K)` is K turns of the CPU and then over: it fires no sync callback and serves no request; a faulted CPU's turns
pass; and on a machine with no bus callback the K steps are made, whatever the CPU does. The phase, and starts as turns, are
the model's form of the loop (logs 7, 8); that the turn after a run stops is log 12's choice. -/
def Obligations.BoundaryRules : Prop :=
  ∀ s t : State,
    let next := fun u : State =>
      if u.sched.running then
        (u.withSched { u.sched with phase := .burst (Config.freeBurst u.draws + 1) }).drawn 1
      else u.withSched { u.sched with phase := .ended }
    (∀ (i : Nat) (cb : SyncCallback),
      let last := cellAt s.sched.lastCall i
      (s.cycles < last + cb.period → fireSync i cb s = .ok ⟨⟩ s) ∧
      (last + cb.period ≤ s.cycles →
        (∀ v, runCallback cb.script { value := s.cycles - last, cycles := s.cycles } s = .ok v t →
          t.cycles = s.cycles ∧ t.regs = s.regs ∧
          fireSync i cb s = .ok ⟨⟩ (t.withSched { t.sched with lastCall := setCellAt t.sched.lastCall i s.cycles })) ∧
        (∀ e, runCallback cb.script { value := s.cycles - last, cycles := s.cycles } s = .error e t →
          fireSync i cb s = .error e t))) ∧
    (s.agenda = [] → s.sched.phase = .burst 0 →
      (RunsInOrder s.syncCalls s t →
        let served := t.host.reqQ.foldl (fun u q => serveRequest q u) (t.withHost { t.host with reqQ := [] })
        step s = .next (next (served.withHost { served.host with statusQ := some ⟨s.cycles, s.regs.pc, s.regs.cc⟩ }))) ∧
      (∀ e, FailsInOrder s.syncCalls s (.peripheral e) t →
        step s = .next ((t.deviceFault s.regs.pc none e).withSched { t.sched with running := false, phase := .ended }))) ∧
    (∀ k rest, s.sched.phase = .stepped ∨ s.sched.phase = .bounded 0 ∨ s.sched.phase = .ended →
      (s.agenda = .startFree :: rest → step s = .next (next (s.withAgenda rest))) ∧
      (s.agenda = .startBounded k :: rest →
        step s = .next ((s.withAgenda rest).withSched { s.sched with phase := .bounded k }))) ∧
    (∀ n k rest, s.sched.phase = .burst n ∨ s.sched.phase = .bounded (n + 1) →
      s.agenda = .startFree :: rest ∨ s.agenda = .startBounded k :: rest → step s = turn s) ∧
    (s.agenda = [] →
      (∀ n, s.sched.phase = .bounded (n + 1) →
        let u := s.withSched { s.sched with phase := .bounded n }
        (s.fault = none → step s = cpuStep u) ∧ (s.fault ≠ none → step s = .next u)) ∧
      (s.sched.phase = .bounded 0 ∨ s.sched.phase = .ended → step s = .fault .runEnded) ∧
      (∀ k, s.sched.phase = .bounded k → s.Quiet → ∃ u : State, Sys2Proof.core.run k s = .next u ∧
        u.sched.phase = .bounded 0 ∧ step u = .fault .runEnded))

/-- The host (60_exceptions.md R673, R681, R684, 20_memory.md R83). Its moves append to the key and request queues, take from
the display, status and response queues, clear `running`, or run the reset sequence, and do nothing else. A peek inside the address space answers the bytes the bus would
give without callbacks; a poke of bytes that fit writes them to the store in any region and nothing else; any other poke, or
a peek past 0xFFFF (the model's choice, log 14), answers OutOfRange and writes nothing. -/
def Obligations.HostRequestRules : Prop :=
  ∀ (s : State) (a : Word) (n : Nat) (bytes : List Nat),
    let answered := fun (t : State) (r : Response) => t.host = { s.host with respQ := s.host.respQ ++ [r] }
    (a.toNat + n ≤ 65536 → ∃ bs : List Byte, bs.length = n ∧
      (∀ j, j < n → bs[j]? = some (s.backing (a + BitVec.ofNat 16 j))) ∧
      serveRequest (.peek a n) s = s.withHost { s.host with respQ := s.host.respQ ++ [.bytes bs] }) ∧
    (65536 < a.toNat + n →
      serveRequest (.peek a n) s = s.withHost { s.host with respQ := s.host.respQ ++ [.outOfRange] }) ∧
    (s.mem.wf = true → a.toNat + bytes.length ≤ 65536 → (∀ b, b ∈ bytes → b ≤ 0xFF) →
      ∃ t : State, serveRequest (.poke a bytes) s = t ∧ answered t .done ∧
        t = (s.withMem t.mem).withHost t.host ∧ Memory.wf t.mem = true ∧
        (∀ j b, bytes[j]? = some b → (t.mem.read (a.toNat + j)).toNat = b) ∧
        (∀ c, (c < a.toNat ∨ a.toNat + bytes.length ≤ c) → t.mem.read c = s.mem.read c)) ∧
    ((65536 < a.toNat + bytes.length ∨ ∃ b, b ∈ bytes ∧ 0xFF < b) →
      serveRequest (.poke a bytes) s = s.withHost { s.host with respQ := s.host.respQ ++ [.outOfRange] }) ∧
    ∀ (m : HostMove) (rest : List Turn), s.agenda = .host m :: rest →
      let u := s.withAgenda rest
      let queues := fun h : HostQueues => step s = .next (u.withHost h)
      match m with
      | .keyDown code => queues { s.host with keyQ := s.host.keyQ ++ [code] }
      | .request q => queues { s.host with reqQ := s.host.reqQ ++ [q] }
      | .takeDisplay => queues { s.host with displayQ := s.host.displayQ.tail }
      | .takeStatus => queues { s.host with statusQ := none }
      | .takeResponse => queues { s.host with respQ := s.host.respQ.tail }
      | .stop => step s = .next (u.withSched { s.sched with running := false })
      | .reset => step s = resetStep u
      | .restore snap => s.sched.phase = .burst 0 → step s = .next (u.restore snap)

/-- Snapshots (10_state.md R54, 70_reset_and_hazards.md R704): a machine gives one at a boundary (00_scope.md R17), unless it
waits, and nowhere else. That the boundary is the point of phase `burst 0` alone, so that none is taken and a restore waits in
every other phase, a bounded run and the end of a run included, is the model's choice (log 19). One taken from s and restored
on any machine with the same parameters brings back every register,
`cycles`, the NMI arming and every byte of RAM, clears the wait and the fault, and leaves the rest of the store, the devices,
the lines, the scheduler and the host queues as they are. A restore that the host plans waits for a boundary (logs 8, 19). -/
def Obligations.SnapshotRestored : Prop :=
  ∀ (s u : State) (snap : Snapshot), s.mem.wf = true → u.mem.wf = true → u.cfg = s.cfg →
    (s.snapshot ≠ none ↔ s.sched.phase = .burst 0 ∧ s.wait = .none) ∧
    (∀ other rest, u.sched.phase ≠ .burst 0 → u.agenda = .host (.restore other) :: rest → step u = turn u) ∧
    (s.snapshot = some snap →
      let t := u.restore snap
      t.regs = s.regs ∧ t.cycles = s.cycles ∧ t.nmiArmed = s.nmiArmed ∧ t.wait = .none ∧ t.fault = none ∧
      (∀ a : Word, t.mem.read a.toNat = if region s.cfg a = .ram then s.mem.read a.toNat else u.mem.read a.toNat) ∧
      Memory.wf t.mem = true ∧ t.dev = u.dev ∧ t.lines = u.lines ∧ t.sched = u.sched ∧ t.host = u.host)

/-- Construction (70_reset_and_hazards.md R702, 20_memory.md R82, R83): refused exactly where the windows are no disjoint
ranges or the image is longer than the ROM window; else the RAM window holds `ram_init`, the ROM window the image and zeros
after it, every other cell zero; `cycles` is 0, every last call 0, `running` set, the lines false, the queues empty. -/
def Obligations.ConstructionRules : Prop :=
  ∀ (cfg : Params) (ramInit : Memory) (image : List Byte) (dev : List Nat), Memory.wf ramInit = true →
    let ram := cfg.ramWindow
    let rom := cfg.romWindow
    let legal := ram.lo.toNat ≤ ram.hi.toNat ∧ rom.lo.toNat ≤ rom.hi.toNat ∧
      (ram.hi.toNat < rom.lo.toNat ∨ rom.hi.toNat < ram.lo.toNat) ∧ image.length ≤ rom.hi.toNat - rom.lo.toNat + 1
    (¬legal → construct cfg ramInit image dev = none) ∧
    (legal → ∃ s : State, construct cfg ramInit image dev = some s ∧ s.Inv ∧ s.cfg = cfg ∧ s.dev = dev ∧ s.cycles = 0 ∧
      s.lines = { } ∧ s.host = { } ∧ s.sched.running = true ∧ (∀ n, n ∈ s.sched.lastCall → n = 0) ∧
      (∀ a : Word, region cfg a = .ram → s.mem.read a.toNat = ramInit.read a.toNat) ∧
      (∀ a : Word, region cfg a = .rom → s.mem.read a.toNat = (image[a.toNat - rom.lo.toNat]?).getD 0) ∧
      (∀ a : Word, region cfg a = .unmapped → s.mem.read a.toNat = 0))
end

