-- ==== Sys2Proof/Laws/State.lean ====
section
/-! SUPPORT. What each update of the state leaves in each field: one lemma per field per update, true by unfolding. -/

namespace Sys2Proof.Machine

variable (s : State)

/-! ### `withRegs` -/

@[simp] theorem State.withRegs_cfg (r : Regs) : (s.withRegs r).cfg = s.cfg := rfl
@[simp] theorem State.withRegs_regs (r : Regs) : (s.withRegs r).regs = r := rfl
@[simp] theorem State.withRegs_cycles (r : Regs) : (s.withRegs r).cycles = s.cycles := rfl
@[simp] theorem State.withRegs_wait (r : Regs) : (s.withRegs r).wait = s.wait := rfl
@[simp] theorem State.withRegs_nmiArmed (r : Regs) : (s.withRegs r).nmiArmed = s.nmiArmed := rfl
@[simp] theorem State.withRegs_fault (r : Regs) : (s.withRegs r).fault = s.fault := rfl
@[simp] theorem State.withRegs_lines (r : Regs) : (s.withRegs r).lines = s.lines := rfl
@[simp] theorem State.withRegs_mem (r : Regs) : (s.withRegs r).mem = s.mem := rfl
@[simp] theorem State.withRegs_dev (r : Regs) : (s.withRegs r).dev = s.dev := rfl
@[simp] theorem State.withRegs_sched (r : Regs) : (s.withRegs r).sched = s.sched := rfl
@[simp] theorem State.withRegs_host (r : Regs) : (s.withRegs r).host = s.host := rfl
@[simp] theorem State.withRegs_agenda (r : Regs) : (s.withRegs r).agenda = s.agenda := rfl
@[simp] theorem State.withRegs_draws (r : Regs) : (s.withRegs r).draws = s.draws := rfl

/-! ### `withCycles` -/

@[simp] theorem State.withCycles_cfg (n : Nat) : (s.withCycles n).cfg = s.cfg := rfl
@[simp] theorem State.withCycles_regs (n : Nat) : (s.withCycles n).regs = s.regs := rfl
@[simp] theorem State.withCycles_cycles (n : Nat) : (s.withCycles n).cycles = n := rfl
@[simp] theorem State.withCycles_wait (n : Nat) : (s.withCycles n).wait = s.wait := rfl
@[simp] theorem State.withCycles_nmiArmed (n : Nat) : (s.withCycles n).nmiArmed = s.nmiArmed := rfl
@[simp] theorem State.withCycles_fault (n : Nat) : (s.withCycles n).fault = s.fault := rfl
@[simp] theorem State.withCycles_lines (n : Nat) : (s.withCycles n).lines = s.lines := rfl
@[simp] theorem State.withCycles_mem (n : Nat) : (s.withCycles n).mem = s.mem := rfl
@[simp] theorem State.withCycles_dev (n : Nat) : (s.withCycles n).dev = s.dev := rfl
@[simp] theorem State.withCycles_sched (n : Nat) : (s.withCycles n).sched = s.sched := rfl
@[simp] theorem State.withCycles_host (n : Nat) : (s.withCycles n).host = s.host := rfl
@[simp] theorem State.withCycles_agenda (n : Nat) : (s.withCycles n).agenda = s.agenda := rfl
@[simp] theorem State.withCycles_draws (n : Nat) : (s.withCycles n).draws = s.draws := rfl

/-! ### `addCycles` -/

@[simp] theorem State.addCycles_cfg (n : Nat) : (s.addCycles n).cfg = s.cfg := rfl
@[simp] theorem State.addCycles_regs (n : Nat) : (s.addCycles n).regs = s.regs := rfl
@[simp] theorem State.addCycles_cycles (n : Nat) : (s.addCycles n).cycles = s.cycles + n := rfl
@[simp] theorem State.addCycles_wait (n : Nat) : (s.addCycles n).wait = s.wait := rfl
@[simp] theorem State.addCycles_nmiArmed (n : Nat) : (s.addCycles n).nmiArmed = s.nmiArmed := rfl
@[simp] theorem State.addCycles_fault (n : Nat) : (s.addCycles n).fault = s.fault := rfl
@[simp] theorem State.addCycles_lines (n : Nat) : (s.addCycles n).lines = s.lines := rfl
@[simp] theorem State.addCycles_mem (n : Nat) : (s.addCycles n).mem = s.mem := rfl
@[simp] theorem State.addCycles_dev (n : Nat) : (s.addCycles n).dev = s.dev := rfl
@[simp] theorem State.addCycles_sched (n : Nat) : (s.addCycles n).sched = s.sched := rfl
@[simp] theorem State.addCycles_host (n : Nat) : (s.addCycles n).host = s.host := rfl
@[simp] theorem State.addCycles_agenda (n : Nat) : (s.addCycles n).agenda = s.agenda := rfl
@[simp] theorem State.addCycles_draws (n : Nat) : (s.addCycles n).draws = s.draws := rfl

/-! ### `withWait` -/

@[simp] theorem State.withWait_cfg (w : Wait) : (s.withWait w).cfg = s.cfg := rfl
@[simp] theorem State.withWait_regs (w : Wait) : (s.withWait w).regs = s.regs := rfl
@[simp] theorem State.withWait_cycles (w : Wait) : (s.withWait w).cycles = s.cycles := rfl
@[simp] theorem State.withWait_wait (w : Wait) : (s.withWait w).wait = w := rfl
@[simp] theorem State.withWait_nmiArmed (w : Wait) : (s.withWait w).nmiArmed = s.nmiArmed := rfl
@[simp] theorem State.withWait_fault (w : Wait) : (s.withWait w).fault = s.fault := rfl
@[simp] theorem State.withWait_lines (w : Wait) : (s.withWait w).lines = s.lines := rfl
@[simp] theorem State.withWait_mem (w : Wait) : (s.withWait w).mem = s.mem := rfl
@[simp] theorem State.withWait_dev (w : Wait) : (s.withWait w).dev = s.dev := rfl
@[simp] theorem State.withWait_sched (w : Wait) : (s.withWait w).sched = s.sched := rfl
@[simp] theorem State.withWait_host (w : Wait) : (s.withWait w).host = s.host := rfl
@[simp] theorem State.withWait_agenda (w : Wait) : (s.withWait w).agenda = s.agenda := rfl
@[simp] theorem State.withWait_draws (w : Wait) : (s.withWait w).draws = s.draws := rfl

/-! ### `withNmiArmed` -/

@[simp] theorem State.withNmiArmed_cfg (b : Bool) : (s.withNmiArmed b).cfg = s.cfg := rfl
@[simp] theorem State.withNmiArmed_regs (b : Bool) : (s.withNmiArmed b).regs = s.regs := rfl
@[simp] theorem State.withNmiArmed_cycles (b : Bool) : (s.withNmiArmed b).cycles = s.cycles := rfl
@[simp] theorem State.withNmiArmed_wait (b : Bool) : (s.withNmiArmed b).wait = s.wait := rfl
@[simp] theorem State.withNmiArmed_nmiArmed (b : Bool) : (s.withNmiArmed b).nmiArmed = b := rfl
@[simp] theorem State.withNmiArmed_fault (b : Bool) : (s.withNmiArmed b).fault = s.fault := rfl
@[simp] theorem State.withNmiArmed_lines (b : Bool) : (s.withNmiArmed b).lines = s.lines := rfl
@[simp] theorem State.withNmiArmed_mem (b : Bool) : (s.withNmiArmed b).mem = s.mem := rfl
@[simp] theorem State.withNmiArmed_dev (b : Bool) : (s.withNmiArmed b).dev = s.dev := rfl
@[simp] theorem State.withNmiArmed_sched (b : Bool) : (s.withNmiArmed b).sched = s.sched := rfl
@[simp] theorem State.withNmiArmed_host (b : Bool) : (s.withNmiArmed b).host = s.host := rfl
@[simp] theorem State.withNmiArmed_agenda (b : Bool) : (s.withNmiArmed b).agenda = s.agenda := rfl
@[simp] theorem State.withNmiArmed_draws (b : Bool) : (s.withNmiArmed b).draws = s.draws := rfl

/-! ### `withFault` -/

@[simp] theorem State.withFault_cfg (f : Option FaultRecord) : (s.withFault f).cfg = s.cfg := rfl
@[simp] theorem State.withFault_regs (f : Option FaultRecord) : (s.withFault f).regs = s.regs := rfl
@[simp] theorem State.withFault_cycles (f : Option FaultRecord) : (s.withFault f).cycles = s.cycles := rfl
@[simp] theorem State.withFault_wait (f : Option FaultRecord) : (s.withFault f).wait = s.wait := rfl
@[simp] theorem State.withFault_nmiArmed (f : Option FaultRecord) : (s.withFault f).nmiArmed = s.nmiArmed := rfl
@[simp] theorem State.withFault_fault (f : Option FaultRecord) : (s.withFault f).fault = f := rfl
@[simp] theorem State.withFault_lines (f : Option FaultRecord) : (s.withFault f).lines = s.lines := rfl
@[simp] theorem State.withFault_mem (f : Option FaultRecord) : (s.withFault f).mem = s.mem := rfl
@[simp] theorem State.withFault_dev (f : Option FaultRecord) : (s.withFault f).dev = s.dev := rfl
@[simp] theorem State.withFault_sched (f : Option FaultRecord) : (s.withFault f).sched = s.sched := rfl
@[simp] theorem State.withFault_host (f : Option FaultRecord) : (s.withFault f).host = s.host := rfl
@[simp] theorem State.withFault_agenda (f : Option FaultRecord) : (s.withFault f).agenda = s.agenda := rfl
@[simp] theorem State.withFault_draws (f : Option FaultRecord) : (s.withFault f).draws = s.draws := rfl

/-! ### `withLines` -/

@[simp] theorem State.withLines_cfg (l : Lines) : (s.withLines l).cfg = s.cfg := rfl
@[simp] theorem State.withLines_regs (l : Lines) : (s.withLines l).regs = s.regs := rfl
@[simp] theorem State.withLines_cycles (l : Lines) : (s.withLines l).cycles = s.cycles := rfl
@[simp] theorem State.withLines_wait (l : Lines) : (s.withLines l).wait = s.wait := rfl
@[simp] theorem State.withLines_nmiArmed (l : Lines) : (s.withLines l).nmiArmed = s.nmiArmed := rfl
@[simp] theorem State.withLines_fault (l : Lines) : (s.withLines l).fault = s.fault := rfl
@[simp] theorem State.withLines_lines (l : Lines) : (s.withLines l).lines = l := rfl
@[simp] theorem State.withLines_mem (l : Lines) : (s.withLines l).mem = s.mem := rfl
@[simp] theorem State.withLines_dev (l : Lines) : (s.withLines l).dev = s.dev := rfl
@[simp] theorem State.withLines_sched (l : Lines) : (s.withLines l).sched = s.sched := rfl
@[simp] theorem State.withLines_host (l : Lines) : (s.withLines l).host = s.host := rfl
@[simp] theorem State.withLines_agenda (l : Lines) : (s.withLines l).agenda = s.agenda := rfl
@[simp] theorem State.withLines_draws (l : Lines) : (s.withLines l).draws = s.draws := rfl

/-! ### `withMem` -/

@[simp] theorem State.withMem_cfg (m : Memory) : (s.withMem m).cfg = s.cfg := rfl
@[simp] theorem State.withMem_regs (m : Memory) : (s.withMem m).regs = s.regs := rfl
@[simp] theorem State.withMem_cycles (m : Memory) : (s.withMem m).cycles = s.cycles := rfl
@[simp] theorem State.withMem_wait (m : Memory) : (s.withMem m).wait = s.wait := rfl
@[simp] theorem State.withMem_nmiArmed (m : Memory) : (s.withMem m).nmiArmed = s.nmiArmed := rfl
@[simp] theorem State.withMem_fault (m : Memory) : (s.withMem m).fault = s.fault := rfl
@[simp] theorem State.withMem_lines (m : Memory) : (s.withMem m).lines = s.lines := rfl
@[simp] theorem State.withMem_mem (m : Memory) : (s.withMem m).mem = m := rfl
@[simp] theorem State.withMem_dev (m : Memory) : (s.withMem m).dev = s.dev := rfl
@[simp] theorem State.withMem_sched (m : Memory) : (s.withMem m).sched = s.sched := rfl
@[simp] theorem State.withMem_host (m : Memory) : (s.withMem m).host = s.host := rfl
@[simp] theorem State.withMem_agenda (m : Memory) : (s.withMem m).agenda = s.agenda := rfl
@[simp] theorem State.withMem_draws (m : Memory) : (s.withMem m).draws = s.draws := rfl

/-! ### `withDev` -/

@[simp] theorem State.withDev_cfg (d : List Nat) : (s.withDev d).cfg = s.cfg := rfl
@[simp] theorem State.withDev_regs (d : List Nat) : (s.withDev d).regs = s.regs := rfl
@[simp] theorem State.withDev_cycles (d : List Nat) : (s.withDev d).cycles = s.cycles := rfl
@[simp] theorem State.withDev_wait (d : List Nat) : (s.withDev d).wait = s.wait := rfl
@[simp] theorem State.withDev_nmiArmed (d : List Nat) : (s.withDev d).nmiArmed = s.nmiArmed := rfl
@[simp] theorem State.withDev_fault (d : List Nat) : (s.withDev d).fault = s.fault := rfl
@[simp] theorem State.withDev_lines (d : List Nat) : (s.withDev d).lines = s.lines := rfl
@[simp] theorem State.withDev_mem (d : List Nat) : (s.withDev d).mem = s.mem := rfl
@[simp] theorem State.withDev_dev (d : List Nat) : (s.withDev d).dev = d := rfl
@[simp] theorem State.withDev_sched (d : List Nat) : (s.withDev d).sched = s.sched := rfl
@[simp] theorem State.withDev_host (d : List Nat) : (s.withDev d).host = s.host := rfl
@[simp] theorem State.withDev_agenda (d : List Nat) : (s.withDev d).agenda = s.agenda := rfl
@[simp] theorem State.withDev_draws (d : List Nat) : (s.withDev d).draws = s.draws := rfl

/-! ### `withSched` -/

@[simp] theorem State.withSched_cfg (x : Sched) : (s.withSched x).cfg = s.cfg := rfl
@[simp] theorem State.withSched_regs (x : Sched) : (s.withSched x).regs = s.regs := rfl
@[simp] theorem State.withSched_cycles (x : Sched) : (s.withSched x).cycles = s.cycles := rfl
@[simp] theorem State.withSched_wait (x : Sched) : (s.withSched x).wait = s.wait := rfl
@[simp] theorem State.withSched_nmiArmed (x : Sched) : (s.withSched x).nmiArmed = s.nmiArmed := rfl
@[simp] theorem State.withSched_fault (x : Sched) : (s.withSched x).fault = s.fault := rfl
@[simp] theorem State.withSched_lines (x : Sched) : (s.withSched x).lines = s.lines := rfl
@[simp] theorem State.withSched_mem (x : Sched) : (s.withSched x).mem = s.mem := rfl
@[simp] theorem State.withSched_dev (x : Sched) : (s.withSched x).dev = s.dev := rfl
@[simp] theorem State.withSched_sched (x : Sched) : (s.withSched x).sched = x := rfl
@[simp] theorem State.withSched_host (x : Sched) : (s.withSched x).host = s.host := rfl
@[simp] theorem State.withSched_agenda (x : Sched) : (s.withSched x).agenda = s.agenda := rfl
@[simp] theorem State.withSched_draws (x : Sched) : (s.withSched x).draws = s.draws := rfl

/-! ### `withHost` -/

@[simp] theorem State.withHost_cfg (h : HostQueues) : (s.withHost h).cfg = s.cfg := rfl
@[simp] theorem State.withHost_regs (h : HostQueues) : (s.withHost h).regs = s.regs := rfl
@[simp] theorem State.withHost_cycles (h : HostQueues) : (s.withHost h).cycles = s.cycles := rfl
@[simp] theorem State.withHost_wait (h : HostQueues) : (s.withHost h).wait = s.wait := rfl
@[simp] theorem State.withHost_nmiArmed (h : HostQueues) : (s.withHost h).nmiArmed = s.nmiArmed := rfl
@[simp] theorem State.withHost_fault (h : HostQueues) : (s.withHost h).fault = s.fault := rfl
@[simp] theorem State.withHost_lines (h : HostQueues) : (s.withHost h).lines = s.lines := rfl
@[simp] theorem State.withHost_mem (h : HostQueues) : (s.withHost h).mem = s.mem := rfl
@[simp] theorem State.withHost_dev (h : HostQueues) : (s.withHost h).dev = s.dev := rfl
@[simp] theorem State.withHost_sched (h : HostQueues) : (s.withHost h).sched = s.sched := rfl
@[simp] theorem State.withHost_host (h : HostQueues) : (s.withHost h).host = h := rfl
@[simp] theorem State.withHost_agenda (h : HostQueues) : (s.withHost h).agenda = s.agenda := rfl
@[simp] theorem State.withHost_draws (h : HostQueues) : (s.withHost h).draws = s.draws := rfl

/-! ### `withAgenda` -/

@[simp] theorem State.withAgenda_cfg (l : List Turn) : (s.withAgenda l).cfg = s.cfg := rfl
@[simp] theorem State.withAgenda_regs (l : List Turn) : (s.withAgenda l).regs = s.regs := rfl
@[simp] theorem State.withAgenda_cycles (l : List Turn) : (s.withAgenda l).cycles = s.cycles := rfl
@[simp] theorem State.withAgenda_wait (l : List Turn) : (s.withAgenda l).wait = s.wait := rfl
@[simp] theorem State.withAgenda_nmiArmed (l : List Turn) : (s.withAgenda l).nmiArmed = s.nmiArmed := rfl
@[simp] theorem State.withAgenda_fault (l : List Turn) : (s.withAgenda l).fault = s.fault := rfl
@[simp] theorem State.withAgenda_lines (l : List Turn) : (s.withAgenda l).lines = s.lines := rfl
@[simp] theorem State.withAgenda_mem (l : List Turn) : (s.withAgenda l).mem = s.mem := rfl
@[simp] theorem State.withAgenda_dev (l : List Turn) : (s.withAgenda l).dev = s.dev := rfl
@[simp] theorem State.withAgenda_sched (l : List Turn) : (s.withAgenda l).sched = s.sched := rfl
@[simp] theorem State.withAgenda_host (l : List Turn) : (s.withAgenda l).host = s.host := rfl
@[simp] theorem State.withAgenda_agenda (l : List Turn) : (s.withAgenda l).agenda = l := rfl
@[simp] theorem State.withAgenda_draws (l : List Turn) : (s.withAgenda l).draws = s.draws := rfl

/-! ### `drawn` -/

@[simp] theorem State.drawn_cfg (n : Nat) : (s.drawn n).cfg = s.cfg := rfl
@[simp] theorem State.drawn_regs (n : Nat) : (s.drawn n).regs = s.regs := rfl
@[simp] theorem State.drawn_cycles (n : Nat) : (s.drawn n).cycles = s.cycles := rfl
@[simp] theorem State.drawn_wait (n : Nat) : (s.drawn n).wait = s.wait := rfl
@[simp] theorem State.drawn_nmiArmed (n : Nat) : (s.drawn n).nmiArmed = s.nmiArmed := rfl
@[simp] theorem State.drawn_fault (n : Nat) : (s.drawn n).fault = s.fault := rfl
@[simp] theorem State.drawn_lines (n : Nat) : (s.drawn n).lines = s.lines := rfl
@[simp] theorem State.drawn_mem (n : Nat) : (s.drawn n).mem = s.mem := rfl
@[simp] theorem State.drawn_dev (n : Nat) : (s.drawn n).dev = s.dev := rfl
@[simp] theorem State.drawn_sched (n : Nat) : (s.drawn n).sched = s.sched := rfl
@[simp] theorem State.drawn_host (n : Nat) : (s.drawn n).host = s.host := rfl
@[simp] theorem State.drawn_agenda (n : Nat) : (s.drawn n).agenda = s.agenda := rfl
@[simp] theorem State.drawn_draws (n : Nat) : (s.drawn n).draws = s.draws + n := rfl

/-! ### `access`: under either cycle policy only `cycles` may change -/

@[simp] theorem State.access_cfg (n : Nat) : (s.access n).cfg = s.cfg := by
  unfold State.access; split <;> rfl
@[simp] theorem State.access_regs (n : Nat) : (s.access n).regs = s.regs := by
  unfold State.access; split <;> rfl
@[simp] theorem State.access_wait (n : Nat) : (s.access n).wait = s.wait := by
  unfold State.access; split <;> rfl
@[simp] theorem State.access_nmiArmed (n : Nat) : (s.access n).nmiArmed = s.nmiArmed := by
  unfold State.access; split <;> rfl
@[simp] theorem State.access_fault (n : Nat) : (s.access n).fault = s.fault := by
  unfold State.access; split <;> rfl
@[simp] theorem State.access_lines (n : Nat) : (s.access n).lines = s.lines := by
  unfold State.access; split <;> rfl
@[simp] theorem State.access_mem (n : Nat) : (s.access n).mem = s.mem := by
  unfold State.access; split <;> rfl
@[simp] theorem State.access_dev (n : Nat) : (s.access n).dev = s.dev := by
  unfold State.access; split <;> rfl
@[simp] theorem State.access_sched (n : Nat) : (s.access n).sched = s.sched := by
  unfold State.access; split <;> rfl
@[simp] theorem State.access_host (n : Nat) : (s.access n).host = s.host := by
  unfold State.access; split <;> rfl
@[simp] theorem State.access_agenda (n : Nat) : (s.access n).agenda = s.agenda := by
  unfold State.access; split <;> rfl
@[simp] theorem State.access_draws (n : Nat) : (s.access n).draws = s.draws := by
  unfold State.access; split <;> rfl

theorem State.access_eq (n : Nat) : s.access n = s.addCycles (accessCost s.cfg n) := by
  unfold State.access accessCost
  cases s.cfg.cyclePolicy <;> rfl

theorem State.access_cycles_le (n : Nat) : s.cycles ≤ (s.access n).cycles := by
  unfold State.access; split <;> simp

/-! ### `recordFault` -/

@[simp] theorem State.recordFault_cfg (k : FaultKind) (a : Word) (i : FaultInfo) :
    (s.recordFault k a i).cfg = s.cfg := rfl
@[simp] theorem State.recordFault_regs (k : FaultKind) (a : Word) (i : FaultInfo) :
    (s.recordFault k a i).regs = s.regs := rfl
@[simp] theorem State.recordFault_cycles (k : FaultKind) (a : Word) (i : FaultInfo) :
    (s.recordFault k a i).cycles = s.cycles := rfl
@[simp] theorem State.recordFault_wait (k : FaultKind) (a : Word) (i : FaultInfo) :
    (s.recordFault k a i).wait = s.wait := rfl
@[simp] theorem State.recordFault_nmiArmed (k : FaultKind) (a : Word) (i : FaultInfo) :
    (s.recordFault k a i).nmiArmed = s.nmiArmed := rfl
@[simp] theorem State.recordFault_fault (k : FaultKind) (a : Word) (i : FaultInfo) :
    (s.recordFault k a i).fault = some ⟨k, a, i⟩ := rfl
@[simp] theorem State.recordFault_lines (k : FaultKind) (a : Word) (i : FaultInfo) :
    (s.recordFault k a i).lines = s.lines := rfl
@[simp] theorem State.recordFault_mem (k : FaultKind) (a : Word) (i : FaultInfo) :
    (s.recordFault k a i).mem = s.mem := rfl
@[simp] theorem State.recordFault_dev (k : FaultKind) (a : Word) (i : FaultInfo) :
    (s.recordFault k a i).dev = s.dev := rfl
@[simp] theorem State.recordFault_sched (k : FaultKind) (a : Word) (i : FaultInfo) :
    (s.recordFault k a i).sched = { s.sched with running := false } := rfl
@[simp] theorem State.recordFault_host (k : FaultKind) (a : Word) (i : FaultInfo) :
    (s.recordFault k a i).host = s.host := rfl
@[simp] theorem State.recordFault_agenda (k : FaultKind) (a : Word) (i : FaultInfo) :
    (s.recordFault k a i).agenda = s.agenda := rfl
@[simp] theorem State.recordFault_draws (k : FaultKind) (a : Word) (i : FaultInfo) :
    (s.recordFault k a i).draws = s.draws := rfl

/-! ### `storeByte`: at most a byte of RAM -/

@[simp] theorem State.storeByte_cfg (a : Word) (v : Byte) : (s.storeByte a v).cfg = s.cfg := by
  unfold State.storeByte; split <;> rfl
@[simp] theorem State.storeByte_regs (a : Word) (v : Byte) : (s.storeByte a v).regs = s.regs := by
  unfold State.storeByte; split <;> rfl
@[simp] theorem State.storeByte_cycles (a : Word) (v : Byte) : (s.storeByte a v).cycles = s.cycles := by
  unfold State.storeByte; split <;> rfl
@[simp] theorem State.storeByte_wait (a : Word) (v : Byte) : (s.storeByte a v).wait = s.wait := by
  unfold State.storeByte; split <;> rfl
@[simp] theorem State.storeByte_nmiArmed (a : Word) (v : Byte) : (s.storeByte a v).nmiArmed = s.nmiArmed := by
  unfold State.storeByte; split <;> rfl
@[simp] theorem State.storeByte_fault (a : Word) (v : Byte) : (s.storeByte a v).fault = s.fault := by
  unfold State.storeByte; split <;> rfl
@[simp] theorem State.storeByte_lines (a : Word) (v : Byte) : (s.storeByte a v).lines = s.lines := by
  unfold State.storeByte; split <;> rfl
@[simp] theorem State.storeByte_dev (a : Word) (v : Byte) : (s.storeByte a v).dev = s.dev := by
  unfold State.storeByte; split <;> rfl
@[simp] theorem State.storeByte_sched (a : Word) (v : Byte) : (s.storeByte a v).sched = s.sched := by
  unfold State.storeByte; split <;> rfl
@[simp] theorem State.storeByte_host (a : Word) (v : Byte) : (s.storeByte a v).host = s.host := by
  unfold State.storeByte; split <;> rfl
@[simp] theorem State.storeByte_agenda (a : Word) (v : Byte) : (s.storeByte a v).agenda = s.agenda := by
  unfold State.storeByte; split <;> rfl
@[simp] theorem State.storeByte_draws (a : Word) (v : Byte) : (s.storeByte a v).draws = s.draws := by
  unfold State.storeByte; split <;> rfl

/-! ### `storeWord` -/

@[simp] theorem State.storeWord_cfg (a v : Word) : (s.storeWord a v).cfg = s.cfg := by
  simp [State.storeWord]
@[simp] theorem State.storeWord_regs (a v : Word) : (s.storeWord a v).regs = s.regs := by
  simp [State.storeWord]
@[simp] theorem State.storeWord_cycles (a v : Word) : (s.storeWord a v).cycles = s.cycles := by
  simp [State.storeWord]
@[simp] theorem State.storeWord_wait (a v : Word) : (s.storeWord a v).wait = s.wait := by
  simp [State.storeWord]
@[simp] theorem State.storeWord_nmiArmed (a v : Word) : (s.storeWord a v).nmiArmed = s.nmiArmed := by
  simp [State.storeWord]
@[simp] theorem State.storeWord_fault (a v : Word) : (s.storeWord a v).fault = s.fault := by
  simp [State.storeWord]
@[simp] theorem State.storeWord_lines (a v : Word) : (s.storeWord a v).lines = s.lines := by
  simp [State.storeWord]
@[simp] theorem State.storeWord_dev (a v : Word) : (s.storeWord a v).dev = s.dev := by
  simp [State.storeWord]
@[simp] theorem State.storeWord_sched (a v : Word) : (s.storeWord a v).sched = s.sched := by
  simp [State.storeWord]
@[simp] theorem State.storeWord_host (a v : Word) : (s.storeWord a v).host = s.host := by
  simp [State.storeWord]
@[simp] theorem State.storeWord_agenda (a v : Word) : (s.storeWord a v).agenda = s.agenda := by
  simp [State.storeWord]
@[simp] theorem State.storeWord_draws (a v : Word) : (s.storeWord a v).draws = s.draws := by
  simp [State.storeWord]

/-! ### `freeWorld`: a free change of the devices' world -/

@[simp] theorem State.freeWorld_cfg (args : CbArgs) (reply k : Nat) : (s.freeWorld args reply k).cfg = s.cfg := rfl
@[simp] theorem State.freeWorld_regs (args : CbArgs) (reply k : Nat) : (s.freeWorld args reply k).regs = s.regs := rfl
@[simp] theorem State.freeWorld_cycles (args : CbArgs) (reply k : Nat) : (s.freeWorld args reply k).cycles = s.cycles := rfl
@[simp] theorem State.freeWorld_wait (args : CbArgs) (reply k : Nat) : (s.freeWorld args reply k).wait = s.wait := rfl
@[simp] theorem State.freeWorld_nmiArmed (args : CbArgs) (reply k : Nat) : (s.freeWorld args reply k).nmiArmed = s.nmiArmed := rfl
@[simp] theorem State.freeWorld_fault (args : CbArgs) (reply k : Nat) : (s.freeWorld args reply k).fault = s.fault := rfl
@[simp] theorem State.freeWorld_mem (args : CbArgs) (reply k : Nat) : (s.freeWorld args reply k).mem = s.mem := rfl
@[simp] theorem State.freeWorld_sched (args : CbArgs) (reply k : Nat) : (s.freeWorld args reply k).sched = s.sched := rfl
@[simp] theorem State.freeWorld_agenda (args : CbArgs) (reply k : Nat) : (s.freeWorld args reply k).agenda = s.agenda := rfl
@[simp] theorem State.freeWorld_draws (args : CbArgs) (reply k : Nat) : (s.freeWorld args reply k).draws = s.draws := rfl

/-- The NMI latch, once set, stays set, whatever a device does (60_exceptions.md R610). -/
theorem State.freeWorld_latch (args : CbArgs) (reply k : Nat) (h : s.lines.nmiLatch = true) :
    (s.freeWorld args reply k).lines.nmiLatch = true := by
  simp [State.freeWorld, State.withLines, State.withHost, h]

/-! ### `setField`, `loadFields`: what a handler of opcode 0x3E writes -/

@[simp] theorem State.setField_cfg (v : Nat) (f : MachineField) : (s.setField v f).cfg = s.cfg := by cases f <;> rfl
@[simp] theorem State.setField_cycles (v : Nat) (f : MachineField) : (s.setField v f).cycles = s.cycles := by cases f <;> rfl
@[simp] theorem State.setField_fault (v : Nat) (f : MachineField) : (s.setField v f).fault = s.fault := by cases f <;> rfl
@[simp] theorem State.setField_mem (v : Nat) (f : MachineField) : (s.setField v f).mem = s.mem := by cases f <;> rfl
@[simp] theorem State.setField_dev (v : Nat) (f : MachineField) : (s.setField v f).dev = s.dev := by cases f <;> rfl
@[simp] theorem State.setField_host (v : Nat) (f : MachineField) : (s.setField v f).host = s.host := by cases f <;> rfl
@[simp] theorem State.setField_agenda (v : Nat) (f : MachineField) : (s.setField v f).agenda = s.agenda := by cases f <;> rfl
@[simp] theorem State.setField_draws (v : Nat) (f : MachineField) : (s.setField v f).draws = s.draws := by cases f <;> rfl

/-- A field no handler can write is kept by any number of writes. -/
theorem State.foldl_setField {α : Type} (get : State → α) (h : ∀ t v f, get (State.setField t v f) = get t)
    (g : DevExpr → Nat) (ws : List (MachineField × DevExpr)) (t : State) :
    get (ws.foldl (fun t w => t.setField (g w.2) w.1) t) = get t := by
  induction ws generalizing t with
  | nil => rfl
  | cons w rest ih => rw [List.foldl_cons, ih, h]

@[simp] theorem State.loadFields_cfg (reply : Nat) (ws : List (MachineField × DevExpr)) :
    (s.loadFields reply ws).cfg = s.cfg :=
  State.foldl_setField State.cfg State.setField_cfg _ ws s
@[simp] theorem State.loadFields_cycles (reply : Nat) (ws : List (MachineField × DevExpr)) :
    (s.loadFields reply ws).cycles = s.cycles :=
  State.foldl_setField State.cycles State.setField_cycles _ ws s
@[simp] theorem State.loadFields_fault (reply : Nat) (ws : List (MachineField × DevExpr)) :
    (s.loadFields reply ws).fault = s.fault :=
  State.foldl_setField State.fault State.setField_fault _ ws s
@[simp] theorem State.loadFields_mem (reply : Nat) (ws : List (MachineField × DevExpr)) :
    (s.loadFields reply ws).mem = s.mem :=
  State.foldl_setField State.mem State.setField_mem _ ws s
@[simp] theorem State.loadFields_dev (reply : Nat) (ws : List (MachineField × DevExpr)) :
    (s.loadFields reply ws).dev = s.dev :=
  State.foldl_setField State.dev State.setField_dev _ ws s
@[simp] theorem State.loadFields_host (reply : Nat) (ws : List (MachineField × DevExpr)) :
    (s.loadFields reply ws).host = s.host :=
  State.foldl_setField State.host State.setField_host _ ws s
@[simp] theorem State.loadFields_agenda (reply : Nat) (ws : List (MachineField × DevExpr)) :
    (s.loadFields reply ws).agenda = s.agenda :=
  State.foldl_setField State.agenda State.setField_agenda _ ws s
@[simp] theorem State.loadFields_draws (reply : Nat) (ws : List (MachineField × DevExpr)) :
    (s.loadFields reply ws).draws = s.draws :=
  State.foldl_setField State.draws State.setField_draws _ ws s

theorem State.withNmiArmed_self : s.withNmiArmed s.nmiArmed = s := rfl
theorem State.withWait_self : s.withWait s.wait = s := rfl
theorem State.withMem_self : s.withMem s.mem = s := rfl

/-- Two states with the same fields are the same state. -/
theorem State.eq_of_fields {s t : State} (h1 : s.cfg = t.cfg) (h2 : s.regs = t.regs) (h3 : s.cycles = t.cycles)
    (h4 : s.wait = t.wait) (h5 : s.nmiArmed = t.nmiArmed) (h6 : s.fault = t.fault) (h7 : s.lines = t.lines)
    (h8 : s.mem = t.mem) (h9 : s.dev = t.dev) (h10 : s.sched = t.sched) (h11 : s.host = t.host)
    (h12 : s.agenda = t.agenda) (h13 : s.draws = t.draws) : s = t := by
  cases s; cases t; simp_all

end Sys2Proof.Machine
end

