-- ==== Sys2Proof/Laws/Computation.lean ====
section
/-! SUPPORT. Computations over the state, applied to a state; and relations between the state before and after that a
computation respects however it ends. -/

namespace Sys2Proof.Machine

/-! ## A computation applied to a state -/

theorem bind_apply {α β : Type} (x : M α) (f : α → M β) (s : State) :
    (x >>= f) s = match x s with
      | .ok v t => f v t
      | .error e t => .error e t := by
  simp only [bind, EStateM.bind]
  cases x s <;> rfl

theorem bind_ok {α β : Type} {x : M α} {f : α → M β} {s t : State} {v : α} (h : x s = .ok v t) :
    (x >>= f) s = f v t := by rw [bind_apply, h]

theorem bind_error {α β : Type} {x : M α} {f : α → M β} {s t : State} {e : Raise} (h : x s = .error e t) :
    (x >>= f) s = .error e t := by rw [bind_apply, h]

@[simp] theorem pure_apply {α : Type} (v : α) (s : State) : (pure v : M α) s = .ok v s := rfl

@[simp] theorem get_apply (s : State) : (get : M State) s = .ok s s := rfl

@[simp] theorem set_apply (s t : State) : (set t : M PUnit) s = .ok ⟨⟩ t := rfl

@[simp] theorem modify_apply (f : State → State) (s : State) : (modify f : M PUnit) s = .ok ⟨⟩ (f s) := rfl

@[simp] theorem throw_apply {α : Type} (e : Raise) (s : State) : (throw e : M α) s = .error e s := rfl

@[simp] theorem getRegs_apply (s : State) : getRegs s = .ok s.regs s := rfl

@[simp] theorem modifyRegs_apply (f : Regs → Regs) (s : State) :
    modifyRegs f s = .ok ⟨⟩ (s.withRegs (f s.regs)) := rfl

@[simp] theorem modifyCC_apply (f : CC → CC) (s : State) :
    modifyCC f s = .ok ⟨⟩ (s.withRegs (s.regs.setCC (f s.regs.cc))) := rfl

@[simp] theorem setPc_apply (a : Word) (s : State) : setPc a s = .ok ⟨⟩ (s.withRegs (s.regs.setPc a)) := rfl

@[simp] theorem addCycles_apply (n : Nat) (s : State) : addCycles n s = .ok ⟨⟩ (s.addCycles n) := rfl

@[simp] theorem getCC_apply (s : State) : getCC s = .ok s.regs.cc s := rfl

@[simp] theorem armNmi_s (s : State) : armNmi .s s = .ok ⟨⟩ (s.withNmiArmed true) := rfl
@[simp] theorem armNmi_d (s : State) : armNmi .d s = .ok ⟨⟩ s := rfl
@[simp] theorem armNmi_x (s : State) : armNmi .x s = .ok ⟨⟩ s := rfl
@[simp] theorem armNmi_y (s : State) : armNmi .y s = .ok ⟨⟩ s := rfl
@[simp] theorem armNmi_u (s : State) : armNmi .u s = .ok ⟨⟩ s := rfl

theorem undefFlag_preserve {s : State} (h : s.cfg.undefFlags = .preserve) (old : Bool) :
    undefFlag old s = .ok old s := by
  simp only [undefFlag, bind_apply, get_apply, h, pure_apply]

theorem undefFlag_arbitrary {s : State} (h : s.cfg.undefFlags = .arbitrary) (old : Bool) :
    undefFlag old s = .ok (Config.freeFlag s.draws) (s.drawn 1) := by
  simp only [undefFlag, bind_apply, get_apply, h, set_apply, pure_apply]

/-! ## Relations every ending respects -/

/-- However the computation ends, the state it leaves is related to the state it began in. -/
def Respects {α : Type} (R : State → State → Prop) (x : M α) : Prop :=
  ∀ s, match x s with
    | .ok _ t => R s t
    | .error _ t => R s t

/-- A relation that holds of no change and of one change after another. -/
structure Stable (R : State → State → Prop) : Prop where
  refl : ∀ s, R s s
  trans : ∀ {s t u}, R s t → R t u → R s u

variable {R : State → State → Prop} {α β : Type}

theorem Respects.ok {x : M α} (h : Respects R x) {s t : State} {v : α} (e : x s = .ok v t) : R s t := by
  have := h s; rwa [e] at this

theorem Respects.error {x : M α} (h : Respects R x) {s t : State} {v : Raise} (e : x s = .error v t) : R s t := by
  have := h s; rwa [e] at this

theorem Respects.weaken {Q : State → State → Prop} {x : M α} (h : Respects R x) (hQ : ∀ {s t}, R s t → Q s t) : Respects Q x := by
  intro s
  have := h s
  cases e : x s <;> simp only [e] at this ⊢ <;> exact hQ this

theorem Respects.of_pure (S : Stable R) (v : α) : Respects R (pure v : M α) := fun s => S.refl s

theorem Respects.of_throw (S : Stable R) (e : Raise) : Respects R (throw e : M α) := fun s => S.refl s

theorem Respects.of_get (S : Stable R) : Respects R (get : M State) := fun s => S.refl s

theorem Respects.of_modify {f : State → State} (h : ∀ s, R s (f s)) : Respects R (modify f : M PUnit) := fun s => h s

theorem Respects.of_bind (S : Stable R) {x : M α} {f : α → M β} (hx : Respects R x) (hf : ∀ v, Respects R (f v)) :
    Respects R (x >>= f) := by
  intro s
  rw [bind_apply]
  cases e : x s with
  | ok v t =>
    have h1 := hx.ok e
    have h2 := hf v t
    cases e2 : f v t <;> simp only [e2] at h2 ⊢ <;> exact S.trans h1 h2
  | error v t => exact hx.error e

/-- A computation that first looks at the state. -/
theorem Respects.of_get_bind {f : State → M β} (h : ∀ s, match f s s with
    | .ok _ t => R s t
    | .error _ t => R s t) : Respects R ((get : M State) >>= f) := by
  intro s
  rw [bind_apply]
  exact h s

theorem Respects.of_ite {p : Prop} [Decidable p] {x y : M α} (hx : Respects R x) (hy : Respects R y) :
    Respects R (if p then x else y) := by
  split <;> assumption

theorem Respects.of_getRegs (S : Stable R) : Respects R getRegs := fun s => S.refl s

theorem Respects.of_getCC (S : Stable R) : Respects R getCC := fun s => S.refl s

theorem Respects.of_modifyRegs {f : Regs → Regs} (h : ∀ s : State, R s (s.withRegs (f s.regs))) :
    Respects R (modifyRegs f) := fun s => h s

end Sys2Proof.Machine
end

