-- ==== Sys2Proof/Laws/Memory.lean ====
section
/-! SUPPORT. The backing store: a write is read back and leaves every other address, and every operation keeps the
canonical form (20_memory.md R81). -/

namespace Sys2Proof.Machine

/-! ## The canonical form -/

theorem Memory.wfFrom_cons {lo k : Nat} {v : Byte} {m : Memory} :
    Memory.wfFrom lo ((k, v) :: m) = true ↔
      lo ≤ k ∧ k < 65536 ∧ v ≠ blankByte ∧ Memory.wfFrom (k + 1) m = true := by
  simp [Memory.wfFrom, and_assoc]

theorem Memory.wfFrom_mono {lo lo' : Nat} {m : Memory} (h : Memory.wfFrom lo m = true) (hl : lo' ≤ lo) :
    Memory.wfFrom lo' m = true := by
  cases m with
  | nil => rfl
  | cons c m =>
    obtain ⟨k, v⟩ := c
    rw [Memory.wfFrom_cons] at h ⊢
    exact ⟨by omega, h.2⟩

/-- An address below every entry reads as blank. -/
theorem Memory.read_below {lo a : Nat} {m : Memory} (h : Memory.wfFrom lo m = true) (ha : a < lo) :
    Memory.read m a = blankByte := by
  induction m generalizing lo with
  | nil => rfl
  | cons c m ih =>
    obtain ⟨k, v⟩ := c
    rw [Memory.wfFrom_cons] at h
    have hne : k ≠ a := by omega
    simp only [Memory.read, hne, if_false]
    exact ih h.2.2.2 (by omega)

/-- A write keeps the canonical form from `lo` on. -/
theorem Memory.wfFrom_write {lo a : Nat} {v : Byte} {m : Memory} (h : Memory.wfFrom lo m = true) (hlo : lo ≤ a)
    (ha : a < 65536) : Memory.wfFrom lo (Memory.write m a v) = true := by
  induction m generalizing lo with
  | nil =>
    unfold Memory.write
    split
    · rfl
    · rename_i hv
      exact Memory.wfFrom_cons.2 ⟨hlo, ha, hv, rfl⟩
  | cons c m ih =>
    obtain ⟨k, w⟩ := c
    have hc := Memory.wfFrom_cons.1 h
    unfold Memory.write
    split
    · split
      · exact h
      · rename_i hlt hv
        refine Memory.wfFrom_cons.2 ⟨hlo, ha, hv, ?_⟩
        exact Memory.wfFrom_cons.2 ⟨by omega, hc.2⟩
    · split
      · rename_i he
        split
        · exact Memory.wfFrom_mono hc.2.2.2 (by omega)
        · rename_i hv
          refine Memory.wfFrom_cons.2 ⟨hlo, ha, hv, ?_⟩
          rw [he]
          exact hc.2.2.2
      · exact Memory.wfFrom_cons.2 ⟨hc.1, hc.2.1, hc.2.2.1, ih hc.2.2.2 (by omega)⟩

theorem Memory.wf_write {a : Nat} {v : Byte} {m : Memory} (h : m.wf = true) (ha : a < 65536) :
    (m.write a v).wf = true := Memory.wfFrom_write h (Nat.zero_le a) ha

theorem Memory.wf_load {m : Memory} {a : Nat} {bs : List Byte} (h : m.wf = true) (ha : a + bs.length ≤ 65536) :
    (m.load a bs).wf = true := by
  induction bs generalizing m a with
  | nil => exact h
  | cons v vs ih =>
    simp only [List.length_cons] at ha
    exact ih (Memory.wf_write h (by omega)) (by omega)

theorem Memory.wf_writeAll {m : Memory} {cells : List Host.Cell} (h : m.wf = true) (hc : ∀ c ∈ cells, c.1 < 65536) :
    (m.writeAll cells).wf = true := by
  induction cells generalizing m with
  | nil => exact h
  | cons c cells ih =>
    obtain ⟨a, v⟩ := c
    exact ih (Memory.wf_write h (hc (a, v) (by simp))) (fun c hm => hc c (by simp [hm]))

theorem Memory.wfFrom_filter {lo : Nat} {m : Memory} (p : Host.Cell → Bool) (h : Memory.wfFrom lo m = true) :
    Memory.wfFrom lo (m.filter p) = true := by
  induction m generalizing lo with
  | nil => rfl
  | cons c m ih =>
    obtain ⟨k, v⟩ := c
    have hc := Memory.wfFrom_cons.1 h
    have hm := ih hc.2.2.2
    simp only [List.filter]
    split
    · exact Memory.wfFrom_cons.2 ⟨hc.1, hc.2.1, hc.2.2.1, hm⟩
    · exact Memory.wfFrom_mono hm (by omega)

theorem Memory.wf_filter {m : Memory} (p : Host.Cell → Bool) (h : m.wf = true) : Memory.wf (m.filter p) = true :=
  Memory.wfFrom_filter p h

theorem Memory.wf_nil : Memory.wf [] = true := rfl

/-! ## Reading after writing -/

/-- A write leaves every other address, in any memory. -/
theorem Memory.read_write_other {a b : Nat} (v : Byte) (m : Memory) (hab : b ≠ a) :
    (m.write a v).read b = m.read b := by
  induction m with
  | nil =>
    unfold Memory.write
    split
    · rfl
    · simp [Memory.read, Ne.symm hab]
  | cons c m ih =>
    obtain ⟨k, w⟩ := c
    unfold Memory.write
    split
    · split
      · rfl
      · simp [Memory.read, Ne.symm hab]
    · split
      · rename_i he
        subst he
        split <;> simp [Memory.read, Ne.symm hab]
      · simp only [Memory.read, ih]

/-- A write is read back, in a memory in canonical form. -/
theorem Memory.read_write_same_from {lo a : Nat} (v : Byte) {m : Memory} (h : Memory.wfFrom lo m = true) :
    (m.write a v).read a = v := by
  induction m generalizing lo with
  | nil =>
    unfold Memory.write
    split
    · rename_i hv
      simp [Memory.read, hv]
    · simp [Memory.read]
  | cons c m ih =>
    obtain ⟨k, w⟩ := c
    have hc := Memory.wfFrom_cons.1 h
    unfold Memory.write
    split
    · rename_i hlt
      split
      · rename_i hv
        rw [hv]
        exact Memory.read_below (lo := k) (Memory.wfFrom_cons.2 ⟨le_refl k, hc.2⟩) hlt
      · simp [Memory.read]
    · split
      · rename_i he
        subst he
        split
        · rename_i hv
          rw [hv]
          exact Memory.read_below hc.2.2.2 (Nat.lt_succ_self a)
        · simp [Memory.read]
      · rename_i hne
        have : k ≠ a := fun e => hne e.symm
        simp only [Memory.read, this, if_false]
        exact ih hc.2.2.2

theorem Memory.read_write_same {a : Nat} (v : Byte) {m : Memory} (h : m.wf = true) : (m.write a v).read a = v :=
  Memory.read_write_same_from v h

theorem Memory.read_write {a b : Nat} (v : Byte) {m : Memory} (h : m.wf = true) :
    (m.write a v).read b = if b = a then v else m.read b := by
  split
  · rename_i e
    rw [e]
    exact Memory.read_write_same v h
  · rename_i e
    exact Memory.read_write_other v m e

/-! ## The bus's view of the store -/

/-- Two words are the same address. -/
theorem toNat_ne_of_ne {a b : Word} (h : a ≠ b) : a.toNat ≠ b.toNat := fun e => h (BitVec.eq_of_toNat_eq e)

/-- The bus reads back what a store left: the byte where it landed in RAM, the old byte elsewhere (20_memory.md R92, R95). -/
theorem State.backing_storeByte {s : State} (h : s.mem.wf = true) (a : Word) (v : Byte) (b : Word) :
    (s.storeByte a v).backing b = if b = a ∧ region s.cfg a = .ram then v else s.backing b := by
  unfold State.storeByte State.backing
  cases hr : region s.cfg a with
  | ram =>
    simp only [State.withMem_cfg, State.withMem_mem, and_true]
    by_cases e : b = a
    · subst e
      simp only [hr, Memory.read_write_same v h, if_true]
    · simp only [Memory.read_write_other v s.mem (toNat_ne_of_ne e), e, if_false]
  | rom => simp
  | unmapped => simp

/-- A store leaves what the bus reads at every other address, in any memory. -/
theorem State.backing_storeByte_other (s : State) {a b : Word} (v : Byte) (hb : b ≠ a) :
    (s.storeByte a v).backing b = s.backing b := by
  unfold State.storeByte
  cases region s.cfg a with
  | ram =>
    simp only [State.backing, State.withMem_cfg, State.withMem_mem,
      Memory.read_write_other v s.mem (toNat_ne_of_ne hb)]
  | rom => rfl
  | unmapped => rfl

/-- A store outside the RAM window is dropped (20_memory.md R95). -/
theorem State.storeByte_dropped (s : State) {a : Word} (v : Byte) (h : region s.cfg a ≠ .ram) : s.storeByte a v = s := by
  unfold State.storeByte
  cases hr : region s.cfg a with
  | ram => exact absurd hr h
  | rom => rfl
  | unmapped => rfl

/-- An address and the next are different. -/
theorem word_add_one_ne (a : Word) : a + 1 ≠ a := by
  intro h
  have := congrArg BitVec.toNat h
  rw [BitVec.toNat_add] at this
  have := a.isLt
  simp at *

theorem State.storeByte_wf {s : State} (h : s.mem.wf = true) (a : Word) (v : Byte) : (s.storeByte a v).mem.wf = true := by
  unfold State.storeByte
  split
  · exact Memory.wf_write h a.isLt
  · exact h
  · exact h

/-- A store changes no address outside the RAM window (20_memory.md R95). -/
theorem State.storeByte_outside (s : State) (a : Word) (v : Byte) {b : Word} (hb : region s.cfg b ≠ .ram) :
    (s.storeByte a v).mem.read b.toNat = s.mem.read b.toNat := by
  unfold State.storeByte
  split
  · rename_i hr
    have : b ≠ a := fun e => hb (e ▸ hr)
    exact Memory.read_write_other v s.mem (toNat_ne_of_ne this)
  · rfl
  · rfl

@[simp] theorem State.withRegs_backing (s : State) (r : Regs) (a : Word) : (s.withRegs r).backing a = s.backing a := rfl
@[simp] theorem State.addCycles_backing (s : State) (n : Nat) (a : Word) : (s.addCycles n).backing a = s.backing a := rfl
@[simp] theorem State.drawn_backing (s : State) (n : Nat) (a : Word) : (s.drawn n).backing a = s.backing a := rfl
@[simp] theorem State.withNmiArmed_backing (s : State) (b : Bool) (a : Word) :
    (s.withNmiArmed b).backing a = s.backing a := rfl
@[simp] theorem State.withWait_backing (s : State) (w : Wait) (a : Word) : (s.withWait w).backing a = s.backing a := rfl
@[simp] theorem State.withLines_backing (s : State) (l : Lines) (a : Word) : (s.withLines l).backing a = s.backing a := rfl
@[simp] theorem State.withFault_backing (s : State) (f : Option FaultRecord) (a : Word) :
    (s.withFault f).backing a = s.backing a := rfl
@[simp] theorem State.access_backing (s : State) (n : Nat) (a : Word) : (s.access n).backing a = s.backing a := by
  unfold State.access; split <;> rfl
@[simp] theorem State.word_withRegs (s : State) (r : Regs) (a : Word) : (s.withRegs r).word a = s.word a := rfl
@[simp] theorem State.word_addCycles (s : State) (n : Nat) (a : Word) : (s.addCycles n).word a = s.word a := rfl
@[simp] theorem State.word_drawn (s : State) (n : Nat) (a : Word) : (s.drawn n).word a = s.word a := rfl
@[simp] theorem State.word_access (s : State) (n : Nat) (a : Word) : (s.access n).word a = s.word a := by
  simp [State.word]

/-! ## Bytes and words -/

@[simp] theorem highByte_wordOf (h l : Byte) : highByte (wordOf h l) = h := by
  unfold highByte wordOf; apply BitVec.eq_of_getLsbD_eq; intro i hi
  simp only [BitVec.getLsbD_extractLsb', BitVec.getLsbD_append]
  have h1 : ¬ (8 + i < 8) := by omega
  simp [hi]

@[simp] theorem lowByte_wordOf (h l : Byte) : lowByte (wordOf h l) = l := by
  unfold lowByte wordOf; apply BitVec.eq_of_getLsbD_eq; intro i hi
  rw [BitVec.getLsbD_extractLsb', BitVec.getLsbD_append]
  simp [hi]

@[simp] theorem wordOf_high_low (w : Word) : wordOf (highByte w) (lowByte w) = w := by
  unfold wordOf highByte lowByte
  apply BitVec.eq_of_getLsbD_eq
  intro i hi
  rw [BitVec.getLsbD_append]
  simp only [BitVec.getLsbD_extractLsb']
  split
  · rename_i h
    simp [h]
  · rename_i h
    have h1 : i - 8 < 8 := by omega
    have h2 : 8 + (i - 8) = i := by omega
    simp [h1, h2]

/-- The two halves of a word are what the word access writes (20_memory.md R96: `val >> 8`, `val & 0xFF`). -/
theorem highByte_eq (w : Word) : BitVec.ofNat 8 (w.toNat / 0x100) = highByte w := by
  apply BitVec.eq_of_toNat_eq
  simp [highByte, BitVec.extractLsb', Nat.shiftRight_eq_div_pow]

theorem lowByte_eq (w : Word) : BitVec.ofNat 8 (w.toNat % 0x100) = lowByte w := by
  apply BitVec.eq_of_toNat_eq
  simp [lowByte, BitVec.extractLsb']

end Sys2Proof.Machine
end

