-- ==== Sys2Proof/Laws/Flags.lean ====
section
/-! SUPPORT. The condition code as a byte, and the flag computations applied to a state (10_state.md R36, R37, R49 to R52;
43_shift_unary.md section 0). -/

namespace Sys2Proof.Machine

/-! ## The byte of CC (10_state.md R36) -/

theorem CC.toByte_bit7 (c : CC) : c.toByte.getLsbD 7 = c.e := by
  obtain ⟨e, f, h, i, n, z, v, k⟩ := c
  revert e f h i n z v k
  decide

theorem CC.toByte_bit6 (c : CC) : c.toByte.getLsbD 6 = c.f := by
  obtain ⟨e, f, h, i, n, z, v, k⟩ := c
  revert e f h i n z v k
  decide

theorem CC.toByte_bit5 (c : CC) : c.toByte.getLsbD 5 = c.h := by
  obtain ⟨e, f, h, i, n, z, v, k⟩ := c
  revert e f h i n z v k
  decide

theorem CC.toByte_bit4 (c : CC) : c.toByte.getLsbD 4 = c.i := by
  obtain ⟨e, f, h, i, n, z, v, k⟩ := c
  revert e f h i n z v k
  decide

theorem CC.toByte_bit3 (c : CC) : c.toByte.getLsbD 3 = c.n := by
  obtain ⟨e, f, h, i, n, z, v, k⟩ := c
  revert e f h i n z v k
  decide

theorem CC.toByte_bit2 (c : CC) : c.toByte.getLsbD 2 = c.z := by
  obtain ⟨e, f, h, i, n, z, v, k⟩ := c
  revert e f h i n z v k
  decide

theorem CC.toByte_bit1 (c : CC) : c.toByte.getLsbD 1 = c.v := by
  obtain ⟨e, f, h, i, n, z, v, k⟩ := c
  revert e f h i n z v k
  decide

theorem CC.toByte_bit0 (c : CC) : c.toByte.getLsbD 0 = c.c := by
  obtain ⟨e, f, h, i, n, z, v, k⟩ := c
  revert e f h i n z v k
  decide

/-- The byte a set of flags makes gives the flags back. -/
@[simp] theorem CC.ofByte_toByte (c : CC) : CC.ofByte c.toByte = c := by
  simp only [CC.ofByte, CC.toByte_bit7, CC.toByte_bit6, CC.toByte_bit5, CC.toByte_bit4, CC.toByte_bit3, CC.toByte_bit2,
    CC.toByte_bit1, CC.toByte_bit0]

/-! ## The computations -/

variable (s : State) (a : Byte)

theorem lsr8_apply : lsr8 a s = .ok (lsr8Result a) (s.withRegs (s.regs.setCC (s.regs.cc.lsr8 a))) := rfl
theorem rol8_apply : rol8 a s = .ok (rol8Result a s.regs.cc.c) (s.withRegs (s.regs.setCC (s.regs.cc.rol8 a))) := rfl
theorem ror8_apply : ror8 a s = .ok (ror8Result a s.regs.cc.c) (s.withRegs (s.regs.setCC (s.regs.cc.ror8 a))) := rfl
theorem inc8_apply : inc8 a s = .ok (inc8Result a) (s.withRegs (s.regs.setCC (s.regs.cc.inc8 a))) := rfl
theorem dec8_apply : dec8 a s = .ok (dec8Result a) (s.withRegs (s.regs.setCC (s.regs.cc.dec8 a))) := rfl
theorem clr8_apply : clr8 a s = .ok 0 (s.withRegs (s.regs.setCC s.regs.cc.clr8)) := rfl
theorem com8_apply : com8 a s = .ok (com8Result a) (s.withRegs (s.regs.setCC (s.regs.cc.com8 a))) := rfl

/-- An undefined flag is its old value under `preserve`, and any value else (10_state.md R52). -/
theorem undefFlag_spec (old : Bool) (s : State) :
    ∃ h n, (∀ t : State, t.cfg = s.cfg → t.draws = s.draws → undefFlag old t = .ok h (t.drawn n)) ∧
      (s.cfg.undefFlags = .preserve → h = old ∧ n = 0) := by
  cases e : s.cfg.undefFlags with
  | preserve => exact ⟨old, 0, fun t hc _ => undefFlag_preserve (hc ▸ e) old, fun _ => ⟨rfl, rfl⟩⟩
  | arbitrary =>
    refine ⟨Config.freeFlag s.draws, 1, fun t hc hd => ?_, fun h => nomatch h⟩
    rw [undefFlag_arbitrary (hc ▸ e), hd]

theorem asr8_apply {t : State} {h : Bool} {n : Nat} (e : undefFlag t.regs.cc.h t = .ok h (t.drawn n)) :
    asr8 a t = .ok (asr8Result a) ((t.withRegs (t.regs.setCC (t.regs.cc.asr8 a h))).drawn n) := by
  simp only [asr8, bind_apply, getCC_apply, e]
  rfl

theorem asl8_apply {t : State} {h : Bool} {n : Nat} (e : undefFlag t.regs.cc.h t = .ok h (t.drawn n)) :
    asl8 a t = .ok (asl8Result a) ((t.withRegs (t.regs.setCC (t.regs.cc.asl8 a h))).drawn n) := by
  simp only [asl8, bind_apply, getCC_apply, e]
  rfl

theorem neg8_apply {t : State} {h : Bool} {n : Nat} (e : undefFlag t.regs.cc.h t = .ok h (t.drawn n)) :
    neg8 a t = .ok (neg8Result a) ((t.withRegs (t.regs.setCC (t.regs.cc.neg8 a h))).drawn n) := by
  simp only [neg8, bind_apply, getCC_apply, e]
  rfl

end Sys2Proof.Machine
end

