-- ==== Sys2Proof/Laws/Bus.lean ====
section
/-! SUPPORT. The bus: what any access with any callbacks can do, and what an access is on a machine with no callback
(20_memory.md R88 to R98). -/

namespace Sys2Proof.Machine

/-! ## What a bus access can do -/

/-- The relation allows everything a callback may do: a store, a change of the devices' state, of the request lines and of
the host queues, and a draw (20_memory.md R89). -/
structure BusClosed (R : State → State → Prop) : Prop extends Stable R where
  store : ∀ s a v, R s (s.storeByte a v)
  dev : ∀ s d, R s (s.withDev d)
  lines : ∀ s l, R s (s.withLines l)
  host : ∀ s h, R s (s.withHost h)
  drawn : ∀ s n, R s (s.drawn n)

variable {R : State → State → Prop}

/-- A runner respects a relation when every callback it runs does. -/
abbrev RunnerRespects (R : State → State → Prop) (run : Runner) : Prop := ∀ script args, Respects R (run script args)

theorem countAccess_respects (S : Stable R) {byCpu : Bool} (hc : byCpu = true → ∀ s n, R s (s.access n)) (n : Nat) :
    Respects R (countAccess byCpu n) := by
  apply Respects.of_modify
  intro s
  cases byCpu
  · exact S.refl s
  · exact hc rfl s n

theorem busReadByte_respects (B : BusClosed R) {run : Runner} (hr : RunnerRespects R run) {byCpu : Bool}
    (hc : byCpu = true → ∀ s n, R s (s.access n)) (a : Word) : Respects R (busReadByte run byCpu a) := by
  unfold busReadByte
  refine .of_bind B.toStable (countAccess_respects B.toStable hc 1) fun _ => ?_
  refine .of_bind B.toStable (.of_get B.toStable) fun s => ?_
  split
  · exact .of_pure B.toStable _
  · refine .of_bind B.toStable (hr _ _) fun r => ?_
    split
    · split
      · exact .of_pure B.toStable _
      · exact .of_throw B.toStable _
    · exact .of_bind B.toStable (.of_get B.toStable) fun s => .of_pure B.toStable _

theorem busWriteByte_respects (B : BusClosed R) {run : Runner} (hr : RunnerRespects R run) {byCpu : Bool}
    (hc : byCpu = true → ∀ s n, R s (s.access n)) (a : Word) (v : Nat) : Respects R (busWriteByte run byCpu a v) := by
  unfold busWriteByte
  split
  · refine .of_bind B.toStable (countAccess_respects B.toStable hc 1) fun _ => ?_
    refine .of_bind B.toStable (.of_get B.toStable) fun s => ?_
    split
    · exact .of_modify fun s => B.store s _ _
    · refine .of_bind B.toStable (hr _ _) fun r => ?_
      split
      · exact .of_pure B.toStable _
      · exact .of_modify fun s => B.store s _ _
  · exact .of_throw B.toStable _

theorem busReadWord_respects (B : BusClosed R) {run : Runner} (hr : RunnerRespects R run) {byCpu : Bool}
    (hc : byCpu = true → ∀ s n, R s (s.access n)) (a : Word) : Respects R (busReadWord run byCpu a) := by
  have hf : (false = true → ∀ s n, R s (s.access n)) := fun h => absurd h Bool.false_ne_true
  unfold busReadWord
  refine .of_bind B.toStable (.of_get B.toStable) fun s => ?_
  split
  · refine .of_bind B.toStable (busReadByte_respects B hr hc _) fun _ => ?_
    exact .of_bind B.toStable (busReadByte_respects B hr hc _) fun _ => .of_pure B.toStable _
  · refine .of_bind B.toStable (countAccess_respects B.toStable hc 2) fun _ => ?_
    refine .of_bind B.toStable (.of_get B.toStable) fun _ => .of_bind B.toStable (hr _ _) fun r => ?_
    split
    · split
      · exact .of_pure B.toStable _
      · exact .of_throw B.toStable _
    · refine .of_bind B.toStable (busReadByte_respects B hr hf _) fun _ => ?_
      exact .of_bind B.toStable (busReadByte_respects B hr hf _) fun _ => .of_pure B.toStable _

theorem busWriteWord_respects (B : BusClosed R) {run : Runner} (hr : RunnerRespects R run) {byCpu : Bool}
    (hc : byCpu = true → ∀ s n, R s (s.access n)) (a : Word) (v : Nat) : Respects R (busWriteWord run byCpu a v) := by
  have hf : (false = true → ∀ s n, R s (s.access n)) := fun h => absurd h Bool.false_ne_true
  unfold busWriteWord
  split
  · refine .of_bind B.toStable (.of_get B.toStable) fun s => ?_
    split
    · exact .of_bind B.toStable (busWriteByte_respects B hr hc _ _) fun _ => busWriteByte_respects B hr hc _ _
    · refine .of_bind B.toStable (countAccess_respects B.toStable hc 2) fun _ => ?_
      refine .of_bind B.toStable (.of_get B.toStable) fun _ => .of_bind B.toStable (hr _ _) fun r => ?_
      split
      · exact .of_pure B.toStable _
      · exact .of_bind B.toStable (busWriteByte_respects B hr hf _ _) fun _ => busWriteByte_respects B hr hf _ _
  · exact .of_throw B.toStable _

theorem modifyHost_respects (B : BusClosed R) (f : HostQueues → HostQueues) : Respects R (modifyHost f) :=
  .of_modify fun s => B.host s _

theorem State.freeWorld_respects (B : BusClosed R) (s : State) (args : CbArgs) (reply k : Nat) :
    R s (s.freeWorld args reply k) :=
  B.trans (B.trans (B.dev s _) (B.lines _ _)) (B.host _ _)

section
variable (B : BusClosed R) {run : Runner} (hr : RunnerRespects R run) {byCpu : Bool}
  (hf : byCpu = true → ∀ s n, R s (s.access n))
include B hr hf

theorem runAct_respects (args : CbArgs) (reply : Nat) (act : DevAct) : Respects R (runAct run byCpu args reply act) := by
  have S := B.toStable
  unfold runAct
  refine .of_bind S (.of_get S) fun s => ?_
  cases act <;> dsimp only
  case setCell => exact .of_bind S (.of_modify fun s => B.dev s _) fun _ => .of_pure S _
  case setIrq => exact .of_bind S (.of_modify fun s => B.lines s _) fun _ => .of_pure S _
  case setFirq => exact .of_bind S (.of_modify fun s => B.lines s _) fun _ => .of_pure S _
  case latchNmi => exact .of_bind S (.of_modify fun s => B.lines s _) fun _ => .of_pure S _
  case readByte => exact .of_bind S (busReadByte_respects B hr hf _) fun _ => .of_pure S _
  case readWord => exact .of_bind S (busReadWord_respects B hr hf _) fun _ => .of_pure S _
  case writeByte => exact .of_bind S (busWriteByte_respects B hr hf _ _) fun _ => .of_pure S _
  case writeWord => exact .of_bind S (busWriteWord_respects B hr hf _ _) fun _ => .of_pure S _
  case world => exact .of_bind S (.of_modify fun s => State.freeWorld_respects B s _ _ _) fun _ => .of_pure S _
  case fail => exact .of_throw S _
  case setReply | answer | pass => exact .of_pure S _
  all_goals exact .of_bind S (modifyHost_respects B _) fun _ => .of_pure S _

theorem runRules_respects (args : CbArgs) (rules : List DevRule) (reply : Nat) :
    Respects R (runRules run byCpu args rules reply) := by
  have S := B.toStable
  induction rules generalizing reply with
  | nil => exact .of_pure S _
  | cons rule rest ih =>
    unfold runRules
    refine .of_bind S (.of_get S) fun s => ?_
    split
    · exact ih reply
    · split
      · exact .of_pure S _
      · exact .of_pure S _
      · exact .of_bind S (runAct_respects B hr hf args reply _) fun _ => ih _

theorem runRounds_respects (args : CbArgs) (rules : List DevRule) (rounds reply : Nat) :
    Respects R (runRounds run byCpu args rules rounds reply) := by
  have S := B.toStable
  induction rounds generalizing reply with
  | zero => exact .of_pure S _
  | succ n ih =>
    unfold runRounds
    refine .of_bind S (runRules_respects B hr hf args rules reply) fun f => ?_
    cases f with
    | next reply' => exact ih reply'
    | done v => exact .of_pure S _

/-- A script run whole does what its accesses and the callbacks they reach may do. -/
theorem runBody_respects (script : Script) (args : CbArgs) : Respects R (runBody run byCpu script args) := by
  have S := B.toStable
  unfold runBody
  refine .of_bind S (.of_get S) fun _ => .of_bind S (runRounds_respects B hr hf args _ _ 0) fun _ => ?_
  exact .of_bind S (.of_modify fun s => B.drawn s 1) fun _ => .of_pure S _

end

theorem runScript_respects (B : BusClosed R) (depth : Nat) : RunnerRespects R (runScript depth) := by
  induction depth with
  | zero => exact fun _ _ => .of_throw B.toStable _
  | succ depth ih => exact runBody_respects B ih (fun h => absurd h Bool.false_ne_true)

/-! ## What a callback does, at any depth of nesting (20_memory.md R91, log 6) -/

/-- The run has not come to its end at this depth. -/
def hangs : EStateM.Result Raise State (Option Nat) → Bool
  | .error .hang _ => true
  | .error (.outOfRange _ _) _ | .error (.peripheral _) _ | .ok _ _ => false

theorem deepen_step {script : Script} {args : CbArgs} {s : State} {d : Nat} :
    deepen script args s d =
      if hangs (runScript d script args s) then deepen script args s (d + 1) else some (runScript d script args s) := by
  rw [deepen]
  split
  · next h => simp [h, hangs]
  · next h =>
    rw [if_neg]
    intro hh
    cases e : runScript d script args s with
    | ok v t => simp [e, hangs] at hh
    | error x t =>
      cases x with
      | hang => exact h t e
      | outOfRange a v => simp [e, hangs] at hh
      | peripheral v => simp [e, hangs] at hh

/-- What `deepen` finds is what the run at some depth does, and that run comes to its end. -/
theorem deepen_some {script : Script} {args : CbArgs} {s : State} {d : Nat} {r : EStateM.Result Raise State (Option Nat)}
    (h : deepen script args s d = some r) : ∃ d', d ≤ d' ∧ runScript d' script args s = r ∧ hangs r = false := by
  refine deepen.partial_correctness script args s
    (fun d r => ∃ d', d ≤ d' ∧ runScript d' script args s = r ∧ hangs r = false) ?_ d r h
  intro f ih d r h
  split at h
  · obtain ⟨d', h1, h2⟩ := ih _ _ h
    exact ⟨d', by omega, h2⟩
  · next hn =>
    cases h
    refine ⟨d, Nat.le_refl d, rfl, ?_⟩
    cases e : runScript d script args s with
    | ok v t => rfl
    | error x t =>
      cases x with
      | hang => exact absurd e (hn t)
      | outOfRange a v => rfl
      | peripheral v => rfl

/-- A callback does what the run at some depth does; where it hangs, no run at that depth or a deeper one comes to its
end, and nothing has changed but what the run at `Config.callbackDepth` did. -/
theorem runCallback_cases (script : Script) (args : CbArgs) (s : State) :
    ∃ d, runCallback script args s = runScript d script args s := by
  unfold runCallback
  split
  · next t h =>
    cases e : deepen script args s Config.callbackDepth with
    | none => exact ⟨_, h.symm⟩
    | some r =>
      obtain ⟨d, -, h2, -⟩ := deepen_some e
      exact ⟨d, h2.symm⟩
  · exact ⟨_, rfl⟩

/-- No callback does more than 20_memory.md R89 allows. -/
theorem runCallback_respects (B : BusClosed R) : RunnerRespects R runCallback := by
  intro script args s
  obtain ⟨d, h⟩ := runCallback_cases script args s
  rw [h]
  exact runScript_respects B d script args s

theorem runAll_respects (B : BusClosed R) (args : CbArgs) (scripts : List Script) : Respects R (runAll args scripts) := by
  have S := B.toStable
  induction scripts with
  | nil => exact .of_pure S _
  | cons sc rest ih => exact .of_bind S (runCallback_respects B sc args) fun _ => ih

theorem runAll_cons (args : CbArgs) (sc : Script) (rest : List Script) :
    runAll args (sc :: rest) = callOnce sc args >>= fun _ => runAll args rest := by
  simp [runAll, callOnce]

theorem runAll_ok {args : CbArgs} (scripts : List Script) {s t : State}
    (h : RunsInOrder (scripts.map fun sc => callOnce sc args) s t) : runAll args scripts s = .ok ⟨⟩ t := by
  induction scripts generalizing s with
  | nil => rw [show t = s from h]; rfl
  | cons sc rest ih =>
    obtain ⟨u, h1, h2⟩ := h
    rw [runAll_cons, bind_ok h1, ih h2]

theorem runAll_error {args : CbArgs} (scripts : List Script) {s t : State} {e : Raise}
    (h : FailsInOrder (scripts.map fun sc => callOnce sc args) s e t) : runAll args scripts s = .error e t := by
  induction scripts generalizing s with
  | nil => exact h.elim
  | cons sc rest ih =>
    rcases h with h | ⟨u, h1, h2⟩
    · rw [runAll_cons, bind_error h]
    · rw [runAll_cons, bind_ok h1, ih h2]

/-- Computations one after another do what each of them may. -/
theorem RunsInOrder.respects (S : Stable R) {l : List (M Unit)} (hl : ∀ x, x ∈ l → Respects R x) {s t : State}
    (h : RunsInOrder l s t) : R s t := by
  induction l generalizing s with
  | nil => rw [show t = s from h]; exact S.refl s
  | cons x rest ih =>
    obtain ⟨u, h1, h2⟩ := h
    exact S.trans ((hl x (List.mem_cons_self ..)).ok h1) (ih (fun y hy => hl y (List.mem_cons_of_mem _ hy)) h2)

theorem callOnce_respects (B : BusClosed R) (sc : Script) (args : CbArgs) : Respects R (callOnce sc args) :=
  .of_bind B.toStable (runCallback_respects B sc args) fun _ => .of_pure B.toStable _

section
variable (B : BusClosed R) (hc : ∀ s n, R s (s.access n))
include B hc

theorem read8_respects (a : Word) : Respects R (read8 a) :=
  busReadByte_respects B (runCallback_respects B) (fun _ => hc) a

theorem read16_respects (a : Word) : Respects R (read16 a) :=
  busReadWord_respects B (runCallback_respects B) (fun _ => hc) a

theorem write8_respects (a : Word) (v : Byte) : Respects R (write8 a v) :=
  busWriteByte_respects B (runCallback_respects B) (fun _ => hc) a v.toNat

theorem write16_respects (a v : Word) : Respects R (write16 a v) :=
  busWriteWord_respects B (runCallback_respects B) (fun _ => hc) a v.toNat

end

/-! ## A machine with no callback -/

theorem State.Quiet.of_cfg {s t : State} (h : s.Quiet) (e : t.cfg = s.cfg) : t.Quiet := by
  intro a
  rw [e]
  exact h a

theorem read8_quiet {s : State} (h : s.Quiet) (a : Word) :
    read8 a s = .ok (s.backing a) (s.addCycles (accessCost s.cfg 1)) := by
  have h' := (h a).1
  simp only [read8, busReadByte, bind_apply, countAccess, modify_apply, get_apply, if_true, State.access_eq,
    State.addCycles_cfg, h', pure_apply, State.addCycles_backing]

theorem accessCost_add (cfg : Params) (m n : Nat) : accessCost cfg m + accessCost cfg n = accessCost cfg (m + n) := by
  unfold accessCost
  cases cfg.cyclePolicy <;> rfl

@[simp] theorem accessCost_zero (cfg : Params) : accessCost cfg 0 = 0 := by
  unfold accessCost
  cases cfg.cyclePolicy <;> rfl

@[simp] theorem State.addCycles_addCycles (s : State) (m n : Nat) :
    (s.addCycles m).addCycles n = s.addCycles (m + n) := by
  simp [State.addCycles, Nat.add_assoc]

theorem State.addCycles_zero (s : State) : s.addCycles 0 = s := rfl

theorem read16_quiet {s : State} (h : s.Quiet) (a : Word) :
    read16 a s = .ok (s.word a) (s.addCycles (accessCost s.cfg 2)) := by
  have h1 := (h a).2.2.1
  have h2 := fun b => read8_quiet (s := s) h b
  have h3 := fun b => read8_quiet (s := s.addCycles (accessCost s.cfg 1)) (h.of_cfg rfl) b
  unfold read8 at h2 h3
  simp only [read16, busReadWord, bind_apply, get_apply, h1, h2, h3, pure_apply, State.addCycles_cfg,
    State.addCycles_addCycles, accessCost_add, State.addCycles_backing, State.word]

theorem State.storeByte_addCycles (s : State) (a : Word) (v : Byte) (n : Nat) :
    (s.addCycles n).storeByte a v = (s.storeByte a v).addCycles n := by
  unfold State.storeByte
  simp only [State.addCycles_cfg]
  split <;> rfl

theorem State.storeByte_withRegs (s : State) (a : Word) (v : Byte) (r : Regs) :
    (s.withRegs r).storeByte a v = (s.storeByte a v).withRegs r := by
  unfold State.storeByte
  simp only [State.withRegs_cfg]
  split <;> rfl

theorem write8_quiet {s : State} (h : s.Quiet) (a : Word) (v : Byte) :
    write8 a v s = .ok ⟨⟩ ((s.storeByte a v).addCycles (accessCost s.cfg 1)) := by
  have h' := (h a).2.1
  have hv : v.toNat ≤ 255 := by have := v.isLt; omega
  simp only [write8, busWriteByte, hv, if_true, bind_apply, countAccess, modify_apply, get_apply, State.access_eq,
    State.addCycles_cfg, h', BitVec.ofNat_toNat, BitVec.setWidth_eq, State.storeByte_addCycles]

theorem busWriteByte_quiet {s : State} (h : s.Quiet) (a : Word) (v : Byte) {n : Nat} (hn : n = v.toNat) :
    busWriteByte runCallback true a n s = .ok ⟨⟩ ((s.storeByte a v).addCycles (accessCost s.cfg 1)) :=
  hn ▸ write8_quiet h a v

theorem write16_quiet {s : State} (h : s.Quiet) (a v : Word) :
    write16 a v s = .ok ⟨⟩ ((s.storeWord a v).addCycles (accessCost s.cfg 2)) := by
  have h' := (h a).2.2.2
  have hv : v.toNat ≤ 0xFFFF := by have := v.isLt; omega
  have e1 : v.toNat / 0x100 = (highByte v).toNat := by
    rw [← highByte_eq, BitVec.toNat_ofNat, Nat.mod_eq_of_lt]
    have := v.isLt; omega
  have e2 : v.toNat % 0x100 = (lowByte v).toNat := by
    rw [← lowByte_eq, BitVec.toNat_ofNat]
    omega
  simp only [write16, busWriteWord, hv, if_true, bind_apply, get_apply, h']
  rw [busWriteByte_quiet h a (highByte v) e1]
  simp only []
  rw [busWriteByte_quiet (h.of_cfg (by simp)) (a + 1) (lowByte v) e2]
  simp only [State.storeByte_addCycles, State.addCycles_addCycles, State.addCycles_cfg, State.storeByte_cfg,
    accessCost_add, State.storeWord]

/-! The same at any later state of the same machine. -/

section
variable {s t : State} (q : s.Quiet) (a : Word)
include q

theorem read8_at (e : t.cfg = s.cfg) : read8 a t = .ok (t.backing a) (t.addCycles (accessCost s.cfg 1)) :=
  e ▸ read8_quiet (q.of_cfg e) a

theorem read16_at (e : t.cfg = s.cfg) : read16 a t = .ok (t.word a) (t.addCycles (accessCost s.cfg 2)) :=
  e ▸ read16_quiet (q.of_cfg e) a

theorem write8_at (v : Byte) (e : t.cfg = s.cfg) :
    write8 a v t = .ok ⟨⟩ ((t.storeByte a v).addCycles (accessCost s.cfg 1)) := e ▸ write8_quiet (q.of_cfg e) a v

theorem write16_at (v : Word) (e : t.cfg = s.cfg) :
    write16 a v t = .ok ⟨⟩ ((t.storeWord a v).addCycles (accessCost s.cfg 2)) := e ▸ write16_quiet (q.of_cfg e) a v

end

end Sys2Proof.Machine
end

