-- ==== Sys2Proof/Laws/Operands.lean ====
section
/-! SUPPORT. Operands: what resolving and reading one is on a machine with no callback, and what it can do on any machine
(30_encoding.md R133 to R146). -/

namespace Sys2Proof.Machine

/-- The relation allows everything the body of an instruction may do. -/
structure BodyClosed (R : State → State → Prop) : Prop extends BusClosed R where
  regs : ∀ s r, R s (s.withRegs r)
  cycles : ∀ s n, R s (s.addCycles n)
  wait : ∀ s w, R s (s.withWait w)
  nmi : ∀ s b, R s (s.withNmiArmed b)

theorem BodyClosed.access {R : State → State → Prop} (B : BodyClosed R) (s : State) (n : Nat) : R s (s.access n) := by
  rw [State.access_eq]
  exact B.cycles s _

/-! ## A machine with no callback -/

@[simp] theorem State.withRegs_withRegs (s : State) (r r' : Regs) : (s.withRegs r).withRegs r' = s.withRegs r' := rfl

@[simp] theorem State.addCycles_withRegs (s : State) (n : Nat) (r : Regs) :
    (s.addCycles n).withRegs r = (s.withRegs r).addCycles n := rfl

theorem State.withRegs_self (s : State) : s.withRegs s.regs = s := rfl

theorem effectiveAddress_quiet {s : State} (h : s.Quiet) (m : Mem) :
    effectiveAddress m s = .ok (Mem.target m s)
      ((s.withRegs (Mem.after m s.regs)).addCycles (accessCost s.cfg (Mem.transfers m))) := by
  simp only [effectiveAddress, bind_apply, getRegs_apply, modifyRegs_apply]
  cases hi : Mem.indirect m with
  | true =>
    simp only [if_true, Mem.target, Mem.after, Mem.transfers, hi]
    exact read16_quiet (s := s.withRegs (Mem.baseEA m s.regs).2) (h.of_cfg rfl) _
  | false =>
    simp only [Bool.false_eq_true, if_false, Mem.target, Mem.after, Mem.transfers, hi, accessCost_zero]
    rfl

theorem operand8_quiet {s : State} (h : s.Quiet) (src : Src8) :
    operand8 src s = .ok (Src8.value src s)
      ((s.withRegs (Src8.after src s.regs)).addCycles (accessCost s.cfg (Src8.transfers src))) := by
  cases src with
  | imm v =>
    simp only [operand8, Src8.value, Src8.after, Src8.transfers, accessCost_zero]
    rfl
  | mem m =>
    simp only [operand8, bind_apply, effectiveAddress_quiet h]
    rw [read8_quiet (h.of_cfg (by rfl))]
    simp only [State.addCycles_cfg, State.withRegs_cfg, State.addCycles_backing, State.withRegs_backing,
      State.addCycles_addCycles, accessCost_add, Src8.value, Src8.after, Src8.transfers]

theorem operand16_quiet {s : State} (h : s.Quiet) (src : Src16) :
    operand16 src s = .ok (Src16.value src s)
      ((s.withRegs (Src16.after src s.regs)).addCycles (accessCost s.cfg (Src16.transfers src))) := by
  cases src with
  | imm v =>
    simp only [operand16, Src16.value, Src16.after, Src16.transfers, accessCost_zero]
    rfl
  | mem m =>
    simp only [operand16, bind_apply, effectiveAddress_quiet h]
    rw [read16_quiet (h.of_cfg (by rfl))]
    simp only [State.addCycles_cfg, State.withRegs_cfg, State.word_addCycles, State.word_withRegs,
      State.addCycles_addCycles, accessCost_add, Src16.value, Src16.after, Src16.transfers]

/-! ## Any machine -/

/-- The registers after a bus access are those before it. -/
def SameRegs (s t : State) : Prop := t.regs = s.regs

theorem sameRegs_closed : BusClosed SameRegs where
  refl _ := rfl
  trans h1 h2 := h2.trans h1
  store s a v := by simp [SameRegs]
  dev _ _ := rfl
  lines _ _ := rfl
  host _ _ := rfl
  drawn _ _ := rfl

theorem sameRegs_access (s : State) (n : Nat) : SameRegs s (s.access n) := by simp [SameRegs]

/-- Resolving an address updates the index register and no other, however it ends. -/
theorem effectiveAddress_regs (m : Mem) : Respects (fun s t => t.regs = Mem.after m s.regs) (effectiveAddress m) := by
  intro s
  simp only [effectiveAddress, bind_apply, getRegs_apply, modifyRegs_apply]
  cases hi : Mem.indirect m with
  | true =>
    simp only [if_true]
    exact read16_respects sameRegs_closed sameRegs_access _ (s.withRegs (Mem.baseEA m s.regs).2)
  | false => rfl

theorem operand8_regs (src : Src8) : Respects (fun s t => t.regs = Src8.after src s.regs) (operand8 src) := by
  intro s
  cases src with
  | imm v => rfl
  | mem m =>
    simp only [operand8, bind_apply]
    have h := effectiveAddress_regs m s
    cases e : effectiveAddress m s with
    | ok a t =>
      rw [e] at h
      have h2 := read8_respects sameRegs_closed sameRegs_access a t
      cases e2 : read8 a t <;> simp only [e2] at h2 ⊢ <;> exact h2.trans h
    | error a t =>
      rw [e] at h
      exact h

theorem operand16_regs (src : Src16) : Respects (fun s t => t.regs = Src16.after src s.regs) (operand16 src) := by
  intro s
  cases src with
  | imm v => rfl
  | mem m =>
    simp only [operand16, bind_apply]
    have h := effectiveAddress_regs m s
    cases e : effectiveAddress m s with
    | ok a t =>
      rw [e] at h
      have h2 := read16_respects sameRegs_closed sameRegs_access a t
      cases e2 : read16 a t <;> simp only [e2] at h2 ⊢ <;> exact h2.trans h
    | error a t =>
      rw [e] at h
      exact h

section
variable {R : State → State → Prop} (B : BodyClosed R)
include B

theorem effectiveAddress_respects (m : Mem) : Respects R (effectiveAddress m) := by
  unfold effectiveAddress
  refine .of_bind B.toStable (.of_getRegs B.toStable) fun _ => ?_
  refine .of_bind B.toStable (.of_modifyRegs fun s => B.regs s _) fun _ => ?_
  exact .of_ite (read16_respects B.toBusClosed B.access _) (.of_pure B.toStable _)

theorem operand8_respects (src : Src8) : Respects R (operand8 src) := by
  cases src with
  | imm v => exact .of_pure B.toStable _
  | mem m => exact .of_bind B.toStable (effectiveAddress_respects B m) fun _ => read8_respects B.toBusClosed B.access _

theorem operand16_respects (src : Src16) : Respects R (operand16 src) := by
  cases src with
  | imm v => exact .of_pure B.toStable _
  | mem m => exact .of_bind B.toStable (effectiveAddress_respects B m) fun _ => read16_respects B.toBusClosed B.access _

theorem writeSel_respects (sel : Sel) (v : SelValue) : Respects R (writeSel sel v) := by
  unfold writeSel
  refine .of_bind B.toStable (.of_modifyRegs fun s => B.regs s _) fun _ => ?_
  exact .of_ite (.of_modify fun s => B.nmi s true) (.of_pure B.toStable _)

end

end Sys2Proof.Machine
end

