-- ==== Sys2Proof/Laws/Bodies.lean ====
section
/-! SUPPORT. What the shared bodies of the data instructions do on a machine with no callback: one equation per body
(40_load_store.md to 44_misc_alu.md). -/

namespace Sys2Proof.Machine

/-! ## Updates in one order -/

@[simp] theorem State.withNmiArmed_withRegs (s : State) (b : Bool) (r : Regs) :
    (s.withNmiArmed b).withRegs r = (s.withRegs r).withNmiArmed b := rfl
@[simp] theorem State.addCycles_withNmiArmed (s : State) (n : Nat) (b : Bool) :
    (s.addCycles n).withNmiArmed b = (s.withNmiArmed b).addCycles n := rfl
@[simp] theorem State.drawn_withRegs (s : State) (n : Nat) (r : Regs) :
    (s.drawn n).withRegs r = (s.withRegs r).drawn n := rfl
@[simp] theorem State.addCycles_drawn (s : State) (m n : Nat) :
    (s.addCycles m).drawn n = (s.drawn n).addCycles m := rfl
@[simp] theorem State.drawn_zero (s : State) : s.drawn 0 = s := rfl

/-- A body that ends well: its cost is added (30_encoding.md R133). -/
theorem instruction_ok {i : Instr} {body : M Unit} {s t : State} {u : Unit} (h : body s = .ok u t) :
    instruction i body s = .next (t.addCycles (instrCycles i)) := by
  simp only [instruction, h]

/-- A body that ends in an error: the fault is recorded, with no cost (60_exceptions.md R601). -/
theorem instruction_error {i : Instr} {body : M Unit} {s t : State} {e : Raise} (h : body s = .error e t) :
    instruction i body s = endFaulted (opAddr i s) (some (opcodeOf i)) e t := by
  simp only [instruction, h]

section quiet
variable {s : State} (q : s.Quiet)
include q

/-! ## Loads, stores, load-effective-address -/

theorem load8_quiet (r : Acc) (src : Src8) :
    load8 r src s = .ok ⟨⟩ ((s.withRegs
        (((Src8.after src s.regs).setAcc r (Src8.value src s)).setCC
          ((Src8.after src s.regs).cc.nz8v0 (Src8.value src s)))).addCycles
        (accessCost s.cfg (Src8.transfers src))) := by
  cases r <;>
    simp only [load8, bind_apply, operand8_quiet q, modifyRegs_apply, modifyCC_apply] <;> rfl

theorem load16_quiet (r : Reg16) (src : Src16) :
    load16 r src s = .ok ⟨⟩ (((s.withRegs
        (((Src16.after src s.regs).setReg16 r (Src16.value src s)).setCC
          ((Src16.after src s.regs).cc.nz16v0 (Src16.value src s)))).withNmiArmed
            (s.nmiArmed || r == .s)).addCycles
        (accessCost s.cfg (Src16.transfers src))) := by
  cases r <;>
    simp only [load16, bind_apply, operand16_quiet q, modifyRegs_apply, modifyCC_apply, armNmi_s, armNmi_d, armNmi_x,
      armNmi_y, armNmi_u] <;> cases hs : s.nmiArmed <;> apply congrArg <;> apply State.eq_of_fields <;> simp [hs] <;> rfl

theorem store8_quiet (r : Acc) (m : Mem) :
    store8 r m s = .ok ⟨⟩ (((s.storeByte (Mem.target m s) ((Mem.after m s.regs).acc r)).withRegs
        ((Mem.after m s.regs).setCC ((Mem.after m s.regs).cc.nz8v0 ((Mem.after m s.regs).acc r)))).addCycles
        (accessCost s.cfg (Mem.transfers m + 1))) := by
  simp only [store8, bind_apply, effectiveAddress_quiet q, getRegs_apply]
  rw [write8_at q _ _ (by rfl)]
  simp only [modifyCC_apply, State.storeByte_addCycles, State.storeByte_withRegs, State.addCycles_addCycles,
    State.addCycles_withRegs, State.withRegs_withRegs, accessCost_add, State.addCycles_regs, State.withRegs_regs]

omit q in
theorem State.storeWord_addCycles (s : State) (a v : Word) (n : Nat) :
    (s.addCycles n).storeWord a v = (s.storeWord a v).addCycles n := by
  simp only [State.storeWord, State.storeByte_addCycles]

omit q in
theorem State.storeWord_withRegs (s : State) (a v : Word) (r : Regs) :
    (s.withRegs r).storeWord a v = (s.storeWord a v).withRegs r := by
  simp only [State.storeWord, State.storeByte_withRegs]

theorem store16_quiet (r : Reg16) (m : Mem) :
    store16 r m s = .ok ⟨⟩ (((s.storeWord (Mem.target m s) ((Mem.after m s.regs).reg16 r)).withRegs
        ((Mem.after m s.regs).setCC ((Mem.after m s.regs).cc.nz16v0 ((Mem.after m s.regs).reg16 r)))).addCycles
        (accessCost s.cfg (Mem.transfers m + 2))) := by
  simp only [store16, bind_apply, effectiveAddress_quiet q, getRegs_apply]
  rw [write16_at q _ _ (by rfl)]
  simp only [modifyCC_apply, State.storeWord_addCycles, State.storeWord_withRegs, State.addCycles_addCycles,
    State.addCycles_withRegs, State.withRegs_withRegs, accessCost_add, State.addCycles_regs, State.withRegs_regs]

theorem lea_quiet (r : Reg16) (x : Idx) :
    lea r x s = .ok ⟨⟩ (((s.withRegs ((Mem.after (.idx x) s.regs).setReg16 r (Mem.target (.idx x) s))).withNmiArmed
        (s.nmiArmed || r == .s)).addCycles (accessCost s.cfg (Mem.transfers (.idx x)))) := by
  cases r <;>
    simp only [lea, bind_apply, effectiveAddress_quiet q, modifyRegs_apply, armNmi_s, armNmi_d, armNmi_x, armNmi_y,
      armNmi_u] <;> cases hs : s.nmiArmed <;> apply congrArg <;> apply State.eq_of_fields <;> simp [hs]

theorem leaZ_quiet (r : Reg16) (x : Idx) :
    leaZ r x s = .ok ⟨⟩ ((s.withRegs (((Mem.after (.idx x) s.regs).setReg16 r (Mem.target (.idx x) s)).setCC
        { (Mem.after (.idx x) s.regs).cc with z := Mem.target (.idx x) s == 0 })).addCycles
        (accessCost s.cfg (Mem.transfers (.idx x)))) := by
  cases r <;> simp only [leaZ, bind_apply, effectiveAddress_quiet q, modifyRegs_apply, modifyCC_apply] <;> rfl

/-! ## Add, subtract, compare -/

theorem addTo_quiet (r : Acc) (src : Src8) :
    addTo r src s = .ok ⟨⟩ ((s.withRegs
        (((Src8.after src s.regs).setCC
          ((Src8.after src s.regs).cc.add8 ((Src8.after src s.regs).acc r) (Src8.value src s) false)).setAcc r
            (add8Result ((Src8.after src s.regs).acc r) (Src8.value src s) false))).addCycles
        (accessCost s.cfg (Src8.transfers src))) := by
  cases r <;>
    simp only [addTo, bind_apply, operand8_quiet q, getRegs_apply, add8, modifyRegs_apply, modifyCC_apply, pure_apply] <;>
    rfl

theorem addCarryTo_quiet (r : Acc) (src : Src8) :
    addCarryTo r src s = .ok ⟨⟩ ((s.withRegs
        (((Src8.after src s.regs).setCC
          ((Src8.after src s.regs).cc.add8 ((Src8.after src s.regs).acc r) (Src8.value src s)
            (Src8.after src s.regs).cc.c)).setAcc r
            (add8Result ((Src8.after src s.regs).acc r) (Src8.value src s) (Src8.after src s.regs).cc.c))).addCycles
        (accessCost s.cfg (Src8.transfers src))) := by
  cases r <;>
    simp only [addCarryTo, bind_apply, operand8_quiet q, getRegs_apply, getCC_apply, add8, modifyRegs_apply,
      modifyCC_apply, pure_apply] <;>
    rfl

theorem addToD_quiet (src : Src16) :
    addToD src s = .ok ⟨⟩ ((s.withRegs
        (((Src16.after src s.regs).setCC
          ((Src16.after src s.regs).cc.add16 (Src16.after src s.regs).d (Src16.value src s))).setD
            (add16Result (Src16.after src s.regs).d (Src16.value src s)))).addCycles
        (accessCost s.cfg (Src16.transfers src))) := by
  simp only [addToD, bind_apply, operand16_quiet q, getRegs_apply, add16, modifyRegs_apply, modifyCC_apply, pure_apply]
  rfl

theorem subFromD_quiet (src : Src16) :
    subFromD src s = .ok ⟨⟩ ((s.withRegs
        (((Src16.after src s.regs).setCC
          ((Src16.after src s.regs).cc.sub16 (Src16.after src s.regs).d (Src16.value src s))).setD
            (sub16Result (Src16.after src s.regs).d (Src16.value src s)))).addCycles
        (accessCost s.cfg (Src16.transfers src))) := by
  simp only [subFromD, bind_apply, operand16_quiet q, getRegs_apply, sub16, modifyRegs_apply, modifyCC_apply, pure_apply]
  rfl

theorem compare16_quiet (r : Reg16) (src : Src16) :
    compare16 r src s = .ok ⟨⟩ ((s.withRegs
        ((Src16.after src s.regs).setCC
          ((Src16.after src s.regs).cc.sub16 ((Src16.after src s.regs).reg16 r) (Src16.value src s)))).addCycles
        (accessCost s.cfg (Src16.transfers src))) := by
  simp only [compare16, bind_apply, operand16_quiet q, getRegs_apply, sub16, modifyCC_apply, pure_apply]
  rfl

omit q in
/-- `Sub8`: H is the undefined flag (10_state.md R51, R52). -/
theorem sub8_spec (a b : Byte) (cin : Bool) :
    ∃ h n, sub8 a b cin s = .ok (sub8Result a b cin)
        ((s.withRegs (s.regs.setCC (s.regs.cc.sub8 a b cin h))).drawn n) ∧
      (s.cfg.undefFlags = .preserve → h = s.regs.cc.h ∧ n = 0) := by
  obtain ⟨h, n, e, hp⟩ := undefFlag_spec s.regs.cc.h s
  refine ⟨h, n, ?_, hp⟩
  simp only [sub8, bind_apply, getCC_apply, e s rfl rfl, modifyCC_apply, pure_apply]
  rfl

theorem subFrom_quiet (r : Acc) (src : Src8) :
    ∃ h n, subFrom r src s = .ok ⟨⟩ (((s.withRegs
        (((Src8.after src s.regs).setCC
          ((Src8.after src s.regs).cc.sub8 ((Src8.after src s.regs).acc r) (Src8.value src s) false h)).setAcc r
            (sub8Result ((Src8.after src s.regs).acc r) (Src8.value src s) false))).drawn n).addCycles
        (accessCost s.cfg (Src8.transfers src))) ∧
      (s.cfg.undefFlags = .preserve → h = (Src8.after src s.regs).cc.h ∧ n = 0) := by
  obtain ⟨h, n, e, hp⟩ := sub8_spec
    (s := (s.withRegs (Src8.after src s.regs)).addCycles (accessCost s.cfg (Src8.transfers src)))
    ((Src8.after src s.regs).acc r) (Src8.value src s) false
  refine ⟨h, n, ?_, hp⟩
  simp only [subFrom, bind_apply, operand8_quiet q, getRegs_apply, State.addCycles_regs, State.withRegs_regs, e,
    modifyRegs_apply]
  cases r <;> rfl

theorem subBorrowFrom_quiet (r : Acc) (src : Src8) :
    ∃ h n, subBorrowFrom r src s = .ok ⟨⟩ (((s.withRegs
        (((Src8.after src s.regs).setCC
          ((Src8.after src s.regs).cc.sub8 ((Src8.after src s.regs).acc r) (Src8.value src s)
            (Src8.after src s.regs).cc.c h)).setAcc r
            (sub8Result ((Src8.after src s.regs).acc r) (Src8.value src s) (Src8.after src s.regs).cc.c))).drawn n).addCycles
        (accessCost s.cfg (Src8.transfers src))) ∧
      (s.cfg.undefFlags = .preserve → h = (Src8.after src s.regs).cc.h ∧ n = 0) := by
  obtain ⟨h, n, e, hp⟩ := sub8_spec
    (s := (s.withRegs (Src8.after src s.regs)).addCycles (accessCost s.cfg (Src8.transfers src)))
    ((Src8.after src s.regs).acc r) (Src8.value src s) (Src8.after src s.regs).cc.c
  refine ⟨h, n, ?_, hp⟩
  simp only [subBorrowFrom, bind_apply, operand8_quiet q, getRegs_apply, getCC_apply, State.addCycles_regs,
    State.withRegs_regs, e, modifyRegs_apply]
  cases r <;> rfl

theorem compare8_quiet (r : Acc) (src : Src8) :
    ∃ h n, compare8 r src s = .ok ⟨⟩ (((s.withRegs
        ((Src8.after src s.regs).setCC
          ((Src8.after src s.regs).cc.sub8 ((Src8.after src s.regs).acc r) (Src8.value src s) false h))).drawn n).addCycles
        (accessCost s.cfg (Src8.transfers src))) ∧
      (s.cfg.undefFlags = .preserve → h = (Src8.after src s.regs).cc.h ∧ n = 0) := by
  obtain ⟨h, n, e, hp⟩ := sub8_spec
    (s := (s.withRegs (Src8.after src s.regs)).addCycles (accessCost s.cfg (Src8.transfers src)))
    ((Src8.after src s.regs).acc r) (Src8.value src s) false
  refine ⟨h, n, ?_, hp⟩
  simp only [compare8, bind_apply, operand8_quiet q, getRegs_apply, State.addCycles_regs, State.withRegs_regs, e]
  rfl

/-! ## Logic -/

theorem logicInto_quiet (r : Acc) (op : Byte → Byte → Byte) (src : Src8) :
    logicInto r op src s = .ok ⟨⟩ ((s.withRegs
        (((Src8.after src s.regs).setAcc r (op ((Src8.after src s.regs).acc r) (Src8.value src s))).setCC
          ((Src8.after src s.regs).cc.nz8v0 (op ((Src8.after src s.regs).acc r) (Src8.value src s))))).addCycles
        (accessCost s.cfg (Src8.transfers src))) := by
  cases r <;>
    simp only [logicInto, bind_apply, operand8_quiet q, getRegs_apply, modifyRegs_apply, modifyCC_apply] <;> rfl

theorem bitTest_quiet (r : Acc) (src : Src8) :
    bitTest r src s = .ok ⟨⟩ ((s.withRegs
        ((Src8.after src s.regs).setCC
          ((Src8.after src s.regs).cc.nz8v0 ((Src8.after src s.regs).acc r &&& Src8.value src s)))).addCycles
        (accessCost s.cfg (Src8.transfers src))) := by
  simp only [bitTest, bind_apply, operand8_quiet q, getRegs_apply, modifyCC_apply]
  rfl

/-! ## Shifts and single-operand operations -/

/-- A read, a computation that writes flags and may draw, and a write back to the same address (43_shift_unary.md section 0). -/
theorem onMem_quiet {f : Byte → M Byte} (g : Byte → Byte) (m : Mem) {c : CC} {n : Nat}
    (hf : ∀ t : State, t.cfg = s.cfg → t.regs = Mem.after m s.regs → t.draws = s.draws →
      f (s.backing (Mem.target m s)) t = .ok (g (s.backing (Mem.target m s))) ((t.withRegs (t.regs.setCC c)).drawn n)) :
    onMem f m s = .ok ⟨⟩ ((((s.storeByte (Mem.target m s) (g (s.backing (Mem.target m s)))).withRegs
        ((Mem.after m s.regs).setCC c)).drawn n).addCycles (accessCost s.cfg (Mem.transfers m + 2))) := by
  simp only [onMem, bind_apply, effectiveAddress_quiet q]
  rw [read8_at q _ (by rfl)]
  simp only [State.addCycles_backing, State.withRegs_backing]
  rw [hf _ (by rfl) (by rfl) (by rfl)]
  simp only []
  rw [write8_at q _ _ (by rfl)]
  unfold State.storeByte
  simp only [State.drawn_cfg, State.withRegs_cfg, State.addCycles_cfg]
  have h1 := accessCost_add s.cfg (Mem.transfers m) 2
  have h2 : accessCost s.cfg 1 + accessCost s.cfg 1 = accessCost s.cfg 2 := accessCost_add s.cfg 1 1
  split <;> apply congrArg <;> apply State.eq_of_fields <;> simp <;> omega

theorem clearMem_quiet (m : Mem) :
    clearMem m s = .ok ⟨⟩ (((s.storeByte (Mem.target m s) 0).withRegs
        ((Mem.after m s.regs).setCC (Mem.after m s.regs).cc.clr8)).addCycles
        (accessCost s.cfg (Mem.transfers m + 1))) := by
  simp only [clearMem, clr8, bind_apply, effectiveAddress_quiet q, modifyCC_apply, pure_apply]
  rw [write8_at q _ _ (by rfl)]
  simp only [State.storeByte_addCycles, State.storeByte_withRegs, State.addCycles_addCycles, State.addCycles_withRegs,
    State.withRegs_withRegs, accessCost_add, State.addCycles_regs,
    State.withRegs_regs]

theorem testMem_quiet (m : Mem) :
    testMem m s = .ok ⟨⟩ ((s.withRegs
        ((Mem.after m s.regs).setCC ((Mem.after m s.regs).cc.nz8v0 (s.backing (Mem.target m s))))).addCycles
        (accessCost s.cfg (Mem.transfers m + 1))) := by
  simp only [testMem, tst8, bind_apply, effectiveAddress_quiet q]
  rw [read8_at q _ (by rfl)]
  simp only [modifyCC_apply, State.addCycles_addCycles, State.addCycles_withRegs, State.withRegs_withRegs,
    accessCost_add, State.addCycles_regs, State.withRegs_regs, State.addCycles_backing, State.withRegs_backing]

end quiet

end Sys2Proof.Machine
end

