-- ==== Sys2Proof/Laws/Nesting.lean ====
section
/-! SUPPORT. Nested callbacks (20_memory.md R91, log 6): a run that comes to its end at some depth of nesting ends so at every
greater depth, so a callback does what its run does at any depth that is enough. -/

namespace Sys2Proof.Machine

variable {α β : Type}

/-- The first computation does what the second does, except where it hangs. -/
def UpTo (x y : M α) : Prop :=
  ∀ s, (∃ t, x s = .error .hang t) ∨ y s = x s

theorem UpTo.refl (x : M α) : UpTo x x := fun _ => .inr rfl

theorem UpTo.hang (y : M α) : UpTo (throw .hang) y := fun s => .inl ⟨s, rfl⟩

theorem UpTo.bind {x y : M α} {f g : α → M β} (h : UpTo x y) (hf : ∀ v, UpTo (f v) (g v)) : UpTo (x >>= f) (y >>= g) := by
  intro s
  rw [bind_apply, bind_apply]
  rcases h s with ⟨t, e⟩ | e
  · exact .inl ⟨t, by rw [e]⟩
  · rw [e]
    cases x s with
    | ok v t => exact hf v t
    | error e t => exact .inr rfl

/-- The same first computation, and then one up to the other. -/
theorem UpTo.after {x : M α} {f g : α → M β} (hf : ∀ v, UpTo (f v) (g v)) : UpTo (x >>= f) (x >>= g) := .bind (.refl x) hf

/-- A runner up to another, callback by callback. -/
abbrev RunnerUpTo (run run' : Runner) : Prop := ∀ script args, UpTo (run script args) (run' script args)

section
variable {run run' : Runner} (h : RunnerUpTo run run')
include h

theorem busReadByte_upTo (byCpu : Bool) (a : Word) : UpTo (busReadByte run byCpu a) (busReadByte run' byCpu a) := by
  unfold busReadByte
  refine .after fun _ => .after fun s => ?_
  split
  · exact .refl _
  · exact .bind (h _ _) fun r => .refl _

theorem busWriteByte_upTo (byCpu : Bool) (a : Word) (v : Nat) :
    UpTo (busWriteByte run byCpu a v) (busWriteByte run' byCpu a v) := by
  unfold busWriteByte
  split
  · refine .after fun _ => .after fun s => ?_
    split
    · exact .refl _
    · exact .bind (h _ _) fun r => .refl _
  · exact .refl _

theorem busReadWord_upTo (byCpu : Bool) (a : Word) : UpTo (busReadWord run byCpu a) (busReadWord run' byCpu a) := by
  unfold busReadWord
  refine .after fun s => ?_
  split
  · exact .bind (busReadByte_upTo h _ _) fun _ => .bind (busReadByte_upTo h _ _) fun _ => .refl _
  · refine .after fun _ => .after fun _ => .bind (h _ _) fun r => ?_
    split
    · exact .refl _
    · exact .bind (busReadByte_upTo h _ _) fun _ => .bind (busReadByte_upTo h _ _) fun _ => .refl _

theorem busWriteWord_upTo (byCpu : Bool) (a : Word) (v : Nat) :
    UpTo (busWriteWord run byCpu a v) (busWriteWord run' byCpu a v) := by
  unfold busWriteWord
  split
  · refine .after fun s => ?_
    split
    · exact .bind (busWriteByte_upTo h _ _ _) fun _ => busWriteByte_upTo h _ _ _
    · refine .after fun _ => .after fun _ => .bind (h _ _) fun r => ?_
      split
      · exact .refl _
      · exact .bind (busWriteByte_upTo h _ _ _) fun _ => busWriteByte_upTo h _ _ _
  · exact .refl _

theorem runAct_upTo (byCpu : Bool) (args : CbArgs) (reply : Nat) (act : DevAct) :
    UpTo (runAct run byCpu args reply act) (runAct run' byCpu args reply act) := by
  unfold runAct
  refine .after fun s => ?_
  cases act <;> dsimp only
  case readByte => exact .bind (busReadByte_upTo h _ _) fun _ => .refl _
  case readWord => exact .bind (busReadWord_upTo h _ _) fun _ => .refl _
  case writeByte => exact .bind (busWriteByte_upTo h _ _ _) fun _ => .refl _
  case writeWord => exact .bind (busWriteWord_upTo h _ _ _) fun _ => .refl _
  all_goals exact .refl _

theorem runRules_upTo (byCpu : Bool) (args : CbArgs) (rules : List DevRule) (reply : Nat) :
    UpTo (runRules run byCpu args rules reply) (runRules run' byCpu args rules reply) := by
  induction rules generalizing reply with
  | nil => exact .refl _
  | cons rule rest ih =>
    unfold runRules
    refine .after fun s => ?_
    split
    · exact ih reply
    · split
      · exact .refl _
      · exact .refl _
      · exact .bind (runAct_upTo h byCpu args reply _) fun r => ih r

theorem runRounds_upTo (byCpu : Bool) (args : CbArgs) (rules : List DevRule) (rounds reply : Nat) :
    UpTo (runRounds run byCpu args rules rounds reply) (runRounds run' byCpu args rules rounds reply) := by
  induction rounds generalizing reply with
  | zero => exact .refl _
  | succ n ih =>
    unfold runRounds
    refine .bind (runRules_upTo h byCpu args rules reply) fun f => ?_
    cases f with
    | next reply' => exact ih reply'
    | done v => exact .refl _

theorem runBody_upTo (byCpu : Bool) (script : Script) (args : CbArgs) :
    UpTo (runBody run byCpu script args) (runBody run' byCpu script args) :=
  .after fun _ => .bind (runRounds_upTo h byCpu args _ _ _) fun _ => .refl _

end

theorem runScript_succ (d : Nat) : RunnerUpTo (runScript d) (runScript (d + 1)) := by
  induction d with
  | zero => exact fun _ _ => .hang _
  | succ d ih =>
    exact runBody_upTo ih false

/-- A greater depth does what a lesser one does, except where the lesser one hangs. -/
theorem runScript_mono {d e : Nat} (h : d ≤ e) : RunnerUpTo (runScript d) (runScript e) := by
  induction e, h using Nat.le_induction with
  | base => exact fun _ _ => .refl _
  | succ e _ ih =>
    intro script args s
    rcases ih script args s with h | h
    · exact .inl h
    · rcases runScript_succ e script args s with ⟨t, h'⟩ | h'
      · exact .inl ⟨t, by rw [← h, h']⟩
      · exact .inr (h'.trans h)

theorem hangs_iff {r : EStateM.Result Raise State (Option Nat)} : hangs r = true ↔ ∃ t, r = .error .hang t := by
  cases r with
  | ok v t => simp [hangs]
  | error e t => cases e <;> simp [hangs]

/-- A run that comes to its end at a depth ends so at every greater one. -/
theorem runScript_stable {d e : Nat} (h : d ≤ e) {script : Script} {args : CbArgs} {s : State}
    (hd : hangs (runScript d script args s) = false) : runScript e script args s = runScript d script args s := by
  rcases runScript_mono h script args s with h' | h'
  · rw [hangs_iff.mpr h'] at hd
    exact absurd hd (by decide)
  · exact h'

theorem deepen_of_ends {script : Script} {args : CbArgs} {s : State} {d n : Nat}
    (h : hangs (runScript (d + n) script args s) = false) : deepen script args s d = some (runScript (d + n) script args s) := by
  induction n generalizing d with
  | zero => rw [deepen_step, if_neg (by simp_all)]; rfl
  | succ n ih =>
    rw [deepen_step]
    split
    · have e : d + (n + 1) = d + 1 + n := by omega
      rw [e] at h ⊢
      exact ih h
    · next hh => rw [runScript_stable (e := d + (n + 1)) (Nat.le_add_right d (n + 1)) (by simpa using hh)]

/-- A callback does what its run does at any depth that is enough. -/
theorem runCallback_eq {script : Script} {args : CbArgs} {s : State} {d : Nat}
    (h : hangs (runScript d script args s) = false) : runCallback script args s = runScript d script args s := by
  unfold runCallback
  split
  · next t e =>
    have hd : Config.callbackDepth ≤ d := by
      rcases Nat.le_total Config.callbackDepth d with hd | hd
      · exact hd
      · rw [runScript_stable hd h] at e
        rw [e] at h
        exact absurd h (by simp [hangs])
    obtain ⟨n, rfl⟩ := Nat.exists_eq_add_of_le hd
    rw [deepen_of_ends h]
  · next hn =>
    rcases Nat.le_total Config.callbackDepth d with hd | hd
    · rcases runScript_mono hd script args s with ⟨t, h'⟩ | h'
      · exact absurd h' (hn t)
      · exact h'.symm
    · exact runScript_stable hd h

/-- A callback hangs exactly where no depth is enough: it calls callbacks without end (20_memory.md R91). -/
theorem runCallback_hangs_iff {script : Script} {args : CbArgs} {s : State} :
    hangs (runCallback script args s) = true ↔ ∀ d, hangs (runScript d script args s) = true := by
  constructor
  · intro h d
    by_contra hd
    rw [runCallback_eq (by simpa using hd)] at h
    exact hd h
  · intro h
    obtain ⟨d, e⟩ := runCallback_cases script args s
    rw [e]
    exact h d

end Sys2Proof.Machine
end

