-- ==== Sys2Proof/Laws/Stack.lean ====
section
/-! SUPPORT. The stacks on a machine with no callback: what a sequence of pushes leaves in memory, and what a sequence of
pulls finds (20_memory.md R110 to R113, 46_stack.md, 60_exceptions.md R620). -/

namespace Sys2Proof.Machine

/-! ## The stack pointer and the other registers -/

@[simp] theorem Regs.sp_setSp (r : Regs) (k : Stk) (x : Word) : (r.setSp k x).sp k = x := by cases k <;> rfl
@[simp] theorem Regs.setSp_setSp (r : Regs) (k : Stk) (x y : Word) : (r.setSp k x).setSp k y = r.setSp k y := by
  cases k <;> rfl
theorem Regs.setSp_sp (r : Regs) (k : Stk) : r.setSp k (r.sp k) = r := by cases k <;> rfl
@[simp] theorem Regs.setSp_a (r : Regs) (k : Stk) (x : Word) : (r.setSp k x).a = r.a := by cases k <;> rfl
@[simp] theorem Regs.setSp_b (r : Regs) (k : Stk) (x : Word) : (r.setSp k x).b = r.b := by cases k <;> rfl
@[simp] theorem Regs.setSp_dp (r : Regs) (k : Stk) (x : Word) : (r.setSp k x).dp = r.dp := by cases k <;> rfl
@[simp] theorem Regs.setSp_cc (r : Regs) (k : Stk) (x : Word) : (r.setSp k x).cc = r.cc := by cases k <;> rfl
@[simp] theorem Regs.setSp_x (r : Regs) (k : Stk) (x : Word) : (r.setSp k x).x = r.x := by cases k <;> rfl
@[simp] theorem Regs.setSp_y (r : Regs) (k : Stk) (x : Word) : (r.setSp k x).y = r.y := by cases k <;> rfl
@[simp] theorem Regs.setSp_pc (r : Regs) (k : Stk) (x : Word) : (r.setSp k x).pc = r.pc := by cases k <;> rfl
@[simp] theorem Regs.setSp_other (r : Regs) (k : Stk) (x : Word) :
    (r.setSp k x).reg16 (Stk.other k) = r.reg16 (Stk.other k) := by cases k <;> rfl

/-! ## Pushing -/

/-- The state after these bytes have been stacked, `bytes` upward from the stack pointer it leaves: that pointer, the
stack's bytes and `cycles` differ from the state before, and nothing else. -/
def Stacked (s : State) (k : Stk) (bytes : List Byte) (t : State) : Prop :=
  ∃ mem' : Memory, Memory.wf mem' = true ∧
    t = ((s.withMem mem').withRegs (s.regs.setSp k (s.regs.sp k - BitVec.ofNat 16 bytes.length))).addCycles
      (accessCost s.cfg bytes.length) ∧
    ∀ a, (s.withMem mem').backing a = s.overlay (s.regs.sp k - BitVec.ofNat 16 bytes.length) bytes a

theorem word_sub_succ (a b : Word) : a - (b + 1) = a - b - 1 := by bv_omega

/-- The bytes above the first, seen from one address higher. -/
theorem overlay_cons (s : State) (base : Word) (v : Byte) (bytes : List Byte) (a : Word) :
    s.overlay base (v :: bytes) a =
      if a = base ∧ region s.cfg a = .ram then v else s.overlay (base + 1) bytes a := by
  unfold State.overlay
  by_cases hr : region s.cfg a = .ram
  · simp only [hr, if_true, and_true]
    by_cases ha : a = base
    · subst ha
      simp
    · simp only [ha, if_false]
      have h0 : (a - base).toNat ≠ 0 := by
        intro h
        apply ha
        have : a - base = 0 := BitVec.eq_of_toNat_eq h
        rw [BitVec.sub_eq_iff_eq_add] at this
        simpa using this
      have h1 : (a - (base + 1)).toNat = (a - base).toNat - 1 := by
        rw [word_sub_succ]
        revert h0
        generalize a - base = d
        intro h0
        bv_omega
      rw [h1, List.getElem?_cons, if_neg h0]
  · simp [hr]

theorem stacked_nil {s : State} (w : s.mem.wf = true) (k : Stk) : Stacked s k [] s := by
  refine ⟨s.mem, w, ?_, fun a => ?_⟩
  · simp only [List.length_nil, accessCost_zero, State.addCycles_zero]
    rw [show s.regs.sp k - BitVec.ofNat 16 0 = s.regs.sp k from BitVec.sub_zero _, Regs.setSp_sp]
    rfl
  · simp [State.overlay, State.withMem_self]

theorem sub_ofNat_succ (x : Word) (n : Nat) : x - BitVec.ofNat 16 n - 1 = x - BitVec.ofNat 16 (n + 1) := by
  rw [BitVec.ofNat_add]
  exact (word_sub_succ x _).symm

theorem State.storeByte_eq_withMem (s : State) (a : Word) (v : Byte) :
    s.storeByte a v = s.withMem (s.storeByte a v).mem := by
  apply State.eq_of_fields <;> simp

/-- One byte more on the stack. -/
theorem stacked_push8 {s t : State} (q : s.Quiet) {k : Stk} {bytes : List Byte} (h : Stacked s k bytes t) (v : Byte) :
    ∃ t', push8 k v t = .ok ⟨⟩ t' ∧ Stacked s k (v :: bytes) t' := by
  obtain ⟨mem', w, rfl, hb⟩ := h
  refine ⟨_, ?_, ((s.withMem mem').storeByte (s.regs.sp k - BitVec.ofNat 16 (bytes.length + 1)) v).mem, ?_, rfl, ?_⟩
  · simp only [push8, bind_apply, modifyRegs_apply, getRegs_apply, State.addCycles_regs, State.withRegs_regs,
      Regs.sp_setSp, Regs.setSp_setSp, sub_ofNat_succ]
    rw [write8_at q _ _ (by rfl)]
    simp only [List.length_cons, ← accessCost_add, State.storeByte_addCycles, State.storeByte_withRegs,
      State.addCycles_withRegs, State.withRegs_withRegs, State.addCycles_addCycles]
    rw [State.storeByte_eq_withMem (s.withMem mem')]
    rfl
  · exact State.storeByte_wf w _ _
  · intro a
    have e := State.backing_storeByte (s := s.withMem mem') w (s.regs.sp k - BitVec.ofNat 16 (bytes.length + 1)) v a
    rw [State.storeByte_eq_withMem (s.withMem mem')] at e
    have hs : s.regs.sp k - BitVec.ofNat 16 (bytes.length + 1) + 1 = s.regs.sp k - BitVec.ofNat 16 bytes.length := by
      rw [← sub_ofNat_succ, BitVec.sub_add_cancel]
    rw [List.length_cons, overlay_cons, hs, ← hb a]
    refine Eq.trans e ?_
    by_cases ha : a = s.regs.sp k - BitVec.ofNat 16 (bytes.length + 1)
    · subst ha
      rfl
    · simp [ha]

/-- One word more on the stack, high byte lower. -/
theorem stacked_push16 {s t : State} (q : s.Quiet) {k : Stk} {bytes : List Byte} (h : Stacked s k bytes t) (v : Word) :
    ∃ t', push16 k v t = .ok ⟨⟩ t' ∧ Stacked s k (highByte v :: lowByte v :: bytes) t' := by
  obtain ⟨mem', w, rfl, hb⟩ := h
  have h2 : s.regs.sp k - BitVec.ofNat 16 bytes.length - 2 = s.regs.sp k - BitVec.ofNat 16 (bytes.length + 1 + 1) := by
    rw [← sub_ofNat_succ, ← sub_ofNat_succ]
    generalize s.regs.sp k - BitVec.ofNat 16 bytes.length = p
    bv_omega
  refine ⟨_, ?_, ((s.withMem mem').storeWord (s.regs.sp k - BitVec.ofNat 16 (bytes.length + 1 + 1)) v).mem, ?_, rfl, ?_⟩
  · simp only [push16, bind_apply, modifyRegs_apply, getRegs_apply, State.addCycles_regs, State.withRegs_regs,
      Regs.sp_setSp, Regs.setSp_setSp, h2]
    rw [write16_at q _ _ (by rfl)]
    simp only [List.length_cons, Nat.add_assoc, ← accessCost_add, State.storeWord_addCycles, State.storeWord_withRegs,
      State.addCycles_withRegs, State.withRegs_withRegs, State.addCycles_addCycles]
    apply congrArg
    have h11 : accessCost s.cfg 1 + accessCost s.cfg 1 = accessCost s.cfg 2 := accessCost_add _ _ _
    apply State.eq_of_fields <;> simp [h11]
  · exact State.storeByte_wf (State.storeByte_wf w _ _) _ _
  · intro a
    have h1 : s.regs.sp k - BitVec.ofNat 16 (bytes.length + 1 + 1) + 1 = s.regs.sp k - BitVec.ofNat 16 (bytes.length + 1) := by
      rw [← sub_ofNat_succ, BitVec.sub_add_cancel]
    have h0 : s.regs.sp k - BitVec.ofNat 16 (bytes.length + 1) + 1 = s.regs.sp k - BitVec.ofNat 16 bytes.length := by
      rw [← sub_ofNat_succ, BitVec.sub_add_cancel]
    rw [List.length_cons, List.length_cons, overlay_cons, h1, overlay_cons, h0, ← hb a]
    have e : (s.withMem ((s.withMem mem').storeWord (s.regs.sp k - BitVec.ofNat 16 (bytes.length + 1 + 1)) v).mem).backing a
        = ((s.withMem mem').storeWord (s.regs.sp k - BitVec.ofNat 16 (bytes.length + 1 + 1)) v).backing a := by
      simp [State.backing]
    rw [e, State.storeWord, State.backing_storeByte (State.storeByte_wf w _ _), State.backing_storeByte w, h1]
    simp only [State.storeByte_cfg, State.withMem_cfg]
    generalize s.regs.sp k - BitVec.ofNat 16 (bytes.length + 1 + 1) = p at h1
    generalize s.regs.sp k - BitVec.ofNat 16 (bytes.length + 1) = p1 at h1
    have hne : p1 ≠ p := h1 ▸ word_add_one_ne p
    by_cases a1 : a = p1
    · subst a1
      simp [hne]
    · by_cases a0 : a = p
      · subst a0
        simp [Ne.symm hne]
      · simp [a1, a0]

theorem stacked_when8 {s t : State} (q : s.Quiet) {k : Stk} {bytes : List Byte} (h : Stacked s k bytes t) (m : Byte)
    (j : Nat) (f : Regs → Byte) (hf : ∀ (r : Regs) (x : Word), f (r.setSp k x) = f r) :
    ∃ t', whenBit m j (do push8 k (f (← getRegs))) t = .ok ⟨⟩ t' ∧
      Stacked s k ((if m.getLsbD j then [f s.regs] else []) ++ bytes) t' := by
  have hr : f t.regs = f s.regs := by
    obtain ⟨mem', w, rfl, hb⟩ := h
    exact hf _ _
  unfold whenBit
  split
  · obtain ⟨t', e, h'⟩ := stacked_push8 q h (f s.regs)
    exact ⟨t', by rw [bind_ok (getRegs_apply t), hr, e], h'⟩
  · exact ⟨t, rfl, h⟩

theorem stacked_when16 {s t : State} (q : s.Quiet) {k : Stk} {bytes : List Byte} (h : Stacked s k bytes t) (m : Byte)
    (j : Nat) (f : Regs → Word) (hf : ∀ (r : Regs) (x : Word), f (r.setSp k x) = f r) :
    ∃ t', whenBit m j (do push16 k (f (← getRegs))) t = .ok ⟨⟩ t' ∧
      Stacked s k ((if m.getLsbD j then [highByte (f s.regs), lowByte (f s.regs)] else []) ++ bytes) t' := by
  have hr : f t.regs = f s.regs := by
    obtain ⟨mem', w, rfl, hb⟩ := h
    exact hf _ _
  unfold whenBit
  split
  · obtain ⟨t', e, h'⟩ := stacked_push16 q h (f s.regs)
    exact ⟨t', by rw [bind_ok (getRegs_apply t), hr, e], h'⟩
  · exact ⟨t, rfl, h⟩

/-- What a push mask stacks (46_stack.md, `PushMask`). -/
theorem pushMask_quiet {s : State} (q : s.Quiet) (w : s.mem.wf = true) (k : Stk) (m : Byte) :
    ∃ t, pushMask k m s = .ok ⟨⟩ t ∧ Stacked s k (frameBytes k m s.regs) t := by
  obtain ⟨t7, e7, h7⟩ := stacked_when16 q (stacked_nil w k) m 7 Regs.pc (fun r x => Regs.setSp_pc r k x)
  obtain ⟨t6, e6, h6⟩ := stacked_when16 q h7 m 6 (fun r => r.reg16 (Stk.other k)) (fun r x => Regs.setSp_other r k x)
  obtain ⟨t5, e5, h5⟩ := stacked_when16 q h6 m 5 Regs.y (fun r x => Regs.setSp_y r k x)
  obtain ⟨t4, e4, h4⟩ := stacked_when16 q h5 m 4 Regs.x (fun r x => Regs.setSp_x r k x)
  obtain ⟨t3, e3, h3⟩ := stacked_when8 q h4 m 3 Regs.dp (fun r x => Regs.setSp_dp r k x)
  obtain ⟨t2, e2, h2⟩ := stacked_when8 q h3 m 2 Regs.b (fun r x => Regs.setSp_b r k x)
  obtain ⟨t1, e1, h1⟩ := stacked_when8 q h2 m 1 Regs.a (fun r x => Regs.setSp_a r k x)
  obtain ⟨t0, e0, h0⟩ := stacked_when8 q h1 m 0 (fun r => CC.toByte r.cc) (fun r x => by rw [Regs.setSp_cc])
  refine ⟨t0, ?_, ?_⟩
  · unfold pushMask
    rw [bind_ok e7, bind_ok e6, bind_ok e5, bind_ok e4, bind_ok e3, bind_ok e2, bind_ok e1]
    exact e0
  · rw [List.append_nil] at h0
    exact h0

theorem frameBytes_length (k : Stk) (m : Byte) (r : Regs) : (frameBytes k m r).length = maskBytes m := by
  simp only [frameBytes, maskBytes, List.length_append]
  cases m.getLsbD 0 <;> cases m.getLsbD 1 <;> cases m.getLsbD 2 <;> cases m.getLsbD 3 <;> cases m.getLsbD 4 <;>
    cases m.getLsbD 5 <;> cases m.getLsbD 6 <;> cases m.getLsbD 7 <;> rfl

/-! ## Pulling -/

/-- A change of the registers made if a mask names it. -/
def Regs.pulling (r : Regs) (b : Bool) (f : Regs → Regs) : Regs := if b then f r else r

/-- DP written. -/
def Regs.putDp (r : Regs) (v : Byte) : Regs := { r with dp := v }

theorem Regs.pulling_field {α : Type} (g : Regs → α) (b : Bool) (f : Regs → Regs) (r : Regs) :
    g (r.pulling b f) = if b then g (f r) else g r := by
  unfold Regs.pulling
  split <;> rfl

/-- The state after `n` bytes have been pulled and the registers, the stack pointer apart, have become `r`. -/
def Pulled (s : State) (k : Stk) (n : Nat) (r : Regs) (t : State) : Prop :=
  t = (s.withRegs (r.setSp k (s.regs.sp k + BitVec.ofNat 16 n))).addCycles (accessCost s.cfg n)

theorem pulled_zero (s : State) (k : Stk) : Pulled s k 0 s.regs s := by
  unfold Pulled
  rw [show s.regs.sp k + BitVec.ofNat 16 0 = s.regs.sp k from BitVec.add_zero _, Regs.setSp_sp, accessCost_zero]
  rfl

theorem add_ofNat_succ (x : Word) (n : Nat) : x + BitVec.ofNat 16 n + 1 = x + BitVec.ofNat 16 (n + 1) := by
  rw [BitVec.ofNat_add, BitVec.add_assoc]
  rfl

theorem pulled_when8 {s t : State} (q : s.Quiet) {k : Stk} {n : Nat} {r : Regs} (h : Pulled s k n r t) (m : Byte) (j : Nat)
    (f : Regs → Byte → Regs) (hf : ∀ (r : Regs) (x : Word) (v : Byte), f (r.setSp k x) v = (f r v).setSp k x) :
    ∃ t', whenBit m j (pull8Into k f) t = .ok ⟨⟩ t' ∧
      Pulled s k (n + (m.getLsbD j).toNat)
        (r.pulling (m.getLsbD j) fun r => f r (s.backing (s.regs.sp k + BitVec.ofNat 16 n))) t' := by
  subst h
  unfold whenBit
  split
  · rename_i hb
    rw [hb]
    refine ⟨_, ?_, rfl⟩
    simp only [pull8Into, pull8, bind_apply, getRegs_apply, State.addCycles_regs, State.withRegs_regs, Regs.sp_setSp]
    rw [read8_at q _ (by rfl)]
    simp only [modifyRegs_apply, pure_apply, State.addCycles_regs, State.withRegs_regs, Regs.sp_setSp, Regs.setSp_setSp,
      hf, add_ofNat_succ, Bool.toNat_true, ← accessCost_add, State.addCycles_withRegs, State.withRegs_withRegs,
      State.addCycles_addCycles, State.addCycles_backing, State.withRegs_backing]
    rfl
  · rename_i hb
    refine ⟨_, rfl, ?_⟩
    rw [Bool.not_eq_true] at hb
    rw [hb]
    rfl

theorem pulled_when16 {s t : State} (q : s.Quiet) {k : Stk} {n : Nat} {r : Regs} (h : Pulled s k n r t) (m : Byte) (j : Nat)
    (f : Regs → Word → Regs) (hf : ∀ (r : Regs) (x : Word) (v : Word), f (r.setSp k x) v = (f r v).setSp k x) :
    ∃ t', whenBit m j (pull16Into k f) t = .ok ⟨⟩ t' ∧
      Pulled s k (n + 2 * (m.getLsbD j).toNat)
        (r.pulling (m.getLsbD j) fun r => f r (s.word (s.regs.sp k + BitVec.ofNat 16 n))) t' := by
  subst h
  have h2 : ∀ x : Word, x + BitVec.ofNat 16 n + 2 = x + BitVec.ofNat 16 (n + 2) := by
    intro x
    rw [BitVec.ofNat_add, BitVec.add_assoc]
    rfl
  unfold whenBit
  split
  · rename_i hb
    rw [hb]
    refine ⟨_, ?_, rfl⟩
    simp only [pull16Into, pull16, bind_apply, getRegs_apply, State.addCycles_regs, State.withRegs_regs, Regs.sp_setSp]
    rw [read16_at q _ (by rfl)]
    simp only [modifyRegs_apply, pure_apply, State.addCycles_regs, State.withRegs_regs, Regs.sp_setSp, Regs.setSp_setSp,
      hf, h2, Bool.toNat_true, ← accessCost_add, State.addCycles_withRegs, State.withRegs_withRegs,
      State.addCycles_addCycles, State.word, State.addCycles_backing, State.withRegs_backing, Nat.mul_one]
    rfl
  · rename_i hb
    refine ⟨_, rfl, ?_⟩
    rw [Bool.not_eq_true] at hb
    rw [hb]
    rfl

/-- The offset of a register in a pull counts the bytes of the registers pulled before it. -/
theorem pullOffset_eq (m : Byte) :
    pullOffset m 0 = BitVec.ofNat 16 0 ∧
    pullOffset m 1 = BitVec.ofNat 16 (0 + (m.getLsbD 0).toNat) ∧
    pullOffset m 2 = BitVec.ofNat 16 (0 + (m.getLsbD 0).toNat + (m.getLsbD 1).toNat) ∧
    pullOffset m 3 = BitVec.ofNat 16 (0 + (m.getLsbD 0).toNat + (m.getLsbD 1).toNat + (m.getLsbD 2).toNat) ∧
    pullOffset m 4 = BitVec.ofNat 16
      (0 + (m.getLsbD 0).toNat + (m.getLsbD 1).toNat + (m.getLsbD 2).toNat + (m.getLsbD 3).toNat) ∧
    pullOffset m 5 = BitVec.ofNat 16
      (0 + (m.getLsbD 0).toNat + (m.getLsbD 1).toNat + (m.getLsbD 2).toNat + (m.getLsbD 3).toNat +
        2 * (m.getLsbD 4).toNat) ∧
    pullOffset m 6 = BitVec.ofNat 16
      (0 + (m.getLsbD 0).toNat + (m.getLsbD 1).toNat + (m.getLsbD 2).toNat + (m.getLsbD 3).toNat +
        2 * (m.getLsbD 4).toNat + 2 * (m.getLsbD 5).toNat) ∧
    pullOffset m 7 = BitVec.ofNat 16
      (0 + (m.getLsbD 0).toNat + (m.getLsbD 1).toNat + (m.getLsbD 2).toNat + (m.getLsbD 3).toNat +
        2 * (m.getLsbD 4).toNat + 2 * (m.getLsbD 5).toNat + 2 * (m.getLsbD 6).toNat) := by
  have h : ∀ k < 8, ∀ j < 8, (m &&& BitVec.ofNat 8 (2 ^ k - 1)).getLsbD j = (m.getLsbD j && decide (j < k)) := by
    intro k hk j hj
    rw [BitVec.getLsbD_and, BitVec.getLsbD_ofNat, Nat.testBit_two_pow_sub_one]
    simp [hj]
  simp (discharger := decide) only [pullOffset, maskBytes, h]
  refine ⟨?_, ?_, ?_, ?_, ?_, ?_, ?_, ?_⟩ <;> congr 1 <;>
    simp (decide := true) only [Bool.and_true, Bool.and_false, decide_true, decide_false, Bool.toNat_false] <;> omega

theorem maskBytes_eq (m : Byte) : maskBytes m =
    0 + (m.getLsbD 0).toNat + (m.getLsbD 1).toNat + (m.getLsbD 2).toNat + (m.getLsbD 3).toNat +
        2 * (m.getLsbD 4).toNat + 2 * (m.getLsbD 5).toNat + 2 * (m.getLsbD 6).toNat + 2 * (m.getLsbD 7).toNat := by
  unfold maskBytes
  omega

theorem Regs.eq_of_fields {r t : Regs} (h1 : r.a = t.a) (h2 : r.b = t.b) (h3 : r.dp = t.dp) (h4 : r.cc = t.cc)
    (h5 : r.x = t.x) (h6 : r.y = t.y) (h7 : r.u = t.u) (h8 : r.s = t.s) (h9 : r.pc = t.pc) : r = t := by
  cases r
  cases t
  simp_all

theorem pulling_chain (r : Regs) (k : Stk) (b0 b1 b2 b3 b4 b5 b6 b7 : Bool) (v0 : CC) (v1 v2 v3 : Byte)
    (v4 v5 v6 v7 sp : Word) :
    ((((((((r.pulling b0 fun r => r.setCC v0).pulling b1 fun r => r.setAcc .a v1).pulling b2 fun r =>
      r.setAcc .b v2).pulling b3 fun r => r.putDp v3).pulling b4 fun r => r.setReg16 .x v4).pulling b5 fun r =>
      r.setReg16 .y v5).pulling b6 fun r => r.setReg16 (Stk.other k) v6).pulling b7 fun r => r.setPc v7).setSp k sp =
    { cc := if b0 then v0 else r.cc
      a := if b1 then v1 else r.a
      b := if b2 then v2 else r.b
      dp := if b3 then v3 else r.dp
      x := if b4 then v4 else r.x
      y := if b5 then v5 else r.y
      s := match k with
        | .s => sp
        | .u => if b6 then v6 else r.s
      u := match k with
        | .s => if b6 then v6 else r.u
        | .u => sp
      pc := if b7 then v7 else r.pc } := by
  cases k <;> apply Regs.eq_of_fields <;>
    simp only [Regs.setSp, Regs.setCC, Regs.setAcc, Regs.putDp, Regs.setReg16, Regs.setPc, Stk.other,
      Regs.pulling_field Regs.a, Regs.pulling_field Regs.b, Regs.pulling_field Regs.cc, Regs.pulling_field Regs.dp,
      Regs.pulling_field Regs.x, Regs.pulling_field Regs.y, Regs.pulling_field Regs.s, Regs.pulling_field Regs.u,
      Regs.pulling_field Regs.pc, ite_self]

/-- What a pull mask finds (46_stack.md, `PullMask`). -/
theorem pullMask_quiet {s : State} (q : s.Quiet) (k : Stk) (m : Byte) :
    pullMask k m s = .ok ⟨⟩ (((s.withNmiArmed (s.nmiArmed || (m.getLsbD 6 && decide (k = .u)))).withRegs
      (pulledRegs s k m)).addCycles (accessCost s.cfg (maskBytes m))) := by
  obtain ⟨t0, e0, h0⟩ := pulled_when8 q (pulled_zero s k) m 0 (fun r v => r.setCC (CC.ofByte v)) (by cases k <;> intros <;> rfl)
  obtain ⟨t1, e1, h1⟩ := pulled_when8 q h0 m 1 (fun r v => r.setAcc .a v) (by cases k <;> intros <;> rfl)
  obtain ⟨t2, e2, h2⟩ := pulled_when8 q h1 m 2 (fun r v => r.setAcc .b v) (by cases k <;> intros <;> rfl)
  obtain ⟨t3, e3, h3⟩ := pulled_when8 q h2 m 3 (fun r v => r.putDp v) (by cases k <;> intros <;> rfl)
  obtain ⟨t4, e4, h4⟩ := pulled_when16 q h3 m 4 (fun r v => r.setReg16 .x v) (by cases k <;> intros <;> rfl)
  obtain ⟨t5, e5, h5⟩ := pulled_when16 q h4 m 5 (fun r v => r.setReg16 .y v) (by cases k <;> intros <;> rfl)
  obtain ⟨t6, e6, h6⟩ := pulled_when16 q h5 m 6 (fun r v => r.setReg16 (Stk.other k) v) (by cases k <;> intros <;> rfl)
  obtain ⟨t7, e7, h7⟩ := pulled_when16 q h6 m 7 (fun r v => r.setPc v) (by cases k <;> intros <;> rfl)
  obtain ⟨p0, p1, p2, p3, p4, p5, p6, p7⟩ := pullOffset_eq m
  unfold Pulled at h7
  rw [← maskBytes_eq] at h7
  simp only [← p0, ← p1, ← p2, ← p3, ← p4, ← p5, ← p6, ← p7] at h7
  rw [pulling_chain] at h7
  refine (bind_ok e0).trans ((bind_ok e1).trans ((bind_ok e2).trans ((bind_ok e3).trans ((bind_ok e4).trans
    ((bind_ok e5).trans ((bind_ok e6).trans ((bind_ok e7).trans ?_)))))))
  rw [h7]
  cases hm : m.getLsbD 6 <;> cases k <;>
    simp only [whenBit, hm, Bool.false_eq_true, if_false, if_true, Bool.false_and, Bool.true_and, Bool.or_false,
      State.withNmiArmed_self, pure_apply, Stk.other, armNmi_s, armNmi_u, pulledRegs, State.pullByte, State.pullWord,
      State.word, reduceCtorEq, decide_false, decide_true, Bool.or_true]
  all_goals rfl

/-! ## Frames -/

theorem pushEntire_eq : pushEntire = pushMask .s 0xFF := rfl

theorem pushFast_eq : pushFast = pushMask .s 0x81 := rfl

/-- RTI of an entire frame is a pull of every register, and of a fast frame a pull of CC and PC (47_interrupt_ops.md R545). -/
theorem returnFromException_quiet {s : State} (q : s.Quiet) :
    returnFromException s =
      if (CC.ofByte (s.backing s.regs.s)).e then
        .ok ⟨⟩ (((s.withRegs (pulledRegs s .s 0xFF)).addCycles (accessCost s.cfg 12)).addCycles 9)
      else .ok ⟨⟩ ((s.withRegs (pulledRegs s .s 0x81)).addCycles (accessCost s.cfg 3)) := by
  have h : returnFromException s =
      if (CC.ofByte (s.backing s.regs.s)).e then (do pullMask .s 0xFF; addCycles 9) s else pullMask .s 0x81 s := by
    have e0 : pull8 .s s = .ok (s.backing s.regs.s)
        ((s.addCycles (accessCost s.cfg 1)).withRegs (s.regs.setSp .s (s.regs.s + 1))) := by
      simp only [pull8, bind_apply, getRegs_apply, Regs.sp]
      rw [read8_at q _ rfl]
      rfl
    have e1 : pullMask .s 0xFF = pull8 .s >>= fun c => (modifyCC (fun _ => CC.ofByte c) >>= fun _ => pullMask .s 0xFE) := by
      rw [show pullMask .s 0xFF = (pull8Into .s fun r v => r.setCC (CC.ofByte v)) >>= fun _ => pullMask .s 0xFE from rfl]
      unfold pull8Into
      rw [bind_assoc]
      rfl
    have e2 : pullMask .s 0x81 = pull8 .s >>= fun c => (modifyCC (fun _ => CC.ofByte c) >>= fun _ => pullMask .s 0x80) := by
      rw [show pullMask .s 0x81 = (pull8Into .s fun r v => r.setCC (CC.ofByte v)) >>= fun _ => pullMask .s 0x80 from rfl]
      unfold pull8Into
      rw [bind_assoc]
      rfl
    have e3 : (do pullMask .s 0xFE; addCycles 9) = (do
        let a ← pull8 .s
        modifyRegs fun r => { r with a := a }
        let b ← pull8 .s
        modifyRegs fun r => { r with b := b }
        let dp ← pull8 .s
        modifyRegs fun r => { r with dp := dp }
        let x ← pull16 .s
        modifyRegs fun r => { r with x := x }
        let y ← pull16 .s
        modifyRegs fun r => { r with y := y }
        let u ← pull16 .s
        modifyRegs fun r => { r with u := u }
        setPc (← pull16 .s)
        addCycles 9) := by
      have a7 : armNmi (Stk.other .s) = (pure ⟨⟩ : M Unit) := rfl
      simp [pullMask, pull8Into, pull16Into, whenBit, bind_assoc, a7]
      rfl
    have e4 : pullMask .s 0x80 = (do setPc (← pull16 .s)) := by
      simp [pullMask, pull16Into, whenBit]
      rfl
    unfold returnFromException
    rw [bind_ok e0]
    split
    · rw [e1, bind_assoc, bind_ok e0, bind_assoc, e3]
    · rw [e2, bind_ok e0, e4]
  rw [h]
  split
  · rw [bind_ok (pullMask_quiet q .s 0xFF)]
    simp [maskBytes, State.withNmiArmed_self]
  · rw [pullMask_quiet q .s 0x81]
    simp [maskBytes, State.withNmiArmed_self]

/-- The mask whose push makes a frame (60_exceptions.md R620). -/
def Frame.mask : Frame → Byte
  | .entire => 0xFF
  | .fast => 0x81
  | .stacked => 0x00

/-- CC as a frame's entry stacks it: E says which frame it is (60_exceptions.md R620 to R624). -/
def Frame.mark (f : Frame) (c : CC) : CC :=
  match f with
  | .entire => { c with e := true }
  | .fast => { c with e := false }
  | .stacked => c

/-- What pushing a frame leaves. -/
theorem pushFrame_quiet {s : State} (q : s.Quiet) (w : s.mem.wf = true) (f : Frame) :
    ∃ t, pushFrame f s = .ok ⟨⟩ t ∧
      Stacked (s.withRegs (s.regs.setCC (f.mark s.regs.cc))) .s
        (frameBytes .s f.mask (s.regs.setCC (f.mark s.regs.cc))) t := by
  cases f with
  | entire => exact pushMask_quiet (s := s.withRegs (s.regs.setCC (Frame.mark .entire s.regs.cc))) (q.of_cfg rfl) w .s 0xFF
  | fast => exact pushMask_quiet (s := s.withRegs (s.regs.setCC (Frame.mark .fast s.regs.cc))) (q.of_cfg rfl) w .s 0x81
  | stacked => exact ⟨s, rfl, stacked_nil w .s⟩

/-- What taking an exception does before it acknowledges: the memory it leaves is the frame's, whatever the masks and the
vector (60_exceptions.md R621 to R624). -/
theorem takeException_quiet {s : State} (q : s.Quiet) (w : s.mem.wf = true) (f : Frame) :
    ∃ mem' : Memory, Memory.wf mem' = true ∧
      (∀ a, (s.withMem mem').backing a = s.overlay (s.regs.s - BitVec.ofNat 16 (maskBytes f.mask))
        (frameBytes .s f.mask (s.regs.setCC (f.mark s.regs.cc))) a) ∧
      ∀ e : Entry, e.frame = f →
        takeException e s =
          (match e.ack with
          | some k => acknowledge k
          | none => return () : M Unit) (((s.withMem mem').withRegs
          { s.regs with
            cc := { f.mark s.regs.cc with i := s.regs.cc.i || e.setI, f := s.regs.cc.f || e.setF }
            s := s.regs.s - BitVec.ofNat 16 (maskBytes f.mask)
            pc := (s.withMem mem').word e.vector }).addCycles (accessCost s.cfg (maskBytes f.mask + 2))) := by
  obtain ⟨t, e1, mem', w', ht, hb⟩ := pushFrame_quiet q w f
  rw [frameBytes_length] at ht hb
  refine ⟨mem', w', hb, fun e he => ?_⟩
  have hi : (f.mark s.regs.cc).i = s.regs.cc.i := by cases f <;> rfl
  have hf : (f.mark s.regs.cc).f = s.regs.cc.f := by cases f <;> rfl
  unfold takeException
  rw [he, bind_ok e1, ht]
  simp only [bind_apply, modifyCC_apply]
  rw [read16_at q _ (by rfl)]
  simp only [setPc_apply]
  refine congrArg _ ?_
  simp only [← accessCost_add, Regs.setCC, Regs.setSp, Regs.sp, Regs.setPc, State.withRegs_regs, State.addCycles_regs, hi, hf,
    State.addCycles_withRegs, State.withRegs_withRegs, State.addCycles_addCycles, State.word, State.addCycles_backing, State.withRegs_backing]
  rfl

/-- An acknowledgement that comes to its end has called every hook in order (60_exceptions.md R611). -/
theorem acknowledge_ok {k : Irq} {s t : State} (h : RunsInOrder (s.ackCalls k) s t) : acknowledge k s = .ok ⟨⟩ t :=
  runAll_ok _ (by rw [List.map_map]; exact h)

/-- An acknowledgement stops at the first hook that fails. -/
theorem acknowledge_error {k : Irq} {s t : State} {e : Raise} (h : FailsInOrder (s.ackCalls k) s e t) :
    acknowledge k s = .error e t :=
  runAll_error _ (by rw [List.map_map]; exact h)

end Sys2Proof.Machine
end

