-- ==== Sys2Proof/Tests/Slice0.lean ====
section
/-! SUPPORT. Tests on small states, with expected results from spec/ (95_test_vectors.md, opcode_table.json), and witnesses
that the hypotheses of the statements can be met. -/

namespace Sys2Proof.Machine

/-! ## Well-formedness: an ill-formed term for each check -/

theorem test_wf_reserved_submode : IdxMode.wf (.reserved 0x7) = true ∧ IdxMode.wf (.reserved 0x8) = false := by decide
theorem test_wf_idx : Idx.wf (.mode .x true (.reserved 0xF)) = false := by decide
theorem test_wf_mem : Mem.wf (.idx (.mode .y false (.reserved 0x0))) = false := by decide
theorem test_wf_src8 : Src8.wf (.mem (.idx (.mode .s false (.reserved 0x4)))) = false := by decide
theorem test_wf_src16 : Src16.wf (.mem (.idx (.mode .u false (.reserved 0xB)))) = false := by decide
theorem test_wf_sink : Sel.wf (.sink 0x6) = true ∧ Sel.wf (.sink 0x5) = false := by decide
theorem test_wf_instr_src8 : Instr.wf (.lda (.mem (.idx (.mode .x false (.reserved 0x1))))) = false := by decide
theorem test_wf_instr_src16 : Instr.wf (.cmpx (.mem (.idx (.mode .x false (.reserved 0x2))))) = false := by decide
theorem test_wf_instr_mem : Instr.wf (.clr (.idx (.mode .x false (.reserved 0x3)))) = false := by decide
theorem test_wf_instr_idx : Instr.wf (.leas (.mode .x false (.reserved 0x5))) = false := by decide
theorem test_wf_instr_tfr : Instr.wf (.tfr .a (.sink 0xA)) = false ∧ Instr.wf (.tfr (.sink 0x0) .a) = false := by decide
theorem test_wf_instr_exg : Instr.wf (.exg (.sink 0x9) .b) = false ∧ Instr.wf (.exg .b (.sink 0xB)) = false := by decide

/-! ## Decoding: a word for each constructor, written out from opcode_table.json and 30_encoding.md R139, R140, R160 -/

/-- Each list of bytes decodes to the instruction beside it, with nothing left. -/
def decodesAll (rows : List (List Byte × Instr)) : Bool := rows.all fun r => decode r.1 == some (r.2, [])

/-- 40_load_store.md. -/
theorem test_decode_loads_stores_lea : decodesAll
    [([0x86, 0xC3], .lda (.imm 0xC3)),
      ([0xD6, 0x5A], .ldb (.mem (.dir 0x5A))),
      ([0xEC, 0x84], .ldd (.mem (.idx (.mode .x false .zero)))),
      ([0xBE, 0x8A, 0x51], .ldx (.mem (.ext 0x8A51))),
      ([0x10, 0x8E, 0xC3, 0x96], .ldy (.imm 0xC396)),
      ([0xDE, 0x5A], .ldu (.mem (.dir 0x5A))),
      ([0x10, 0xEE, 0xB3], .lds (.mem (.idx (.mode .y true .dec2)))),
      ([0xA7, 0x5E], .sta (.idx (.off5 .u 0x1E))),
      ([0xF7, 0x8A, 0x51], .stb (.ext 0x8A51)),
      ([0xDD, 0x5A], .std (.dir 0x5A)),
      ([0xAF, 0xE9, 0x12, 0x34], .stx (.idx (.mode .s false (.off16 0x1234)))),
      ([0x10, 0xBF, 0x8A, 0x51], .sty (.ext 0x8A51)),
      ([0xDF, 0x5A], .stu (.dir 0x5A)),
      ([0x10, 0xEF, 0x9C, 0xF0], .sts (.idx (.mode .x true (.pcr8 0xF0)))),
      ([0x30, 0xC0], .leax (.mode .u false .inc1)),
      ([0x31, 0xAB], .leay (.mode .y false .accD)),
      ([0x32, 0x9F, 0xAB, 0xCD], .leas (.mode .x true (.extInd 0xABCD))),
      ([0x33, 0xE7], .leau (.mode .s false (.reserved 7)))] = true := by decide

/-- 41_add_sub_compare.md. -/
theorem test_decode_add_subtract_compare : decodesAll
    [([0xAB, 0xC8, 0x80], .adda (.mem (.idx (.mode .u false (.off8 0x80))))),
      ([0xFB, 0x8A, 0x51], .addb (.mem (.ext 0x8A51))),
      ([0x89, 0xC3], .adca (.imm 0xC3)),
      ([0xD9, 0x5A], .adcb (.mem (.dir 0x5A))),
      ([0xE3, 0x86], .addd (.mem (.idx (.mode .x false .accA)))),
      ([0xB0, 0x8A, 0x51], .suba (.mem (.ext 0x8A51))),
      ([0xC0, 0xC3], .subb (.imm 0xC3)),
      ([0x92, 0x5A], .sbca (.mem (.dir 0x5A))),
      ([0xE2, 0xF5], .sbcb (.mem (.idx (.mode .s true .accB)))),
      ([0xB3, 0x8A, 0x51], .subd (.mem (.ext 0x8A51))),
      ([0x81, 0xC3], .cmpa (.imm 0xC3)),
      ([0xD1, 0x5A], .cmpb (.mem (.dir 0x5A))),
      ([0x10, 0xA3, 0x8D, 0x01, 0x02], .cmpd (.mem (.idx (.mode .x false (.pcr16 0x0102))))),
      ([0xBC, 0x8A, 0x51], .cmpx (.mem (.ext 0x8A51))),
      ([0x10, 0x8C, 0xC3, 0x96], .cmpy (.imm 0xC396)),
      ([0x11, 0x93, 0x5A], .cmpu (.mem (.dir 0x5A))),
      ([0x11, 0xAC, 0x91], .cmps (.mem (.idx (.mode .x true .inc2))))] = true := by decide

/-- 42_logical_cc.md. -/
theorem test_decode_logic : decodesAll
    [([0xB4, 0x8A, 0x51], .anda (.mem (.ext 0x8A51))),
      ([0xC4, 0xC3], .andb (.imm 0xC3)),
      ([0x9A, 0x5A], .ora (.mem (.dir 0x5A))),
      ([0xEA, 0xA2], .orb (.mem (.idx (.mode .y false .dec1)))),
      ([0xB8, 0x8A, 0x51], .eora (.mem (.ext 0x8A51))),
      ([0xC8, 0xC3], .eorb (.imm 0xC3)),
      ([0x95, 0x5A], .bita (.mem (.dir 0x5A))),
      ([0xE5, 0x84], .bitb (.mem (.idx (.mode .x false .zero)))),
      ([0x1C, 0xC3], .andcc 0xC3),
      ([0x1A, 0xC3], .orcc 0xC3)] = true := by decide

/-- 43_shift_unary.md. -/
theorem test_decode_shift_unary_1 : decodesAll
    [([0x47], .asra),
      ([0x57], .asrb),
      ([0x77, 0x8A, 0x51], .asr (.ext 0x8A51)),
      ([0x44], .lsra),
      ([0x54], .lsrb),
      ([0x74, 0x8A, 0x51], .lsr (.ext 0x8A51)),
      ([0x48], .asla),
      ([0x58], .aslb),
      ([0x78, 0x8A, 0x51], .asl (.ext 0x8A51)),
      ([0x49], .rola),
      ([0x59], .rolb),
      ([0x79, 0x8A, 0x51], .rol (.ext 0x8A51)),
      ([0x46], .rora),
      ([0x56], .rorb),
      ([0x76, 0x8A, 0x51], .ror (.ext 0x8A51)),
      ([0x4C], .inca),
      ([0x5C], .incb),
      ([0x7C, 0x8A, 0x51], .inc (.ext 0x8A51))] = true := by decide

/-- 43_shift_unary.md. -/
theorem test_decode_shift_unary_2 : decodesAll
    [([0x4A], .deca),
      ([0x5A], .decb),
      ([0x7A, 0x8A, 0x51], .dec (.ext 0x8A51)),
      ([0x40], .nega),
      ([0x50], .negb),
      ([0x70, 0x8A, 0x51], .neg (.ext 0x8A51)),
      ([0x4F], .clra),
      ([0x5F], .clrb),
      ([0x7F, 0x8A, 0x51], .clr (.ext 0x8A51)),
      ([0x43], .coma),
      ([0x53], .comb),
      ([0x73, 0x8A, 0x51], .com (.ext 0x8A51)),
      ([0x4D], .tsta),
      ([0x5D], .tstb),
      ([0x7D, 0x8A, 0x51], .tst (.ext 0x8A51))] = true := by decide

/-- 44_misc_alu.md. -/
theorem test_decode_misc : decodesAll
    [([0x3D], .mul),
      ([0x19], .daa),
      ([0x1D], .sex),
      ([0x3A], .abx),
      ([0x1F, 0x9B], .tfr .b .dp),
      ([0x1E, 0x4C], .exg .s (.sink 0xC)),
      ([0x12], .nop)] = true := by decide

/-- 45_control_flow.md section 2. -/
theorem test_decode_short_branches : decodesAll
    [([0x20, 0xC3], .bra 0xC3),
      ([0x21, 0xC3], .brn 0xC3),
      ([0x22, 0xC3], .bhi 0xC3),
      ([0x23, 0xC3], .bls 0xC3),
      ([0x24, 0xC3], .bcc 0xC3),
      ([0x25, 0xC3], .bcs 0xC3),
      ([0x26, 0xC3], .bne 0xC3),
      ([0x27, 0xC3], .beq 0xC3),
      ([0x28, 0xC3], .bvc 0xC3),
      ([0x29, 0xC3], .bvs 0xC3),
      ([0x2A, 0xC3], .bpl 0xC3),
      ([0x2B, 0xC3], .bmi 0xC3),
      ([0x2C, 0xC3], .bge 0xC3),
      ([0x2D, 0xC3], .blt 0xC3),
      ([0x2E, 0xC3], .bgt 0xC3),
      ([0x2F, 0xC3], .ble 0xC3)] = true := by decide

/-- 45_control_flow.md section 3. -/
theorem test_decode_long_branches : decodesAll
    [([0x16, 0xC3, 0x96], .lbra 0xC396),
      ([0x10, 0x21, 0xC3, 0x96], .lbrn 0xC396),
      ([0x10, 0x22, 0xC3, 0x96], .lbhi 0xC396),
      ([0x10, 0x23, 0xC3, 0x96], .lbls 0xC396),
      ([0x10, 0x24, 0xC3, 0x96], .lbcc 0xC396),
      ([0x10, 0x25, 0xC3, 0x96], .lbcs 0xC396),
      ([0x10, 0x26, 0xC3, 0x96], .lbne 0xC396),
      ([0x10, 0x27, 0xC3, 0x96], .lbeq 0xC396),
      ([0x10, 0x28, 0xC3, 0x96], .lbvc 0xC396),
      ([0x10, 0x29, 0xC3, 0x96], .lbvs 0xC396),
      ([0x10, 0x2A, 0xC3, 0x96], .lbpl 0xC396),
      ([0x10, 0x2B, 0xC3, 0x96], .lbmi 0xC396),
      ([0x10, 0x2C, 0xC3, 0x96], .lbge 0xC396),
      ([0x10, 0x2D, 0xC3, 0x96], .lblt 0xC396),
      ([0x10, 0x2E, 0xC3, 0x96], .lbgt 0xC396),
      ([0x10, 0x2F, 0xC3, 0x96], .lble 0xC396)] = true := by decide

/-- 45_control_flow.md section 4. -/
theorem test_decode_calls : decodesAll
    [([0x8D, 0xC3], .bsr 0xC3),
      ([0x17, 0xC3, 0x96], .lbsr 0xC396),
      ([0x7E, 0x8A, 0x51], .jmp (.ext 0x8A51)),
      ([0x9D, 0x5A], .jsr (.dir 0x5A)),
      ([0x39], .rts)] = true := by decide

/-- 46_stack.md. -/
theorem test_decode_stack : decodesAll
    [([0x34, 0xC3], .pshs 0xC3),
      ([0x35, 0xC3], .puls 0xC3),
      ([0x36, 0xC3], .pshu 0xC3),
      ([0x37, 0xC3], .pulu 0xC3)] = true := by decide

/-- 47_interrupt_ops.md. -/
theorem test_decode_interrupt : decodesAll
    [([0x3F], .swi),
      ([0x10, 0x3F], .swi2),
      ([0x11, 0x3F], .swi3),
      ([0x3C, 0xC3], .cwai 0xC3),
      ([0x13], .sync),
      ([0x3B], .rti),
      ([0x3E], .reset)] = true := by decide

/-! ## One step on a small state (95_test_vectors.md, Parts 2.1 to 2.10) -/

/-- The registers of the vectors: all zero, PC at 0x1000. -/
def zeroRegs : Regs := { a := 0, b := 0, dp := 0, cc := CC.ofByte 0, x := 0, y := 0, u := 0, s := 0, pc := 0x1000 }

/-- The vectors' machine: these registers, these memory cells (rising addresses), these bytes at PC. -/
def machine (r : Regs) (cells : Memory) (code : List Byte) : State :=
  ((State.reset.withRegs r).withMem cells).storeProgram r.pc code

/-- What an outcome shows of its next state. -/
def seen (f : State → List Nat) : Outcome → List Nat
  | .next t => f t
  | .fault _ => []
  | .refused _ => []

/-- A, B, CC, PC and cycles. -/
def abcc (t : State) : List Nat := [t.regs.a.toNat, t.regs.b.toNat, (CC.toByte t.regs.cc).toNat, t.regs.pc.toNat, t.cycles]

/-- X, Y, U, S, CC. -/
def xyus (t : State) : List Nat :=
  [t.regs.x.toNat, t.regs.y.toNat, t.regs.u.toNat, t.regs.s.toNat, (CC.toByte t.regs.cc).toNat]

/-- Two bytes of memory, CC and cycles. -/
def bytesAt (a b : Nat) (t : State) : List Nat :=
  [(t.mem.read a).toNat, (t.mem.read b).toNat, (CC.toByte t.regs.cc).toNat, t.cycles]

theorem test_ldb_clears_v_keeps_c :
    seen abcc (step (machine { zeroRegs with cc := CC.ofByte 0x0B } [] [0xC6, 0x7F])) = [0x00, 0x7F, 0x01, 0x1002, 0x02] := by decide
theorem test_ldd_wraps :
    seen abcc (step (machine { zeroRegs with x := 0xFFFF } [(0x00, 0x34), (0xFFFF, 0x12)] [0xEC, 0x84])) = [0x12, 0x34, 0x00, 0x1002, 0x05] := by decide
theorem test_ldx_overwrites_increment :
    seen xyus (step (machine { zeroRegs with x := 0x2000 } [(0x2000, 0xAB), (0x2001, 0xCD)] [0xAE, 0x81])) = [0xABCD, 0x00, 0x00, 0x00, 0x08] := by decide
theorem test_sta_flags :
    seen (bytesAt 0x2000 0x2001) (step (machine { zeroRegs with cc := CC.ofByte 0x03 } [] [0xB7, 0x20, 0x00])) = [0x00, 0x00, 0x05, 0x05] := by decide
theorem test_sta_rom_dropped :
    seen (bytesAt 0xC000 0xC001) (step (machine { zeroRegs with a := 0x99 } [(0xC000, 0x3C)] [0xB7, 0xC0, 0x00])) = [0x3C, 0x00, 0x08, 0x05] := by decide
theorem test_stx_stores_increment :
    seen (bytesAt 0x2000 0x2001) (step (machine { zeroRegs with x := 0x2000 } [] [0xAF, 0x81])) = [0x20, 0x02, 0x00, 0x08] := by decide
theorem test_sts_high_first :
    seen (bytesAt 0x0020 0x0021) (step (machine { zeroRegs with s := 0x7FF0 } [] [0x10, 0xDF, 0x20])) = [0x7F, 0xF0, 0x00, 0x06] := by decide
theorem test_leay_wraps :
    seen xyus (step (machine { zeroRegs with y := 0xFFFE, cc := CC.ofByte 0x04 } [] [0x31, 0x25])) = [0x00, 0x03, 0x00, 0x00, 0x00] := by decide
theorem test_leas_keeps_cc :
    seen (fun t => [t.regs.s.toNat, t.nmiArmed.toNat, (CC.toByte t.regs.cc).toNat]) (step (machine { zeroRegs with s := 0x8000, cc := CC.ofByte 0x04 } [] [0x32, 0x7E])) = [0x7FFE, 0x01, 0x04] := by decide
theorem test_leax_own_increment :
    seen xyus (step (machine { zeroRegs with x := 0x1234 } [] [0x30, 0x80])) = [0x1234, 0x00, 0x00, 0x00, 0x00] := by decide
theorem test_idx_b_signed :
    seen abcc (step (machine { zeroRegs with b := 0xFF, x := 0x2000 } [(0x1FFF, 0x44)] [0xA6, 0x85])) = [0x44, 0xFF, 0x00, 0x1002, 0x05] := by decide
theorem test_idx_pcr16 :
    seen abcc (step (machine zeroRegs [(0x2004, 0x99)] [0xA6, 0x8D, 0x10, 0x00])) = [0x99, 0x00, 0x08, 0x1004, 0x09] := by decide
theorem test_idx_indirect_increment :
    seen abcc (step (machine { zeroRegs with x := 0x2000 } [(0x2000, 0x30), (0x3000, 0x42)] [0xA6, 0x91])) = [0x42, 0x00, 0x00, 0x1002, 0x0A] := by decide
theorem test_idx_reserved :
    seen abcc (step (machine { zeroRegs with x := 0x2000 } [(0xFFFF, 0x5C)] [0xA6, 0x87])) = [0x5C, 0x00, 0x00, 0x1002, 0x04] := by decide
theorem test_adda_overflow :
    seen abcc (step (machine { zeroRegs with a := 0x7F } [] [0x8B, 0x01])) = [0x80, 0x00, 0x2A, 0x1002, 0x02] := by decide
theorem test_adca_carry :
    seen abcc (step (machine { zeroRegs with a := 0xFF, cc := CC.ofByte 0x01 } [] [0x89, 0x00])) = [0x00, 0x00, 0x25, 0x1002, 0x02] := by decide
theorem test_addd_keeps_h :
    seen abcc (step (machine { zeroRegs with a := 0xFF, b := 0xFF, cc := CC.ofByte 0x20 } [] [0xC3, 0x00, 0x01])) = [0x00, 0x00, 0x25, 0x1003, 0x04] := by decide
theorem test_suba_overflow :
    seen abcc (step (machine { zeroRegs with a := 0x80 } [] [0x80, 0x01])) = [0x7F, 0x00, 0x02, 0x1002, 0x02] := by decide
theorem test_sbcb_borrow :
    seen abcc (step (machine { zeroRegs with b := 0xFF, cc := CC.ofByte 0x01 } [] [0xC2, 0xFF])) = [0x00, 0xFF, 0x09, 0x1002, 0x02] := by decide
theorem test_subd_borrow :
    seen abcc (step (machine zeroRegs [] [0x83, 0x00, 0x01])) = [0xFF, 0xFF, 0x09, 0x1003, 0x04] := by decide
theorem test_cmpb_flags :
    seen abcc (step (machine { zeroRegs with b := 0x7F } [] [0xC1, 0x80])) = [0x00, 0x7F, 0x0B, 0x1002, 0x02] := by decide
theorem test_cmps_flags :
    seen xyus (step (machine { zeroRegs with s := 0x7FFF } [] [0x11, 0x8C, 0x80, 0x00])) = [0x00, 0x00, 0x00, 0x7FFF, 0x0B] := by decide
theorem test_anda_keeps_c :
    seen abcc (step (machine { zeroRegs with a := 0xF3, cc := CC.ofByte 0x0B } [] [0x84, 0x0F])) = [0x03, 0x00, 0x01, 0x1002, 0x02] := by decide
theorem test_eorb_keeps_c :
    seen abcc (step (machine { zeroRegs with b := 0xF0, cc := CC.ofByte 0x01 } [] [0xC8, 0x0F])) = [0x00, 0xFF, 0x09, 0x1002, 0x02] := by decide
theorem test_bita_keeps_a :
    seen abcc (step (machine { zeroRegs with a := 0x7F } [] [0x85, 0x80])) = [0x7F, 0x00, 0x04, 0x1002, 0x02] := by decide
theorem test_andcc :
    seen abcc (step (machine { zeroRegs with cc := CC.ofByte 0xFF } [] [0x1C, 0xAF])) = [0x00, 0x00, 0xAF, 0x1002, 0x03] := by decide
theorem test_asla_v :
    seen abcc (step (machine { zeroRegs with a := 0x40 } [] [0x48])) = [0x80, 0x00, 0x0A, 0x1001, 0x02] := by decide
theorem test_asr_memory :
    seen (bytesAt 0x0040 0x0041) (step (machine zeroRegs [(0x40, 0x80)] [0x07, 0x40])) = [0xC0, 0x00, 0x08, 0x06] := by decide
theorem test_lsr_memory :
    seen (bytesAt 0x2000 0x2001) (step (machine zeroRegs [(0x2000, 0x81)] [0x74, 0x20, 0x00])) = [0x40, 0x00, 0x01, 0x07] := by decide
theorem test_rola_carry_in :
    seen abcc (step (machine { zeroRegs with a := 0x80, cc := CC.ofByte 0x01 } [] [0x49])) = [0x01, 0x00, 0x03, 0x1001, 0x02] := by decide
theorem test_ror_carry_in :
    seen (bytesAt 0x0040 0x0041) (step (machine { zeroRegs with cc := CC.ofByte 0x01 } [] [0x06, 0x40])) = [0x80, 0x00, 0x08, 0x06] := by decide
theorem test_incb_keeps_c :
    seen abcc (step (machine { zeroRegs with b := 0xFF, cc := CC.ofByte 0x01 } [] [0x5C])) = [0x00, 0x00, 0x05, 0x1001, 0x02] := by decide
theorem test_deca_v :
    seen abcc (step (machine { zeroRegs with a := 0x80 } [] [0x4A])) = [0x7F, 0x00, 0x02, 0x1001, 0x02] := by decide
theorem test_nega_v :
    seen abcc (step (machine { zeroRegs with a := 0x80 } [] [0x40])) = [0x80, 0x00, 0x0B, 0x1001, 0x02] := by decide
theorem test_clr_rom_flags :
    seen (bytesAt 0xC000 0xC001) (step (machine zeroRegs [(0xC000, 0x3C)] [0x7F, 0xC0, 0x00])) = [0x3C, 0x00, 0x04, 0x07] := by decide
theorem test_com_memory :
    seen (bytesAt 0x2000 0x2001) (step (machine { zeroRegs with x := 0x2000 } [(0x2000, 0x55)] [0x63, 0x84])) = [0xAA, 0x00, 0x09, 0x06] := by decide
theorem test_tsta_keeps_c :
    seen abcc (step (machine { zeroRegs with a := 0x80, cc := CC.ofByte 0x03 } [] [0x4D])) = [0x80, 0x00, 0x09, 0x1001, 0x02] := by decide
theorem test_mul :
    seen abcc (step (machine { zeroRegs with a := 0x02, b := 0x40 } [] [0x3D])) = [0x00, 0x80, 0x01, 0x1001, 0x0B] := by decide
theorem test_daa_keeps_c :
    seen abcc (step (machine { zeroRegs with a := 0x0A, cc := CC.ofByte 0x01 } [] [0x19])) = [0x70, 0x00, 0x01, 0x1001, 0x02] := by decide
theorem test_sex :
    seen abcc (step (machine { zeroRegs with a := 0x12, b := 0x80 } [] [0x1D])) = [0xFF, 0x80, 0x08, 0x1001, 0x02] := by decide
theorem test_abx_unsigned :
    seen xyus (step (machine { zeroRegs with b := 0xFF, x := 0xFFFF } [] [0x3A])) = [0xFE, 0x00, 0x00, 0x00, 0x00] := by decide
theorem test_tfr_pads_ones :
    seen xyus (step (machine { zeroRegs with a := 0x34 } [] [0x1F, 0x81])) = [0xFF34, 0x00, 0x00, 0x00, 0x00] := by decide
theorem test_tfr_sink_reads_ones :
    seen xyus (step (machine { zeroRegs with x := 0x1234 } [] [0x1F, 0x61])) = [0xFFFF, 0x00, 0x00, 0x00, 0x00] := by decide
theorem test_exg_overlap :
    seen abcc (step (machine { zeroRegs with a := 0x12, b := 0x34 } [] [0x1E, 0x80])) = [0xFF, 0x12, 0x00, 0x1002, 0x08] := by decide
theorem test_bra_wraps :
    seen abcc (step (machine { zeroRegs with pc := 0x00 } [] [0x20, 0xFC])) = [0x00, 0x00, 0x00, 0xFFFE, 0x03] := by decide
theorem test_blt_n_ne_v :
    seen abcc (step (machine { zeroRegs with cc := CC.ofByte 0x02 } [] [0x2D, 0x10])) = [0x00, 0x00, 0x02, 0x1012, 0x03] := by decide
theorem test_lbne_taken :
    seen abcc (step (machine zeroRegs [] [0x10, 0x26, 0xF0, 0x00])) = [0x00, 0x00, 0x00, 0x04, 0x06] := by decide
theorem test_lbgt_not_taken :
    seen abcc (step (machine { zeroRegs with cc := CC.ofByte 0x04 } [] [0x10, 0x2E, 0x00, 0x10])) = [0x00, 0x00, 0x04, 0x1004, 0x05] := by decide
theorem test_bsr_pushes :
    seen (bytesAt 0x7FFE 0x7FFF) (step (machine { zeroRegs with s := 0x8000 } [] [0x8D, 0x10])) = [0x10, 0x02, 0x00, 0x07] := by decide
theorem test_jmp_indirect :
    seen abcc (step (machine { zeroRegs with x := 0x3000 } [(0x3000, 0x20)] [0x6E, 0x94])) = [0x00, 0x00, 0x00, 0x2000, 0x06] := by decide
theorem test_rts :
    seen abcc (step (machine { zeroRegs with s := 0x7FFE } [(0x7FFE, 0x20)] [0x39])) = [0x00, 0x00, 0x00, 0x2000, 0x05] := by decide
theorem test_pshs_order :
    seen (fun t => [0x7FFC, 0x7FFD, 0x7FFE, 0x7FFF].map fun a => (t.mem.read a).toNat) (step (machine { zeroRegs with a := 0x11, b := 0x22, x := 0x3344, s := 0x8000 } [] [0x34, 0x16])) = [0x11, 0x22, 0x33, 0x44] := by decide
theorem test_pulu_s_arms :
    seen (fun t => [t.regs.u.toNat, t.regs.s.toNat, t.nmiArmed.toNat, t.cycles]) (step (machine { zeroRegs with u := 0x3FFE } [(0x3FFE, 0x80)] [0x37, 0x40])) = [0x4000, 0x8000, 0x01, 0x07] := by decide
theorem test_swi :
    seen (fun t => [t.regs.s.toNat, t.regs.pc.toNat, (t.mem.read 0x7FF4).toNat, (t.mem.read 0x7FFF).toNat, (CC.toByte t.regs.cc).toNat, t.cycles]) (step (machine { zeroRegs with s := 0x8000 } [(0xFFFA, 0xE3)] [0x3F])) = [0x7FF4, 0xE300, 0x80, 0x01, 0xD0, 0x13] := by decide
theorem test_swi3 :
    seen (fun t => [t.regs.s.toNat, t.regs.pc.toNat, (t.mem.read 0x7FF4).toNat, (t.mem.read 0x7FFF).toNat, (CC.toByte t.regs.cc).toNat, t.cycles]) (step (machine { zeroRegs with s := 0x8000, cc := CC.ofByte 0x50 } [(0xFFF2, 0xE5)] [0x11, 0x3F])) = [0x7FF4, 0xE500, 0xD0, 0x02, 0xD0, 0x14] := by decide
theorem test_cwai :
    seen (fun t => [t.regs.s.toNat, (t.mem.read 0x7FF4).toNat, (t.wait == .cwai).toNat, (CC.toByte t.regs.cc).toNat, t.cycles]) (step (machine { zeroRegs with s := 0x8000, cc := CC.ofByte 0x50 } [] [0x3C, 0xEF])) = [0x7FF4, 0xC0, 0x01, 0xC0, 0x14] := by decide
theorem test_rti_fast :
    seen (fun t => [t.regs.a.toNat, t.regs.s.toNat, t.regs.pc.toNat, (CC.toByte t.regs.cc).toNat, t.cycles]) (step (machine { zeroRegs with a := 0x55, s := 0x7FFD } [(0x7FFD, 0x01), (0x7FFE, 0x20)] [0x3B])) = [0x55, 0x8000, 0x2000, 0x01, 0x06] := by decide
theorem test_rti_entire :
    seen (fun t => [t.regs.a.toNat, t.regs.dp.toNat, t.regs.x.toNat, t.regs.u.toNat, t.regs.s.toNat, t.regs.pc.toNat, t.cycles]) (step (machine { zeroRegs with s := 0x7FF4 } [(0x7FF4, 0x80), (0x7FF5, 0x01), (0x7FF6, 0x02), (0x7FF7, 0x03), (0x7FF8, 0x11), (0x7FFA, 0x22), (0x7FFC, 0x33), (0x7FFE, 0x20)] [0x3B])) = [0x01, 0x03, 0x1100, 0x3300, 0x8000, 0x2000, 0x0F] := by decide
theorem test_unknown_opcode :
    seen (fun t => [t.regs.pc.toNat, t.cycles, (t.fault == some ⟨.unknownOpcode, 0x1000, .opcode 0x1000 0x1120⟩).toNat, t.sched.running.toNat]) (step (machine zeroRegs [] [0x11, 0x20])) = [0x1002, 0x00, 0x01, 0x00] := by decide

/-! ## Interrupts, waits, callbacks, boundaries and the host (95_test_vectors.md, Parts 2.10 to 2.14) -/

theorem test_irq_entry :
    seen (fun t => [t.regs.s.toNat, t.regs.pc.toNat, (t.mem.read 0x7FF4).toNat, (CC.toByte t.regs.cc).toNat, t.cycles])
      (step ((machine { zeroRegs with s := 0x8000 } [(0xFFF8, 0xE0)] [0x12]).withLines { irq := true })) =
      [0x7FF4, 0xE000, 0x80, 0x90, 19] := by decide
theorem test_firq_entry :
    seen (fun t => [t.regs.s.toNat, t.regs.pc.toNat, (t.mem.read 0x7FFD).toNat, (CC.toByte t.regs.cc).toNat, t.cycles])
      (step ((machine { zeroRegs with s := 0x8000 } [(0xFFF6, 0xE1)] [0x12]).withLines { firq := true })) =
      [0x7FFD, 0xE100, 0x00, 0x50, 10] := by decide
theorem test_nmi_held_until_armed :
    seen (fun t => [t.regs.pc.toNat, t.lines.nmiLatch.toNat, t.cycles])
      (step ((machine { zeroRegs with s := 0x8000 } [] [0x12]).withLines { nmiLatch := true })) = [0x1001, 1, 2] := by decide
theorem test_cwai_wait_firq :
    seen (fun t => [t.regs.s.toNat, t.regs.pc.toNat, (CC.toByte t.regs.cc).toNat, (t.wait == .none).toNat, t.cycles])
      (step (((machine { zeroRegs with s := 0x7FF4, cc := CC.ofByte 0x80 } [(0xFFF6, 0xE1)] [0x12]).withWait .cwai).withLines
        { firq := true })) = [0x7FF4, 0xE100, 0xD0, 1, 0] := by decide
theorem test_sync_wait_masked :
    seen (fun t => [t.regs.pc.toNat, (t.wait == .none).toNat, t.cycles])
      (step (((machine { zeroRegs with cc := CC.ofByte 0x50 } [] [0x12]).withWait .sync).withLines { irq := true })) =
      [0x1001, 1, 2] := by decide

/-- A script of these rules, run once. -/
def once (rules : List DevRule) : Script := { rules := rules }

/-- A machine with read callbacks at 0xFF00 (answers 0x80) and 0xFF01 (fails), and write callbacks at 0x2000 (consumes) and
0x2001 (passes and sets IRQ). -/
def deviceParams : Params :=
  { Params.plain with registry :=
    { readByte := [⟨⟨0xFF00, 0xFF00⟩, once [⟨.lit 1, .answer (.lit 0x80)⟩]⟩,
        ⟨⟨0xFF01, 0xFF01⟩, once [⟨.lit 1, .fail (.lit 7)⟩]⟩]
      writeByte := [⟨⟨0x2000, 0x2000⟩, once [⟨.lit 1, .answer (.lit 0)⟩]⟩,
        ⟨⟨0x2001, 0x2001⟩, once [⟨.lit 1, .setIrq (.lit 1)⟩]⟩] } }

/-- The vectors' machine with those callbacks. -/
def deviceMachine (r : Regs) (code : List Byte) : State := { machine r [] code with cfg := deviceParams }

theorem test_read_callback : seen abcc (step (deviceMachine zeroRegs [0xB6, 0xFF, 0x00])) = [0x80, 0, 0x08, 0x1003, 5] := by
  decide
theorem test_failing_callback :
    seen (fun t => [t.regs.a.toNat, t.regs.pc.toNat, t.cycles,
      (t.fault == some ⟨.peripheralFault, 0x1000, .device 0x1000 (some 0xB6) 7⟩).toNat])
      (step (deviceMachine zeroRegs [0xB6, 0xFF, 0x01])) = [0, 0x1003, 0, 1] := by decide
theorem test_write_consumed :
    seen (bytesAt 0x2000 0x2001) (step (deviceMachine { zeroRegs with a := 0x11 } [0xB7, 0x20, 0x00])) = [0, 0, 0, 5] := by
  decide
theorem test_write_passes :
    seen (fun t => bytesAt 0x2000 0x2001 t ++ [t.lines.irq.toNat])
      (step (deviceMachine { zeroRegs with a := 0x11 } [0xB7, 0x20, 0x01])) = [0, 0x11, 0, 5, 1] := by decide

/-- A machine at a burst boundary with 12 cycles run, a sync callback of this period, and a poke of ROM waiting. -/
def boundaryMachine (period : Nat) : State :=
  { machine zeroRegs [(0xC000, 0x3C)] [] with
    cfg := { Params.plain with syncCallbacks := [⟨period, once [⟨.lit 1, .setCell (.lit 0) .value⟩]⟩] }
    cycles := 12
    sched := { lastCall := [0], running := false, phase := .burst 0 }
    host := { reqQ := [.poke 0xC000 [0x55], .poke 0xFFFF [1, 2]] } }

theorem test_boundary_fires :
    seen (fun t => t.dev ++ t.sched.lastCall ++ [(t.mem.read 0xC000).toNat, (t.sched.phase == .ended).toNat])
      (step (boundaryMachine 10)) = [12, 12, 0x55, 1] := by decide
theorem test_boundary_not_due :
    seen (fun t => t.dev ++ t.sched.lastCall ++ [(t.host.respQ == [.done, .outOfRange]).toNat,
      (t.host.statusQ == some ⟨12, 0x1000, CC.ofByte 0⟩).toNat]) (step (boundaryMachine 13)) = [0, 1, 1] := by decide
theorem test_source_policy :
    seen abcc (step { machine { zeroRegs with x := 0x2000 } [] [0xA6, 0x80] with
      cfg := { Params.plain with cyclePolicy := .source } }) = [0, 0, 0x04, 0x1002, 9] := by decide
theorem test_host_reset :
    seen (fun t => [t.regs.pc.toNat, t.cycles, t.regs.dp.toNat, t.fault.isNone.toNat, t.sched.running.toNat])
      (step { (machine zeroRegs [(0xFFFE, 0xC0)] []).recordFault .unknownOpcode 0x1000 (.opcode 0x1000 1) with
        cycles := 500, agenda := [.host .reset] }) = [0xC000, 500, 0, 1, 0] := by decide
theorem test_faulted_halts :
    step ((machine zeroRegs [] [0x12]).recordFault .unknownOpcode 0x1000 (.opcode 0x1000 1)) = .fault .cpuHalted := rfl

/-- A device that counts cell 0 down by reading its own address, once per unit, and then answers 0x5A (20_memory.md R91). -/
def countdown : Script :=
  { rules := [⟨.bin .eq (.cell (.lit 0)) (.lit 0), .answer (.lit 0x5A)⟩,
      ⟨.lit 1, .setCell (.lit 0) (.bin .sub (.cell (.lit 0)) (.lit 1))⟩, ⟨.lit 1, .readByte (.lit 0xFF00)⟩,
      ⟨.lit 1, .answer .reply⟩] }

/-- The machine of that device, with cell 0 at this count. -/
def countdownMachine (n : Nat) : State :=
  { machine zeroRegs [] [] with
    cfg := { Params.plain with registry := { readByte := [⟨⟨0xFF00, 0xFF00⟩, countdown⟩] } }
    dev := [n] }

/-- What a callback answered. -/
def answered : EStateM.Result Raise State (Option Nat) → Nat
  | .ok v _ => v.getD 1000
  | .error _ _ => 2000

/-- A nest of 36 callbacks, deeper than `Config.callbackDepth`, comes to its end. -/
theorem test_deep_nest : answered (runCallback countdown { addr := 0xFF00 } (countdownMachine 35)) = 0x5A := by
  rw [runCallback_eq (d := 36) (by decide +kernel)]
  decide +kernel

/-- A script adds 3 to cell 0 in each of 5 rounds. -/
theorem test_rounds :
    (match runCallback { rules := [⟨.lit 1, .setCell (.lit 0) (.bin .add (.cell (.lit 0)) (.lit 3))⟩], rounds := .lit 5 } { }
      (countdownMachine 1) with
    | .ok _ t => t.dev
    | .error _ _ => []) = [16] := by decide

/-- An acknowledge hook sees the kind, and no cycle count (60_exceptions.md R611, 70_reset_and_hazards.md R733). -/
theorem test_acknowledge :
    seen (fun t => t.dev ++ [t.lines.firq.toNat, t.cycles])
      (step { (machine { zeroRegs with s := 0x8000 } [] []).withLines { firq := true } with
        cfg := { Params.plain with devices := [{ ack := once [⟨.lit 1, .setCell (.lit 0) .value⟩,
          ⟨.lit 1, .setCell (.lit 1) .cycles⟩, ⟨.lit 1, .setFirq (.lit 0)⟩] }] }
        cycles := 100 }) = [1, 0, 0, 110] := by decide

/-- A handler of opcode 0x3E that exchanges X and Y and costs the value of B. -/
theorem test_reset_handler :
    seen (fun t => [t.regs.x.toNat, t.regs.y.toNat, t.regs.pc.toNat, t.cycles])
      (step { machine { zeroRegs with x := 0x1234, y := 0xABCD, b := 9 } [] [0x3E] with
        cfg := { Params.plain with resetOp := .handler [⟨.lit 1, .load [(.x, .cpu 5), (.y, .cpu 4)]⟩, ⟨.lit 1, .cost (.cpu 1)⟩] } }) =
      [0xABCD, 0x1234, 0x1001, 9] := by decide

/-- A handler's read and its callback's own read under `source`: the opcode and the handler's read count, the callback's does
not (20_memory.md R91, R98). -/
theorem test_reset_handler_cycles :
    seen (fun s => [s.cycles])
      (step { machine zeroRegs [] [0x3E] with
        cfg := { Params.plain with
          cyclePolicy := .source
          registry := { readByte := [⟨⟨0xFF00, 0xFF00⟩, once [⟨.lit 1, .readByte (.lit 0x2000)⟩]⟩] }
          resetOp := .handler [⟨.lit 1, .run (once [⟨.lit 1, .readByte (.lit 0xFF00)⟩])⟩] } }) = [2] := by decide

/-- A handler offers 0x1FF to a byte of RAM: the CPU's value is a u8 (20_memory.md R97). -/
theorem test_reset_handler_writes :
    seen (fun s => [(s.mem.read 0x2000).toNat, s.fault.isNone.toNat])
      (step { machine zeroRegs [] [0x3E] with
        cfg := { Params.plain with
          resetOp := .handler [⟨.lit 1, .run (once [⟨.lit 1, .writeByte (.lit 0x2000) (.lit 0x1FF)⟩])⟩] } }) = [0xFF, 1] := by
  decide

/-- A planned restore waits for the boundary: in a burst the CPU goes on (70_reset_and_hazards.md R704). -/
theorem test_restore_waits :
    seen (fun t => [t.regs.pc.toNat, t.agenda.length])
      (step { machine zeroRegs [] [0x12] with
        sched := { phase := .burst 2 }, agenda := [.host (.restore ⟨zeroRegs, 0, false, []⟩)] }) = [0x1001, 1] := by decide
theorem test_restore_at_boundary :
    seen (fun t => [t.regs.pc.toNat, t.agenda.length])
      (step { machine { zeroRegs with pc := 0x2000 } [] [0x12] with
        sched := { phase := .burst 0 }, agenda := [.host (.restore ⟨zeroRegs, 0, false, []⟩)] }) = [0x1000, 0] := by decide

/-! ## Witnesses: for each statement with hypotheses, states and operands that meet them -/

/-- The outcome is a next state. -/
def isNext : Outcome → Bool
  | .next _ => true
  | .fault _ => false
  | .refused _ => false

theorem exists_next {o : Outcome} (h : isNext o = true) : ∃ t, o = .next t := by
  cases o with
  | next t => exact ⟨t, rfl⟩
  | fault _ => exact nomatch h
  | refused _ => exact nomatch h

/-- The outcome is a next state with this property. -/
def nextWith (p : State → Bool) : Outcome → Bool
  | .next t => p t
  | .fault _ => false
  | .refused _ => false

theorem exists_next_with {p : State → Bool} {o : Outcome} (h : nextWith p o = true) : ∃ t, o = .next t ∧ p t = true := by
  cases o with
  | next t => exact ⟨t, rfl, h⟩
  | fault _ => exact nomatch h
  | refused _ => exact nomatch h

/-- A machine with no registration is quiet. -/
theorem quiet_of_empty {s : State} (h : s.cfg.registry = { }) : s.Quiet := by
  intro a
  rw [h]
  exact ⟨rfl, rfl, rfl, rfl⟩

/-- The vectors' registers with both stack pointers in RAM. -/
def stackRegs : Regs := { zeroRegs with s := 0x8000, u := 0x4000 }

/-- A machine with both stacks in RAM. -/
def stackMachine : State := machine stackRegs [] [0x12]

/-- `stackMachine` in a bounded run with so many steps left. -/
def boundedMachine (left : Nat) : State := stackMachine.withSched { phase := .bounded left }

/-- The last of a bounded run's steps is made and the run is over (95_test_vectors.md S5). -/
theorem test_bounded_run_ends :
    seen (fun t => [t.regs.pc.toNat, t.cycles, (t.sched.phase == .bounded 0).toNat]) (step (boundedMachine 1)) = [0x1001, 2, 1] ∧
    step (boundedMachine 0) = .fault .runEnded := ⟨by decide, rfl⟩

/-- `stackMachine` under another parameter record. -/
def under (p : Params) : State := { stackMachine with cfg := p }

theorem stack_quiet : stackMachine.Quiet := quiet_of_empty rfl
theorem stack_wf : Memory.wf stackMachine.mem = true := by decide

theorem witness_LoadByteResult : stackMachine.Quiet := stack_quiet
theorem witness_LoadWordResult : stackMachine.Quiet := stack_quiet
/-- The last address of RAM and the first of ROM. -/
theorem witness_StoreByteResult : stackMachine.Quiet ∧ Memory.wf stackMachine.mem = true ∧
    region stackMachine.cfg (Mem.target (.ext 0xBFFF) stackMachine) = .ram ∧
    region stackMachine.cfg (Mem.target (.ext 0xC000) stackMachine) ≠ .ram ∧
    (0xBFFE : Word) ≠ Mem.target (.ext 0xBFFF) stackMachine := ⟨stack_quiet, by decide⟩
/-- Both bytes in RAM, and a store whose second byte is ROM. -/
theorem witness_StoreWordResult : stackMachine.Quiet ∧ Memory.wf stackMachine.mem = true ∧
    region stackMachine.cfg (Mem.target (.ext 0xBFFE) stackMachine) = .ram ∧
    region stackMachine.cfg (Mem.target (.ext 0xBFFE) stackMachine + 1) = .ram ∧
    region stackMachine.cfg (Mem.target (.ext 0xBFFF) stackMachine + 1) ≠ .ram ∧
    (0xC000 : Word) ≠ Mem.target (.ext 0xBFFE) stackMachine ∧
    (0xC000 : Word) ≠ Mem.target (.ext 0xBFFE) stackMachine + 1 := ⟨stack_quiet, by decide⟩
theorem witness_LoadEffectiveAddressResult : stackMachine.Quiet := stack_quiet
theorem witness_AddByteResult : stackMachine.Quiet := stack_quiet
/-- Both policies. -/
theorem witness_SubtractByteResult : stackMachine.Quiet ∧ stackMachine.cfg.undefFlags = .preserve ∧
    (under { Params.plain with undefFlags := .arbitrary }).Quiet := ⟨stack_quiet, rfl, quiet_of_empty rfl⟩
theorem witness_WordArithmeticResult : stackMachine.Quiet := stack_quiet
theorem witness_LogicResult : stackMachine.Quiet := stack_quiet
theorem witness_ConditionCodeMaskResult : ∃ t, exec (.orcc 0x50) stackMachine = .next t := exists_next (by decide)
theorem witness_UnaryUndefinedHResult : stackMachine.Quiet ∧ stackMachine.cfg.undefFlags = .preserve := ⟨stack_quiet, rfl⟩
theorem witness_UnaryMemoryResult : stackMachine.Quiet := stack_quiet
theorem witness_DecimalAdjustResult : stackMachine.cfg.undefFlags = .preserve := rfl
/-- Each condition of the long branches holds for one of these CC bytes and fails for another. -/
theorem witness_LongBranchResult :
    let c0 := CC.ofByte 0x00
    let c1 := CC.ofByte 0x0D
    (c0.c = false ∧ c0.z = false) ∧ ¬(c0.c = true ∨ c0.z = true) ∧ ¬(c0.v = true) ∧ ¬(c0.n = true) ∧ c0.n = c0.v ∧
      (c0.z = false ∧ c0.n = c0.v) ∧ ¬(c0.z = true ∨ c0.n ≠ c0.v) ∧
    ¬(c1.c = false ∧ c1.z = false) ∧ (c1.c = true ∨ c1.z = true) ∧ c1.v = false ∧ c1.n = true ∧ c1.n ≠ c1.v ∧
      ¬(c1.z = false ∧ c1.n = c1.v) ∧ (c1.z = true ∨ c1.n ≠ c1.v) ∧ (CC.ofByte 0x02).v = true := by decide
theorem witness_JumpAndCallResult : stackMachine.Quiet := stack_quiet
theorem witness_PushResult : stackMachine.Quiet ∧ Memory.wf stackMachine.mem = true := ⟨stack_quiet, stack_wf⟩
theorem witness_PullResult : stackMachine.Quiet := stack_quiet
theorem witness_PushThenPullRestores_s : stackMachine.Quiet ∧ Memory.wf stackMachine.mem = true ∧
    (∀ j, j < maskBytes 0xFF →
      region stackMachine.cfg (stackMachine.regs.sp .s - BitVec.ofNat 16 (maskBytes 0xFF) + BitVec.ofNat 16 j) = .ram) ∧
    ∃ t, exec (.pshs 0xFF) stackMachine = .next t := ⟨stack_quiet, stack_wf, by decide, exists_next (by decide)⟩
theorem witness_PushThenPullRestores_u : stackMachine.Quiet ∧ Memory.wf stackMachine.mem = true ∧
    (∀ j, j < maskBytes 0x7F →
      region stackMachine.cfg (stackMachine.regs.sp .u - BitVec.ofNat 16 (maskBytes 0x7F) + BitVec.ofNat 16 j) = .ram) ∧
    ∃ t, exec (.pshu 0x7F) stackMachine = .next t := ⟨stack_quiet, stack_wf, by decide, exists_next (by decide)⟩
theorem witness_SoftwareInterruptResult : stackMachine.Quiet ∧ Memory.wf stackMachine.mem = true := ⟨stack_quiet, stack_wf⟩
theorem witness_WaitInstructionResult : stackMachine.Quiet ∧ Memory.wf stackMachine.mem = true := ⟨stack_quiet, stack_wf⟩
theorem witness_ReturnFromInterruptResult :
    (CC.ofByte (stackMachine.backing stackMachine.regs.s)).e = false ∧
    (machine stackRegs [(0x8000, 0x80)] []).Quiet ∧
    (CC.ofByte ((machine stackRegs [(0x8000, 0x80)] []).backing 0x8000)).e = true :=
  ⟨by decide, quiet_of_empty rfl, by decide⟩
/-- A machine whose opcode 0x3E is this. -/
def stubMachine (op : ResetOp) : State := under { Params.plain with resetOp := op }

/-- `nop`; `reset`; a handler that ends; one that fails; the example; a rule of each kind. -/
theorem witness_ResetStubResult :
    let s := stackMachine
    let ok : Script := once [⟨.lit 1, .setFirq (.lit 1)⟩]
    let bad : Script := once [⟨.lit 1, .fail (.lit 3)⟩]
    s.cfg.resetOp = .nop ∧ (stubMachine .reset).cfg.resetOp = .reset ∧
    (∃ cost t, runHandler [⟨.lit 1, .run ok⟩] 0 0 s = .ok cost t) ∧
    (∃ e t, runHandler [⟨.lit 1, .run bad⟩] 0 0 s = .error (.peripheral e) t) ∧
    evalExpr s s.handlerArgs 0 (.lit 0) = 0 ∧ evalExpr s s.handlerArgs 0 (.lit 1) ≠ 0 ∧
    (∃ v t, runBody runCallback true ok s.handlerArgs s = .ok v t) ∧
    (∃ e t, runBody runCallback true bad s.handlerArgs s = .error e t) ∧ (∀ op, (stubMachine op).Quiet) :=
  ⟨rfl, rfl, ⟨_, _, rfl⟩, ⟨_, _, rfl⟩, rfl, by decide, ⟨_, _, rfl⟩, ⟨_, _, rfl⟩, fun _ => quiet_of_empty rfl⟩

/-- Devices: the first sets a cell, the second fails. -/
def deviceList : List Device :=
  [{ reset := once [⟨.lit 1, .setCell (.lit 0) (.lit 7)⟩], ack := once [⟨.lit 1, .setCell (.lit 0) .value⟩] },
    { reset := once [⟨.lit 1, .fail (.lit 3)⟩], ack := once [⟨.lit 1, .fail (.lit 4)⟩] }]

theorem witness_ResetSequenceResult :
    (∃ t, (under { Params.plain with devices := deviceList.take 1 }).Quiet ∧
      RunsInOrder (under { Params.plain with devices := deviceList.take 1 }).resetCalls
        (under { Params.plain with devices := deviceList.take 1 }) t) ∧
    (∃ t, FailsInOrder (under { Params.plain with devices := deviceList }).resetCalls
      (under { Params.plain with devices := deviceList }) (.peripheral 3) t) :=
  ⟨⟨_, quiet_of_empty rfl, _, rfl, rfl⟩, _, .inr ⟨_, rfl, .inl rfl⟩⟩
theorem witness_DecodeOfEncode : Instr.wf (.lda (.mem (.idx (.mode .x true (.reserved 0xE))))) = true ∧
    Instr.wf (.exg (.sink 0xF) (.sink 0xC)) = true := by decide
theorem witness_EncodeOfDecode : decode [0xA6, 0x9E, 0x34] = some (.lda (.mem (.idx (.mode .x true (.reserved 0xE)))), [0x34]) := by
  decide
/-- Each range's ends, and a fetch of the absent 0x01 and of the absent 0x1120. -/
theorem witness_AbsentOpcodes :
    (∀ op, op = 0x01 ∨ op = 0x1000 ∨ op = 0x1020 ∨ op = 0x1120 → ∀ rest, decode (opcodeBytes op ++ rest) = none) ∧
    (∀ op, op ∈ [0x00, 0xFF, 0x1021, 0x10FF, 0x11BC] → decode (opcodeBytes op ++ [0x84, 0x00]) ≠ none) ∧
    (∃ op t, fetchOpcode (machine zeroRegs [] [0x01]) = .ok op t ∧ (op == 0x01) = true) ∧
    (∃ op t, fetchOpcode (machine zeroRegs [] [0x11, 0x20]) = .ok op t ∧ (op == 0x1120) = true) ∧
    (machine zeroRegs [] [0x01]).fault = none ∧ (machine zeroRegs [] [0x01]).wait = .none ∧
    (machine zeroRegs [] [0x01]).pending = none := by
  refine ⟨?_, by decide, ⟨_, _, rfl, by decide⟩, ⟨_, _, rfl, by decide⟩, rfl, rfl, rfl⟩
  have h : ∀ b0 b1 : Byte, isPrefix b0 = true → (formOf (pagedOpcode b0 b1)).isNone = true →
      ∀ rest, decode ([b0, b1] ++ rest) = none := by
    intro b0 b1 hp hf rest
    simp [decode, hp, decodeOp, Option.isNone_iff_eq_none.mp hf]
  rintro op (rfl | rfl | rfl | rfl) rest
  · rfl
  · exact (show opcodeBytes 0x1000 = [0x10, 0x00] by decide) ▸ h _ _ (by decide) (by decide) rest
  · exact (show opcodeBytes 0x1020 = [0x10, 0x20] by decide) ▸ h _ _ (by decide) (by decide) rest
  · exact (show opcodeBytes 0x1120 = [0x11, 0x20] by decide) ▸ h _ _ (by decide) (by decide) rest
theorem witness_IndexedModes : (∀ m : BitVec 4, m = 0x7 ∨ m = 0xA ∨ m = 0xE → IdxMode.wf (.reserved m) = true) ∧
    Mem.indirect (.dir 0x5A) = false ∧ Mem.indirect (.idx (.mode .x true .zero)) = true := by decide
theorem witness_InstructionCosts : instrCycles (.lda (.imm 0)) = 2 ∧ Instr.lda ∈ [Instr.lda, Instr.ldb] := ⟨by decide, .head _⟩

/-- Byte and word callbacks of every answer: 0xFF00 answers, 0xFF01 fails, 0xFF02 passes, 0xFF03 answers too much. -/
def allAnswers (big : Nat) : List Registration :=
  [⟨⟨0xFF00, 0xFF00⟩, once [⟨.lit 1, .answer (.lit 0x80)⟩]⟩, ⟨⟨0xFF01, 0xFF01⟩, once [⟨.lit 1, .fail (.lit 7)⟩]⟩,
    ⟨⟨0xFF02, 0xFF02⟩, { }⟩, ⟨⟨0xFF03, 0xFF03⟩, once [⟨.lit 1, .answer (.lit big)⟩]⟩]

/-- The machine with these callbacks in all four maps. -/
def busyMachine : State :=
  under { Params.plain with registry :=
    { readByte := allAnswers 0x100, writeByte := allAnswers 0x100
      readWord := allAnswers 0x10000, writeWord := allAnswers 0x10000 } }

/-- The script an address has in a map of `busyMachine` (the maps differ in the last one only). -/
def scriptAt (rs : List Registration) (a : Word) : Script := (lookup rs a).getD { }

theorem witness_ByteAccessRules :
    let r := busyMachine.cfg.registry.readByte
    let w := busyMachine.cfg.registry.writeByte
    lookup r 0xFEFF = none ∧ lookup w 0xFEFF = none ∧
    (∀ a, a = 0xFF00 ∨ a = 0xFF01 ∨ a = 0xFF02 ∨ a = 0xFF03 → lookup r a = some (scriptAt r a) ∧ lookup w a = some (scriptAt w a)) ∧
    (∃ t, runCallback (scriptAt r 0xFF00) { addr := 0xFF00 } busyMachine = .ok (some 0x80) t) ∧
    (∃ t, runCallback (scriptAt r 0xFF03) { addr := 0xFF03 } busyMachine = .ok (some 0x100) t) ∧
    (∃ t, runCallback (scriptAt r 0xFF02) { addr := 0xFF02 } busyMachine = .ok none t) ∧
    (∃ e t, runCallback (scriptAt r 0xFF01) { addr := 0xFF01 } busyMachine = .error e t) ∧
    (∃ v t, runCallback (scriptAt w 0xFF00) { addr := 0xFF00, value := 0xFF } busyMachine = .ok (some v) t) ∧
    (∃ t, runCallback (scriptAt w 0xFF02) { addr := 0xFF02, value := 0xFF } busyMachine = .ok none t) ∧
    (∃ e t, runCallback (scriptAt w 0xFF01) { addr := 0xFF01, value := 0xFF } busyMachine = .error e t) := by
  refine ⟨rfl, rfl, ?_, ⟨_, rfl⟩, ⟨_, rfl⟩, ⟨_, rfl⟩, ⟨_, _, rfl⟩, ⟨_, _, rfl⟩, ⟨_, rfl⟩, _, _, rfl⟩
  rintro a (rfl | rfl | rfl | rfl) <;> exact ⟨rfl, rfl⟩

theorem witness_WordAccessRules :
    let r := busyMachine.cfg.registry.readWord
    let w := busyMachine.cfg.registry.writeWord
    lookup r 0xFEFF = none ∧ lookup w 0xFEFF = none ∧
    (∀ a, a = 0xFF00 ∨ a = 0xFF01 ∨ a = 0xFF02 ∨ a = 0xFF03 → lookup r a = some (scriptAt r a) ∧ lookup w a = some (scriptAt w a)) ∧
    (∃ t, runCallback (scriptAt r 0xFF00) { addr := 0xFF00 } busyMachine = .ok (some 0x80) t) ∧
    (∃ t, runCallback (scriptAt r 0xFF03) { addr := 0xFF03 } busyMachine = .ok (some 0x10000) t) ∧
    (∃ t, runCallback (scriptAt r 0xFF02) { addr := 0xFF02 } busyMachine = .ok none t) ∧
    (∃ e t, runCallback (scriptAt r 0xFF01) { addr := 0xFF01 } busyMachine = .error e t) ∧
    (∃ v t, runCallback (scriptAt w 0xFF00) { addr := 0xFF00, value := 0xFFFF } busyMachine = .ok (some v) t) ∧
    (∃ t, runCallback (scriptAt w 0xFF02) { addr := 0xFF02, value := 0xFFFF } busyMachine = .ok none t) ∧
    (∃ e t, runCallback (scriptAt w 0xFF01) { addr := 0xFF01, value := 0xFFFF } busyMachine = .error e t) := by
  refine ⟨rfl, rfl, ?_, ⟨_, rfl⟩, ⟨_, rfl⟩, ⟨_, rfl⟩, ⟨_, _, rfl⟩, ⟨_, _, rfl⟩, ⟨_, rfl⟩, _, _, rfl⟩
  rintro a (rfl | rfl | rfl | rfl) <;> exact ⟨rfl, rfl⟩

/-- The byte accesses a word access is made of: both good; the first failing; the second failing after a good first. -/
theorem witness_WordAccessRules_bytes :
    (∃ hi lo t1 t2, busReadByte runCallback true 0xFFFF busyMachine = .ok hi t1 ∧
      busReadByte runCallback true 0x0000 t1 = .ok lo t2) ∧
    (∃ e t, busReadByte runCallback true 0xFF01 busyMachine = .error e t) ∧
    (∃ hi e t1 t2, busReadByte runCallback true 0xFF00 busyMachine = .ok hi t1 ∧
      busReadByte runCallback true 0xFF01 t1 = .error e t2) ∧
    (∃ t1 t2, busWriteByte runCallback true 0xFFFF 0xFF busyMachine = .ok ⟨⟩ t1 ∧
      busWriteByte runCallback true 0x0000 0xFF t1 = .ok ⟨⟩ t2) ∧
    (∃ e t, busWriteByte runCallback true 0xFF01 0xFF busyMachine = .error e t) ∧
    (∃ e t1 t2, busWriteByte runCallback true 0xFF00 0xFF busyMachine = .ok ⟨⟩ t1 ∧
      busWriteByte runCallback true 0xFF01 0xFF t1 = .error e t2) := by
  exact ⟨⟨_, _, _, _, rfl, rfl⟩, ⟨_, _, rfl⟩, ⟨_, _, _, _, rfl, rfl⟩, ⟨_, _, rfl, rfl⟩, ⟨_, _, rfl⟩, _, _, _, rfl, rfl⟩

/-- The last word of RAM. -/
theorem witness_WordReadBack :
    Memory.wf stackMachine.mem = true ∧ region Params.plain 0xBFFE = .ram ∧ region Params.plain (0xBFFE + 1) = .ram ∧
    lookup Params.plain.registry.writeWord 0xBFFE = none ∧ lookup Params.plain.registry.readWord 0xBFFE = none ∧
    ∀ b : Word, b = 0xBFFE ∨ b = 0xBFFE + 1 →
      lookup Params.plain.registry.writeByte b = none ∧ lookup Params.plain.registry.readByte b = none :=
  ⟨by decide, by decide, by decide, rfl, rfl, fun _ _ => ⟨rfl, rfl⟩⟩
theorem witness_CallbackIsolation :
    (∃ v t, runCallback (once [⟨.lit 1, .writeByte (.lit 0xBFFF) (.lit 1)⟩]) { } stackMachine = .ok v t) ∧
    (∃ e t, runCallback (once [⟨.lit 1, .writeByte (.lit 0xBFFF) (.lit 1)⟩, ⟨.lit 1, .fail (.lit 3)⟩]) { } stackMachine =
      .error e t) ∧ region stackMachine.cfg 0xC000 ≠ .ram := ⟨⟨_, _, rfl⟩, ⟨_, _, rfl⟩, by decide⟩
/-- A run that ends, and one that ends at no depth: a device that reads its own address without end (20_memory.md R91). -/
theorem witness_CallbackNesting :
    (∀ t, runScript 1 (once []) { } stackMachine ≠ .error .hang t) ∧
    (∀ t, runCallback (once []) { } stackMachine ≠ .error .hang t) :=
  ⟨fun _ h => (nomatch h), fun _ h => (nomatch h)⟩
/-- A device that reads its own address. -/
def echo : Script := once [⟨.lit 1, .readByte (.lit 0xFF00)⟩]

/-- Its machine. -/
def echoMachine : State := under { Params.plain with registry := { readByte := [⟨⟨0xFF00, 0xFF00⟩, echo⟩] } }

/-- It comes to its end at no depth, so it hangs (20_memory.md R91). -/
theorem test_endless_nest_hangs : hangs (runCallback echo { } echoMachine) = true := by
  refine runCallback_hangs_iff.mpr fun d => ?_
  suffices h : ∀ args, ∃ t, runScript d echo args echoMachine = .error .hang t from hangs_iff.mpr (h { })
  induction d with
  | zero => exact fun _ => ⟨_, rfl⟩
  | succ d ih =>
    intro args
    obtain ⟨t, h⟩ := ih { addr := 0xFF00 }
    refine ⟨t, ?_⟩
    have hr : busReadByte (runScript d) false 0xFF00 echoMachine = .error .hang t :=
      (show _ = ((runScript d echo { addr := 0xFF00 } >>= _ : M Byte) echoMachine) from rfl).trans (bind_error h)
    have ha : runAct (runScript d) false args 0 (.readByte (.lit 0xFF00)) echoMachine = .error .hang t :=
      (show _ = ((busReadByte (runScript d) false 0xFF00 >>= _ : M Nat) echoMachine) from rfl).trans (bind_error hr)
    have hu : runRules (runScript d) false args echo.rules 0 echoMachine = .error .hang t :=
      (show _ = ((runAct (runScript d) false args 0 (.readByte (.lit 0xFF00)) >>= _ : M Flow) echoMachine) from rfl).trans
        (bind_error ha)
    have ho : runRounds (runScript d) false args echo.rules 1 0 echoMachine = .error .hang t := bind_error hu
    exact (show _ = ((runRounds (runScript d) false args echo.rules 1 0 >>= _ : M (Option Nat)) echoMachine) from rfl).trans
      (bind_error ho)

theorem witness_StepRunsDecodedInstruction :
    let b := stackMachine.withSched { stackMachine.sched with phase := .burst 1 }
    (stackMachine.Quiet ∧ stackMachine.agenda = [] ∧ stackMachine.fault = none ∧ stackMachine.wait = .none ∧
      stackMachine.pending = none ∧ decode (peekBytes stackMachine 0x1000 5) = some (.nop, [0, 0, 0, 0]) ∧
      stackMachine.sched.phase = .stepped) ∧
    (b.Quiet ∧ b.pending = none ∧ decode (peekBytes b 0x1000 5) = some (.nop, [0, 0, 0, 0]) ∧ b.sched.phase = .burst (0 + 1)) ∧
    (boundedMachine 1).sched.phase = .bounded (0 + 1) :=
  ⟨⟨stack_quiet, rfl, rfl, rfl, rfl, by decide, rfl⟩, ⟨quiet_of_empty rfl, rfl, by decide, rfl⟩, rfl⟩

/-- `stackMachine` with NMI armed, this wait, and these lines. -/
def waiting (w : Wait) (l : Lines) : State := ((stackMachine.withWait w).withNmiArmed true).withLines l

/-- `stackMachine` in a SYNC wait with NMI latched and not armed, under a reading of what ends the wait. -/
def unarmedSync (n : SyncNmi) : State :=
  ((under { Params.plain with syncNmi := n }).withWait .sync).withLines { nmiLatch := true }

/-- The wait goes on, or ends with the NOP that follows (60_exceptions.md R642, 47_interrupt_ops.md R542, log 22). -/
theorem test_sync_unarmed_nmi :
    seen (fun s => [s.regs.pc.toNat, s.cycles]) (step (unarmedSync .armed)) = [0x1000, 1] ∧
    seen (fun s => [s.regs.pc.toNat, s.cycles]) (step (unarmedSync .latched)) = [0x1001, 2] := by decide

/-- Each request for each wait, masked and unmasked: which of NMI, FIRQ, IRQ the machine takes. -/
theorem witness_CpuStepRules :
    (stackMachine.recordFault .outOfRange 0 (.range 0 256)).fault ≠ none ∧
    (∀ w, w = Wait.none ∨ w = .cwai ∨ w = .sync →
      (waiting w { }).fault = none ∧ (waiting w { }).wait = w ∧ (waiting w { }).pending = none ∧
      (waiting w { nmiLatch := true }).pending = some .nmi ∧ (waiting w { firq := true }).pending = some .firq ∧
      (waiting w { irq := true }).pending = some .irq) ∧
    (stackMachine.withRegs { stackRegs with cc := CC.ofByte 0x50 }).regs.cc.i = true ∧
    (stackMachine.cfg.syncNmi = .armed ∧ stackMachine.nmiArmed = false) ∧
    (unarmedSync .latched).lines.nmiLatch = true ∧ (unarmedSync .latched).cfg.syncNmi = .latched := by
  refine ⟨by decide, ?_, rfl, ⟨rfl, rfl⟩, rfl, rfl⟩
  rintro w (rfl | rfl | rfl) <;> decide
theorem witness_InterruptMasking : stackMachine.Quiet ∧ stackMachine.cfg.resetOp = .nop ∧
    (∃ t, exec .reset stackMachine = .next t) ∧ (waiting .none { nmiLatch := true }).nmiPending = true ∧
    (waiting .none { firq := true }).firqPending = true ∧ (waiting .none { irq := true }).irqPending = true :=
  ⟨stack_quiet, rfl, exists_next (by decide), rfl, rfl, rfl⟩
theorem witness_InterruptEntryResult : ∀ w, w = Wait.none ∨ w = .sync ∨ w = .cwai → ∀ l : Lines,
    (waiting w l).Quiet ∧ Memory.wf (waiting w l).mem = true ∧ (waiting w l).fault = none ∧
    (waiting w l).wait = w ∧ (waiting w l).lines = l ∧ (waiting w l).nmiArmed = true ∧
    (waiting w l).regs.cc.f = false ∧ (waiting w l).regs.cc.i = false := by
  rintro w (rfl | rfl | rfl) l <;> exact ⟨quiet_of_empty rfl, stack_wf, rfl, rfl, rfl, rfl, rfl, rfl⟩
/-- Acknowledge calls that all end, and one that fails after one that ends, from any state of such a machine. -/
theorem witness_InterruptEntryResult_acks (u : State) (k : Irq) :
    (∃ t, RunsInOrder ((under { Params.plain with devices := deviceList.take 1 }).ackCalls k) u t) ∧
    ∃ t, FailsInOrder ((under { Params.plain with devices := deviceList }).ackCalls k) u (.peripheral 4) t :=
  ⟨⟨_, _, rfl, rfl⟩, _, .inr ⟨_, rfl, .inl rfl⟩⟩
theorem witness_EntryThenRtiRestores_entire : ∀ l : Lines, l = { nmiLatch := true } ∨ l = { irq := true } →
    (waiting .sync l).Quiet ∧ Memory.wf (waiting .sync l).mem = true ∧ (waiting .sync l).pending ≠ none ∧
    (waiting .sync l).pending ≠ some .firq ∧
    (∀ j, j < 12 → region (waiting .sync l).cfg ((waiting .sync l).regs.s - BitVec.ofNat 16 (j + 1)) = .ram) ∧
    ∃ t, cpuStep (waiting .sync l) = .next t := by
  rintro l (rfl | rfl) <;>
    exact ⟨quiet_of_empty rfl, stack_wf, by decide, by decide, by decide, exists_next (by decide)⟩
theorem witness_EntryThenRtiRestores_fast : (waiting .none { firq := true }).pending = some .firq ∧
    (∀ j, j < 3 → region stackMachine.cfg ((waiting .none { firq := true }).regs.s - BitVec.ofNat 16 (j + 1)) = .ram) ∧
    ∃ t, cpuStep (waiting .none { firq := true }) = .next t := ⟨by decide, by decide, exists_next (by decide)⟩
theorem witness_RegisterFrame : stackMachine.cfg.resetOp = .nop ∧ (∃ t, exec .reset stackMachine = .next t) ∧
    (∃ t, exec (.lda (.imm 0x11)) stackMachine = .next t) ∧ RegName.b ∉ written (.lda (.imm 0x11)) :=
  ⟨rfl, exists_next (by decide), exists_next (by decide), by decide⟩
theorem witness_SystemStateFrame :
    (∃ t, exec (.lds (.imm 0x11)) stackMachine = .next t ∧ t.fault.isNone = true) ∧
    (waiting .none { }).nmiArmed = true ∧ (∃ t, exec .swi (waiting .none { }) = .next t) ∧
    (∃ t, exec .nop (stackMachine.recordFault .outOfRange 0 (.range 0 256)) = .next t ∧ t.fault.isSome = true) :=
  ⟨exists_next_with (by decide), rfl, exists_next (by decide), exists_next_with (by decide)⟩
theorem witness_RomUnchanged : region stackMachine.cfg 0xC000 ≠ .ram ∧
    ∃ t, cpuStep (machine zeroRegs [] [0xF7, 0xC0, 0x00]) = .next t := ⟨by decide, exists_next (by decide)⟩
theorem witness_ConfigurationFixedCyclesGrow : stackMachine.agenda = [] ∧ ∃ t, step stackMachine = .next t :=
  ⟨rfl, exists_next (by decide)⟩
theorem witness_InvariantKept : stackMachine.Inv ∧ (boundaryMachine 10).Inv ∧ (∃ t, step stackMachine = .next t) ∧
    ∃ t, step (boundaryMachine 10) = .next t :=
  ⟨⟨by decide, by decide, rfl⟩, ⟨by decide, by decide, rfl⟩, exists_next (by decide), exists_next (by decide)⟩
theorem witness_StepOutcomes :
    step (stackMachine.recordFault .outOfRange 0 (.range 0 256)) = .fault .cpuHalted ∧
    step (stackMachine.withSched { stackMachine.sched with phase := .ended }) = .fault .runEnded ∧
    step (boundedMachine 0) = .fault .runEnded ∧
    stackMachine.Quiet ∧ stackMachine.fault = none ∧ stackMachine.sched.phase ≠ .ended ∧
    stackMachine.sched.phase ≠ .bounded 0 ∧ (boundedMachine 1).sched.phase ≠ .stepped ∧
    (∀ m : Turn, m = .host .stop ∨ m = .startFree ∨ m = .startBounded 4 → m ≠ .cpu ∧ m.due stackMachine = true) := by
  refine ⟨rfl, rfl, rfl, stack_quiet, rfl, by decide, by decide, by decide, ?_⟩
  rintro m (rfl | rfl | rfl) <;> decide
/-- A fault at the instruction, its opcode fetched or not; one inside the reset sequence; a device at LDA's operand; and
faulted machines in a burst and on the host's turn. -/
theorem witness_FaultRecording :
    (∃ t, cpuStep (machine zeroRegs [] [0x01]) = .next t ∧ (t.fault.isSome && t.regs.pc == 0x1001) = true) ∧
    (∃ t, cpuStep { machine zeroRegs [] [0x3E] with
        cfg := { Params.plain with resetOp := .reset
                                   registry := { readByte := [⟨⟨0xFFFE, 0xFFFE⟩, once [⟨.lit 1, .fail (.lit 7)⟩]⟩] } } } =
        .next t ∧ (t.fault.map FaultRecord.pc == some 0xFFFE) = true) ∧
    (∃ t, exec (.lda (.mem (.ext 0xFF01))) busyMachine = .next t ∧ t.fault.isSome = true) ∧
    (∃ e t, read8 0xFF01 busyMachine = .error (.peripheral e) t) ∧
    (∃ b v t, read8 0xFF03 busyMachine = .error (.outOfRange b v) t) ∧
    (∃ e t, fetchOpcode (busyMachine.withRegs { zeroRegs with pc := 0xFF01 }) = .error (.peripheral e) t) ∧
    (busyMachine.fault = none ∧ busyMachine.wait = .none ∧ busyMachine.pending = none ∧ busyMachine.cfg.resetOp = .nop) ∧
    (let f := stackMachine.recordFault .outOfRange 0 (.range 0 256)
     f.fault ≠ none ∧ f.agenda = [] ∧
      (f.withSched { f.sched with phase := .burst 1 }).sched.phase = .burst (0 + 1) ∧
      (f.withSched { f.sched with phase := .bounded 1 }).sched.phase = .bounded (0 + 1) ∧
      ∃ t, step (f.withAgenda [.host .stop]) = .next t) :=
  ⟨exists_next_with (by decide), exists_next_with (by decide), exists_next_with (by decide), ⟨_, _, rfl⟩, ⟨_, _, _, rfl⟩,
    ⟨_, _, rfl⟩, ⟨rfl, rfl, rfl, rfl⟩, by decide, rfl, rfl, rfl, exists_next (by decide)⟩
/-- A machine at a boundary with these sync callbacks. -/
def syncMachine (cbs : List SyncCallback) : State :=
  { boundaryMachine 12 with cfg := { Params.plain with syncCallbacks := cbs }, sched := { lastCall := [0, 0], phase := .burst 0 } }

/-- A sync callback due at its very period, one a cycle early, one that fails; boundaries where all end and where the
second fails; starts of a run. -/
theorem witness_BoundaryRules :
    let s := boundaryMachine 12
    let due : SyncCallback := ⟨12, once [⟨.lit 1, .setCell (.lit 0) .value⟩]⟩
    let bad : SyncCallback := ⟨12, once [⟨.lit 1, .fail (.lit 5)⟩]⟩
    s.cycles < cellAt s.sched.lastCall 0 + 13 ∧ cellAt s.sched.lastCall 0 + due.period ≤ s.cycles ∧
    (∃ v t, runCallback due.script { value := s.cycles - cellAt s.sched.lastCall 0, cycles := s.cycles } s = .ok v t) ∧
    (∃ e t, runCallback bad.script { value := s.cycles - cellAt s.sched.lastCall 0, cycles := s.cycles } s = .error e t) ∧
    ((syncMachine [due, due]).agenda = [] ∧ (syncMachine [due, due]).sched.phase = .burst 0) ∧
    (∃ t, RunsInOrder (syncMachine [due, due]).syncCalls (syncMachine [due, due]) t) ∧
    (∃ t, FailsInOrder (syncMachine [due, bad]).syncCalls (syncMachine [due, bad]) (.peripheral 5) t) ∧
    (stackMachine.sched.phase = .stepped ∧ (stackMachine.withAgenda [.startFree]).agenda = .startFree :: []) ∧
    ((s.withAgenda [.startFree]).sched.phase = .burst 0 ∧ (s.withAgenda [.startFree]).agenda = .startFree :: []) ∧
    (∀ k, (boundedMachine k).sched.phase = .bounded k ∧ (boundedMachine k).agenda = [] ∧ (boundedMachine k).Quiet) :=
  ⟨by decide, by decide, ⟨_, _, rfl⟩, ⟨_, _, rfl⟩, ⟨rfl, rfl⟩, ⟨_, _, rfl, _, rfl, rfl⟩, ⟨_, .inr ⟨_, rfl, .inl rfl⟩⟩, ⟨rfl, rfl⟩, ⟨rfl, rfl⟩,
    fun _ => ⟨rfl, rfl, quiet_of_empty rfl⟩⟩
/-- Runs that end at 0xFFFF and one past it, and bytes 0xFF and 0x100. -/
theorem witness_HostRequestRules :
    let a : Word := 0xFFFF
    a.toNat + 1 ≤ 65536 ∧ 65536 < a.toNat + 2 ∧ Memory.wf stackMachine.mem = true ∧
    (a.toNat + [0xFF].length ≤ 65536 ∧ ∀ b, b ∈ [0xFF] → b ≤ 0xFF) ∧ (∃ b, b ∈ [0x100] ∧ 0xFF < b) ∧
    (∀ m : HostMove, (stackMachine.withAgenda [.host m]).agenda = .host m :: []) ∧ (boundaryMachine 1).sched.phase = .burst 0 :=
  ⟨by decide, by decide, by decide, ⟨by decide, by decide⟩, ⟨0x100, by decide, by decide⟩, fun _ => rfl, rfl⟩
theorem witness_SnapshotRestored :
    let s := (machine stackRegs [(0x2000, 0xAB)] []).withSched { phase := .burst 0 }
    let u := machine zeroRegs [(0x2001, 0xCD), (0xC000, 0x3C)] []
    Memory.wf s.mem = true ∧ Memory.wf u.mem = true ∧ u.cfg = s.cfg ∧ s.snapshot.isSome = true ∧
    (s.withSched { phase := .burst 1 }).snapshot.isNone = true ∧ (s.withWait .cwai).snapshot.isNone = true ∧
    u.sched.phase ≠ .burst 0 := by decide
/-- Windows that meet without overlap and an image that just fits; the same image one byte longer. -/
theorem witness_ConstructionRules :
    let p : Params := { ramWindow := ⟨0x0000, 0x00FF⟩, romWindow := ⟨0x0100, 0x0101⟩ }
    Memory.wf [] = true ∧ (construct p [] [1, 2] []).isSome = true ∧ (construct p [] [1, 2, 3] []).isNone = true ∧
    (construct { p with romWindow := ⟨0x00FF, 0x0101⟩ } [] [] []).isNone = true := by decide

end Sys2Proof.Machine
end

