-- ==== Sys2Proof/Proofs/Snapshot.lean ====
section
/-! SUPPORT. The parts of a memory inside and outside the RAM window, and snapshots: what a restored one leaves in each
field and at each address (10_state.md R54, 70_reset_and_hazards.md R704). -/

namespace Sys2Proof.Machine

/-! ## Parts of a memory -/

/-- The entries that a test of the address keeps read as before, every other address as blank; in any memory. -/
theorem Memory.read_filter_addr (p : Nat → Bool) (m : Memory) (a : Nat) :
    Memory.read (m.filter fun cell => p cell.1) a = if p a then m.read a else blankByte := by
  induction m with
  | nil => simp [Memory.read]
  | cons c m ih =>
    obtain ⟨k, v⟩ := c
    by_cases hka : k = a
    · subst hka
      cases hp : p k <;> simp [hp, Memory.read, ih]
    · cases hp : p k <;> simp [hp, Memory.read, hka, ih]

@[simp] theorem inRam_toNat (cfg : Params) (a : Word) : inRam cfg a.toNat = decide (region cfg a = .ram) := by
  simp [inRam, a.isLt, beq_eq_decide]

theorem inRam_lt {cfg : Params} {a : Nat} (h : inRam cfg a = true) : a < 65536 := by
  simp only [inRam, Bool.and_eq_true, decide_eq_true_eq] at h
  exact h.1

theorem ramPart_read (cfg : Params) (m : Memory) (a : Word) :
    (ramPart cfg m).read a.toNat = if region cfg a = .ram then m.read a.toNat else blankByte := by
  simp [ramPart, Memory.read_filter_addr]

theorem restPart_read (cfg : Params) (m : Memory) (a : Word) :
    (restPart cfg m).read a.toNat = if region cfg a = .ram then blankByte else m.read a.toNat := by
  simp [restPart, Memory.read_filter_addr fun k => !inRam cfg k]

theorem ramPart_wf {m : Memory} (cfg : Params) (h : m.wf = true) : (ramPart cfg m).wf = true := Memory.wf_filter _ h

theorem restPart_wf {m : Memory} (cfg : Params) (h : m.wf = true) : (restPart cfg m).wf = true := Memory.wf_filter _ h

theorem ramPart_addr_lt {cfg : Params} {m : Memory} {c : Host.Cell} (h : c ∈ ramPart cfg m) : c.1 < 65536 :=
  inRam_lt (List.mem_filter.1 h).2

/-! ## Many bytes written -/

/-- Cells in rising order and without a blank one, written one after another, stand at their addresses; every other
address keeps its byte. -/
theorem Memory.read_writeAll {lo : Nat} {m cells : Memory} (hm : m.wf = true) (hc : Memory.wfFrom lo cells = true) (b : Nat) :
    (m.writeAll cells).read b = if cells.read b = blankByte then m.read b else cells.read b := by
  induction cells generalizing m lo with
  | nil => simp [Memory.writeAll, Memory.read]
  | cons c cells ih =>
    obtain ⟨k, v⟩ := c
    obtain ⟨-, hk, hv, hrest⟩ := Memory.wfFrom_cons.1 hc
    rw [Memory.writeAll, ih (Memory.wf_write hm hk) hrest, Memory.read_write v hm]
    by_cases hb : b = k
    · subst hb
      have hblank := Memory.read_below hrest (Nat.lt_succ_self b)
      simp [Memory.read, hblank, hv]
    · simp [Memory.read, hb, Ne.symm hb]

/-! ## Snapshots -/

@[simp] theorem State.atBoundary_iff (s : State) : s.atBoundary = true ↔ s.sched.phase = .burst 0 := by
  simp [State.atBoundary]

/-- A snapshot is given at a boundary without a wait alone, and is of the registers, `cycles`, the NMI arming and the RAM. -/
theorem State.snapshot_eq_some (s : State) (snap : Snapshot) :
    s.snapshot = some snap ↔ (s.sched.phase = .burst 0 ∧ s.wait = .none) ∧
      snap = { regs := s.regs, cycles := s.cycles, nmiArmed := s.nmiArmed, ram := ramPart s.cfg s.mem } := by
  simp [State.snapshot, eq_comm (a := snap)]

theorem State.snapshot_ne_none (s : State) : s.snapshot ≠ none ↔ s.sched.phase = .burst 0 ∧ s.wait = .none := by
  simp [Option.ne_none_iff_exists', State.snapshot_eq_some]

section
variable (s : State) (snap : Snapshot)

@[simp] theorem State.restore_regs : (s.restore snap).regs = snap.regs := rfl
@[simp] theorem State.restore_cycles : (s.restore snap).cycles = snap.cycles := rfl
@[simp] theorem State.restore_nmiArmed : (s.restore snap).nmiArmed = snap.nmiArmed := rfl
theorem State.restore_mem :
    (s.restore snap).mem = Memory.writeAll (restPart s.cfg s.mem) (ramPart s.cfg snap.ram) := rfl
@[simp] theorem State.restore_wait : (s.restore snap).wait = .none := rfl
@[simp] theorem State.restore_fault : (s.restore snap).fault = none := rfl
@[simp] theorem State.restore_dev : (s.restore snap).dev = s.dev := rfl
@[simp] theorem State.restore_lines : (s.restore snap).lines = s.lines := rfl
@[simp] theorem State.restore_sched : (s.restore snap).sched = s.sched := rfl
@[simp] theorem State.restore_host : (s.restore snap).host = s.host := rfl

end

theorem State.restore_mem_wf {s : State} (snap : Snapshot) (hs : s.mem.wf = true) : (s.restore snap).mem.wf = true :=
  Memory.wf_writeAll (restPart_wf s.cfg hs) fun _ hc => ramPart_addr_lt hc

/-- A restore writes the RAM window from the snapshot and leaves every other address (70_reset_and_hazards.md R704). -/
theorem State.restore_mem_read {s : State} {snap : Snapshot} (hs : s.mem.wf = true) (hr : snap.ram.wf = true) (a : Word) :
    (s.restore snap).mem.read a.toNat =
      if region s.cfg a = .ram then snap.ram.read a.toNat else s.mem.read a.toNat := by
  rw [State.restore_mem, Memory.read_writeAll (restPart_wf s.cfg hs) (ramPart_wf s.cfg hr), ramPart_read, restPart_read]
  by_cases ha : region s.cfg a = .ram
  · simp only [ha, if_true, ite_eq_right_iff]
    exact Eq.symm
  · simp [ha]

/-- A turn that cannot come yet leaves the step to the CPU and scheduler (log 8). -/
theorem step_of_not_due {s : State} {t : Turn} {rest : List Turn} (hag : s.agenda = t :: rest) (hd : t.due s = false) :
    step s = turn s := by
  simp [step, hag, hd]

theorem Turn.due_restore {s : State} (snap : Snapshot) (h : s.sched.phase ≠ .burst 0) :
    (Turn.host (.restore snap)).due s = false := by
  simpa [Turn.due, State.atBoundary] using h

/-- Settles O59: a restore writes the snapshot's RAM over the rest of the store, and the snapshot's RAM is the RAM part of
the machine it was taken from. -/
theorem snapshotRestored : Obligations.SnapshotRestored := by
  intro s u snap hs hu hcfg
  refine ⟨s.snapshot_ne_none, fun other rest hphase hag => step_of_not_due hag (Turn.due_restore other hphase), ?_⟩
  intro hsnap
  obtain ⟨-, rfl⟩ := (s.snapshot_eq_some snap).1 hsnap
  refine ⟨u.restore_regs _, u.restore_cycles _, u.restore_nmiArmed _, u.restore_wait _, u.restore_fault _, fun a => ?_,
    State.restore_mem_wf _ hu, u.restore_dev _, u.restore_lines _, u.restore_sched _, u.restore_host _⟩
  rw [State.restore_mem_read hu (ramPart_wf s.cfg hs), ramPart_read, hcfg]
  by_cases ha : region s.cfg a = .ram <;> simp [ha]

end Sys2Proof.Machine
end

/-! SUPPORT. D as A:B, and the condition code as a byte (10_state.md R32, R37). -/

namespace Sys2Proof.Machine

/-! ## D (10_state.md R32) -/

theorem wordOf_toNat (h l : Byte) : (wordOf h l).toNat = 256 * h.toNat + l.toNat := by
  rw [wordOf, BitVec.toNat_append, ← Nat.shiftLeft_add_eq_or_of_lt l.isLt, Nat.shiftLeft_eq]
  omega

theorem highByte_toNat (w : Word) : (highByte w).toNat = w.toNat / 256 := by
  rw [← highByte_eq, BitVec.toNat_ofNat]
  omega

theorem lowByte_toNat (w : Word) : (lowByte w).toNat = w.toNat % 256 := by
  rw [← lowByte_eq, BitVec.toNat_ofNat]
  omega

/-- Settles O35: D is `wordOf` of A and B, and what is written to it is halved. -/
theorem dAlias : Obligations.DAlias := fun r v x =>
  ⟨wordOf_toNat r.a r.b, ⟨highByte v, lowByte v, rfl, highByte_toNat v, lowByte_toNat v⟩, wordOf_high_low v,
    wordOf_toNat x r.b, wordOf_toNat r.a x⟩

/-! ## CC as a byte (10_state.md R37) -/

/-- The flags of a byte make the byte again: the two agree at each of the eight bits. -/
@[simp] theorem CC.toByte_ofByte (b : Byte) : CC.toByte (CC.ofByte b) = b := by
  apply BitVec.eq_of_getLsbD_eq
  intro i hi
  interval_cases i
  · exact CC.toByte_bit0 _
  · exact CC.toByte_bit1 _
  · exact CC.toByte_bit2 _
  · exact CC.toByte_bit3 _
  · exact CC.toByte_bit4 _
  · exact CC.toByte_bit5 _
  · exact CC.toByte_bit6 _
  · exact CC.toByte_bit7 _

/-- Settles O36: `CC.toByte` and `CC.ofByte` undo each other, and each bit of the byte is its flag. -/
theorem wholeConditionCode : Obligations.WholeConditionCode :=
  ⟨CC.toByte_ofByte, CC.ofByte_toByte,
    fun c => ⟨c.toByte_bit7, c.toByte_bit6, c.toByte_bit5, c.toByte_bit4, c.toByte_bit3, c.toByte_bit2, c.toByte_bit1,
      c.toByte_bit0⟩,
    fun _ => rfl⟩

end Sys2Proof.Machine

/-! SUPPORT. The sums and differences of 10_state.md R50 and R51: the bits their flag formulas test, over words and over
numbers alike, and what those bits mean (R38 to R42). -/

namespace Sys2Proof.Machine

section
variable {w : Nat}

/-! ## One bit under a mask -/

theorem and_twoPow_bne_zero {k : Nat} (hk : k < w) (x : BitVec w) :
    ((x &&& BitVec.twoPow w k) != 0#w) = x.getLsbD k := by
  rw [BitVec.and_twoPow]
  cases x.getLsbD k
  · simp
  · have hne : BitVec.twoPow w k ≠ 0#w := fun h => by simpa [hk] using congrArg (·.getLsbD k) h
    simp [hne]

theorem decide_and_two_pow_ne_zero (n k : Nat) : decide (n &&& 2 ^ k ≠ 0) = n.testBit k := by
  rw [Nat.and_two_pow]
  cases n.testBit k <;> simp

/-! ## The formulas of H and V, as bits: over words (the model's) and over numbers (the spec's) -/

theorem halfCarryMask_eq {k : Nat} (hk : k < w) (a b r : BitVec w) :
    (((a ^^^ b ^^^ r) &&& BitVec.twoPow w k) != 0#w) = (a.getLsbD k ^^ b.getLsbD k ^^ r.getLsbD k) := by
  rw [and_twoPow_bne_zero hk]
  simp

theorem halfCarryFormula_eq (a b : BitVec w) (n k : Nat) :
    decide ((a.toNat ^^^ b.toNat ^^^ n) &&& 2 ^ k ≠ 0) = (a.getLsbD k ^^ b.getLsbD k ^^ n.testBit k) := by
  rw [decide_and_two_pow_ne_zero]
  simp [BitVec.testBit_toNat]

/-- V of a sum (10_state.md R50): the operands have the same sign and the result the other one. -/
theorem addOverflowMask_eq (a b r : BitVec (w + 1)) :
    (((a ^^^ b ^^^ BitVec.twoPow (w + 1) w) &&& (a ^^^ r) &&& BitVec.twoPow (w + 1) w) != 0#(w + 1)) =
      (!(a.msb ^^ b.msb) && (a.msb ^^ r.msb)) := by
  rw [and_twoPow_bne_zero (Nat.lt_succ_self w)]
  simp [BitVec.msb_eq_getLsbD_last]

theorem addOverflowFormula_eq (a b : BitVec (w + 1)) (n : Nat) :
    decide ((a.toNat ^^^ b.toNat ^^^ 2 ^ w) &&& (a.toNat ^^^ n) &&& 2 ^ w ≠ 0) =
      (!(a.msb ^^ b.msb) && (a.msb ^^ n.testBit w)) := by
  rw [decide_and_two_pow_ne_zero]
  simp [BitVec.msb_eq_getLsbD_last, BitVec.testBit_toNat]

/-- V of a difference (10_state.md R51): the operands differ in sign, and so do the first operand and the result. -/
theorem subOverflowMask_eq (a b r : BitVec (w + 1)) :
    (((a ^^^ b) &&& (a ^^^ r) &&& BitVec.twoPow (w + 1) w) != 0#(w + 1)) =
      ((a.msb ^^ b.msb) && (a.msb ^^ r.msb)) := by
  rw [and_twoPow_bne_zero (Nat.lt_succ_self w)]
  simp [BitVec.msb_eq_getLsbD_last]

theorem subOverflowFormula_eq (a b : BitVec (w + 1)) (n : Nat) :
    decide ((a.toNat ^^^ b.toNat) &&& (a.toNat ^^^ n) &&& 2 ^ w ≠ 0) =
      ((a.msb ^^ b.msb) && (a.msb ^^ n.testBit w)) := by
  rw [decide_and_two_pow_ne_zero]
  simp [BitVec.msb_eq_getLsbD_last, BitVec.testBit_toNat]

/-! ## What the bits mean -/

theorem msb_eq_decide_two_pow_le (x : BitVec (w + 1)) : x.msb = decide (2 ^ w ≤ x.toNat) := x.msb_eq_decide

/-- Signed overflow of a sum (10_state.md R41). A word that is a sum with carry modulo `2 ^ (w + 1)` has
the wrong sign exactly where the signed sum is out of range: the sum either stays below `2 ^ (w + 1)` or wraps once. -/
theorem addOverflow_eq (a b r : BitVec (w + 1)) (cin : Bool)
    (hr : r.toNat = (a.toNat + b.toNat + cin.toNat) % 2 ^ (w + 1)) :
    (!(a.msb ^^ b.msb) && (a.msb ^^ r.msb)) =
      decide (a.toInt + b.toInt + cin.toNat < -2 ^ w ∨ 2 ^ w ≤ a.toInt + b.toInt + cin.toNat) := by
  have ha := a.isLt
  have hb := b.isLt
  have hc := cin.toNat_le
  have hN : ((2 ^ w : Nat) : Int) = 2 ^ w := by norm_num
  simp only [BitVec.toInt_eq_toNat_cond, msb_eq_decide_two_pow_le, ← hN]
  rw [pow_succ] at *
  generalize 2 ^ w = N at *
  rw [Bool.eq_iff_iff]
  simp only [Bool.and_eq_true, Bool.not_eq_eq_eq_not, Bool.not_true, bne_eq_false_iff_eq, decide_eq_decide,
    bne_iff_ne, ne_eq, decide_eq_true_eq]
  obtain hlt | hge := Nat.lt_or_ge (a.toNat + b.toNat + cin.toNat) (N * 2)
  · rw [Nat.mod_eq_of_lt hlt] at hr
    omega
  · rw [Nat.mod_eq_sub_mod hge, Nat.mod_eq_of_lt (by omega)] at hr
    omega

theorem toInt_complement (x : BitVec (w + 1)) : (~~~x).toInt = -1 - x.toInt := by
  have hx := x.isLt
  rw [BitVec.toInt_eq_toNat_cond, BitVec.toInt_eq_toNat_cond, BitVec.toNat_not]
  omega

/-- Signed overflow of a difference (10_state.md R41): a difference with borrow is a sum with the complements of the
subtrahend and of the borrow. -/
theorem subOverflow_eq (a b r : BitVec (w + 1)) (cin : Bool)
    (hr : (r.toNat : Int) = ((a.toNat : Int) - b.toNat - cin.toNat) % 2 ^ (w + 1)) :
    ((a.msb ^^ b.msb) && (a.msb ^^ r.msb)) =
      decide (a.toInt - b.toInt - cin.toNat < -2 ^ w ∨ 2 ^ w ≤ a.toInt - b.toInt - cin.toNat) := by
  have hcin : ((!cin).toNat : Int) = 1 - cin.toNat := by cases cin <;> rfl
  have hsum : a.toInt - b.toInt - cin.toNat = a.toInt + (~~~b).toInt + (!cin).toNat := by
    rw [toInt_complement, hcin]
    ring
  have hmod : r.toNat = (a.toNat + (~~~b).toNat + (!cin).toNat) % 2 ^ (w + 1) := by
    have hb := b.isLt
    zify
    rw [hr, hcin, BitVec.toNat_not, Nat.sub_sub, Nat.cast_sub (by omega), ← Int.add_emod_right]
    push_cast
    ring_nf
  rw [hsum, ← addOverflow_eq a (~~~b) r (!cin) hmod]
  simp

/-! ## The results and the flags of the model -/

theorem beq_zero_eq_decide (x : BitVec w) : (x == 0#w) = decide (x.toNat = 0) := by
  rw [Bool.eq_iff_iff, beq_iff_eq, decide_eq_true_iff, BitVec.toNat_eq, BitVec.toNat_ofNat, Nat.zero_mod]

/-- A word that is `n` modulo `2 ^ w` has the bits of `n`. -/
theorem getLsbD_of_toNat_eq_mod {n : Nat} {x : BitVec w} (h : x.toNat = n % 2 ^ w) {k : Nat} (hk : k < w) :
    x.getLsbD k = n.testBit k := by
  rw [← BitVec.testBit_toNat, h, Nat.testBit_mod_two_pow, decide_eq_true hk, Bool.true_and]

theorem msb_eq_testBit (x : BitVec (w + 1)) : x.msb = x.toNat.testBit w := by
  rw [BitVec.msb_eq_getLsbD_last, BitVec.testBit_toNat, Nat.add_sub_cancel]

end

section
variable (c : CC) (a b : Byte) (cin h : Bool)

/-! ## `Add8` (10_state.md R50) -/

theorem add8Result_toNat : (add8Result a b cin).toNat = (a.toNat + b.toNat + cin.toNat) % 256 := BitVec.toNat_ofNat _ _

theorem add8Result_eq_add : add8Result a b cin = a + b + BitVec.setWidth 8 (BitVec.ofBool cin) := by
  apply BitVec.eq_of_toNat_eq
  rw [add8Result_toNat]
  cases cin <;> simp

/-- The bit that H tests is the carry out of the low four bits (10_state.md R38). -/
theorem halfCarry_eq : (a.getLsbD 4 ^^ b.getLsbD 4 ^^ (add8Result a b cin).getLsbD 4) =
    decide (16 ≤ a.toNat % 16 + b.toNat % 16 + cin.toNat) := by
  have hsum := BitVec.getLsbD_add_add_bool (show 4 < 8 by decide) a b cin
  rw [add8Result_eq_add, hsum, ← Bool.xor_assoc (a.getLsbD 4), ← Bool.xor_assoc, Bool.xor_self, Bool.false_xor]
  rfl

/-- The flags of `Add8` by the bits of the operands and of the result. -/
theorem CC.add8_eq : c.add8 a b cin =
    { c with
      h := a.getLsbD 4 ^^ b.getLsbD 4 ^^ (add8Result a b cin).getLsbD 4
      n := (add8Result a b cin).msb
      z := decide ((add8Result a b cin).toNat = 0)
      v := !(a.msb ^^ b.msb) && (a.msb ^^ (add8Result a b cin).msb)
      c := decide (0xFF < a.toNat + b.toNat + cin.toNat) } := by
  rw [CC.add8, CC.mk.injEq]
  exact ⟨rfl, rfl, halfCarryMask_eq (show 4 < 8 by decide) a b _, rfl, rfl, beq_zero_eq_decide _,
    addOverflowMask_eq (w := 7) a b _, rfl⟩

/-! ## `Sub8` (10_state.md R51) -/

theorem sub8Result_toNat : (sub8Result a b cin).toNat = (((a.toNat : Int) - b.toNat - cin.toNat) % 256).toNat :=
  BitVec.toNat_ofInt _

theorem natCast_sub8Result_toNat :
    ((sub8Result a b cin).toNat : Int) = ((a.toNat : Int) - b.toNat - cin.toNat) % 256 := by
  rw [sub8Result_toNat, Int.toNat_of_nonneg (Int.emod_nonneg _ (by decide))]

/-- The flags of `Sub8` by the bits of the operands and of the result. -/
theorem CC.sub8_eq : c.sub8 a b cin h =
    { c with
      h := h
      n := (sub8Result a b cin).msb
      z := decide ((sub8Result a b cin).toNat = 0)
      v := (a.msb ^^ b.msb) && (a.msb ^^ (sub8Result a b cin).msb)
      c := decide ((a.toNat : Int) - b.toNat - cin.toNat < 0) } := by
  rw [CC.sub8, CC.mk.injEq]
  exact ⟨rfl, rfl, rfl, rfl, rfl, beq_zero_eq_decide _, subOverflowMask_eq (w := 7) a b _, rfl⟩

theorem CC.sub8_n : (c.sub8 a b cin h).n = decide (128 ≤ ((a.toNat : Int) - b.toNat - cin.toNat) % 256) := by
  rw [CC.sub8_eq, msb_eq_decide_two_pow_le, decide_eq_decide, ← natCast_sub8Result_toNat]
  omega

theorem CC.sub8_v : (c.sub8 a b cin h).v =
    decide (a.toInt - b.toInt - cin.toNat < -128 ∨ 127 < a.toInt - b.toInt - cin.toNat) := by
  rw [CC.sub8_eq]
  exact subOverflow_eq (w := 7) a b _ cin (natCast_sub8Result_toNat a b cin)

end

section
variable (c : CC) (a b : Word)

/-! ## `Add16` (10_state.md R51) -/

theorem add16Result_toNat : (add16Result a b).toNat = (a.toNat + b.toNat) % 65536 := BitVec.toNat_ofNat _ _

/-- The flags of `Add16` by the bits of the operands and of the result. -/
theorem CC.add16_eq : c.add16 a b =
    { c with
      n := (add16Result a b).msb
      z := decide ((add16Result a b).toNat = 0)
      v := !(a.msb ^^ b.msb) && (a.msb ^^ (add16Result a b).msb)
      c := decide (0xFFFF < a.toNat + b.toNat) } := by
  rw [CC.add16, CC.mk.injEq]
  exact ⟨rfl, rfl, rfl, rfl, rfl, beq_zero_eq_decide _, addOverflowMask_eq (w := 15) a b _, rfl⟩

theorem CC.add16_n : (c.add16 a b).n = decide (32768 ≤ (a.toNat + b.toNat) % 65536) := by
  rw [CC.add16_eq, ← add16Result_toNat]
  exact msb_eq_decide_two_pow_le (w := 15) _

theorem CC.add16_v : (c.add16 a b).v = decide (a.toInt + b.toInt < -32768 ∨ 32767 < a.toInt + b.toInt) := by
  have hv := addOverflow_eq (w := 15) a b _ false (add16Result_toNat a b)
  rw [Bool.toNat_false, Nat.cast_zero, add_zero] at hv
  rw [CC.add16_eq]
  exact hv

/-! ## `Sub16` (10_state.md R51) -/

theorem sub16Result_toNat : (sub16Result a b).toNat = (((a.toNat : Int) - b.toNat) % 65536).toNat := BitVec.toNat_ofInt _

theorem natCast_sub16Result_toNat : ((sub16Result a b).toNat : Int) = ((a.toNat : Int) - b.toNat) % 65536 := by
  rw [sub16Result_toNat, Int.toNat_of_nonneg (Int.emod_nonneg _ (by decide))]

/-- A difference of words is zero exactly where they are equal. -/
theorem sub16Result_toNat_eq_zero : (sub16Result a b).toNat = 0 ↔ a = b := by
  have hx := natCast_sub16Result_toNat a b
  have ha := a.isLt
  have hb := b.isLt
  rw [BitVec.toNat_eq]
  omega

/-- The flags of `Sub16` by the bits of the operands and of the result. -/
theorem CC.sub16_eq : c.sub16 a b =
    { c with
      n := (sub16Result a b).msb
      z := decide ((sub16Result a b).toNat = 0)
      v := (a.msb ^^ b.msb) && (a.msb ^^ (sub16Result a b).msb)
      c := decide ((a.toNat : Int) - b.toNat < 0) } := by
  rw [CC.sub16, CC.mk.injEq]
  exact ⟨rfl, rfl, rfl, rfl, rfl, beq_zero_eq_decide _, subOverflowMask_eq (w := 15) a b _, rfl⟩

theorem CC.sub16_n : (c.sub16 a b).n = decide (32768 ≤ ((a.toNat : Int) - b.toNat) % 65536) := by
  rw [CC.sub16_eq, msb_eq_decide_two_pow_le, decide_eq_decide, ← natCast_sub16Result_toNat]
  omega

theorem CC.sub16_z : (c.sub16 a b).z = decide (a = b) := by
  rw [CC.sub16_eq, decide_eq_decide]
  exact sub16Result_toNat_eq_zero a b

theorem CC.sub16_v : (c.sub16 a b).v = decide (a.toInt - b.toInt < -32768 ∨ 32767 < a.toInt - b.toInt) := by
  have hr : ((sub16Result a b).toNat : Int) = ((a.toNat : Int) - b.toNat - false.toNat) % 65536 := by
    rw [natCast_sub16Result_toNat, Bool.toNat_false, Nat.cast_zero, sub_zero]
  have hv := subOverflow_eq (w := 15) a b _ false hr
  rw [Bool.toNat_false, Nat.cast_zero, sub_zero] at hv
  rw [CC.sub16_eq]
  exact hv

end

/-! ## The flags by formula and by meaning -/

/-- Settles O37: the bits of `CC.add8_eq` are those the spec's formulas test in the integer sum, and are a carry out of bit
3 (`halfCarry_eq`) and a signed sum out of range (`addOverflow_eq`). -/
theorem addByteFlags : Obligations.AddByteFlags := by
  intro c a b cin r _
  have hr : (add8Result a b cin).toNat = r % 256 := add8Result_toNat a b cin
  refine ⟨hr, ?formulas, ?meanings⟩
  case formulas =>
    have hn : (add8Result a b cin).msb = r.testBit 7 := getLsbD_of_toNat_eq_mod hr (by decide)
    have hh : (add8Result a b cin).getLsbD 4 = r.testBit 4 := getLsbD_of_toNat_eq_mod hr (by decide)
    rw [CC.add8_eq, hn, hh, hr, ← halfCarryFormula_eq, ← addOverflowFormula_eq (w := 7)]
    rfl
  case meanings =>
    have hn : (add8Result a b cin).msb = decide (128 ≤ r % 256) := hr ▸ msb_eq_decide_two_pow_le (w := 7) _
    rw [CC.add8_eq, halfCarry_eq, addOverflow_eq (w := 7) a b _ cin hr, hn, hr]
    rfl

/-- Settles O38: the bits of `CC.sub8_eq`, `CC.add16_eq` and `CC.sub16_eq` are those the spec's formulas test in the
integer result; the meanings of N, Z and V are the lemmas of the three functions. -/
theorem subtractAndWordFlags : Obligations.SubtractAndWordFlags := by
  refine ⟨fun c a b cin h => ⟨sub8Result_toNat a b cin, ?sub8, c.sub8_n a b cin h, c.sub8_v a b cin h⟩,
    fun c a b => ⟨add16Result_toNat a b, ?add16, c.add16_n a b, c.add16_v a b⟩,
    fun c a b => ⟨sub16Result_toNat a b, ?sub16, c.sub16_n a b, c.sub16_z a b, c.sub16_v a b⟩⟩
  case sub8 =>
    rw [CC.sub8_eq, ← sub8Result_toNat, msb_eq_testBit (w := 7) (sub8Result a b cin), ← subOverflowFormula_eq (w := 7)]
    rfl
  case add16 =>
    have hn : (add16Result a b).msb = (a.toNat + b.toNat).testBit 15 :=
      getLsbD_of_toNat_eq_mod (add16Result_toNat a b) (by decide)
    rw [CC.add16_eq, ← add16Result_toNat, hn, ← addOverflowFormula_eq (w := 15)]
    rfl
  case sub16 =>
    rw [CC.sub16_eq, ← sub16Result_toNat, msb_eq_testBit (w := 15) (sub16Result a b), ← subOverflowFormula_eq (w := 15)]
    rfl

end Sys2Proof.Machine

/-! SUPPORT. ANDCC and ORCC: CC combined with a mask, flag by flag (42_logical_cc.md section 2, R310 and R311). -/

namespace Sys2Proof.Machine

/-! ## An instruction that only writes registers -/

/-- A body that writes registers and makes no byte transfer: the cost alone is added to the cycles (20_memory.md R98). -/
theorem instruction_withRegs {i : Instr} {body : M Unit} {s : State} {r : Regs} {u : Unit}
    (h : body s = .ok u (s.withRegs r)) : instruction i body s = .next (s.finish i r 0) := by
  rw [instruction_ok h, State.finish, accessCost_zero, State.addCycles_zero]

@[simp] theorem State.finish_regs (s : State) (i : Instr) (r : Regs) (n : Nat) : (s.finish i r n).regs = r := rfl

/-! ## CC under a mask -/

/-- The flags of which the mask has the bit are kept, the others cleared. -/
def CC.andMask (c : CC) (m : Byte) : CC :=
  { e := c.e && m.getLsbD 7, f := c.f && m.getLsbD 6, h := c.h && m.getLsbD 5, i := c.i && m.getLsbD 4
    n := c.n && m.getLsbD 3, z := c.z && m.getLsbD 2, v := c.v && m.getLsbD 1, c := c.c && m.getLsbD 0 }

/-- The flags of which the mask has the bit are set, the others kept. -/
def CC.orMask (c : CC) (m : Byte) : CC :=
  { e := c.e || m.getLsbD 7, f := c.f || m.getLsbD 6, h := c.h || m.getLsbD 5, i := c.i || m.getLsbD 4
    n := c.n || m.getLsbD 3, z := c.z || m.getLsbD 2, v := c.v || m.getLsbD 1, c := c.c || m.getLsbD 0 }

theorem CC.ofByte_toByte_and (c : CC) (m : Byte) : CC.ofByte (c.toByte &&& m) = c.andMask m := by
  simp only [CC.ofByte, CC.andMask, BitVec.getLsbD_and, CC.toByte_bit7, CC.toByte_bit6, CC.toByte_bit5, CC.toByte_bit4,
    CC.toByte_bit3, CC.toByte_bit2, CC.toByte_bit1, CC.toByte_bit0]

theorem CC.ofByte_toByte_or (c : CC) (m : Byte) : CC.ofByte (c.toByte ||| m) = c.orMask m := by
  simp only [CC.ofByte, CC.orMask, BitVec.getLsbD_or, CC.toByte_bit7, CC.toByte_bit6, CC.toByte_bit5, CC.toByte_bit4,
    CC.toByte_bit3, CC.toByte_bit2, CC.toByte_bit1, CC.toByte_bit0]

/-! ## The two instructions -/

section
variable (s : State) (m : Byte)

theorem exec_andcc_eq :
    exec (.andcc m) s = instruction (.andcc m) (modifyCC fun c => CC.ofByte (c.toByte &&& m)) s := rfl

theorem exec_andcc :
    exec (.andcc m) s = .next (s.finish (.andcc m) (s.regs.setCC (s.regs.cc.andMask m)) 0) := by
  rw [exec_andcc_eq, instruction_withRegs (modifyCC_apply _ s), CC.ofByte_toByte_and]

theorem exec_orcc_eq :
    exec (.orcc m) s = instruction (.orcc m) (modifyCC fun c => CC.ofByte (c.toByte ||| m)) s := rfl

theorem exec_orcc :
    exec (.orcc m) s = .next (s.finish (.orcc m) (s.regs.setCC (s.regs.cc.orMask m)) 0) := by
  rw [exec_orcc_eq, instruction_withRegs (modifyCC_apply _ s), CC.ofByte_toByte_or]

theorem decode_andcc : decode [0x1C, m] = some (.andcc m, []) := rfl

theorem decode_orcc : decode [0x1A, m] = some (.orcc m, []) := rfl

variable {s}

theorem State.firqPending_of_masked (h : s.regs.cc.f = true) : s.firqPending = false := by
  rw [State.firqPending, h, Bool.not_true, Bool.and_false]

theorem State.irqPending_of_masked (h : s.regs.cc.i = true) : s.irqPending = false := by
  rw [State.irqPending, h, Bool.not_true, Bool.and_false]

end

/-- Settles O10: the eight flags of CC under the mask are `CC.andMask` and `CC.orMask`; bits 6 and 4 of 0x50 are those
of F and I, which mask FIRQ and IRQ. -/
theorem conditionCodeMaskResult : Obligations.ConditionCodeMaskResult := by
  intro s m
  refine ⟨exec_andcc s m, exec_orcc s m, decode_andcc m, decode_orcc m, fun t ht => ?_⟩
  obtain rfl := Host.Outcome.next.inj ((exec_orcc s 0x50).symm.trans ht)
  have hf : (s.regs.cc.orMask 0x50).f = true := Bool.or_true _
  have hi : (s.regs.cc.orMask 0x50).i = true := Bool.or_true _
  exact ⟨State.firqPending_of_masked hf, State.irqPending_of_masked hi⟩

end Sys2Proof.Machine

/-! SUPPORT. TFR and EXG: a write of a selector changes the registers and arms NMI where the selector is S
(44_misc_alu.md section 4, 60_exceptions.md R613). -/

namespace Sys2Proof.Machine

/-- A body that leaves new registers and makes no byte transfer: the cost alone is added to the cycles (20_memory.md R98). -/
theorem instruction_finish {i : Instr} {body : M Unit} {s t : State} {r : Regs} {u : Unit}
    (h : body s = .ok u (t.withRegs r)) : instruction i body s = .next (t.finish i r 0) := by
  rw [instruction_ok h, State.finish, accessCost_zero, State.addCycles_zero]

section
variable (s : State)

theorem writeSel_apply (sel : Sel) (v : SelValue) :
    writeSel sel v s =
      .ok ⟨⟩ ((s.withNmiArmed (s.nmiArmed || Sel.isS sel)).withRegs (writeSelRegs s.regs v sel)) := by
  simp only [writeSel, bind_apply, modifyRegs_apply]
  cases Sel.isS sel with
  | true =>
    rw [if_pos rfl, armNmi_s, Bool.or_true]
    rfl
  | false =>
    rw [if_neg Bool.false_ne_true, Bool.or_false]
    rfl

theorem transfer_apply (src dst : Sel) :
    transfer src dst s =
      .ok ⟨⟩ ((s.withNmiArmed (s.nmiArmed || Sel.isS dst)).withRegs (writeSelRegs s.regs (readSel s.regs src) dst)) := by
  simp only [transfer, bind_apply, getRegs_apply, writeSel_apply]

/-- The value the second selector takes is that of the registers before the first write (44_misc_alu.md R422). -/
theorem exchange_apply (r1 r2 : Sel) :
    exchange r1 r2 s =
      .ok ⟨⟩ ((s.withNmiArmed (s.nmiArmed || Sel.isS r1 || Sel.isS r2)).withRegs
        (writeSelRegs (writeSelRegs s.regs (readSel s.regs r2) r1) (readSel s.regs r1) r2)) := by
  simp only [exchange, bind_apply, getRegs_apply, writeSel_apply]
  rfl

theorem exec_tfr_eq (src dst : Sel) : exec (.tfr src dst) s = instruction (.tfr src dst) (transfer src dst) s := rfl

theorem exec_exg_eq (r1 r2 : Sel) : exec (.exg r1 r2) s = instruction (.exg r1 r2) (exchange r1 r2) s := rfl

end

theorem decode_tfr (pb : Byte) :
    decode [0x1F, pb] = some (.tfr (selOf (highNibble pb)) (selOf (lowNibble pb)), []) := rfl

theorem decode_exg (pb : Byte) :
    decode [0x1E, pb] = some (.exg (selOf (highNibble pb)) (selOf (lowNibble pb)), []) := rfl

/-- Settles O16: `writeSel_apply` once for TFR and twice for EXG, whose reads both stand before the first write. -/
theorem transferResult : Obligations.TransferResult := by
  intro s r1 r2
  refine ⟨?tfr, ?exg, fun pb => ⟨decode_tfr pb, decode_exg pb⟩⟩
  case tfr => rw [exec_tfr_eq, instruction_finish (transfer_apply s r1 r2)]
  case exg => rw [exec_exg_eq, instruction_finish (exchange_apply s r1 r2)]

end Sys2Proof.Machine

/-! SUPPORT. Computations that leave the request lines as they are and do the same whatever these hold, on a machine with no
bus callback; the body of every instruction is one, opcode 0x3E as a no-op included (60_exceptions.md R611, R612). -/

namespace Sys2Proof.Machine

/-! ## Noninterference of the request lines -/

/-- On a machine with no bus callback the computation comes to its end and keeps the parameters and the request lines; with
other lines it gives the same value and the same state but for the lines. -/
def IgnoresLines {α : Type} (x : M α) : Prop :=
  ∀ s : State, s.Quiet → ∃ v t, x s = .ok v t ∧ t.cfg = s.cfg ∧ t.lines = s.lines ∧
    ∀ l, x (s.withLines l) = .ok v (t.withLines l)

/-- A change of the state that keeps the parameters and the request lines and does not look at the lines. -/
def KeepsLines (f : State → State) : Prop :=
  ∀ s, (f s).cfg = s.cfg ∧ (f s).lines = s.lines ∧ ∀ l, f (s.withLines l) = (f s).withLines l

theorem State.Quiet.withLines {s : State} (q : s.Quiet) (l : Lines) : (s.withLines l).Quiet := q.of_cfg (s.withLines_cfg l)

section
variable {α β : Type}

/-- From a law that says what the computation does on a machine with no bus callback. -/
theorem IgnoresLines.of_quiet {x : M α} {v : State → α} {f : State → State}
    (hx : ∀ s : State, s.Quiet → x s = .ok (v s) (f s)) (hv : ∀ s l, v (s.withLines l) = v s) (hf : KeepsLines f) :
    IgnoresLines x := by
  intro s q
  obtain ⟨hcfg, hlines, hcomm⟩ := hf s
  refine ⟨v s, f s, hx s q, hcfg, hlines, fun l => ?_⟩
  rw [hx _ (q.withLines l), hv, hcomm]

theorem IgnoresLines.of_pure (v : α) : IgnoresLines (pure v) :=
  .of_quiet (fun _ _ => rfl) (fun _ _ => rfl) fun _ => ⟨rfl, rfl, fun _ => rfl⟩

theorem IgnoresLines.of_modify {f : State → State} (hf : KeepsLines f) : IgnoresLines (modify f : M PUnit) :=
  .of_quiet (fun _ _ => rfl) (fun _ _ => rfl) hf

theorem IgnoresLines.of_bind {x : M α} {f : α → M β} (hx : IgnoresLines x) (hf : ∀ v, IgnoresLines (f v)) :
    IgnoresLines (x >>= f) := by
  intro s q
  obtain ⟨v, t, ex, hcfg, hlines, hxl⟩ := hx s q
  obtain ⟨w, u, ef, hcfg', hlines', hfl⟩ := hf v t (q.of_cfg hcfg)
  exact ⟨w, u, (bind_ok ex).trans ef, hcfg'.trans hcfg, hlines'.trans hlines, fun l => (bind_ok (hxl l)).trans (hfl l)⟩

theorem IgnoresLines.of_ite {p : Prop} [Decidable p] {x y : M α} (hx : IgnoresLines x) (hy : IgnoresLines y) :
    IgnoresLines (if p then x else y) := by
  split <;> assumption

end

/-! ## Registers, cycles and undefined flags -/

theorem getRegs_ignoresLines : IgnoresLines getRegs :=
  .of_quiet (fun _ _ => rfl) (fun _ _ => rfl) fun _ => ⟨rfl, rfl, fun _ => rfl⟩

theorem getCC_ignoresLines : IgnoresLines getCC := .of_bind getRegs_ignoresLines fun _ => .of_pure _

theorem modifyRegs_ignoresLines (f : Regs → Regs) : IgnoresLines (modifyRegs f) :=
  .of_modify fun _ => ⟨rfl, rfl, fun _ => rfl⟩

theorem modifyCC_ignoresLines (f : CC → CC) : IgnoresLines (modifyCC f) := modifyRegs_ignoresLines _

theorem setPc_ignoresLines (a : Word) : IgnoresLines (setPc a) := modifyRegs_ignoresLines _

theorem addCycles_ignoresLines (n : Nat) : IgnoresLines (addCycles n) :=
  .of_modify fun _ => ⟨rfl, rfl, fun _ => rfl⟩

theorem setWait_ignoresLines (w : Wait) : IgnoresLines (modify fun s => s.withWait w : M PUnit) :=
  .of_modify fun _ => ⟨rfl, rfl, fun _ => rfl⟩

theorem undefFlag_ignoresLines (old : Bool) : IgnoresLines (undefFlag old) := by
  intro s _
  obtain ⟨h, n, e, -⟩ := undefFlag_spec old s
  exact ⟨h, s.drawn n, e s rfl rfl, rfl, rfl, fun l => e (s.withLines l) rfl rfl⟩

/-! ## The bus and the operands -/

theorem State.storeByte_withLines (s : State) (a : Word) (v : Byte) (l : Lines) :
    (s.withLines l).storeByte a v = (s.storeByte a v).withLines l := by
  unfold State.storeByte
  rw [State.withLines_cfg]
  cases region s.cfg a <;> rfl

theorem State.storeWord_withLines (s : State) (a v : Word) (l : Lines) :
    (s.withLines l).storeWord a v = (s.storeWord a v).withLines l := by
  simp only [State.storeWord, State.storeByte_withLines]

theorem read8_ignoresLines (a : Word) : IgnoresLines (read8 a) :=
  .of_quiet (fun _ q => read8_quiet q a) (fun _ _ => rfl) fun _ => ⟨rfl, rfl, fun _ => rfl⟩

theorem read16_ignoresLines (a : Word) : IgnoresLines (read16 a) :=
  .of_quiet (fun _ q => read16_quiet q a) (fun _ _ => rfl) fun _ => ⟨rfl, rfl, fun _ => rfl⟩

theorem write8_ignoresLines (a : Word) (v : Byte) : IgnoresLines (write8 a v) :=
  .of_quiet (fun _ q => write8_quiet q a v) (fun _ _ => rfl) fun s =>
    ⟨s.storeByte_cfg a v, s.storeByte_lines a v, fun l => by rw [State.storeByte_withLines]; rfl⟩

theorem write16_ignoresLines (a v : Word) : IgnoresLines (write16 a v) :=
  .of_quiet (fun _ q => write16_quiet q a v) (fun _ _ => rfl) fun s =>
    ⟨s.storeWord_cfg a v, s.storeWord_lines a v, fun l => by rw [State.storeWord_withLines]; rfl⟩

theorem effectiveAddress_ignoresLines (m : Mem) : IgnoresLines (effectiveAddress m) :=
  .of_quiet (fun _ q => effectiveAddress_quiet q m) (fun _ _ => rfl) fun _ => ⟨rfl, rfl, fun _ => rfl⟩

theorem operand8_ignoresLines (src : Src8) : IgnoresLines (operand8 src) :=
  .of_quiet (fun _ q => operand8_quiet q src) (fun _ _ => rfl) fun _ => ⟨rfl, rfl, fun _ => rfl⟩

theorem operand16_ignoresLines (src : Src16) : IgnoresLines (operand16 src) :=
  .of_quiet (fun _ q => operand16_quiet q src) (fun _ _ => rfl) fun _ => ⟨rfl, rfl, fun _ => rfl⟩

/-! ## Loads, stores, load-effective-address -/

theorem load8_ignoresLines (r : Acc) (src : Src8) : IgnoresLines (load8 r src) :=
  .of_bind (operand8_ignoresLines src) fun _ => .of_bind (modifyRegs_ignoresLines _) fun _ => modifyCC_ignoresLines _

theorem load16_ignoresLines (r : Reg16) (src : Src16) : IgnoresLines (load16 r src) :=
  .of_quiet (fun _ q => load16_quiet q r src) (fun _ _ => rfl) fun _ => ⟨rfl, rfl, fun _ => rfl⟩

theorem store8_ignoresLines (r : Acc) (m : Mem) : IgnoresLines (store8 r m) :=
  .of_bind (effectiveAddress_ignoresLines m) fun _ => .of_bind getRegs_ignoresLines fun _ =>
    .of_bind (write8_ignoresLines _ _) fun _ => modifyCC_ignoresLines _

theorem store16_ignoresLines (r : Reg16) (m : Mem) : IgnoresLines (store16 r m) :=
  .of_bind (effectiveAddress_ignoresLines m) fun _ => .of_bind getRegs_ignoresLines fun _ =>
    .of_bind (write16_ignoresLines _ _) fun _ => modifyCC_ignoresLines _

theorem lea_ignoresLines (r : Reg16) (x : Idx) : IgnoresLines (lea r x) :=
  .of_quiet (fun _ q => lea_quiet q r x) (fun _ _ => rfl) fun _ => ⟨rfl, rfl, fun _ => rfl⟩

theorem leaZ_ignoresLines (r : Reg16) (x : Idx) : IgnoresLines (leaZ r x) :=
  .of_bind (effectiveAddress_ignoresLines _) fun _ => .of_bind (modifyRegs_ignoresLines _) fun _ => modifyCC_ignoresLines _

/-! ## Computations that write flags -/

theorem flags_ignoresLines {α : Type} (f : CC → CC) (v : α) : IgnoresLines (modifyCC f >>= fun _ => pure v) :=
  .of_bind (modifyCC_ignoresLines f) fun _ => .of_pure v

theorem undefinedH_ignoresLines {α : Type} (f : CC → Bool → CC) (v : α) :
    IgnoresLines (getCC >>= fun c => undefFlag c.h >>= fun h => modifyCC (fun c => f c h) >>= fun _ => pure v) :=
  .of_bind getCC_ignoresLines fun _ => .of_bind (undefFlag_ignoresLines _) fun _ => flags_ignoresLines _ v

theorem add8_ignoresLines (a b : Byte) (cin : Bool) : IgnoresLines (add8 a b cin) := flags_ignoresLines _ _

theorem add16_ignoresLines (a b : Word) : IgnoresLines (add16 a b) := flags_ignoresLines _ _

theorem sub16_ignoresLines (a b : Word) : IgnoresLines (sub16 a b) := flags_ignoresLines _ _

theorem sub8_ignoresLines (a b : Byte) (cin : Bool) : IgnoresLines (sub8 a b cin) :=
  undefinedH_ignoresLines (fun c h => c.sub8 a b cin h) _

theorem asr8_ignoresLines (a : Byte) : IgnoresLines (asr8 a) := undefinedH_ignoresLines (fun c h => c.asr8 a h) _

theorem asl8_ignoresLines (a : Byte) : IgnoresLines (asl8 a) := undefinedH_ignoresLines (fun c h => c.asl8 a h) _

theorem neg8_ignoresLines (a : Byte) : IgnoresLines (neg8 a) := undefinedH_ignoresLines (fun c h => c.neg8 a h) _

theorem lsr8_ignoresLines (a : Byte) : IgnoresLines (lsr8 a) := flags_ignoresLines _ _

theorem rol8_ignoresLines (a : Byte) : IgnoresLines (rol8 a) := .of_bind getCC_ignoresLines fun _ => flags_ignoresLines _ _

theorem ror8_ignoresLines (a : Byte) : IgnoresLines (ror8 a) := .of_bind getCC_ignoresLines fun _ => flags_ignoresLines _ _

theorem inc8_ignoresLines (a : Byte) : IgnoresLines (inc8 a) := flags_ignoresLines _ _

theorem dec8_ignoresLines (a : Byte) : IgnoresLines (dec8 a) := flags_ignoresLines _ _

theorem clr8_ignoresLines (a : Byte) : IgnoresLines (clr8 a) := flags_ignoresLines _ _

theorem com8_ignoresLines (a : Byte) : IgnoresLines (com8 a) := flags_ignoresLines _ _

theorem tst8_ignoresLines (a : Byte) : IgnoresLines (tst8 a) := modifyCC_ignoresLines _

/-! ## Add, subtract, compare, logic -/

section
variable (r : Acc) (src : Src8)

theorem addTo_ignoresLines : IgnoresLines (addTo r src) :=
  .of_bind (operand8_ignoresLines src) fun _ => .of_bind getRegs_ignoresLines fun _ =>
    .of_bind (add8_ignoresLines _ _ _) fun _ => modifyRegs_ignoresLines _

theorem addCarryTo_ignoresLines : IgnoresLines (addCarryTo r src) :=
  .of_bind (operand8_ignoresLines src) fun _ => .of_bind getRegs_ignoresLines fun _ =>
    .of_bind getCC_ignoresLines fun _ => .of_bind (add8_ignoresLines _ _ _) fun _ => modifyRegs_ignoresLines _

theorem subFrom_ignoresLines : IgnoresLines (subFrom r src) :=
  .of_bind (operand8_ignoresLines src) fun _ => .of_bind getRegs_ignoresLines fun _ =>
    .of_bind (sub8_ignoresLines _ _ _) fun _ => modifyRegs_ignoresLines _

theorem subBorrowFrom_ignoresLines : IgnoresLines (subBorrowFrom r src) :=
  .of_bind (operand8_ignoresLines src) fun _ => .of_bind getRegs_ignoresLines fun _ =>
    .of_bind getCC_ignoresLines fun _ => .of_bind (sub8_ignoresLines _ _ _) fun _ => modifyRegs_ignoresLines _

theorem compare8_ignoresLines : IgnoresLines (compare8 r src) :=
  .of_bind (operand8_ignoresLines src) fun _ => .of_bind getRegs_ignoresLines fun _ =>
    .of_bind (sub8_ignoresLines _ _ _) fun _ => .of_pure _

theorem logicInto_ignoresLines (op : Byte → Byte → Byte) : IgnoresLines (logicInto r op src) :=
  .of_bind (operand8_ignoresLines src) fun _ => .of_bind getRegs_ignoresLines fun _ =>
    .of_bind (modifyRegs_ignoresLines _) fun _ => modifyCC_ignoresLines _

theorem bitTest_ignoresLines : IgnoresLines (bitTest r src) :=
  .of_bind (operand8_ignoresLines src) fun _ => .of_bind getRegs_ignoresLines fun _ => modifyCC_ignoresLines _

end

section
variable (src : Src16)

theorem addToD_ignoresLines : IgnoresLines (addToD src) :=
  .of_bind (operand16_ignoresLines src) fun _ => .of_bind getRegs_ignoresLines fun _ =>
    .of_bind (add16_ignoresLines _ _) fun _ => modifyRegs_ignoresLines _

theorem subFromD_ignoresLines : IgnoresLines (subFromD src) :=
  .of_bind (operand16_ignoresLines src) fun _ => .of_bind getRegs_ignoresLines fun _ =>
    .of_bind (sub16_ignoresLines _ _) fun _ => modifyRegs_ignoresLines _

theorem compare16_ignoresLines (r : Reg16) : IgnoresLines (compare16 r src) :=
  .of_bind (operand16_ignoresLines src) fun _ => .of_bind getRegs_ignoresLines fun _ =>
    .of_bind (sub16_ignoresLines _ _) fun _ => .of_pure _

end

/-! ## Single-operand operations -/

theorem onAcc_ignoresLines {f : Byte → M Byte} (hf : ∀ a, IgnoresLines (f a)) (r : Acc) : IgnoresLines (onAcc f r) :=
  .of_bind getRegs_ignoresLines fun _ => .of_bind (hf _) fun _ => modifyRegs_ignoresLines _

theorem onMem_ignoresLines {f : Byte → M Byte} (hf : ∀ a, IgnoresLines (f a)) (m : Mem) : IgnoresLines (onMem f m) :=
  .of_bind (effectiveAddress_ignoresLines m) fun _ => .of_bind (read8_ignoresLines _) fun _ =>
    .of_bind (hf _) fun _ => write8_ignoresLines _ _

theorem clearMem_ignoresLines (m : Mem) : IgnoresLines (clearMem m) :=
  .of_bind (effectiveAddress_ignoresLines m) fun _ => .of_bind (clr8_ignoresLines 0) fun _ => write8_ignoresLines _ _

theorem testAcc_ignoresLines (r : Acc) : IgnoresLines (testAcc r) :=
  .of_bind getRegs_ignoresLines fun _ => tst8_ignoresLines _

theorem testMem_ignoresLines (m : Mem) : IgnoresLines (testMem m) :=
  .of_bind (effectiveAddress_ignoresLines m) fun _ => .of_bind (read8_ignoresLines _) fun _ => tst8_ignoresLines _

/-! ## Multiply, decimal adjust, sign extend, transfers -/

theorem mulAB_ignoresLines : IgnoresLines mulAB :=
  .of_bind getRegs_ignoresLines fun _ => .of_bind (modifyCC_ignoresLines _) fun _ => modifyRegs_ignoresLines _

theorem decimalAdjust_ignoresLines : IgnoresLines decimalAdjust :=
  .of_bind getRegs_ignoresLines fun _ => .of_bind (undefFlag_ignoresLines _) fun _ =>
    .of_bind (modifyRegs_ignoresLines _) fun _ => modifyCC_ignoresLines _

theorem signExtendB_ignoresLines : IgnoresLines signExtendB :=
  .of_bind (modifyRegs_ignoresLines _) fun _ => modifyRegs_ignoresLines _

theorem transfer_ignoresLines (src dst : Sel) : IgnoresLines (transfer src dst) :=
  .of_quiet (fun s _ => transfer_apply s src dst) (fun _ _ => rfl) fun _ => ⟨rfl, rfl, fun _ => rfl⟩

theorem exchange_ignoresLines (r1 r2 : Sel) : IgnoresLines (exchange r1 r2) :=
  .of_quiet (fun s _ => exchange_apply s r1 r2) (fun _ _ => rfl) fun _ => ⟨rfl, rfl, fun _ => rfl⟩

/-! ## The stacks -/

theorem push8_ignoresLines (k : Stk) (v : Byte) : IgnoresLines (push8 k v) :=
  .of_bind (modifyRegs_ignoresLines _) fun _ => .of_bind getRegs_ignoresLines fun _ => write8_ignoresLines _ v

theorem push16_ignoresLines (k : Stk) (v : Word) : IgnoresLines (push16 k v) :=
  .of_bind (modifyRegs_ignoresLines _) fun _ => .of_bind getRegs_ignoresLines fun _ => write16_ignoresLines _ v

theorem pull16_ignoresLines (k : Stk) : IgnoresLines (pull16 k) :=
  .of_bind getRegs_ignoresLines fun _ => .of_bind (read16_ignoresLines _) fun _ =>
    .of_bind (modifyRegs_ignoresLines _) fun _ => .of_pure _

theorem pushByteOf_ignoresLines (k : Stk) (m : Byte) (j : Nat) (f : Regs → Byte) :
    IgnoresLines (whenBit m j (getRegs >>= fun r => push8 k (f r))) :=
  .of_ite (.of_bind getRegs_ignoresLines fun _ => push8_ignoresLines k _) (.of_pure _)

theorem pushWordOf_ignoresLines (k : Stk) (m : Byte) (j : Nat) (f : Regs → Word) :
    IgnoresLines (whenBit m j (getRegs >>= fun r => push16 k (f r))) :=
  .of_ite (.of_bind getRegs_ignoresLines fun _ => push16_ignoresLines k _) (.of_pure _)

theorem pushMask_ignoresLines (k : Stk) (m : Byte) : IgnoresLines (pushMask k m) :=
  .of_bind (pushWordOf_ignoresLines k m 7 Regs.pc) fun _ =>
  .of_bind (pushWordOf_ignoresLines k m 6 fun r => r.reg16 (Stk.other k)) fun _ =>
  .of_bind (pushWordOf_ignoresLines k m 5 Regs.y) fun _ =>
  .of_bind (pushWordOf_ignoresLines k m 4 Regs.x) fun _ =>
  .of_bind (pushByteOf_ignoresLines k m 3 Regs.dp) fun _ =>
  .of_bind (pushByteOf_ignoresLines k m 2 Regs.b) fun _ =>
  .of_bind (pushByteOf_ignoresLines k m 1 Regs.a) fun _ =>
  pushByteOf_ignoresLines k m 0 fun r => CC.toByte r.cc

theorem pullMask_ignoresLines (k : Stk) (m : Byte) : IgnoresLines (pullMask k m) :=
  .of_quiet (fun _ q => pullMask_quiet q k m) (fun _ _ => rfl) fun _ => ⟨rfl, rfl, fun _ => rfl⟩

/-! ## Branches, calls and returns -/

theorem branch8_ignoresLines (cond : CC → Bool) (off : Byte) : IgnoresLines (branch8 cond off) :=
  .of_bind getRegs_ignoresLines fun _ => .of_ite (setPc_ignoresLines _) (.of_pure _)

theorem branch16_ignoresLines (cond : CC → Bool) (off : Word) : IgnoresLines (branch16 cond off) :=
  .of_bind getRegs_ignoresLines fun _ =>
    .of_ite (.of_bind (setPc_ignoresLines _) fun _ => addCycles_ignoresLines 1) (.of_pure _)

theorem branch16Always_ignoresLines (off : Word) : IgnoresLines (branch16Always off) := modifyRegs_ignoresLines _

theorem callTo_ignoresLines (target : Word) : IgnoresLines (callTo target) :=
  .of_bind getRegs_ignoresLines fun _ => .of_bind (push16_ignoresLines .s _) fun _ => setPc_ignoresLines target

theorem callRelative_ignoresLines (off : Word) : IgnoresLines (callRelative off) :=
  .of_bind getRegs_ignoresLines fun _ => callTo_ignoresLines _

theorem jumpTo_ignoresLines (m : Mem) : IgnoresLines (jumpTo m) :=
  .of_bind (effectiveAddress_ignoresLines m) fun _ => setPc_ignoresLines _

theorem callMem_ignoresLines (m : Mem) : IgnoresLines (callMem m) :=
  .of_bind (effectiveAddress_ignoresLines m) fun _ => callTo_ignoresLines _

theorem returnFromCall_ignoresLines : IgnoresLines returnFromCall :=
  .of_bind (pull16_ignoresLines .s) fun _ => setPc_ignoresLines _

/-! ## Software interrupts, CWAI and RTI -/

theorem pushFrame_ignoresLines (f : Frame) : IgnoresLines (pushFrame f) := by
  cases f with
  | entire => exact .of_bind (modifyCC_ignoresLines _) fun _ => pushEntire_eq ▸ pushMask_ignoresLines .s 0xFF
  | fast => exact .of_bind (modifyCC_ignoresLines _) fun _ => pushFast_eq ▸ pushMask_ignoresLines .s 0x81
  | stacked => exact .of_pure _

/-- An entry that acknowledges nobody runs no device's callback. -/
theorem takeException_ignoresLines {e : Entry} (he : e.ack = none) : IgnoresLines (takeException e) := by
  unfold takeException
  rw [he]
  exact .of_bind (pushFrame_ignoresLines _) fun _ => .of_bind (modifyCC_ignoresLines _) fun _ =>
    .of_bind (read16_ignoresLines _) fun _ => .of_bind (setPc_ignoresLines _) fun _ => .of_pure _

theorem clearAndWait_ignoresLines (mask : Byte) : IgnoresLines (clearAndWait mask) :=
  .of_bind (modifyCC_ignoresLines _) fun _ => .of_bind (pushFrame_ignoresLines .entire) fun _ => setWait_ignoresLines .cwai

/-- The E that RTI pulls, which says what else it pulls, is the same under other lines (47_interrupt_ops.md R545). -/
theorem returnFromException_ignoresLines : IgnoresLines returnFromException := by
  intro s q
  by_cases he : (CC.ofByte (s.backing s.regs.s)).e = true
  · exact ⟨_, _, (returnFromException_quiet q).trans (if_pos he), rfl, rfl, fun l =>
      (returnFromException_quiet (q.withLines l)).trans (if_pos he)⟩
  · exact ⟨_, _, (returnFromException_quiet q).trans (if_neg he), rfl, rfl, fun l =>
      (returnFromException_quiet (q.withLines l)).trans (if_neg he)⟩

/-! ## Every instruction -/

/-- The instruction has a body that ignores the request lines: opcode 0x3E where it is a no-op, every other one on any
machine. -/
def BodyIgnoresLines (i : Instr) : Prop :=
  ∃ body : M Unit, IgnoresLines body ∧
    ∀ s : State, (i = .reset → s.cfg.resetOp = .nop) → exec i s = instruction i body s

theorem BodyIgnoresLines.of_exec {i : Instr} {body : M Unit} (hb : IgnoresLines body)
    (he : ∀ s, exec i s = instruction i body s) : BodyIgnoresLines i :=
  ⟨body, hb, fun s _ => he s⟩

theorem exec_reset_nop {s : State} (h : s.cfg.resetOp = .nop) : exec .reset s = instruction .reset (addCycles 2) s := by
  rw [exec, execReset, h]

theorem bodyIgnoresLines (i : Instr) : BodyIgnoresLines i := by
  cases i with
  | lda src | ldb src => exact .of_exec (load8_ignoresLines _ src) fun _ => rfl
  | ldd src | ldx src | ldy src | ldu src | lds src => exact .of_exec (load16_ignoresLines _ src) fun _ => rfl
  | sta m | stb m => exact .of_exec (store8_ignoresLines _ m) fun _ => rfl
  | std m | stx m | sty m | stu m | sts m => exact .of_exec (store16_ignoresLines _ m) fun _ => rfl
  | leax x | leay x => exact .of_exec (leaZ_ignoresLines _ x) fun _ => rfl
  | leas x | leau x => exact .of_exec (lea_ignoresLines _ x) fun _ => rfl
  | adda src | addb src => exact .of_exec (addTo_ignoresLines _ src) fun _ => rfl
  | adca src | adcb src => exact .of_exec (addCarryTo_ignoresLines _ src) fun _ => rfl
  | addd src => exact .of_exec (addToD_ignoresLines src) fun _ => rfl
  | suba src | subb src => exact .of_exec (subFrom_ignoresLines _ src) fun _ => rfl
  | sbca src | sbcb src => exact .of_exec (subBorrowFrom_ignoresLines _ src) fun _ => rfl
  | subd src => exact .of_exec (subFromD_ignoresLines src) fun _ => rfl
  | cmpa src | cmpb src => exact .of_exec (compare8_ignoresLines _ src) fun _ => rfl
  | cmpd src | cmpx src | cmpy src | cmpu src | cmps src => exact .of_exec (compare16_ignoresLines src _) fun _ => rfl
  | anda src | andb src | ora src | orb src | eora src | eorb src =>
    exact .of_exec (logicInto_ignoresLines _ src _) fun _ => rfl
  | bita src | bitb src => exact .of_exec (bitTest_ignoresLines _ src) fun _ => rfl
  | andcc mask => exact .of_exec (modifyCC_ignoresLines _) fun s => exec_andcc_eq s mask
  | orcc mask => exact .of_exec (modifyCC_ignoresLines _) fun s => exec_orcc_eq s mask
  | asra | asrb => exact .of_exec (onAcc_ignoresLines asr8_ignoresLines _) fun _ => rfl
  | lsra | lsrb => exact .of_exec (onAcc_ignoresLines lsr8_ignoresLines _) fun _ => rfl
  | asla | aslb => exact .of_exec (onAcc_ignoresLines asl8_ignoresLines _) fun _ => rfl
  | rola | rolb => exact .of_exec (onAcc_ignoresLines rol8_ignoresLines _) fun _ => rfl
  | rora | rorb => exact .of_exec (onAcc_ignoresLines ror8_ignoresLines _) fun _ => rfl
  | inca | incb => exact .of_exec (onAcc_ignoresLines inc8_ignoresLines _) fun _ => rfl
  | deca | decb => exact .of_exec (onAcc_ignoresLines dec8_ignoresLines _) fun _ => rfl
  | nega | negb => exact .of_exec (onAcc_ignoresLines neg8_ignoresLines _) fun _ => rfl
  | clra | clrb => exact .of_exec (onAcc_ignoresLines clr8_ignoresLines _) fun _ => rfl
  | coma | comb => exact .of_exec (onAcc_ignoresLines com8_ignoresLines _) fun _ => rfl
  | tsta | tstb => exact .of_exec (testAcc_ignoresLines _) fun _ => rfl
  | asr m => exact .of_exec (onMem_ignoresLines asr8_ignoresLines m) fun _ => rfl
  | lsr m => exact .of_exec (onMem_ignoresLines lsr8_ignoresLines m) fun _ => rfl
  | asl m => exact .of_exec (onMem_ignoresLines asl8_ignoresLines m) fun _ => rfl
  | rol m => exact .of_exec (onMem_ignoresLines rol8_ignoresLines m) fun _ => rfl
  | ror m => exact .of_exec (onMem_ignoresLines ror8_ignoresLines m) fun _ => rfl
  | inc m => exact .of_exec (onMem_ignoresLines inc8_ignoresLines m) fun _ => rfl
  | dec m => exact .of_exec (onMem_ignoresLines dec8_ignoresLines m) fun _ => rfl
  | neg m => exact .of_exec (onMem_ignoresLines neg8_ignoresLines m) fun _ => rfl
  | com m => exact .of_exec (onMem_ignoresLines com8_ignoresLines m) fun _ => rfl
  | clr m => exact .of_exec (clearMem_ignoresLines m) fun _ => rfl
  | tst m => exact .of_exec (testMem_ignoresLines m) fun _ => rfl
  | mul => exact .of_exec mulAB_ignoresLines fun _ => rfl
  | daa => exact .of_exec decimalAdjust_ignoresLines fun _ => rfl
  | sex => exact .of_exec signExtendB_ignoresLines fun _ => rfl
  | abx => exact .of_exec (modifyRegs_ignoresLines fun r => { r with x := r.x + zext8 r.b }) fun _ => rfl
  | tfr src dst => exact .of_exec (transfer_ignoresLines src dst) fun _ => rfl
  | exg r1 r2 => exact .of_exec (exchange_ignoresLines r1 r2) fun _ => rfl
  | nop | lbrn off => exact .of_exec (.of_pure ⟨⟩) fun _ => rfl
  | bra off => exact .of_exec (branch8_ignoresLines (fun _ => true) off) fun _ => rfl
  | brn off => exact .of_exec (branch8_ignoresLines (fun _ => false) off) fun _ => rfl
  | bhi off | bls off | bcc off | bcs off | bne off | beq off | bvc off | bvs off | bpl off | bmi off | bge off
  | blt off | bgt off | ble off => exact .of_exec (branch8_ignoresLines _ off) fun _ => rfl
  | lbra off => exact .of_exec (branch16Always_ignoresLines off) fun _ => rfl
  | lbhi off | lbls off | lbcc off | lbcs off | lbne off | lbeq off | lbvc off | lbvs off | lbpl off | lbmi off | lbge off
  | lblt off | lbgt off | lble off => exact .of_exec (branch16_ignoresLines _ off) fun _ => rfl
  | bsr off | lbsr off => exact .of_exec (callRelative_ignoresLines _) fun _ => rfl
  | jmp m => exact .of_exec (jumpTo_ignoresLines m) fun _ => rfl
  | jsr m => exact .of_exec (callMem_ignoresLines m) fun _ => rfl
  | rts => exact .of_exec returnFromCall_ignoresLines fun _ => rfl
  | pshs mask | pshu mask => exact .of_exec (pushMask_ignoresLines _ mask) fun _ => rfl
  | puls mask | pulu mask => exact .of_exec (pullMask_ignoresLines _ mask) fun _ => rfl
  | swi => exact .of_exec (takeException_ignoresLines (e := swiEntry) rfl) fun _ => rfl
  | swi2 => exact .of_exec (takeException_ignoresLines (e := swi2Entry) rfl) fun _ => rfl
  | swi3 => exact .of_exec (takeException_ignoresLines (e := swi3Entry) rfl) fun _ => rfl
  | cwai mask => exact .of_exec (clearAndWait_ignoresLines mask) fun _ => rfl
  | sync => exact .of_exec (setWait_ignoresLines .sync) fun _ => rfl
  | rti => exact .of_exec returnFromException_ignoresLines fun _ => rfl
  | reset => exact ⟨addCycles 2, addCycles_ignoresLines 2, fun _ h => exec_reset_nop (h rfl)⟩

/-! ## Pending requests (60_exceptions.md R612) -/

theorem State.nmiPending_iff (s : State) : s.nmiPending = true ↔ s.lines.nmiLatch = true ∧ s.nmiArmed = true := by
  rw [State.nmiPending, Bool.and_eq_true]

theorem State.firqPending_iff (s : State) : s.firqPending = true ↔ s.lines.firq = true ∧ s.regs.cc.f = false := by
  rw [State.firqPending, Bool.and_eq_true, Bool.not_eq_true']

theorem State.irqPending_iff (s : State) : s.irqPending = true ↔ s.lines.irq = true ∧ s.regs.cc.i = false := by
  rw [State.irqPending, Bool.and_eq_true, Bool.not_eq_true']

/-- Settles O46: every instruction has a body that ignores the request lines (`bodyIgnoresLines`), and its cost, added after
the body, does not depend on them. -/
theorem interruptMasking : Obligations.InterruptMasking := by
  intro s
  refine ⟨s.nmiPending_iff, s.firqPending_iff, s.irqPending_iff, fun i t q hnop hexec => ?_⟩
  obtain ⟨body, hbody, hrun⟩ := bodyIgnoresLines i
  obtain ⟨⟨⟩, u, hu, -, hlines, hother⟩ := hbody s q
  rw [hrun s hnop, instruction_ok hu] at hexec
  obtain rfl := Host.Outcome.next.inj hexec
  exact ⟨hlines, fun l => (hrun (s.withLines l) hnop).trans (instruction_ok (hother l))⟩

end Sys2Proof.Machine

/-! SUPPORT. Decoding and encoding undo each other (30_encoding.md): operand by operand, then row by row of the opcode table. -/

namespace Sys2Proof

/-! ## Register selectors (30_encoding.md R160) -/

theorem selOf_nibble {r : Sel} (h : r.wf = true) : selOf r.nibble = r := by
  cases r with
  | sink n =>
    simp only [Sel.wf, Bool.or_eq_true, beq_iff_eq] at h
    obtain ((((rfl | rfl) | rfl) | rfl) | rfl) | rfl := h <;> rfl
  | _ => rfl

theorem selOf_wf (n : BitVec 4) : (selOf n).wf = true := by
  obtain ⟨k⟩ := n
  fin_cases k <;> rfl

theorem nibble_selOf (n : BitVec 4) : (selOf n).nibble = n := by
  obtain ⟨k⟩ := n
  fin_cases k <;> rfl

theorem highNibble_append (h l : BitVec 4) : highNibble (h ++ l) = h := by
  revert h l
  decide

theorem lowNibble_append (h l : BitVec 4) : lowNibble (h ++ l) = l := by
  revert h l
  decide

theorem highNibble_append_lowNibble (b : Byte) : highNibble b ++ lowNibble b = b := by
  revert b
  decide

/-! ## The post-byte (30_encoding.md R139) -/

/-- The post-byte of a 5-bit offset. -/
def off5Byte (rr : BitVec 2) (n : BitVec 5) : Byte := (0#1 ++ rr) ++ n

/-- The post-byte of a sub-mode. -/
def modeByte (rr : BitVec 2) (ind : Bool) (m : BitVec 4) : Byte := ((1#1 ++ rr) ++ BitVec.ofBool ind) ++ m

theorem Idx.bytes_off5 (r : IdxReg) (n : BitVec 5) : (Idx.off5 r n).bytes = [off5Byte r.code n] := rfl

theorem Idx.bytes_mode (r : IdxReg) (ind : Bool) (m : IdxMode) :
    (Idx.mode r ind m).bytes = modeByte r.code ind m.code :: m.offsetBytes := rfl

theorem off5Byte_fields : ∀ (rr : BitVec 2) (n : BitVec 5),
    (off5Byte rr n).getLsbD 7 = false ∧ (off5Byte rr n).extractLsb' 5 2 = rr ∧ (off5Byte rr n).extractLsb' 0 5 = n := by
  decide

theorem modeByte_fields : ∀ (rr : BitVec 2) (ind : Bool) (m : BitVec 4),
    (modeByte rr ind m).getLsbD 7 = true ∧ (modeByte rr ind m).extractLsb' 5 2 = rr ∧
      (modeByte rr ind m).getLsbD 4 = ind ∧ lowNibble (modeByte rr ind m) = m := by
  decide

/-- A post-byte is that of a 5-bit offset or of a sub-mode, by its bit 7. -/
theorem postByte_cases : ∀ pb : Byte,
    (pb.getLsbD 7 = false → off5Byte (pb.extractLsb' 5 2) (pb.extractLsb' 0 5) = pb) ∧
      (pb.getLsbD 7 = true → modeByte (pb.extractLsb' 5 2) (pb.getLsbD 4) (lowNibble pb) = pb) := by
  decide

@[simp] theorem idxRegOf_code (r : IdxReg) : idxRegOf r.code = r := by cases r <;> rfl

@[simp] theorem code_idxRegOf (rr : BitVec 2) : (idxRegOf rr).code = rr := by
  obtain ⟨k⟩ := rr
  fin_cases k <;> rfl

@[simp] theorem code_idxModeOf (m : BitVec 4) (n8 : Byte) (n16 : Word) : (idxModeOf m n8 n16).code = m := by
  obtain ⟨k⟩ := m
  fin_cases k <;> rfl

theorem idxModeOf_wf (m : BitVec 4) (n8 : Byte) (n16 : Word) : (idxModeOf m n8 n16).wf = true := by
  obtain ⟨k⟩ := m
  fin_cases k <;> rfl

/-! ## Indexed operands (30_encoding.md R139 to R143) -/

/-- The offset bytes a sub-mode's code asks for (R140, R143). -/
def modeOffset (m : BitVec 4) : Offset :=
  match m.toNat with
  | 0x8 | 0xC => .byte
  | 0x9 | 0xD | 0xF => .word
  | _ => .none

theorem offsetOf_modeByte (rr : BitVec 2) (ind : Bool) (m : BitVec 4) : offsetOf (modeByte rr ind m) = modeOffset m := by
  obtain ⟨h7, -, -, hm⟩ := modeByte_fields rr ind m
  rw [offsetOf, if_pos h7, hm]
  rfl

theorem offsetOf_off5Byte (rr : BitVec 2) (n : BitVec 5) : offsetOf (off5Byte rr n) = .none := by
  rw [offsetOf, (off5Byte_fields rr n).1]
  rfl

theorem idxOf_modeByte (rr : BitVec 2) (ind : Bool) (m : BitVec 4) (n8 : Byte) (n16 : Word) :
    idxOf (modeByte rr ind m) n8 n16 = .mode (idxRegOf rr) ind (idxModeOf m n8 n16) := by
  obtain ⟨h7, hr, hi, hm⟩ := modeByte_fields rr ind m
  rw [idxOf, if_pos h7, hr, hi, hm]

theorem idxOf_off5Byte (rr : BitVec 2) (n : BitVec 5) (n8 : Byte) (n16 : Word) :
    idxOf (off5Byte rr n) n8 n16 = .off5 (idxRegOf rr) n := by
  obtain ⟨h7, hr, hn⟩ := off5Byte_fields rr n
  rw [idxOf, h7, hr, hn]
  rfl

theorem decodeIdx_off5Byte (rr : BitVec 2) (n : BitVec 5) (bs : List Byte) :
    decodeIdx (off5Byte rr n :: bs) = some (.off5 (idxRegOf rr) n, bs) := by
  simp only [decodeIdx, offsetOf_off5Byte, idxOf_off5Byte]

/-- A sub-mode by its code and its offset, of no byte, one or two. -/
theorem decodeIdx_modeByte (rr : BitVec 2) (ind : Bool) (m : BitVec 4) (bs : List Byte) :
    decodeIdx (modeByte rr ind m :: bs) =
      match modeOffset m, bs with
      | .none, bs => some (.mode (idxRegOf rr) ind (idxModeOf m 0 0), bs)
      | .byte, n :: bs => some (.mode (idxRegOf rr) ind (idxModeOf m n 0), bs)
      | .word, hi :: lo :: bs => some (.mode (idxRegOf rr) ind (idxModeOf m 0 (wordOf hi lo)), bs)
      | _, _ => none := by
  simp only [decodeIdx, offsetOf_modeByte, idxOf_modeByte]
  rcases modeOffset m <;> rcases bs with _ | ⟨a, _ | ⟨b, bs⟩⟩ <;> rfl

theorem decodeIdx_bytes {x : Idx} (h : x.wf = true) (rest : List Byte) : decodeIdx (x.bytes ++ rest) = some (x, rest) := by
  cases x with
  | off5 r n =>
    rw [Idx.bytes_off5, List.singleton_append, decodeIdx_off5Byte, idxRegOf_code]
  | mode r ind m =>
    rw [Idx.bytes_mode, List.cons_append, decodeIdx_modeByte, idxRegOf_code]
    cases m with
    | off16 n | pcr16 n | extInd n =>
      exact congrArg (fun w => some (Idx.mode r ind (idxModeOf _ 0 w), rest)) (Machine.wordOf_high_low n)
    | reserved c =>
      simp only [Idx.wf, IdxMode.wf, Bool.or_eq_true, beq_iff_eq] at h
      obtain (rfl | rfl) | rfl := h <;> rfl
    | _ => rfl

/-- The offset bytes of the sub-mode that a code and its offset make. -/
theorem offsetBytes_idxModeOf (m : BitVec 4) (n8 : Byte) (n16 : Word) :
    (idxModeOf m n8 n16).offsetBytes =
      match modeOffset m with
      | .none => []
      | .byte => [n8]
      | .word => [highByte n16, lowByte n16] := by
  obtain ⟨k⟩ := m
  fin_cases k <;> rfl

theorem bytes_of_decodeIdx {bs rest : List Byte} {x : Idx} (h : decodeIdx bs = some (x, rest)) :
    x.wf = true ∧ bs = x.bytes ++ rest := by
  cases bs with
  | nil => cases h
  | cons pb bs =>
    cases h7 : pb.getLsbD 7 with
    | false =>
      rw [← (postByte_cases pb).1 h7] at h ⊢
      rw [decodeIdx_off5Byte] at h
      cases h
      exact ⟨rfl, by rw [Idx.bytes_off5, code_idxRegOf]; rfl⟩
    | true =>
      rw [← (postByte_cases pb).2 h7] at h ⊢
      generalize lowNibble pb = m at *
      rw [decodeIdx_modeByte] at h
      split at h <;> cases h
      all_goals
        refine ⟨idxModeOf_wf _ _ _, ?_⟩
        rw [Idx.bytes_mode, offsetBytes_idxModeOf, code_idxRegOf, code_idxModeOf]
        simp only [*, Machine.highByte_wordOf, Machine.lowByte_wordOf]
        rfl

end Sys2Proof

/-! SUPPORT. The rows of the opcode table: each is found under its number, and makes of some bytes the instruction whose
encoding they are (30_encoding.md R132 to R139, R166 to R168). -/

namespace Sys2Proof

/-! ## Rows found under their numbers -/

/-- The table gives these rows under their numbers. -/
def RowsFound (rows : List (Nat × Form)) : Prop := ∀ r ∈ rows, formOf r.1 = some r.2

/-- The table gives this instruction for its opcode number and operand bytes. -/
def Decodes (i : Instr) : Prop := ∀ rest, decodeOp (opcodeOf i) (operandBytes i ++ rest) = some (i, rest)

theorem decodeOp_inh {op : Nat} {i : Instr} (h : formOf op = some (.inh i)) (rest : List Byte) :
    decodeOp op rest = some (i, rest) := by
  rw [decodeOp, h]
  rfl

theorem decodeOp_byte {op : Nat} {f : Byte → Instr} (h : formOf op = some (.byte f)) (b : Byte) (rest : List Byte) :
    decodeOp op ([b] ++ rest) = some (f b, rest) := by
  rw [decodeOp, h]
  rfl

theorem decodeOp_word {op : Nat} {f : Word → Instr} (h : formOf op = some (.word f)) (w : Word) (rest : List Byte) :
    decodeOp op ([highByte w, lowByte w] ++ rest) = some (f w, rest) := by
  rw [decodeOp, h]
  exact congrArg (fun w => some (f w, rest)) (Machine.wordOf_high_low w)

theorem decodeOp_idx {op : Nat} {f : Idx → Instr} (h : formOf op = some (.idx f)) {x : Idx} (hx : x.wf = true)
    (rest : List Byte) : decodeOp op (x.bytes ++ rest) = some (f x, rest) := by
  rw [decodeOp, h, Option.bind_some, decodeForm, decodeIdx_bytes hx, Option.map_some]

theorem decodeOp_src8 {op : Nat} {f : Src8 → Instr} (h : RowsFound (src8Rows op f)) {src : Src8} (hw : src.wf = true)
    (rest : List Byte) : decodeOp (op + src.column) (src.bytes ++ rest) = some (f src, rest) := by
  simp only [RowsFound, src8Rows, List.forall_mem_cons] at h
  obtain ⟨himm, hdir, hidx, hext, -⟩ := h
  match src with
  | .imm v => exact decodeOp_byte himm v rest
  | .mem (.dir b) => exact decodeOp_byte hdir b rest
  | .mem (.idx x) => exact decodeOp_idx hidx hw rest
  | .mem (.ext w) => exact decodeOp_word hext w rest

theorem decodeOp_src16 {op : Nat} {f : Src16 → Instr} (h : RowsFound (src16Rows op f)) {src : Src16} (hw : src.wf = true)
    (rest : List Byte) : decodeOp (op + src.column) (src.bytes ++ rest) = some (f src, rest) := by
  simp only [RowsFound, src16Rows, List.forall_mem_cons] at h
  obtain ⟨himm, hdir, hidx, hext, -⟩ := h
  match src with
  | .imm v => exact decodeOp_word himm v rest
  | .mem (.dir b) => exact decodeOp_byte hdir b rest
  | .mem (.idx x) => exact decodeOp_idx hidx hw rest
  | .mem (.ext w) => exact decodeOp_word hext w rest

theorem decodeOp_rmw {op : Nat} {f : Mem → Instr} (h : RowsFound (rmwRows op f)) {m : Mem} (hw : m.wf = true)
    (rest : List Byte) : decodeOp (op + m.rmwColumn) (m.bytes ++ rest) = some (f m, rest) := by
  simp only [RowsFound, rmwRows, List.forall_mem_cons] at h
  obtain ⟨hdir, hidx, hext, -⟩ := h
  match m with
  | .dir b => exact decodeOp_byte hdir b rest
  | .idx x => exact decodeOp_idx hidx hw rest
  | .ext w => exact decodeOp_word hext w rest

theorem decodeOp_store {op : Nat} {f : Mem → Instr} (h : RowsFound (storeRows op f)) {m : Mem} (hw : m.wf = true)
    (rest : List Byte) : decodeOp (op + m.storeColumn) (m.bytes ++ rest) = some (f m, rest) := by
  simp only [RowsFound, storeRows, List.forall_mem_cons] at h
  obtain ⟨hdir, hidx, hext, -⟩ := h
  match m with
  | .dir b => exact decodeOp_byte hdir b rest
  | .idx x => exact decodeOp_idx hidx hw rest
  | .ext w => exact decodeOp_word hext w rest

/-- The selectors of a well-formed TFR or EXG are those of its operand byte (30_encoding.md R160). -/
theorem decodeOp_selectors {op : Nat} {f : Sel → Sel → Instr}
    (h : formOf op = some (.byte fun pb => f (selOf (highNibble pb)) (selOf (lowNibble pb)))) {r1 r2 : Sel}
    (hw : (r1.wf && r2.wf) = true) (rest : List Byte) :
    decodeOp op ([r1.nibble ++ r2.nibble] ++ rest) = some (f r1 r2, rest) := by
  obtain ⟨h1, h2⟩ := Bool.and_eq_true_iff.1 hw
  rw [decodeOp_byte h, highNibble_append, lowNibble_append, selOf_nibble h1, selOf_nibble h2]

theorem rowsFound_four {a b c d : Nat × Form} (h : formOf a.1 = some a.2 ∧ formOf b.1 = some b.2 ∧ formOf c.1 = some c.2 ∧
    formOf d.1 = some d.2) : RowsFound [a, b, c, d] := by
  simpa only [RowsFound, List.forall_mem_cons, List.not_mem_nil, false_imp_iff, implies_true, and_true] using h

theorem rowsFound_three {a b c : Nat × Form} (h : formOf a.1 = some a.2 ∧ formOf b.1 = some b.2 ∧ formOf c.1 = some c.2) :
    RowsFound [a, b, c] := by
  simpa only [RowsFound, List.forall_mem_cons, List.not_mem_nil, false_imp_iff, implies_true, and_true] using h

/-- Every well-formed instruction has a row, under its opcode number. -/
theorem decodes_of_wf {i : Instr} (hw : i.wf = true) : Decodes i := by
  intro rest
  cases i with
  | lda src | ldb src | adda src | addb src | adca src | adcb src | suba src | subb src | sbca src | sbcb src | cmpa src
  | cmpb src | anda src | andb src | ora src | orb src | eora src | eorb src | bita src | bitb src =>
    exact decodeOp_src8 (rowsFound_four ⟨rfl, rfl, rfl, rfl⟩) hw rest
  | ldd src | ldx src | ldy src | ldu src | lds src | addd src | subd src | cmpd src | cmpx src | cmpy src | cmpu src
  | cmps src => exact decodeOp_src16 (rowsFound_four ⟨rfl, rfl, rfl, rfl⟩) hw rest
  | sta m | stb m | std m | stx m | sty m | stu m | sts m | jsr m =>
    exact decodeOp_store (rowsFound_three ⟨rfl, rfl, rfl⟩) hw rest
  | asr m | lsr m | asl m | rol m | ror m | inc m | dec m | neg m | clr m | com m | tst m | jmp m =>
    exact decodeOp_rmw (rowsFound_three ⟨rfl, rfl, rfl⟩) hw rest
  | leax x | leay x | leas x | leau x => exact decodeOp_idx rfl hw rest
  | tfr r1 r2 | exg r1 r2 => exact decodeOp_selectors rfl hw rest
  | andcc b | orcc b | bra b | brn b | bhi b | bls b | bcc b | bcs b | bne b | beq b | bvc b | bvs b | bpl b | bmi b
  | bge b | blt b | bgt b | ble b | bsr b | pshs b | puls b | pshu b | pulu b | cwai b => exact decodeOp_byte rfl b rest
  | lbra w | lbrn w | lbhi w | lbls w | lbcc w | lbcs w | lbne w | lbeq w | lbvc w | lbvs w | lbpl w | lbmi w | lbge w
  | lblt w | lbgt w | lble w | lbsr w => exact decodeOp_word rfl w rest
  | _ => exact decodeOp_inh rfl rest

end Sys2Proof

namespace Sys2Proof

/-! ## Opcode numbers (30_encoding.md R130) -/

/-- The number is that of an opcode byte that is no page byte, or of a page byte and the byte after it. -/
abbrev IsOpcode (op : Nat) : Prop := op < 0x100 ∧ op ≠ 0x10 ∧ op ≠ 0x11 ∨ op / 0x100 = 0x10 ∨ op / 0x100 = 0x11

theorem isPrefix_iff (b : Byte) : isPrefix b = true ↔ b.toNat = 0x10 ∨ b.toNat = 0x11 := by
  simp only [isPrefix, Bool.or_eq_true, beq_iff_eq, BitVec.toNat_eq]
  rfl

theorem decode_single {b : Byte} (h : isPrefix b = false) (bs : List Byte) : decode (b :: bs) = decodeOp b.toNat bs := by
  simp [decode, h]

theorem decode_paged {b : Byte} (h : isPrefix b = true) (b1 : Byte) (bs : List Byte) :
    decode (b :: b1 :: bs) = decodeOp (pagedOpcode b b1) bs := by
  simp [decode, h]

/-- The opcode bytes are one byte that is no prefix, or a prefix and the byte after it. -/
theorem opcodeBytes_cases {op : Nat} (h : IsOpcode op) :
    (∃ b, opcodeBytes op = [b] ∧ isPrefix b = false ∧ b.toNat = op) ∨
      ∃ p b, opcodeBytes op = [p, b] ∧ isPrefix p = true ∧ pagedOpcode p b = op := by
  by_cases hop : op < 0x100
  · have hb : (BitVec.ofNat 8 op).toNat = op := Nat.mod_eq_of_lt hop
    refine .inl ⟨_, if_pos hop, ?_, hb⟩
    rw [Bool.eq_false_iff, ne_eq, isPrefix_iff, hb]
    omega
  · have hb : (BitVec.ofNat 8 (op / 0x100)).toNat = op / 0x100 := Nat.mod_eq_of_lt (by omega)
    refine .inr ⟨_, _, if_neg hop, ?_, ?_⟩
    · rw [isPrefix_iff, hb]
      omega
    · rw [pagedOpcode, hb, BitVec.toNat_ofNat]
      omega

theorem decode_opcodeBytes {op : Nat} (h : IsOpcode op) (bs : List Byte) :
    decode (opcodeBytes op ++ bs) = decodeOp op bs := by
  rcases opcodeBytes_cases h with ⟨b, he, hp, rfl⟩ | ⟨p, b, he, hp, rfl⟩
  · rw [he, List.singleton_append, decode_single hp]
  · rw [he, List.cons_append, List.singleton_append, decode_paged hp]

/-- What decodes has an opcode number, of one byte or two, and its operand bytes (30_encoding.md R130, R133). -/
theorem decode_eq_some {bytes rest : List Byte} {i : Instr} (h : decode bytes = some (i, rest)) :
    ∃ op bs, IsOpcode op ∧ bytes = opcodeBytes op ++ bs ∧ decodeOp op bs = some (i, rest) := by
  match bytes with
  | [] => cases h
  | b :: bs =>
    cases hp : isPrefix b with
    | true =>
      have hb := (isPrefix_iff b).1 hp
      match bs with
      | [] => simp [decode, hp] at h
      | b1 :: bs =>
        rw [decode_paged hp] at h
        have hb1 := b1.isLt
        have hop : pagedOpcode b b1 / 0x100 = b.toNat := by
          rw [pagedOpcode]
          omega
        have hlo : BitVec.ofNat 8 (pagedOpcode b b1) = b1 := by
          apply BitVec.eq_of_toNat_eq
          rw [BitVec.toNat_ofNat, pagedOpcode]
          omega
        refine ⟨_, bs, .inr (hop ▸ hb), ?_, h⟩
        rw [opcodeBytes, if_neg (by omega), hop, hlo, BitVec.ofNat_toNat, BitVec.setWidth_eq]
        rfl
    | false =>
      have hb := mt (isPrefix_iff b).2 (Bool.eq_false_iff.1 hp)
      rw [decode_single hp] at h
      refine ⟨b.toNat, bs, .inl ⟨b.isLt, not_or.1 hb⟩, ?_, h⟩
      rw [opcodeBytes, if_pos b.isLt, BitVec.ofNat_toNat, BitVec.setWidth_eq]
      rfl

theorem findRow_mem {op : Nat} {f : Form} {rows : List (Nat × Form)} (h : findRow op rows = some f) : (op, f) ∈ rows := by
  induction rows with
  | nil => cases h
  | cons r rows ih =>
    obtain ⟨n, g⟩ := r
    rw [findRow] at h
    split at h
    · next hn =>
      cases h
      exact hn ▸ List.mem_cons_self
    · exact List.mem_cons_of_mem _ (ih h)

theorem formOf_mem {op : Nat} {f : Form} (h : formOf op = some f) : ∃ rows ∈ opFamilies, (op, f) ∈ rows := by
  obtain ⟨rows, hm, hr⟩ := List.exists_of_findSome?_eq_some h
  exact ⟨rows, hm, findRow_mem hr⟩

theorem rows_isOpcode : ∀ rows ∈ opFamilies, ∀ r ∈ rows, IsOpcode r.1 := by decide

theorem isOpcode_of_formOf {op : Nat} {f : Form} (h : formOf op = some f) : IsOpcode op := by
  obtain ⟨rows, hm, hr⟩ := formOf_mem h
  exact rows_isOpcode rows hm _ hr

theorem isOpcode_of_decodeOp {op : Nat} {bs : List Byte} {p : Instr × List Byte} (h : decodeOp op bs = some p) :
    IsOpcode op := by
  obtain ⟨f, hf, -⟩ := Option.bind_eq_some_iff.1 h
  exact isOpcode_of_formOf hf

/-- Settles O29: the opcode bytes give the opcode number back (`decode_opcodeBytes`), and the table's row under that number
gives the instruction back (`decodes_of_wf`). -/
theorem decodeOfEncode : Obligations.DecodeOfEncode := by
  intro i rest hw
  have hdec := decodes_of_wf hw rest
  rw [encode, List.append_assoc, decode_opcodeBytes (isOpcode_of_decodeOp hdec), hdec]

/-! ## Rows and their instructions -/

/-- Whatever the row makes of some bytes is well formed, has the row's opcode number, and has those bytes as its operand
bytes. -/
def RowSound (r : Nat × Form) : Prop :=
  ∀ bs i rest, decodeForm r.2 bs = some (i, rest) → i.wf = true ∧ opcodeOf i = r.1 ∧ bs = operandBytes i ++ rest

theorem rowSound_inh {op : Nat} {i : Instr} (h : i.wf = true ∧ opcodeOf i = op ∧ operandBytes i = []) :
    RowSound (op, .inh i) := by
  obtain ⟨hw, ho, hb⟩ := h
  intro bs j rest hd
  cases hd
  exact ⟨hw, ho, by rw [hb]; rfl⟩

theorem rowSound_byte {op : Nat} {f : Byte → Instr}
    (h : ∀ b, (f b).wf = true ∧ opcodeOf (f b) = op ∧ operandBytes (f b) = [b]) : RowSound (op, .byte f) := by
  intro bs i rest hd
  match bs with
  | [] => cases hd
  | b :: bs =>
    obtain ⟨hw, ho, hb⟩ := h b
    cases hd
    exact ⟨hw, ho, by rw [hb]; rfl⟩

theorem rowSound_word {op : Nat} {f : Word → Instr}
    (h : ∀ w, (f w).wf = true ∧ opcodeOf (f w) = op ∧ operandBytes (f w) = [highByte w, lowByte w]) :
    RowSound (op, .word f) := by
  intro bs i rest hd
  match bs with
  | [] => cases hd
  | [_] => cases hd
  | hi :: lo :: bs =>
    obtain ⟨hw, ho, hb⟩ := h (wordOf hi lo)
    cases hd
    exact ⟨hw, ho, by rw [hb, Machine.highByte_wordOf, Machine.lowByte_wordOf]; rfl⟩

theorem rowSound_idx {op : Nat} {f : Idx → Instr}
    (h : ∀ x, (f x).wf = x.wf ∧ opcodeOf (f x) = op ∧ operandBytes (f x) = x.bytes) : RowSound (op, .idx f) := by
  intro bs i rest hd
  obtain ⟨⟨x, rest'⟩, hx, he⟩ := Option.map_eq_some_iff.1 hd
  cases he
  obtain ⟨hw, ho, hb⟩ := h x
  obtain ⟨hxw, hbs⟩ := bytes_of_decodeIdx hx
  exact ⟨hw.trans hxw, ho, hb ▸ hbs⟩

theorem rowsSound_src8 {op : Nat} {f : Src8 → Instr}
    (h : ∀ src, (f src).wf = src.wf ∧ opcodeOf (f src) = op + src.column ∧ operandBytes (f src) = src.bytes) :
    ∀ r ∈ src8Rows op f, RowSound r := by
  simp only [src8Rows, List.forall_mem_cons, List.not_mem_nil, false_imp_iff, implies_true, and_true]
  exact ⟨rowSound_byte fun b => h (.imm b), rowSound_byte fun b => h (.mem (.dir b)),
    rowSound_idx fun x => h (.mem (.idx x)), rowSound_word fun w => h (.mem (.ext w))⟩

theorem rowsSound_src16 {op : Nat} {f : Src16 → Instr}
    (h : ∀ src, (f src).wf = src.wf ∧ opcodeOf (f src) = op + src.column ∧ operandBytes (f src) = src.bytes) :
    ∀ r ∈ src16Rows op f, RowSound r := by
  simp only [src16Rows, List.forall_mem_cons, List.not_mem_nil, false_imp_iff, implies_true, and_true]
  exact ⟨rowSound_word fun w => h (.imm w), rowSound_byte fun b => h (.mem (.dir b)),
    rowSound_idx fun x => h (.mem (.idx x)), rowSound_word fun w => h (.mem (.ext w))⟩

theorem rowsSound_rmw {op : Nat} {f : Mem → Instr}
    (h : ∀ m, (f m).wf = m.wf ∧ opcodeOf (f m) = op + m.rmwColumn ∧ operandBytes (f m) = m.bytes) :
    ∀ r ∈ rmwRows op f, RowSound r := by
  simp only [rmwRows, List.forall_mem_cons, List.not_mem_nil, false_imp_iff, implies_true, and_true]
  exact ⟨rowSound_byte fun b => h (.dir b), rowSound_idx fun x => h (.idx x), rowSound_word fun w => h (.ext w)⟩

theorem rowsSound_store {op : Nat} {f : Mem → Instr}
    (h : ∀ m, (f m).wf = m.wf ∧ opcodeOf (f m) = op + m.storeColumn ∧ operandBytes (f m) = m.bytes) :
    ∀ r ∈ storeRows op f, RowSound r := by
  simp only [storeRows, List.forall_mem_cons, List.not_mem_nil, false_imp_iff, implies_true, and_true]
  exact ⟨rowSound_byte fun b => h (.dir b), rowSound_idx fun x => h (.idx x), rowSound_word fun w => h (.ext w)⟩

theorem rowSound_selectors {op : Nat} {f : Sel → Sel → Instr}
    (h : ∀ r1 r2, (f r1 r2).wf = (r1.wf && r2.wf) ∧ opcodeOf (f r1 r2) = op ∧
      operandBytes (f r1 r2) = [r1.nibble ++ r2.nibble]) :
    RowSound (op, .byte fun pb => f (selOf (highNibble pb)) (selOf (lowNibble pb))) := by
  refine rowSound_byte fun pb => ?_
  obtain ⟨hw, ho, hb⟩ := h (selOf (highNibble pb)) (selOf (lowNibble pb))
  rw [hw, ho, hb, selOf_wf, selOf_wf, nibble_selOf, nibble_selOf, highNibble_append_lowNibble]
  exact ⟨rfl, rfl, rfl⟩

theorem rowsSrc8_sound : ∀ r ∈ rowsSrc8 ++ rowsSrc8Sub, RowSound r := by
  simp only [rowsSrc8, rowsSrc8Sub, List.mem_append, or_imp, forall_and, List.forall_mem_flatten, List.forall_mem_cons,
    List.not_mem_nil, false_imp_iff, implies_true, and_true]
  and_intros <;> exact rowsSound_src8 fun _ => ⟨rfl, rfl, rfl⟩

theorem rowsSrc16_sound : ∀ r ∈ rowsSrc16, RowSound r := by
  simp only [rowsSrc16, List.forall_mem_flatten, List.forall_mem_cons, List.not_mem_nil, false_imp_iff, implies_true, and_true]
  and_intros <;> exact rowsSound_src16 fun _ => ⟨rfl, rfl, rfl⟩

theorem rowsRmw_sound : ∀ r ∈ rowsRmw, RowSound r := by
  simp only [rowsRmw, List.forall_mem_flatten, List.forall_mem_cons, List.not_mem_nil, false_imp_iff, implies_true, and_true]
  and_intros <;> exact rowsSound_rmw fun _ => ⟨rfl, rfl, rfl⟩

theorem rowsStore_sound : ∀ r ∈ rowsStore, RowSound r := by
  simp only [rowsStore, List.forall_mem_flatten, List.forall_mem_cons, List.not_mem_nil, false_imp_iff, implies_true, and_true]
  and_intros <;> exact rowsSound_store fun _ => ⟨rfl, rfl, rfl⟩

theorem rowsInherent_sound : ∀ r ∈ rowsInherent, RowSound r := by
  simp only [rowsInherent, List.forall_mem_flatten, List.forall_mem_cons, List.not_mem_nil, false_imp_iff, implies_true,
    and_true]
  and_intros <;> exact rowSound_inh ⟨rfl, rfl, rfl⟩

theorem rowsByte_sound : ∀ r ∈ rowsByte, RowSound r := by
  simp only [rowsByte, List.forall_mem_flatten, List.forall_mem_cons, List.not_mem_nil, false_imp_iff, implies_true, and_true]
  refine ⟨?_, ?_, ?_, ?_, ?_, ?_, rowSound_selectors fun _ _ => ⟨rfl, rfl, rfl⟩, rowSound_selectors fun _ _ => ⟨rfl, rfl, rfl⟩⟩
  all_goals and_intros <;> exact rowSound_byte fun _ => ⟨rfl, rfl, rfl⟩

theorem rowsWord_sound : ∀ r ∈ rowsWord, RowSound r := by
  simp only [rowsWord, List.forall_mem_flatten, List.forall_mem_cons, List.not_mem_nil, false_imp_iff, implies_true, and_true]
  and_intros <;> exact rowSound_word fun _ => ⟨rfl, rfl, rfl⟩

theorem rowsIndexed_sound : ∀ r ∈ rowsIndexed, RowSound r := by
  simp only [rowsIndexed, List.forall_mem_flatten, List.forall_mem_cons, List.not_mem_nil, false_imp_iff, implies_true,
    and_true]
  and_intros <;> exact rowSound_idx fun _ => ⟨rfl, rfl, rfl⟩

theorem rows_sound : ∀ rows ∈ opFamilies, ∀ r ∈ rows, RowSound r := by
  have h8 := List.forall_mem_append.1 rowsSrc8_sound
  simp only [opFamilies, List.forall_mem_cons, List.not_mem_nil, false_imp_iff, implies_true, and_true]
  exact ⟨h8.1, h8.2, rowsSrc16_sound, rowsRmw_sound, rowsStore_sound, rowsInherent_sound, rowsByte_sound, rowsWord_sound,
    rowsIndexed_sound⟩

/-- Settles O30: the bytes are those of an opcode number (`decode_eq_some`) and the operand bytes of what the table's row
under that number makes of them (`rows_sound`). -/
theorem encodeOfDecode : Obligations.EncodeOfDecode := by
  intro bytes rest i h
  obtain ⟨op, bs, -, rfl, hop⟩ := decode_eq_some h
  obtain ⟨form, hf, hform⟩ := Option.bind_eq_some_iff.1 hop
  obtain ⟨rows, hm, hr⟩ := formOf_mem hf
  obtain ⟨hw, rfl, rfl⟩ := rows_sound rows hm _ hr bs i rest hform
  exact ⟨hw, by rw [encode, List.append_assoc]⟩

/-! ## The opcode numbers with no row (30_encoding.md R147) -/

/-- No bytes after the number make an instruction exactly where it has no row. -/
theorem absent_iff {op : Nat} (h : IsOpcode op) : (∀ rest, decode (opcodeBytes op ++ rest) = none) ↔ formOf op = none := by
  simp only [decode_opcodeBytes h, decodeOp]
  constructor
  · intro hn
    cases hf : formOf op with
    | none => rfl
    | some form =>
      have hz := hn [0, 0]
      rw [hf] at hz
      cases form <;> cases hz
  · intro hf rest
    rw [hf]
    rfl

end Sys2Proof

namespace Sys2Proof

/-- Page 0's numbers with no row. -/
def absentPage0 : List Nat :=
  [0x01, 0x02, 0x05, 0x0B, 0x14, 0x15, 0x18, 0x1B, 0x38, 0x41, 0x42, 0x45, 0x4B, 0x4E, 0x51, 0x52, 0x55, 0x5B,
    0x5E, 0x61, 0x62, 0x65, 0x6B, 0x71, 0x72, 0x75, 0x7B, 0x87, 0x8F, 0xC7, 0xCD, 0xCF]

/-- The numbers of page 0x10 with a row, the long branches apart. -/
def presentPage10 : List Nat :=
  [0x103F, 0x1083, 0x108C, 0x108E, 0x1093, 0x109C, 0x109E, 0x109F, 0x10A3, 0x10AC, 0x10AE, 0x10AF, 0x10B3,
    0x10BC, 0x10BE, 0x10BF, 0x10CE, 0x10DE, 0x10DF, 0x10EE, 0x10EF, 0x10FE, 0x10FF]

/-- The numbers of page 0x11 with a row. -/
def presentPage11 : List Nat := [0x113F, 0x1183, 0x118C, 0x1193, 0x119C, 0x11A3, 0x11AC, 0x11B3, 0x11BC]

theorem formOf_page0 : ∀ op < 0x100, op ≠ 0x10 → op ≠ 0x11 → ((formOf op).isNone = true ↔ op ∈ absentPage0) := by
  decide +kernel

theorem formOf_page10 : ∀ k < 0x100,
    ((formOf (0x1000 + k)).isNone = true ↔
      ¬((0x1021 ≤ 0x1000 + k ∧ 0x1000 + k ≤ 0x102F) ∨ 0x1000 + k ∈ presentPage10)) := by
  decide +kernel

theorem formOf_page11 : ∀ k < 0x100, ((formOf (0x1100 + k)).isNone = true ↔ 0x1100 + k ∉ presentPage11) := by
  decide +kernel

namespace Machine

/-! ## The fetch of an opcode (30_encoding.md R130, R133) -/

/-- What is fetched as an opcode is the number of one. -/
theorem isOpcode_of_fetchOpcode {s t : State} {op : Nat} (h : fetchOpcode s = .ok op t) : IsOpcode op := by
  rw [fetchOpcode, bind_apply] at h
  split at h
  · next b0 u _ =>
    cases hp : isPrefix b0 with
    | true =>
      rw [hp, if_pos rfl, bind_apply] at h
      split at h
      · next b1 v _ =>
        cases h
        have hb := (isPrefix_iff b0).1 hp
        have hb1 := b1.isLt
        right
        rw [pagedOpcode]
        omega
      · cases h
    | false =>
      rw [hp] at h
      cases h
      exact .inl ⟨b0.isLt, not_or.1 (mt (isPrefix_iff b0).2 (Bool.eq_false_iff.1 hp))⟩
  · cases h

theorem cpuStep_eq_executeOne {s : State} (hf : s.fault = none) (hw : s.wait = .none) (hp : s.pending = none) :
    cpuStep s = executeOne s := by
  simp only [cpuStep, hf, hw, serve, hp]

theorem executeOne_unknown {s t : State} {op : Nat} (ho : fetchOpcode s = .ok op t) (hn : formOf op = none) :
    executeOne s = unknownOpcode s.regs.pc op t := by
  simp only [executeOne, ho, hn]

/-- Settles O31: the absent numbers are those with no row (`absent_iff`), which a table look-up finds on each page. -/
theorem absentOpcodes : Obligations.AbsentOpcodes := by
  refine ⟨fun op h0 h1 h2 => ?page0, fun op h0 h1 => ?page10, fun op h0 h1 => ?page11, ?step⟩
  case page0 =>
    exact (absent_iff (.inl ⟨h0, h1, h2⟩)).trans (Option.isNone_iff_eq_none.symm.trans (formOf_page0 op h0 h1 h2))
  case page10 =>
    obtain ⟨k, rfl⟩ := Nat.exists_eq_add_of_le h0
    exact (absent_iff (op := 0x1000 + k) (.inr (by omega))).trans
      (Option.isNone_iff_eq_none.symm.trans (formOf_page10 k (by omega)))
  case page11 =>
    obtain ⟨k, rfl⟩ := Nat.exists_eq_add_of_le h0
    exact (absent_iff (op := 0x1100 + k) (.inr (by omega))).trans
      (Option.isNone_iff_eq_none.symm.trans (formOf_page11 k (by omega)))
  case step =>
    intro s t op hf hw hp ho habs
    rw [cpuStep_eq_executeOne hf hw hp, executeOne_unknown ho ((absent_iff (isOpcode_of_fetchOpcode ho)).1 habs)]
    rfl

/-- Settles O32, a computation for each word. -/
theorem decodedWords : Obligations.DecodedWords := by
  refine ⟨?_, ?_, ?_, ?_, ?_, ?_, ?_, ?_, ?_, ?_, ?_, ?_, ?_, ?_, ?_, ?_⟩ <;> decide +kernel

end Machine
end Sys2Proof

/-! SUPPORT. What the body of an instruction can do, on any machine: bounds that the accesses to the bus and the changes of
the registers keep, every body keeps, whatever devices answer (20_memory.md R89; the instruction files of spec/). -/

namespace Sys2Proof.Machine

/-! ## Bounds on a computation -/

/-- Bounds on what a computation does: the state it has come to from the state before may be `along` that state, at the end
of an instruction or an entry it may be an `ending`, and where an error stops it, `failing`. -/
structure Bounds where
  along : State → State → Prop
  ending : State → State → Prop
  failing : State → Raise → State → Prop

/-- A computation that comes to its end within the first bound, or stops at an error within the second. -/
def Ends {α : Type} (Q : State → State → Prop) (E : State → Raise → State → Prop) (x : M α) : Prop :=
  ∀ s, match x s with
    | .ok _ t => Q s t
    | .error e t => E s e t

variable {α β : Type} {Q R : State → State → Prop} {E : State → Raise → State → Prop} {b : Bounds} {W : List RegName}

theorem Ends.ok {x : M α} (h : Ends Q E x) {s t : State} {v : α} (e : x s = .ok v t) : Q s t := by
  have := h s; rwa [e] at this

theorem Ends.error {x : M α} (h : Ends Q E x) {s t : State} {v : Raise} (e : x s = .error v t) : E s v t := by
  have := h s; rwa [e] at this

theorem Ends.intro {x : M α} (hok : ∀ {s v t}, x s = .ok v t → Q s t) (herr : ∀ {s e t}, x s = .error e t → E s e t) :
    Ends Q E x := by
  intro s
  cases h : x s with
  | ok v t => exact hok h
  | error e t => exact herr h

theorem Respects.ends {x : M α} (h : Respects R x) : Ends R (fun s _ t => R s t) x := .intro h.ok h.error

theorem Ends.bind {x : M α} {f : α → M β} (hQ : ∀ {s t u}, R s t → Q t u → Q s u)
    (hE : ∀ {s t e u}, R s t → E t e u → E s e u) (hx : Ends R E x) (hf : ∀ v, Ends Q E (f v)) : Ends Q E (x >>= f) := by
  intro s
  rw [bind_apply]
  cases h : x s with
  | ok v t =>
    cases h' : f v t with
    | ok w u => simpa only [h'] using hQ (hx.ok h) ((hf v).ok h')
    | error e u => simpa only [h'] using hE (hx.ok h) ((hf v).error h')
  | error e t => exact hx.error h

abbrev Bounds.Keeps (b : Bounds) (x : M α) : Prop := Ends b.along b.failing x

abbrev Bounds.Finishes (b : Bounds) (x : M α) : Prop := Ends b.ending b.failing x

/-- The bounds of one computation after another. -/
structure Bounds.Sound (b : Bounds) : Prop extends Stable b.along where
  ending_refl : ∀ s, b.ending s s
  ending_after : ∀ {s t u}, b.along s t → b.ending t u → b.ending s u
  failing_after : ∀ {s t e u}, b.along s t → b.failing t e u → b.failing s e u
  cost : ∀ {s t} n, b.ending s t → b.ending s (t.addCycles n)

/-- One relation as all three bounds. -/
def Bounds.ofRel (R : State → State → Prop) : Bounds := ⟨R, R, fun s _ t => R s t⟩

theorem Bounds.sound_ofRel (S : Stable R) (h : ∀ s n, R s (s.addCycles n)) : (Bounds.ofRel R).Sound where
  refl := S.refl
  trans := S.trans
  ending_refl := S.refl
  ending_after := S.trans
  failing_after := S.trans
  cost n h' := S.trans h' (h _ n)

namespace Bounds.Sound
variable (S : b.Sound)
include S

theorem seq {x : M α} {f : α → M β} (hx : b.Keeps x) (hf : ∀ v, b.Keeps (f v)) : b.Keeps (x >>= f) :=
  .bind S.trans S.failing_after hx hf

theorem last {x : M α} {f : α → M β} (hx : b.Keeps x) (hf : ∀ v, b.Finishes (f v)) : b.Finishes (x >>= f) :=
  .bind S.ending_after S.failing_after hx hf

theorem along_ending {s t : State} (h : b.along s t) : b.ending s t := S.ending_after h (S.ending_refl t)

theorem finishes {x : M α} (hx : b.Keeps x) : b.Finishes x :=
  .intro (fun h => S.along_ending (hx.ok h)) hx.error

theorem pure (v : α) : b.Keeps (Pure.pure v : M α) := fun s => S.refl s

theorem done (v : α) : b.Finishes (Pure.pure v : M α) := fun s => S.ending_refl s

theorem get : b.Keeps (MonadState.get : M State) := fun s => S.refl s

theorem getRegs : b.Keeps getRegs := fun s => S.refl s

theorem getCC : b.Keeps getCC := fun s => S.refl s

theorem addCycles (n : Nat) : b.Finishes (addCycles n) := fun s => S.cost n (S.ending_refl s)

theorem whenBit {m : Byte} {j : Nat} {x : M Unit} (hx : m.getLsbD j = true → b.Keeps x) : b.Keeps (whenBit m j x) := by
  rw [Machine.whenBit]
  split
  · next h => exact hx h
  · exact S.pure _

end Bounds.Sound

theorem Ends.modify {f : State → State} (h : ∀ s, Q s (f s)) : Ends Q E (modify f : M PUnit) := fun s => h s

theorem Ends.ite {p : Prop} [Decidable p] {x y : M α} (hx : Ends Q E x) (hy : Ends Q E y) :
    Ends Q E (if p then x else y) := by
  split <;> assumption

/-! ## Which registers a change writes -/

def Acc.name : Acc → RegName
  | .a => .a
  | .b => .b

def Reg16.names : Reg16 → List RegName
  | .d => [.a, .b]
  | .x => [.x]
  | .y => [.y]
  | .u => [.u]
  | .s => [.s]

def Stk.name : Stk → RegName
  | .s => .s
  | .u => .u

def Stk.otherName : Stk → RegName
  | .s => .u
  | .u => .s

/-- The change leaves every register but these as it was. -/
def WritesOnly (L : List RegName) (f : Regs → Regs) : Prop := ∀ g n, n ∉ L → (f g).value n = g.value n

theorem WritesOnly.comp {L : List RegName} {f h : Regs → Regs} (hf : WritesOnly L f) (hh : WritesOnly L h) :
    WritesOnly L fun g => h (f g) := fun g n hn => (hh (f g) n hn).trans (hf g n hn)

theorem setCC_writes (c : Regs → CC) : WritesOnly [.cc] fun g => g.setCC (c g) := by
  intro g n h
  cases n <;> simp_all [Regs.value, Regs.setCC]

theorem setPc_writes (a : Regs → Word) : WritesOnly [.pc] fun g => g.setPc (a g) := by
  intro g n h
  cases n <;> simp_all [Regs.value, Regs.setPc]

theorem setAcc_writes (r : Acc) (v : Regs → Byte) : WritesOnly [r.name] fun g => g.setAcc r (v g) := by
  intro g n h
  cases r <;> cases n <;> simp_all [Regs.value, Regs.setAcc, Acc.name]

theorem setReg16_writes (r : Reg16) (v : Regs → Word) : WritesOnly (Reg16.names r) fun g => g.setReg16 r (v g) := by
  intro g n h
  cases r <;> cases n <;> simp_all [Regs.value, Regs.setReg16, Regs.setD, Reg16.names]

theorem setSp_writes (k : Stk) (v : Regs → Word) : WritesOnly [k.name] fun g => g.setSp k (v g) := by
  intro g n h
  cases k <;> cases n <;> simp_all [Regs.value, Regs.setSp, Stk.name]

theorem setDp_writes (v : Byte) : WritesOnly [.dp] fun g => { g with dp := v } := by
  intro g n h
  cases n <;> simp_all [Regs.value]

theorem writeSelRegs_writes (sel : Sel) (v : SelValue) : WritesOnly (Sel.written sel) fun g => writeSelRegs g v sel := by
  cases sel with
  | d => exact setReg16_writes .d fun _ => _
  | x => exact setReg16_writes .x fun _ => _
  | y => exact setReg16_writes .y fun _ => _
  | u => exact setReg16_writes .u fun _ => _
  | s => exact setReg16_writes .s fun _ => _
  | pc => exact setPc_writes fun _ => _
  | a => exact setAcc_writes .a fun _ => _
  | b => exact setAcc_writes .b fun _ => _
  | cc => exact setCC_writes fun _ => _
  | dp => exact setDp_writes _
  | sink n => exact fun _ _ _ => rfl

theorem IdxReg.names_toReg16 (r : IdxReg) : Reg16.names (IdxReg.toReg16 r) = [IdxReg.name r] := by cases r <;> rfl

/-- An index update writes the register it moves and no other (30_encoding.md R140). -/
theorem after_writes (m : Mem) : WritesOnly (Mem.moved m) (Mem.after m) := by
  intro g n h
  match m with
  | .dir _ | .ext _ | .idx (.off5 _ _) => rfl
  | .idx (.mode r _ mo) =>
    have hr : ∀ v, n ∉ [IdxReg.name r] → (g.setReg16 (IdxReg.toReg16 r) v).value n = g.value n := fun v hn =>
      setReg16_writes (IdxReg.toReg16 r) (fun _ => v) g n (IdxReg.names_toReg16 r ▸ hn)
    cases mo with
    | inc1 | inc2 | dec1 | dec2 => exact hr _ h
    | zero | accB | accA | off8 | off16 | accD | pcr8 | pcr16 | extInd | reserved => rfl

/-! ## The bounds a body keeps -/

/-- Bounds that the CPU's bus accesses keep, a draw keeps, and a change of these registers. -/
structure BodyBounds (W : List RegName) (b : Bounds) : Prop extends b.Sound where
  read8 : ∀ a, b.Keeps (read8 a)
  read16 : ∀ a, b.Keeps (read16 a)
  write8 : ∀ a v, b.Keeps (write8 a v)
  write16 : ∀ a v, b.Keeps (write16 a v)
  drawn : ∀ s n, b.along s (s.drawn n)
  regs : ∀ s r, (∀ n, n ∉ W → r.value n = s.regs.value n) → b.along s (s.withRegs r)

/-- A relation that allows all that a callback may do, bounds every body. -/
theorem BusClosed.bodyBounds (B : BusClosed R) (access : ∀ s n, R s (s.access n)) (cycles : ∀ s n, R s (s.addCycles n))
    (regs : ∀ s r, (∀ n, n ∉ W → r.value n = s.regs.value n) → R s (s.withRegs r)) : BodyBounds W (Bounds.ofRel R) where
  toSound := Bounds.sound_ofRel B.toStable cycles
  read8 a := (read8_respects B access a).ends
  read16 a := (read16_respects B access a).ends
  write8 a v := (write8_respects B access a v).ends
  write16 a v := (write16_respects B access a v).ends
  drawn := B.drawn
  regs := regs

namespace BodyBounds
variable (B : BodyBounds W b)
include B

theorem modifyRegs {f : Regs → Regs} {L : List RegName} (hf : WritesOnly L f) (h : L ⊆ W) : b.Keeps (modifyRegs f) :=
  fun s => B.regs s _ fun n hn => hf s.regs n fun hl => hn (h hl)

theorem modifyCC (f : CC → CC) (h : .cc ∈ W) : b.Keeps (modifyCC f) := B.modifyRegs (setCC_writes _) (by simpa)

theorem setPc (a : Word) (h : .pc ∈ W) : b.Keeps (setPc a) := B.modifyRegs (setPc_writes _) (by simpa)

theorem undefFlag (old : Bool) : b.Keeps (undefFlag old) := by
  intro s
  obtain ⟨h, n, e, -⟩ := undefFlag_spec old s
  rw [e s rfl rfl]
  exact B.drawn s n

theorem effectiveAddress (m : Mem) (h : Mem.moved m ⊆ W) : b.Keeps (effectiveAddress m) :=
  B.seq B.getRegs fun _ => B.seq (B.modifyRegs (after_writes m) h) fun _ => .ite (B.read16 _) (B.pure _)

theorem operand8 (src : Src8) (h : Src8.moved src ⊆ W) : b.Keeps (operand8 src) := by
  cases src with
  | imm v => exact B.pure v
  | mem m => exact B.seq (B.effectiveAddress m h) fun _ => B.read8 _

theorem operand16 (src : Src16) (h : Src16.moved src ⊆ W) : b.Keeps (operand16 src) := by
  cases src with
  | imm v => exact B.pure v
  | mem m => exact B.seq (B.effectiveAddress m h) fun _ => B.read16 _

/-! ### Flags -/

theorem flags (f : CC → CC) (v : α) (h : .cc ∈ W) : b.Keeps (Machine.modifyCC f >>= fun _ => Pure.pure v) :=
  B.seq (B.modifyCC f h) fun _ => B.pure v

theorem undefinedH (f : CC → Bool → CC) (v : α) (h : .cc ∈ W) :
    b.Keeps (Machine.getCC >>= fun c => Machine.undefFlag c.h >>= fun h => Machine.modifyCC (fun c => f c h) >>= fun _ =>
      Pure.pure v) :=
  B.seq B.getCC fun _ => B.seq (B.undefFlag _) fun _ => B.flags _ v h

theorem sub8 (x y : Byte) (cin : Bool) (h : .cc ∈ W) : b.Keeps (sub8 x y cin) := B.undefinedH (fun c h => c.sub8 x y cin h) _ h
theorem asr8 (h : .cc ∈ W) (x : Byte) : b.Keeps (asr8 x) := B.undefinedH (fun c h => c.asr8 x h) _ h
theorem asl8 (h : .cc ∈ W) (x : Byte) : b.Keeps (asl8 x) := B.undefinedH (fun c h => c.asl8 x h) _ h
theorem neg8 (h : .cc ∈ W) (x : Byte) : b.Keeps (neg8 x) := B.undefinedH (fun c h => c.neg8 x h) _ h
theorem lsr8 (h : .cc ∈ W) (x : Byte) : b.Keeps (lsr8 x) := B.flags _ _ h
theorem rol8 (h : .cc ∈ W) (x : Byte) : b.Keeps (rol8 x) := B.seq B.getCC fun _ => B.flags _ _ h
theorem ror8 (h : .cc ∈ W) (x : Byte) : b.Keeps (ror8 x) := B.seq B.getCC fun _ => B.flags _ _ h
theorem inc8 (h : .cc ∈ W) (x : Byte) : b.Keeps (inc8 x) := B.flags _ _ h
theorem dec8 (h : .cc ∈ W) (x : Byte) : b.Keeps (dec8 x) := B.flags _ _ h
theorem clr8 (h : .cc ∈ W) (x : Byte) : b.Keeps (clr8 x) := B.flags _ _ h
theorem com8 (h : .cc ∈ W) (x : Byte) : b.Keeps (com8 x) := B.flags _ _ h

theorem armNmi {r : Reg16} (h : r = .s → ∀ s, b.along s (s.withNmiArmed true)) : b.Keeps (armNmi r) := by
  cases r with
  | s => exact .modify (h rfl)
  | d | x | y | u => exact B.pure _

/-! ### The stacks -/

theorem push8 (k : Stk) (v : Byte) (h : k.name ∈ W) : b.Keeps (push8 k v) :=
  B.seq (B.modifyRegs (setSp_writes k _) (by simpa)) fun _ => B.seq B.getRegs fun _ => B.write8 _ v

theorem push16 (k : Stk) (v : Word) (h : k.name ∈ W) : b.Keeps (push16 k v) :=
  B.seq (B.modifyRegs (setSp_writes k _) (by simpa)) fun _ => B.seq B.getRegs fun _ => B.write16 _ v

theorem pull8 (k : Stk) (h : k.name ∈ W) : b.Keeps (pull8 k) :=
  B.seq B.getRegs fun _ => B.seq (B.read8 _) fun _ =>
    B.seq (B.modifyRegs (setSp_writes k _) (by simpa)) fun _ => B.pure _

theorem pull16 (k : Stk) (h : k.name ∈ W) : b.Keeps (pull16 k) :=
  B.seq B.getRegs fun _ => B.seq (B.read16 _) fun _ =>
    B.seq (B.modifyRegs (setSp_writes k _) (by simpa)) fun _ => B.pure _

theorem pull8Into {k : Stk} {f : Regs → Byte → Regs} {L : List RegName} (h : k.name ∈ W) (hf : ∀ v, WritesOnly L (f · v))
    (hL : L ⊆ W) : b.Keeps (pull8Into k f) :=
  B.seq (B.pull8 k h) fun v => B.modifyRegs (hf v) hL

theorem pull16Into {k : Stk} {f : Regs → Word → Regs} {L : List RegName} (h : k.name ∈ W) (hf : ∀ v, WritesOnly L (f · v))
    (hL : L ⊆ W) : b.Keeps (pull16Into k f) :=
  B.seq (B.pull16 k h) fun v => B.modifyRegs (hf v) hL

theorem pushMask (k : Stk) (m : Byte) (h : k.name ∈ W) : b.Keeps (pushMask k m) := by
  have byte : ∀ (j : Nat) (f : Regs → Byte), b.Keeps (Machine.whenBit m j (Machine.getRegs >>= fun g => Machine.push8 k (f g))) :=
    fun j f => B.whenBit fun _ => B.seq B.getRegs fun _ => B.push8 k _ h
  have word : ∀ (j : Nat) (f : Regs → Word), b.Keeps (Machine.whenBit m j (Machine.getRegs >>= fun g => Machine.push16 k (f g))) :=
    fun j f => B.whenBit fun _ => B.seq B.getRegs fun _ => B.push16 k _ h
  exact B.seq (word 7 Regs.pc) fun _ => B.seq (word 6 fun g => g.reg16 (Stk.other k)) fun _ => B.seq (word 5 Regs.y) fun _ =>
    B.seq (word 4 Regs.x) fun _ => B.seq (byte 3 Regs.dp) fun _ => B.seq (byte 2 Regs.b) fun _ =>
    B.seq (byte 1 Regs.a) fun _ => byte 0 fun g => CC.toByte g.cc

omit B in
theorem names_other (k : Stk) : Reg16.names (Stk.other k) = [k.otherName] := by cases k <;> rfl

/-- A pull writes the stack pointer and the registers the mask names (46_stack.md R511, R513). -/
theorem pullMask (k : Stk) (m : Byte) (hk : k.name ∈ W) (hm : maskNames k.otherName m ⊆ W)
    (harm : k = .u → m.getLsbD 6 = true → ∀ s, b.along s (s.withNmiArmed true)) : b.Keeps (pullMask k m) := by
  have named : ∀ {j : Nat} {n : RegName},
      (j, n) ∈ [(0, RegName.cc), (1, .a), (2, .b), (3, .dp), (4, .x), (5, .y), (6, k.otherName), (7, .pc)] →
      m.getLsbD j = true → [n] ⊆ W := by
    intro j n hj hb
    exact List.cons_subset.2 ⟨hm (List.mem_filterMap.2 ⟨(j, n), hj, if_pos hb⟩), List.nil_subset _⟩
  refine B.seq (B.whenBit fun h => B.pull8Into hk (fun _ => setCC_writes _) (named (by simp) h)) fun _ => ?_
  refine B.seq (B.whenBit fun h => B.pull8Into hk (fun v => setAcc_writes .a fun _ => v) (named (by simp [Acc.name]) h)) fun _ => ?_
  refine B.seq (B.whenBit fun h => B.pull8Into hk (fun v => setAcc_writes .b fun _ => v) (named (by simp [Acc.name]) h)) fun _ => ?_
  refine B.seq (B.whenBit fun h => B.pull8Into hk (fun v => setDp_writes v) (named (by simp) h)) fun _ => ?_
  refine B.seq (B.whenBit fun h => B.pull16Into hk (fun v => setReg16_writes .x fun _ => v) (named (by simp) h)) fun _ => ?_
  refine B.seq (B.whenBit fun h => B.pull16Into hk (fun v => setReg16_writes .y fun _ => v) (named (by simp) h)) fun _ => ?_
  refine B.seq (B.whenBit fun h => B.pull16Into hk (fun v => setReg16_writes (Stk.other k) fun _ => v)
    (names_other k ▸ named (by simp) h)) fun _ => ?_
  refine B.seq (B.whenBit fun h => B.pull16Into hk (fun _ => setPc_writes _) (named (by simp) h)) fun _ => ?_
  refine B.whenBit fun h => B.armNmi fun hs => harm ?_ h
  cases k with
  | s => exact nomatch hs
  | u => rfl

/-! ### Frames -/

theorem pushFrame (f : Frame) (hs : .s ∈ W) (hcc : .cc ∈ W) : b.Keeps (pushFrame f) := by
  cases f with
  | entire => exact B.seq (B.modifyCC _ hcc) fun _ => pushEntire_eq ▸ B.pushMask .s 0xFF hs
  | fast => exact B.seq (B.modifyCC _ hcc) fun _ => pushFast_eq ▸ B.pushMask .s 0x81 hs
  | stacked => exact B.pure _

theorem takeException (e : Entry) (hs : .s ∈ W) (hcc : .cc ∈ W) (hpc : .pc ∈ W)
    (hack : ∀ k, e.ack = some k → b.Keeps (acknowledge k)) : b.Keeps (takeException e) := by
  refine B.seq (B.pushFrame e.frame hs hcc) fun _ => B.seq (B.modifyCC _ hcc) fun _ => B.seq (B.read16 e.vector) fun _ =>
    B.seq (B.setPc _ hpc) fun _ => ?_
  split
  · next k h => exact hack k h
  · exact B.pure _

end BodyBounds
end Sys2Proof.Machine

/-! SUPPORT. The bounds of `BodyBounds` over the bodies of all instructions (40_load_store.md to 47_interrupt_ops.md). -/

namespace Sys2Proof.Machine

variable {α : Type} {W : List RegName} {b : Bounds}

/-! ## Bodies -/

namespace BodyBounds

theorem load8 {r : Acc} {src : Src8} (B : BodyBounds ([r.name, .cc] ++ Src8.moved src) b) : b.Keeps (load8 r src) :=
  B.seq (B.operand8 src (by simp)) fun v => B.seq (B.modifyRegs (setAcc_writes r fun _ => v) (by simp)) fun _ =>
    B.modifyCC _ (by simp)

theorem load16 {r : Reg16} {src : Src16} (B : BodyBounds (Reg16.names r ++ [.cc] ++ Src16.moved src) b)
    (harm : r = .s → ∀ s, b.along s (s.withNmiArmed true)) : b.Keeps (load16 r src) :=
  B.seq (B.operand16 src (by simp)) fun v => B.seq (B.modifyRegs (setReg16_writes r fun _ => v) (by simp)) fun _ =>
    B.seq (B.modifyCC _ (by simp)) fun _ => B.armNmi harm

theorem store8 {r : Acc} {m : Mem} (B : BodyBounds ([.cc] ++ Mem.moved m) b) : b.Keeps (store8 r m) :=
  B.seq (B.effectiveAddress m (by simp)) fun _ => B.seq B.getRegs fun _ => B.seq (B.write8 _ _) fun _ => B.modifyCC _ (by simp)

theorem store16 {r : Reg16} {m : Mem} (B : BodyBounds ([.cc] ++ Mem.moved m) b) : b.Keeps (store16 r m) :=
  B.seq (B.effectiveAddress m (by simp)) fun _ => B.seq B.getRegs fun _ => B.seq (B.write16 _ _) fun _ => B.modifyCC _ (by simp)

theorem leaZ {r : Reg16} {x : Idx} (B : BodyBounds (Reg16.names r ++ [.cc] ++ Idx.moved x) b) : b.Keeps (leaZ r x) :=
  B.seq (B.effectiveAddress (.idx x) (by simp [Mem.moved])) fun v =>
    B.seq (B.modifyRegs (setReg16_writes r fun _ => v) (by simp)) fun _ => B.modifyCC _ (by simp)

theorem lea {r : Reg16} {x : Idx} (B : BodyBounds (Reg16.names r ++ Idx.moved x) b)
    (harm : r = .s → ∀ s, b.along s (s.withNmiArmed true)) : b.Keeps (lea r x) :=
  B.seq (B.effectiveAddress (.idx x) (by simp [Mem.moved])) fun v =>
    B.seq (B.modifyRegs (setReg16_writes r fun _ => v) (by simp)) fun _ => B.armNmi harm

/-! ### Add, subtract, compare, logic -/

section
variable {r : Acc} {src : Src8}

theorem addTo (B : BodyBounds ([r.name, .cc] ++ Src8.moved src) b) : b.Keeps (addTo r src) :=
  B.seq (B.operand8 src (by simp)) fun _ => B.seq B.getRegs fun _ =>
    B.seq (B.flags _ _ (by simp)) fun v => B.modifyRegs (setAcc_writes r fun _ => v) (by simp)

theorem addCarryTo (B : BodyBounds ([r.name, .cc] ++ Src8.moved src) b) : b.Keeps (addCarryTo r src) :=
  B.seq (B.operand8 src (by simp)) fun _ => B.seq B.getRegs fun _ => B.seq B.getCC fun _ =>
    B.seq (B.flags _ _ (by simp)) fun v => B.modifyRegs (setAcc_writes r fun _ => v) (by simp)

theorem subFrom (B : BodyBounds ([r.name, .cc] ++ Src8.moved src) b) : b.Keeps (subFrom r src) :=
  B.seq (B.operand8 src (by simp)) fun _ => B.seq B.getRegs fun _ =>
    B.seq (B.sub8 _ _ _ (by simp)) fun v => B.modifyRegs (setAcc_writes r fun _ => v) (by simp)

theorem subBorrowFrom (B : BodyBounds ([r.name, .cc] ++ Src8.moved src) b) : b.Keeps (subBorrowFrom r src) :=
  B.seq (B.operand8 src (by simp)) fun _ => B.seq B.getRegs fun _ => B.seq B.getCC fun _ =>
    B.seq (B.sub8 _ _ _ (by simp)) fun v => B.modifyRegs (setAcc_writes r fun _ => v) (by simp)

theorem compare8 (B : BodyBounds ([.cc] ++ Src8.moved src) b) : b.Keeps (compare8 r src) :=
  B.seq (B.operand8 src (by simp)) fun _ => B.seq B.getRegs fun _ => B.seq (B.sub8 _ _ _ (by simp)) fun _ => B.pure _

theorem logicInto (B : BodyBounds ([r.name, .cc] ++ Src8.moved src) b) (op : Byte → Byte → Byte) :
    b.Keeps (logicInto r op src) :=
  B.seq (B.operand8 src (by simp)) fun _ => B.seq B.getRegs fun _ =>
    B.seq (B.modifyRegs (setAcc_writes r fun _ => _) (by simp)) fun _ => B.modifyCC _ (by simp)

theorem bitTest (B : BodyBounds ([.cc] ++ Src8.moved src) b) : b.Keeps (bitTest r src) :=
  B.seq (B.operand8 src (by simp)) fun _ => B.seq B.getRegs fun _ => B.modifyCC _ (by simp)

end

section
variable {src : Src16}

theorem addToD (B : BodyBounds ([.a, .b, .cc] ++ Src16.moved src) b) : b.Keeps (addToD src) :=
  B.seq (B.operand16 src (List.subset_append_right _ _)) fun _ => B.seq B.getRegs fun _ =>
    B.seq (B.flags _ _ (by simp)) fun v => B.modifyRegs (setReg16_writes .d fun _ => v) (by simp [Reg16.names])

theorem subFromD (B : BodyBounds ([.a, .b, .cc] ++ Src16.moved src) b) : b.Keeps (subFromD src) :=
  B.seq (B.operand16 src (List.subset_append_right _ _)) fun _ => B.seq B.getRegs fun _ =>
    B.seq (B.flags _ _ (by simp)) fun v => B.modifyRegs (setReg16_writes .d fun _ => v) (by simp [Reg16.names])

theorem compare16 (B : BodyBounds ([.cc] ++ Src16.moved src) b) (r : Reg16) : b.Keeps (compare16 r src) :=
  B.seq (B.operand16 src (by simp)) fun _ => B.seq B.getRegs fun _ => B.seq (B.flags _ _ (by simp)) fun _ => B.pure _

end

/-! ### Single-operand operations -/

theorem onAcc {f : Byte → M Byte} {r : Acc} (B : BodyBounds [r.name, .cc] b) (hf : .cc ∈ [r.name, .cc] → ∀ x, b.Keeps (f x)) :
    b.Keeps (onAcc f r) :=
  B.seq B.getRegs fun _ => B.seq (hf (by simp) _) fun v => B.modifyRegs (setAcc_writes r fun _ => v) (by simp)

theorem onMem {f : Byte → M Byte} {m : Mem} (B : BodyBounds ([.cc] ++ Mem.moved m) b)
    (hf : .cc ∈ [.cc] ++ Mem.moved m → ∀ x, b.Keeps (f x)) : b.Keeps (onMem f m) :=
  B.seq (B.effectiveAddress m (by simp)) fun _ => B.seq (B.read8 _) fun _ => B.seq (hf (by simp) _) fun _ => B.write8 _ _

theorem clearMem {m : Mem} (B : BodyBounds ([.cc] ++ Mem.moved m) b) : b.Keeps (clearMem m) :=
  B.seq (B.effectiveAddress m (by simp)) fun _ => B.seq (B.clr8 (by simp) 0) fun _ => B.write8 _ _

theorem testAcc {r : Acc} (B : BodyBounds [.cc] b) : b.Keeps (testAcc r) :=
  B.seq B.getRegs fun _ => B.modifyCC _ (by simp)

theorem testMem {m : Mem} (B : BodyBounds ([.cc] ++ Mem.moved m) b) : b.Keeps (testMem m) :=
  B.seq (B.effectiveAddress m (by simp)) fun _ => B.seq (B.read8 _) fun _ => B.modifyCC _ (by simp)

/-! ### Multiply, decimal adjust, sign extend, transfers -/

theorem mulAB (B : BodyBounds [.a, .b, .cc] b) : b.Keeps mulAB :=
  B.seq B.getRegs fun _ => B.seq (B.modifyCC _ (by simp)) fun _ =>
    B.modifyRegs (setReg16_writes .d fun _ => _) (by simp [Reg16.names])

theorem decimalAdjust (B : BodyBounds [.a, .cc] b) : b.Keeps decimalAdjust :=
  B.seq B.getRegs fun _ => B.seq (B.undefFlag _) fun _ =>
    B.seq (B.modifyRegs (setAcc_writes .a fun _ => _) (by simp [Acc.name])) fun _ => B.modifyCC _ (by simp)

theorem signExtendB (B : BodyBounds [.a, .cc] b) : b.Keeps signExtendB :=
  B.seq (B.modifyRegs (setAcc_writes .a fun _ => _) (by simp [Acc.name])) fun _ =>
    B.modifyRegs (setCC_writes fun _ => _) (by simp)

theorem writeSel {sel : Sel} (B : BodyBounds W b) (v : SelValue) (h : Sel.written sel ⊆ W)
    (harm : Sel.isS sel = true → ∀ s, b.along s (s.withNmiArmed true)) : b.Keeps (writeSel sel v) := by
  refine B.seq (B.modifyRegs (writeSelRegs_writes sel v) h) fun _ => ?_
  split
  · next hs => exact B.armNmi fun _ => harm hs
  · exact B.pure _

theorem transfer {src dst : Sel} (B : BodyBounds (Sel.written dst) b)
    (harm : Sel.isS dst = true → ∀ s, b.along s (s.withNmiArmed true)) : b.Keeps (transfer src dst) :=
  B.seq B.getRegs fun _ => B.writeSel _ (by simp) harm

theorem exchange {r1 r2 : Sel} (B : BodyBounds (Sel.written r1 ++ Sel.written r2) b)
    (harm : (Sel.isS r1 || Sel.isS r2) = true → ∀ s, b.along s (s.withNmiArmed true)) : b.Keeps (exchange r1 r2) :=
  B.seq B.getRegs fun _ => B.seq (B.writeSel _ (by simp) fun h => harm (by simp [h])) fun _ =>
    B.writeSel _ (by simp) fun h => harm (by simp [h])

/-! ### Branches, calls and returns -/

theorem branch8 (B : BodyBounds [.pc] b) (cond : CC → Bool) (off : Byte) : b.Keeps (branch8 cond off) :=
  B.seq B.getRegs fun _ => .ite (B.setPc _ (by simp)) (B.pure _)

theorem branch16 (B : BodyBounds [.pc] b) (cond : CC → Bool) (off : Word) : b.Finishes (branch16 cond off) :=
  B.last B.getRegs fun _ => .ite (B.last (B.setPc _ (by simp)) fun _ => B.addCycles 1) (B.done _)

theorem callTo (B : BodyBounds W b) (target : Word) (hs : .s ∈ W) (hpc : .pc ∈ W) : b.Keeps (callTo target) :=
  B.seq B.getRegs fun _ => B.seq (B.push16 .s _ hs) fun _ => B.setPc target hpc

theorem callRelative (B : BodyBounds [.s, .pc] b) (off : Word) : b.Keeps (callRelative off) :=
  B.seq B.getRegs fun _ => B.callTo _ (by simp) (by simp)

theorem jumpTo {m : Mem} (B : BodyBounds ([.pc] ++ Mem.moved m) b) : b.Keeps (jumpTo m) :=
  B.seq (B.effectiveAddress m (by simp)) fun _ => B.setPc _ (by simp)

theorem callMem {m : Mem} (B : BodyBounds ([.s, .pc] ++ Mem.moved m) b) : b.Keeps (callMem m) :=
  B.seq (B.effectiveAddress m (by simp)) fun _ => B.callTo _ (by simp) (by simp)

theorem returnFromCall (B : BodyBounds [.s, .pc] b) : b.Keeps returnFromCall :=
  B.seq (B.pull16 .s (by simp [Stk.name])) fun _ => B.setPc _ (by simp)

/-! ### CWAI and RTI -/

theorem clearAndWait (B : BodyBounds [.s, .cc] b) (mask : Byte) (hwait : ∀ s, b.along s (s.withWait .cwai)) :
    b.Keeps (clearAndWait mask) :=
  B.seq (B.modifyCC _ (by simp)) fun _ => B.seq (B.pushFrame .entire (by simp) (by simp)) fun _ => .modify hwait

/-- A byte pulled from S into a register. -/
theorem pull8Then (B : BodyBounds W b) {f : Byte → Regs → Regs} {L : List RegName} (hs : .s ∈ W)
    (hf : ∀ v, WritesOnly L (f v)) (hL : L ⊆ W) {x : M Unit} (hx : b.Finishes x) :
    b.Finishes (Machine.pull8 .s >>= fun v => Machine.modifyRegs (f v) >>= fun _ => x) :=
  B.last (B.pull8 .s hs) fun v => B.last (B.modifyRegs (hf v) hL) fun _ => hx

/-- A word pulled from S into a register. -/
theorem pull16Then (B : BodyBounds W b) {f : Word → Regs → Regs} {L : List RegName} (hs : .s ∈ W)
    (hf : ∀ v, WritesOnly L (f v)) (hL : L ⊆ W) {x : M Unit} (hx : b.Finishes x) :
    b.Finishes (Machine.pull16 .s >>= fun v => Machine.modifyRegs (f v) >>= fun _ => x) :=
  B.last (B.pull16 .s hs) fun v => B.last (B.modifyRegs (hf v) hL) fun _ => hx

theorem returnFromException (B : BodyBounds [.a, .b, .dp, .cc, .x, .y, .u, .s, .pc] b) : b.Finishes returnFromException := by
  have pc : b.Keeps (Machine.pull16 .s >>= fun v => Machine.setPc v) :=
    B.seq (B.pull16 .s (by simp [Stk.name])) fun _ => B.setPc _ (by simp)
  have hs : RegName.s ∈ [.a, .b, .dp, .cc, .x, .y, .u, .s, .pc] := by simp
  refine B.last (B.pull8 .s hs) fun c => B.last (B.modifyCC _ (by simp)) fun _ => .ite ?_ (B.finishes pc)
  refine B.pull8Then hs (fun v => setAcc_writes .a fun _ => v) (by simp [Acc.name]) ?_
  refine B.pull8Then hs (fun v => setAcc_writes .b fun _ => v) (by simp [Acc.name]) ?_
  refine B.pull8Then hs setDp_writes (by simp) ?_
  refine B.pull16Then hs (fun v => setReg16_writes .x fun _ => v) (by simp [Reg16.names]) ?_
  refine B.pull16Then hs (fun v => setReg16_writes .y fun _ => v) (by simp [Reg16.names]) ?_
  refine B.pull16Then hs (fun v => setReg16_writes .u fun _ => v) (by simp [Reg16.names]) ?_
  exact B.pull16Then hs (fun v => setPc_writes fun _ => v) (by simp) (B.addCycles 9)

end BodyBounds

/-! ## Every instruction -/

/-- The wait an instruction starts (47_interrupt_ops.md R540, R542). -/
def startsWait : Instr → Option Wait
  | .cwai _ => some .cwai
  | .sync => some .sync
  | _ => none

/-- Bounds on an instruction: those of a body that writes its registers, and its arming of NMI and its wait, if any. -/
structure InstrBounds (i : Instr) (b : Bounds) : Prop extends BodyBounds (written i) b where
  arm : armsNmi i = true → ∀ s, b.along s (s.withNmiArmed true)
  wait : ∀ w, startsWait i = some w → ∀ s, b.along s (s.withWait w)

/-- The instruction has a body, opcode 0x3E where it is a no-op and every other one on any machine, that keeps all bounds of
the instruction. -/
def BodyKeepsBounds (i : Instr) : Prop :=
  ∃ body : M Unit, (∀ b, InstrBounds i b → b.Finishes body) ∧
    ∀ s : State, (i = .reset → s.cfg.resetOp = .nop) → exec i s = instruction i body s

theorem BodyKeepsBounds.of_keeps {i : Instr} {body : M Unit} (hb : ∀ b, InstrBounds i b → b.Keeps body)
    (he : ∀ s, exec i s = instruction i body s) : BodyKeepsBounds i :=
  ⟨body, fun b B => B.finishes (hb b B), fun s _ => he s⟩

theorem BodyKeepsBounds.of_finishes {i : Instr} {body : M Unit} (hb : ∀ b, InstrBounds i b → b.Finishes body)
    (he : ∀ s, exec i s = instruction i body s) : BodyKeepsBounds i :=
  ⟨body, hb, fun s _ => he s⟩

theorem bodyKeepsBounds (i : Instr) : BodyKeepsBounds i := by
  cases i with
  | lda src => exact .of_keeps (fun b B => B.load8 (r := .a)) fun _ => rfl
  | ldb src => exact .of_keeps (fun b B => B.load8 (r := .b)) fun _ => rfl
  | ldd src => exact .of_keeps (fun b B => B.load16 (r := .d) (nomatch ·)) fun _ => rfl
  | ldx src => exact .of_keeps (fun b B => B.load16 (r := .x) (nomatch ·)) fun _ => rfl
  | ldy src => exact .of_keeps (fun b B => B.load16 (r := .y) (nomatch ·)) fun _ => rfl
  | ldu src => exact .of_keeps (fun b B => B.load16 (r := .u) (nomatch ·)) fun _ => rfl
  | lds src => exact .of_keeps (fun b B => B.load16 (r := .s) fun _ => B.arm rfl) fun _ => rfl
  | sta m => exact .of_keeps (fun b B => B.store8 (r := .a)) fun _ => rfl
  | stb m => exact .of_keeps (fun b B => B.store8 (r := .b)) fun _ => rfl
  | std m | stx m | sty m | stu m | sts m => exact .of_keeps (fun b B => B.store16) fun _ => rfl
  | leax x => exact .of_keeps (fun b B => B.leaZ (r := .x)) fun _ => rfl
  | leay x => exact .of_keeps (fun b B => B.leaZ (r := .y)) fun _ => rfl
  | leas x => exact .of_keeps (fun b B => B.lea (r := .s) fun _ => B.arm rfl) fun _ => rfl
  | leau x => exact .of_keeps (fun b B => B.lea (r := .u) (nomatch ·)) fun _ => rfl
  | adda src => exact .of_keeps (fun b B => B.addTo (r := .a)) fun _ => rfl
  | addb src => exact .of_keeps (fun b B => B.addTo (r := .b)) fun _ => rfl
  | adca src => exact .of_keeps (fun b B => B.addCarryTo (r := .a)) fun _ => rfl
  | adcb src => exact .of_keeps (fun b B => B.addCarryTo (r := .b)) fun _ => rfl
  | addd src => exact .of_keeps (fun b B => B.addToD) fun _ => rfl
  | suba src => exact .of_keeps (fun b B => B.subFrom (r := .a)) fun _ => rfl
  | subb src => exact .of_keeps (fun b B => B.subFrom (r := .b)) fun _ => rfl
  | sbca src => exact .of_keeps (fun b B => B.subBorrowFrom (r := .a)) fun _ => rfl
  | sbcb src => exact .of_keeps (fun b B => B.subBorrowFrom (r := .b)) fun _ => rfl
  | subd src => exact .of_keeps (fun b B => B.subFromD) fun _ => rfl
  | cmpa src => exact .of_keeps (fun b B => B.compare8 (r := .a)) fun _ => rfl
  | cmpb src => exact .of_keeps (fun b B => B.compare8 (r := .b)) fun _ => rfl
  | cmpd src | cmpx src | cmpy src | cmpu src | cmps src => exact .of_keeps (fun b B => B.compare16 _) fun _ => rfl
  | anda src | ora src | eora src => exact .of_keeps (fun b B => B.logicInto (r := .a) _) fun _ => rfl
  | andb src | orb src | eorb src => exact .of_keeps (fun b B => B.logicInto (r := .b) _) fun _ => rfl
  | bita src => exact .of_keeps (fun b B => B.bitTest (r := .a)) fun _ => rfl
  | bitb src => exact .of_keeps (fun b B => B.bitTest (r := .b)) fun _ => rfl
  | andcc mask => exact .of_keeps (fun b B => B.modifyCC _ (by simp [written])) fun s => exec_andcc_eq s mask
  | orcc mask => exact .of_keeps (fun b B => B.modifyCC _ (by simp [written])) fun s => exec_orcc_eq s mask
  | asra => exact .of_keeps (fun b B => B.onAcc (r := .a) B.asr8) fun _ => rfl
  | asrb => exact .of_keeps (fun b B => B.onAcc (r := .b) B.asr8) fun _ => rfl
  | lsra => exact .of_keeps (fun b B => B.onAcc (r := .a) B.lsr8) fun _ => rfl
  | lsrb => exact .of_keeps (fun b B => B.onAcc (r := .b) B.lsr8) fun _ => rfl
  | asla => exact .of_keeps (fun b B => B.onAcc (r := .a) B.asl8) fun _ => rfl
  | aslb => exact .of_keeps (fun b B => B.onAcc (r := .b) B.asl8) fun _ => rfl
  | rola => exact .of_keeps (fun b B => B.onAcc (r := .a) B.rol8) fun _ => rfl
  | rolb => exact .of_keeps (fun b B => B.onAcc (r := .b) B.rol8) fun _ => rfl
  | rora => exact .of_keeps (fun b B => B.onAcc (r := .a) B.ror8) fun _ => rfl
  | rorb => exact .of_keeps (fun b B => B.onAcc (r := .b) B.ror8) fun _ => rfl
  | inca => exact .of_keeps (fun b B => B.onAcc (r := .a) B.inc8) fun _ => rfl
  | incb => exact .of_keeps (fun b B => B.onAcc (r := .b) B.inc8) fun _ => rfl
  | deca => exact .of_keeps (fun b B => B.onAcc (r := .a) B.dec8) fun _ => rfl
  | decb => exact .of_keeps (fun b B => B.onAcc (r := .b) B.dec8) fun _ => rfl
  | nega => exact .of_keeps (fun b B => B.onAcc (r := .a) B.neg8) fun _ => rfl
  | negb => exact .of_keeps (fun b B => B.onAcc (r := .b) B.neg8) fun _ => rfl
  | clra => exact .of_keeps (fun b B => B.onAcc (r := .a) B.clr8) fun _ => rfl
  | clrb => exact .of_keeps (fun b B => B.onAcc (r := .b) B.clr8) fun _ => rfl
  | coma => exact .of_keeps (fun b B => B.onAcc (r := .a) B.com8) fun _ => rfl
  | comb => exact .of_keeps (fun b B => B.onAcc (r := .b) B.com8) fun _ => rfl
  | tsta | tstb => exact .of_keeps (fun b B => B.testAcc) fun _ => rfl
  | asr m => exact .of_keeps (fun b B => B.onMem B.asr8) fun _ => rfl
  | lsr m => exact .of_keeps (fun b B => B.onMem B.lsr8) fun _ => rfl
  | asl m => exact .of_keeps (fun b B => B.onMem B.asl8) fun _ => rfl
  | rol m => exact .of_keeps (fun b B => B.onMem B.rol8) fun _ => rfl
  | ror m => exact .of_keeps (fun b B => B.onMem B.ror8) fun _ => rfl
  | inc m => exact .of_keeps (fun b B => B.onMem B.inc8) fun _ => rfl
  | dec m => exact .of_keeps (fun b B => B.onMem B.dec8) fun _ => rfl
  | neg m => exact .of_keeps (fun b B => B.onMem B.neg8) fun _ => rfl
  | com m => exact .of_keeps (fun b B => B.onMem B.com8) fun _ => rfl
  | clr m => exact .of_keeps (fun b B => B.clearMem) fun _ => rfl
  | tst m => exact .of_keeps (fun b B => B.testMem) fun _ => rfl
  | mul => exact .of_keeps (fun b B => B.mulAB) fun _ => rfl
  | daa => exact .of_keeps (fun b B => B.decimalAdjust) fun _ => rfl
  | sex => exact .of_keeps (fun b B => B.signExtendB) fun _ => rfl
  | abx =>
    exact .of_keeps (fun b B => B.modifyRegs (setReg16_writes .x fun g => g.x + zext8 g.b) (by simp [written, Reg16.names]))
      fun _ => rfl
  | tfr src dst => exact .of_keeps (fun b B => B.transfer B.arm) fun _ => rfl
  | exg r1 r2 => exact .of_keeps (fun b B => B.exchange B.arm) fun _ => rfl
  | nop | lbrn off => exact .of_keeps (fun b B => B.pure ()) fun _ => rfl
  | bra off => exact .of_keeps (fun b B => B.branch8 (fun _ => true) off) fun _ => rfl
  | brn off =>
    exact .of_keeps (body := branch8 (fun _ => false) off) (fun b B => B.seq B.getRegs fun _ => B.pure _) fun _ => rfl
  | bhi off | bls off | bcc off | bcs off | bne off | beq off | bvc off | bvs off | bpl off | bmi off | bge off
  | blt off | bgt off | ble off => exact .of_keeps (fun b B => B.branch8 _ off) fun _ => rfl
  | lbra off => exact .of_keeps (fun b B => B.modifyRegs (setPc_writes fun g => g.pc + off) (by simp [written])) fun _ => rfl
  | lbhi off | lbls off | lbcc off | lbcs off | lbne off | lbeq off | lbvc off | lbvs off | lbpl off | lbmi off | lbge off
  | lblt off | lbgt off | lble off => exact .of_finishes (fun b B => B.branch16 _ off) fun _ => rfl
  | bsr off | lbsr off => exact .of_keeps (fun b B => B.callRelative _) fun _ => rfl
  | jmp m => exact .of_keeps (fun b B => B.jumpTo) fun _ => rfl
  | jsr m => exact .of_keeps (fun b B => B.callMem) fun _ => rfl
  | rts => exact .of_keeps (fun b B => B.returnFromCall) fun _ => rfl
  | pshs mask => exact .of_keeps (fun b B => B.pushMask .s mask (by simp [written, Stk.name])) fun _ => rfl
  | pshu mask => exact .of_keeps (fun b B => B.pushMask .u mask (by simp [written, Stk.name])) fun _ => rfl
  | puls mask =>
    exact .of_keeps (fun b B => B.pullMask .s mask (by simp [written, Stk.name]) (by simp [written, Stk.otherName])
      (nomatch ·)) fun _ => rfl
  | pulu mask =>
    exact .of_keeps (fun b B => B.pullMask .u mask (by simp [written, Stk.name]) (by simp [written, Stk.otherName])
      fun _ => B.arm) fun _ => rfl
  | swi | swi2 | swi3 =>
    exact .of_keeps (fun b B => B.takeException _ (by simp [written]) (by simp [written]) (by simp [written])
      fun _ h => nomatch (h : none = some _)) fun _ => rfl
  | cwai mask => exact .of_keeps (fun b B => B.clearAndWait mask (B.wait _ rfl)) fun _ => rfl
  | sync => exact .of_keeps (fun b B => .modify (B.wait _ rfl)) fun _ => rfl
  | rti => exact .of_finishes (fun b B => B.returnFromException) fun _ => rfl
  | reset => exact ⟨addCycles 2, fun b B => B.addCycles 2, fun _ h => exec_reset_nop (h rfl)⟩

/-- How an instruction ends: at an ending with its cost added, or with the fault recorded that stopped its body. -/
theorem exec_ends {i : Instr} {b : Bounds} (B : InstrBounds i b) {s : State} (hnop : i = .reset → s.cfg.resetOp = .nop) :
    match exec i s with
    | .next t => b.ending s t ∨ ∃ e u, b.failing s e u ∧ endFaulted (opAddr i s) (some (opcodeOf i)) e u = .next t
    | .fault f => f = .callbackHang ∧ ∃ u, b.failing s .hang u
    | .refused _ => False := by
  obtain ⟨body, hbody, hexec⟩ := bodyKeepsBounds i
  rw [hexec s hnop]
  cases h : body s with
  | ok v t =>
    rw [instruction_ok h]
    exact .inl (B.cost _ ((hbody b B).ok h))
  | error e t =>
    rw [instruction_error h]
    have hf := (hbody b B).error h
    cases e with
    | outOfRange a v => exact .inr ⟨_, _, hf, rfl⟩
    | peripheral v => exact .inr ⟨_, _, hf, rfl⟩
    | hang => exact ⟨rfl, _, hf⟩

end Sys2Proof.Machine

/-! SUPPORT. What a step of the CPU can do, on any machine: fetches, interrupt entries, the reset sequence and a handler of
opcode 0x3E keep the bounds that callbacks keep, and a fault is recorded at the instruction's first byte (60_exceptions.md
R600, R601, R640; 30_encoding.md R133). -/

namespace Sys2Proof.Machine

/-! ## Fetches move PC and no other register (30_encoding.md R131) -/

/-- The registers after a fetch of `n` bytes. -/
def State.fetchedRegs (s : State) (n : Nat) : Regs := s.regs.setPc (s.regs.pc + BitVec.ofNat 16 n)

theorem fetchedRegs_fetchedRegs {s t : State} {m : Nat} (h : t.regs = s.fetchedRegs m) (n : Nat) :
    t.fetchedRegs n = s.fetchedRegs (m + n) := by
  simp only [State.fetchedRegs, h, Regs.setPc, BitVec.ofNat_add, BitVec.add_assoc]

theorem fetchByte_regs {s t : State} {v : Byte} (h : fetchByte s = .ok v t) : t.regs = s.fetchedRegs 1 := by
  rw [fetchByte, bind_ok (getRegs_apply s), bind_apply] at h
  split at h
  · next w u hr =>
    have hu : u.regs = s.regs := (read8_respects sameRegs_closed sameRegs_access s.regs.pc).ok hr
    cases h
    exact congrArg (fun g : Regs => g.setPc (g.pc + 1)) hu
  · cases h

theorem fetchWord_regs {s t : State} {bs : List Byte} (h : fetchWord s = .ok bs t) :
    t.regs = s.fetchedRegs 2 ∧ ∃ w, bs = [highByte w, lowByte w] := by
  rw [fetchWord, bind_ok (getRegs_apply s), bind_apply] at h
  split at h
  · next w u hr =>
    have hu : u.regs = s.regs := (read16_respects sameRegs_closed sameRegs_access s.regs.pc).ok hr
    cases h
    exact ⟨congrArg (fun g : Regs => g.setPc (g.pc + 2)) hu, w, rfl⟩
  · cases h

theorem fetchOpcode_regs {s t : State} {op : Nat} (h : fetchOpcode s = .ok op t) :
    t.regs = s.fetchedRegs (opcodeBytes op).length := by
  have hop := isOpcode_of_fetchOpcode h
  rw [fetchOpcode, bind_apply] at h
  split at h
  · next b0 u h0 =>
    have hu := fetchByte_regs h0
    cases hp : isPrefix b0 with
    | true =>
      rw [hp, if_pos rfl, bind_apply] at h
      split at h
      · next b1 v h1 =>
        cases h
        have hb := (isPrefix_iff b0).1 hp
        rw [opcodeBytes, if_neg (by rw [pagedOpcode]; omega), fetchByte_regs h1, fetchedRegs_fetchedRegs hu]
        rfl
      · cases h
    | false =>
      rw [hp] at h
      cases h
      rw [opcodeBytes, if_pos b0.isLt]
      exact hu
  · cases h

theorem fetchByteList_regs {s t : State} {bs : List Byte} (h : (fetchByte >>= fun v => pure [v] : M (List Byte)) s = .ok bs t) :
    t.regs = s.fetchedRegs 1 ∧ ∃ v, bs = [v] := by
  rw [bind_apply] at h
  split at h
  · next v u hv =>
    cases h
    exact ⟨fetchByte_regs hv, v, rfl⟩
  · cases h

/-- The offset bytes a post-byte asks for, and PC moved past them. -/
theorem fetchOffset_decodes {s t : State} {pb : Byte} {bs : List Byte} (h : fetchOffset (offsetOf pb) s = .ok bs t) :
    t.regs = s.fetchedRegs bs.length ∧ ∃ x, decodeIdx (pb :: bs) = some (x, []) := by
  cases ho : offsetOf pb with
  | none =>
    rw [ho] at h
    cases h
    refine ⟨?_, _, by simp only [decodeIdx, ho]; rfl⟩
    rw [State.fetchedRegs, List.length_nil, show s.regs.pc + BitVec.ofNat 16 0 = s.regs.pc from BitVec.add_zero _]
    rfl
  | byte =>
    rw [ho] at h
    obtain ⟨hr, v, rfl⟩ := fetchByteList_regs h
    exact ⟨hr, _, by simp only [decodeIdx, ho]; rfl⟩
  | word =>
    rw [ho] at h
    obtain ⟨hr, w, rfl⟩ := fetchWord_regs h
    exact ⟨hr, _, by simp only [decodeIdx, ho]; rfl⟩

/-- The operand bytes of a row are those its instruction has, and PC moves past them (30_encoding.md R132, R133). -/
theorem fetchOperand_decodes {s t : State} {form : Form} {bs : List Byte} (h : fetchOperand form s = .ok bs t) :
    t.regs = s.fetchedRegs bs.length ∧ ∃ i, decodeForm form bs = some (i, []) := by
  cases form with
  | inh i =>
    cases h
    refine ⟨?_, i, rfl⟩
    rw [State.fetchedRegs, List.length_nil, show s.regs.pc + BitVec.ofNat 16 0 = s.regs.pc from BitVec.add_zero _]
    rfl
  | byte f =>
    obtain ⟨hr, v, rfl⟩ := fetchByteList_regs h
    exact ⟨hr, _, rfl⟩
  | word f =>
    obtain ⟨hr, w, rfl⟩ := fetchWord_regs h
    exact ⟨hr, _, rfl⟩
  | idx f =>
    rw [fetchOperand, bind_apply] at h
    split at h
    · next pb u hpb =>
      rw [bind_apply] at h
      split at h
      · next offset v ho =>
        cases h
        obtain ⟨hr, x, hx⟩ := fetchOffset_decodes ho
        refine ⟨?_, f x, by rw [decodeForm, hx]; rfl⟩
        rw [hr, fetchedRegs_fetchedRegs (fetchByte_regs hpb), List.length_cons, Nat.add_comm]
      · cases h
    · cases h

/-- An instruction whose bytes have been fetched runs, and PC has moved past its bytes (30_encoding.md R133). -/
theorem executeOne_fetched {s u t : State} {op : Nat} {form : Form} {bs : List Byte} (ho : fetchOpcode s = .ok op u)
    (hform : formOf op = some form) (hbs : fetchOperand form u = .ok bs t) :
    ∃ i, opcodeOf i = op ∧ t.regs = s.fetchedRegs (instrLength i) ∧ executeOne s = exec i t := by
  obtain ⟨hr, i, hi⟩ := fetchOperand_decodes hbs
  have hdec : decode (opcodeBytes op ++ bs) = some (i, []) := by
    rw [decode_opcodeBytes (isOpcode_of_fetchOpcode ho), decodeOp, hform]
    exact hi
  obtain ⟨-, henc⟩ := encodeOfDecode _ _ _ hdec
  obtain ⟨rows, hm, hrow⟩ := formOf_mem hform
  obtain ⟨-, hop, -⟩ := rows_sound rows hm _ hrow bs i [] hi
  refine ⟨i, hop, ?_, by simp only [executeOne, ho, hform, hbs, hdec]⟩
  rw [hr, fetchedRegs_fetchedRegs (fetchOpcode_regs ho), instrLength, ← List.length_append, henc, List.append_nil]

theorem opAddr_of_fetched {s t : State} {i : Instr} (h : t.regs = s.fetchedRegs (instrLength i)) : opAddr i t = s.regs.pc := by
  rw [opAddr, h]
  exact BitVec.add_sub_cancel _ _

end Sys2Proof.Machine

namespace Sys2Proof.Machine

variable {b : Bounds}

/-! ## A handler of opcode 0x3E, rule by rule (47_interrupt_ops.md R550) -/

section
variable {s : State} {rule : HandlerRule} {rest : List HandlerRule} {reply cost : Nat}

theorem runHandler_skip (h : evalExpr s s.handlerArgs reply rule.guard = 0) :
    runHandler (rule :: rest) reply cost s = runHandler rest reply cost s := by
  simp only [runHandler, bind_apply, get_apply, h, if_true]

theorem runHandler_run (h : evalExpr s s.handlerArgs reply rule.guard ≠ 0) {sc : Script} (ha : rule.act = .run sc) :
    runHandler (rule :: rest) reply cost s =
      (runBody runCallback true sc s.handlerArgs >>= fun v => runHandler rest (v.getD reply) cost) s := by
  simp only [runHandler, bind_apply, get_apply, h, if_false, ha]

theorem runHandler_load (h : evalExpr s s.handlerArgs reply rule.guard ≠ 0) {ws : List (MachineField × DevExpr)}
    (ha : rule.act = .load ws) :
    runHandler (rule :: rest) reply cost s = runHandler rest reply cost (s.loadFields reply ws) := by
  simp only [runHandler, bind_apply, get_apply, h, if_false, ha, set_apply]

theorem runHandler_cost (h : evalExpr s s.handlerArgs reply rule.guard ≠ 0) {e : DevExpr} (ha : rule.act = .cost e) :
    runHandler (rule :: rest) reply cost s = runHandler rest reply (cost + evalExpr s s.handlerArgs reply e) s := by
  simp only [runHandler, bind_apply, get_apply, h, if_false, ha]

end

theorem exec_reset_reset {s : State} (h : s.cfg.resetOp = .reset) : exec .reset s = resetStep s := by
  rw [exec, execReset, h]

theorem exec_reset_handler {s : State} {rules : List HandlerRule} (h : s.cfg.resetOp = .handler rules) :
    exec .reset s = instruction .reset (resetHandler rules) s := by
  rw [exec, execReset, h]

/-! ## Bounds on a step of the CPU -/

def allRegs : List RegName := [.a, .b, .dp, .cc, .x, .y, .u, .s, .pc]

theorem subset_allRegs (L : List RegName) : L ⊆ allRegs := fun n _ => by cases n <;> simp [allRegs]

theorem BodyBounds.mono {L W : List RegName} (B : BodyBounds W b) (h : L ⊆ W) : BodyBounds L b where
  toSound := B.toSound
  read8 := B.read8
  read16 := B.read16
  write8 := B.write8
  write16 := B.write16
  drawn := B.drawn
  regs s r hr := B.regs s r fun n hn => hr n fun hl => hn (h hl)

/-- Bounds on whatever the CPU does in a step: those of a body that may write every register, of a callback, of a script
that a handler of opcode 0x3E runs, and of the changes that entries, the reset sequence and a handler make. -/
structure StepBounds (b : Bounds) : Prop extends BodyBounds allRegs b where
  cfg : ∀ {s t}, b.along s t → t.cfg = s.cfg
  callback : ∀ sc args, b.Keeps (runCallback sc args)
  script : ∀ sc args, b.Keeps (runBody runCallback true sc args)
  wait : ∀ s w, b.along s (s.withWait w)
  nmi : ∀ s x, b.along s (s.withNmiArmed x)
  lines : ∀ s l, b.along s (s.withLines l)
  clearFault : ∀ s, b.along s (s.withFault none)
  load : ∀ s reply ws, b.along s (s.loadFields reply ws)

namespace StepBounds
variable (B : StepBounds b)
include B

theorem instr (i : Instr) : InstrBounds i b where
  toBodyBounds := B.toBodyBounds.mono (subset_allRegs _)
  arm _ s := B.nmi s true
  wait w _ s := B.wait s w

theorem runAll (args : CbArgs) (scripts : List Script) : b.Keeps (runAll args scripts) := by
  induction scripts with
  | nil => exact B.pure _
  | cons sc rest ih => exact B.seq (B.callback sc args) fun _ => ih

theorem acknowledge (k : Irq) : b.Keeps (acknowledge k) := B.seq B.get fun _ => B.runAll _ _

theorem clearLatch (k : Irq) : b.Keeps (clearLatch k) := by
  cases k with
  | nmi => exact .modify fun s => B.lines s _
  | firq | irq => exact B.pure _

theorem takeException (e : Entry) : b.Keeps (takeException e) :=
  B.toBodyBounds.takeException e (by simp [allRegs]) (by simp [allRegs]) (by simp [allRegs]) fun k _ => B.acknowledge k

theorem interruptEntry (k : Irq) : b.Finishes (interruptEntry k) :=
  B.last (B.clearLatch k) fun _ => B.last (B.takeException _) fun _ => B.addCycles _

theorem cwaiEntry (k : Irq) : b.Finishes (cwaiEntry k) :=
  B.last (B.clearLatch k) fun _ => B.last (B.takeException _) fun _ => B.last (.modify fun s => B.wait s _) fun _ =>
    B.last B.get fun _ => B.addCycles _

theorem resetSequence : b.Keeps resetSequence := by
  refine B.seq B.get fun _ => B.seq (B.runAll _ _) fun _ => B.seq (.modify fun s => ?_) fun _ =>
    B.seq (B.read16 _) fun _ => B.toBodyBounds.setPc _ (by simp [allRegs])
  have hregs := B.regs s (s.regs.atReset s.draws) fun n hn => absurd (subset_allRegs [n] (List.mem_singleton_self n)) hn
  exact B.trans (B.trans (B.trans (B.trans (B.trans hregs (B.drawn _ _)) (B.wait _ _)) (B.nmi _ _)) (B.lines _ _))
    (B.clearFault _)

theorem runHandler (rules : List HandlerRule) (reply cost : Nat) : b.Keeps (runHandler rules reply cost) := by
  induction rules generalizing reply cost with
  | nil => exact B.pure _
  | cons rule rest ih =>
    intro s
    by_cases hg : evalExpr s s.handlerArgs reply rule.guard = 0
    · rw [runHandler_skip hg]
      exact ih reply cost s
    · cases ha : rule.act with
      | run sc =>
        rw [runHandler_run hg ha]
        exact B.seq (B.script sc _) (fun _ => ih _ cost) s
      | load ws =>
        rw [runHandler_load hg ha]
        have h := B.load s reply ws
        have h' := ih reply cost (s.loadFields reply ws)
        cases e : Machine.runHandler rest reply cost (s.loadFields reply ws) with
        | ok v t => exact B.trans h (by simpa only [e] using h')
        | error x t => exact B.failing_after h (by simpa only [e] using h')
      | cost e =>
        rw [runHandler_cost hg ha]
        exact ih reply _ s

theorem resetHandler (rules : List HandlerRule) : b.Finishes (resetHandler rules) :=
  B.last (B.runHandler rules 0 0) fun _ => B.addCycles _

theorem fetchByte : b.Keeps fetchByte :=
  B.seq B.getRegs fun _ => B.seq (B.read8 _) fun _ =>
    B.seq (B.toBodyBounds.modifyRegs (setPc_writes _) (subset_allRegs _)) fun _ => B.pure _

theorem fetchWord : b.Keeps fetchWord :=
  B.seq B.getRegs fun _ => B.seq (B.read16 _) fun _ =>
    B.seq (B.toBodyBounds.modifyRegs (setPc_writes _) (subset_allRegs _)) fun _ => B.pure _

theorem fetchOpcode : b.Keeps fetchOpcode :=
  B.seq B.fetchByte fun _ => .ite (B.seq B.fetchByte fun _ => B.pure _) (B.pure _)

theorem fetchOffset (o : Offset) : b.Keeps (fetchOffset o) := by
  cases o with
  | none => exact B.pure _
  | byte => exact B.seq B.fetchByte fun _ => B.pure _
  | word => exact B.fetchWord

theorem fetchOperand (form : Form) : b.Keeps (fetchOperand form) := by
  cases form with
  | inh i => exact B.pure _
  | byte f => exact B.seq B.fetchByte fun _ => B.pure _
  | word f => exact B.fetchWord
  | idx f => exact B.seq B.fetchByte fun _ => B.seq (B.fetchOffset _) fun _ => B.pure _

end StepBounds

/-! ## How a step of the CPU ends -/

/-- A step that ends faulted has recorded the device's error, or the value out of range (60_exceptions.md R600). -/
theorem endFaulted_eq_next {pc : Word} {op : Option Nat} {e : Raise} {u t : State} (h : endFaulted pc op e u = .next t) :
    (∃ v, e = .peripheral v ∧ t = u.recordFault .peripheralFault pc (.device pc op v)) ∨
    ∃ a v, e = .outOfRange a v ∧ t = u.recordFault .outOfRange pc (.range a v) := by
  cases e with
  | peripheral v =>
    cases h
    exact .inl ⟨v, rfl, rfl⟩
  | outOfRange a v =>
    cases h
    exact .inr ⟨a, v, rfl, rfl⟩
  | hang => cases h

/-- A state in which a fault has been recorded: at `pc` for an error of the bus or an opcode with no row, and at 0xFFFE for an
error in the reset sequence of opcode 0x3E (60_exceptions.md R600, 70_reset_and_hazards.md R700). -/
inductive Faulted (b : Bounds) (pc : Word) (s : State) : State → Prop where
  | raised {e : Raise} {u t : State} (op : Option Nat) (h : b.failing s e u) (ht : endFaulted pc op e u = .next t) : Faulted b pc s t
  | inReset {e : Raise} {u t : State} (hop : s.cfg.resetOp = .reset) (h : b.failing s e u) (ht : endFaultedReset e u = .next t) :
    Faulted b pc s t
  | unknown {u : State} {op : Nat} (h : b.along s u) (hop : IsOpcode op) (hn : formOf op = none) :
    Faulted b pc s (u.recordFault .unknownOpcode pc (.opcode pc op))

/-- A step that comes to an ending, or records a fault at `pc`, or does not terminate where a callback hangs. -/
def StepEnds (b : Bounds) (pc : Word) (s : State) : Outcome → Prop
  | .next t => b.ending s t ∨ Faulted b pc s t
  | .fault f => f = .callbackHang ∧ ∃ u, b.failing s .hang u
  | .refused _ => False

section
variable {s t : State} {pc : Word}

theorem stepEnds_endFaulted {e : Raise} (h : b.failing s e t) (op : Option Nat) : StepEnds b pc s (endFaulted pc op e t) := by
  cases e with
  | peripheral v => exact .inr (.raised op h rfl)
  | outOfRange a v => exact .inr (.raised op h rfl)
  | hang => exact ⟨rfl, t, h⟩

variable (B : StepBounds b)
include B

theorem Faulted.after (h : b.along s t) {u : State} (hf : Faulted b pc t u) : Faulted b pc s u := by
  cases hf with
  | raised op hf ht => exact .raised op (B.failing_after h hf) ht
  | inReset hop hf ht => exact .inReset (B.cfg h ▸ hop) (B.failing_after h hf) ht
  | unknown hu hop hn => exact .unknown (B.trans h hu) hop hn

/-- What a step does after a part that keeps the bounds. -/
theorem StepEnds.after (h : b.along s t) {o : Outcome} (ho : StepEnds b pc t o) : StepEnds b pc s o := by
  match o with
  | .next u => exact ho.imp (B.ending_after h) (.after B h)
  | .fault f =>
    obtain ⟨hf, u, hu⟩ := ho
    exact ⟨hf, u, B.failing_after h hu⟩

theorem instruction_stepEnds {i : Instr} {body : M Unit} (hbody : b.Finishes body) (s : State) :
    StepEnds b (opAddr i s) s (instruction i body s) := by
  cases h : body s with
  | ok v t =>
    rw [instruction_ok h]
    exact .inl (B.cost _ (hbody.ok h))
  | error e t =>
    rw [instruction_error h]
    exact stepEnds_endFaulted (hbody.error h) _

/-- Every instruction has a body within the bounds, opcode 0x3E apart where it is the reset sequence. -/
theorem exec_eq_instruction {i : Instr} {s : State} (h : i = .reset → s.cfg.resetOp ≠ .reset) :
    ∃ body, b.Finishes body ∧ exec i s = instruction i body s := by
  obtain ⟨body, hbody, hexec⟩ := bodyKeepsBounds i
  by_cases hnop : i = .reset → s.cfg.resetOp = .nop
  · exact ⟨body, hbody b (B.instr i), hexec s hnop⟩
  · obtain ⟨rfl, hop⟩ := Classical.not_imp.1 hnop
    cases hr : s.cfg.resetOp with
    | nop => exact absurd hr hop
    | reset => exact absurd hr (h rfl)
    | handler rules => exact ⟨resetHandler rules, B.resetHandler rules, exec_reset_handler hr⟩

theorem resetStep_stepEnds (hop : s.cfg.resetOp = .reset) : StepEnds b pc s (resetStep s) := by
  rw [resetStep]
  cases h : resetSequence s with
  | ok v t => exact .inl (B.along_ending (B.resetSequence.ok h))
  | error e t =>
    have hf := B.resetSequence.error h
    cases e with
    | peripheral v => exact .inr (.inReset hop hf rfl)
    | outOfRange a v => exact .inr (.inReset hop hf rfl)
    | hang => exact ⟨rfl, t, hf⟩

theorem exec_stepEnds (i : Instr) (s : State) : StepEnds b (opAddr i s) s (exec i s) := by
  by_cases h : i = .reset → s.cfg.resetOp ≠ .reset
  · obtain ⟨body, hbody, hexec⟩ := exec_eq_instruction B h
    rw [hexec]
    exact instruction_stepEnds B hbody s
  · obtain ⟨rfl, hop⟩ := Classical.not_imp.1 h
    have hr := Classical.not_not.1 hop
    rw [exec_reset_reset hr]
    exact resetStep_stepEnds B hr

theorem executeOne_stepEnds (s : State) : StepEnds b s.regs.pc s (executeOne s) := by
  cases ho : fetchOpcode s with
  | error e t =>
    simp only [executeOne, ho]
    exact stepEnds_endFaulted (B.fetchOpcode.error ho) _
  | ok op u =>
    have hu := B.fetchOpcode.ok ho
    cases hform : formOf op with
    | none =>
      rw [executeOne_unknown ho hform]
      exact .inr (.unknown hu (isOpcode_of_fetchOpcode ho) hform)
    | some form =>
      cases hbs : fetchOperand form u with
      | error e t =>
        simp only [executeOne, ho, hform, hbs]
        exact stepEnds_endFaulted (B.failing_after hu ((B.fetchOperand form).error hbs)) _
      | ok bs t =>
        obtain ⟨i, -, hr, he⟩ := executeOne_fetched ho hform hbs
        rw [he, ← opAddr_of_fetched hr]
        exact (exec_stepEnds B i t).after B (B.trans hu ((B.fetchOperand form).ok hbs))

omit B in
theorem entryStep_stepEnds {entry : M Unit} (h : b.Finishes entry) (s : State) : StepEnds b s.regs.pc s (entryStep entry s) := by
  rw [entryStep]
  cases he : entry s with
  | ok v t => exact .inl (h.ok he)
  | error e t => exact stepEnds_endFaulted (h.error he) _

theorem serve_stepEnds (s : State) : StepEnds b s.regs.pc s (serve s) := by
  rw [serve]
  cases s.pending with
  | some k => exact entryStep_stepEnds (B.interruptEntry k) s
  | none => exact executeOne_stepEnds B s

/-- How a step of a CPU that is not faulted ends. -/
theorem cpuStep_stepEnds {s : State} (hf : s.fault = none) : StepEnds b s.regs.pc s (cpuStep s) := by
  have idle : StepEnds b s.regs.pc s (.next (s.addCycles 1)) := .inl (B.cost 1 (B.ending_refl s))
  cases hw : s.wait with
  | none =>
    simp only [cpuStep, hf, hw]
    exact serve_stepEnds B s
  | cwai =>
    simp only [cpuStep, hf, hw, cwaiStep]
    cases s.pending with
    | some k => exact entryStep_stepEnds (B.cwaiEntry k) s
    | none => exact idle
  | sync =>
    simp only [cpuStep, hf, hw, syncStep]
    split
    · exact (serve_stepEnds B (s.withWait .none)).after B (B.wait s .none)
    · exact idle

end

theorem cpuStep_halted {s : State} (hf : s.fault ≠ none) : cpuStep s = .fault .cpuHalted := by
  rw [cpuStep]
  cases h : s.fault with
  | none => exact absurd h hf
  | some _ => rfl

/-! ## One relation -/

/-- The relation allows everything a step of the CPU may do. -/
structure CpuClosed (R : State → State → Prop) : Prop extends BodyClosed R where
  cfg : ∀ {s t}, R s t → t.cfg = s.cfg
  fault : ∀ s f, R s (s.withFault f)
  running : ∀ s x, R s (s.withSched { s.sched with running := x })
  lastCall : ∀ s i v, R s (s.withSched { s.sched with lastCall := s.sched.lastCall.set i v })

namespace CpuClosed
variable {R : State → State → Prop} (C : CpuClosed R)
include C

theorem setField (s : State) (v : Nat) (f : MachineField) : R s (s.setField v f) := by
  cases f with
  | a | b | dp | cc | x | y | u | s | pc => exact C.regs s _
  | wait => exact C.wait s _
  | nmiArmed => exact C.nmi s _
  | nmiLatch => exact C.lines s _
  | running => exact C.running s _
  | lastCall i => exact C.lastCall s i v

theorem foldl_setField (g : DevExpr → Nat) (ws : List (MachineField × DevExpr)) (s : State) :
    R s (ws.foldl (fun t w => t.setField (g w.2) w.1) s) := by
  induction ws generalizing s with
  | nil => exact C.refl s
  | cons w rest ih => exact C.trans (C.setField s (g w.2) w.1) (ih _)

theorem stepBounds : StepBounds (Bounds.ofRel R) where
  toBodyBounds := C.toBusClosed.bodyBounds C.access C.cycles fun s r _ => C.regs s r
  cfg := C.cfg
  callback sc args := (runCallback_respects C.toBusClosed sc args).ends
  script sc args := (runBody_respects C.toBusClosed (runCallback_respects C.toBusClosed) (fun _ => C.access) sc args).ends
  wait := C.wait
  nmi := C.nmi
  lines := C.lines
  clearFault s := C.fault s none
  load s _ ws := C.foldl_setField _ ws s

theorem recordFault (s : State) (k : FaultKind) (pc : Word) (info : FaultInfo) : R s (s.recordFault k pc info) :=
  C.trans (C.fault s _) (C.running _ _)

theorem endFaulted {pc : Word} {op : Option Nat} {e : Raise} {s t : State} (h : endFaulted pc op e s = .next t) : R s t := by
  cases e with
  | peripheral v | outOfRange a v =>
    cases h
    exact C.recordFault ..
  | hang => cases h

theorem endFaultedReset {e : Raise} {s t : State} (h : endFaultedReset e s = .next t) : R s t := by
  cases e with
  | peripheral v | outOfRange a v =>
    cases h
    exact C.recordFault ..
  | hang => cases h

theorem faulted {pc : Word} {s t : State} (h : Faulted (Bounds.ofRel R) pc s t) : R s t := by
  cases h with
  | raised op h ht => exact C.trans h (C.endFaulted ht)
  | inReset _ h ht => exact C.trans h (C.endFaultedReset ht)
  | unknown h => exact C.trans h (C.recordFault ..)

theorem stepEnds {pc : Word} {s t : State} (h : StepEnds (Bounds.ofRel R) pc s (.next t)) : R s t := h.elim id C.faulted

/-- A step of the CPU stays within the relation. -/
theorem cpuStep {s t : State} (h : cpuStep s = .next t) : R s t := by
  by_cases hf : s.fault = none
  · exact C.stepEnds (h ▸ cpuStep_stepEnds C.stepBounds hf)
  · cases (cpuStep_halted hf).symm.trans h

theorem resetStep {s t : State} (h : resetStep s = .next t) : R s t := by
  rw [Machine.resetStep] at h
  split at h
  · next hr =>
    cases h
    exact C.stepBounds.resetSequence.ok hr
  · next hr => exact C.trans (C.stepBounds.resetSequence.error hr) (C.endFaultedReset h)

end CpuClosed
end Sys2Proof.Machine

/-! SUPPORT. Three rules of the whole machine: a step of the CPU changes no byte outside the RAM window, every step keeps the
machine invariant, and no step but a restore lowers `cycles` (20_memory.md R81 to R84, R88; 10_state.md R45, R53;
60_exceptions.md R660). -/

namespace Sys2Proof.Machine

/-! ## The store outside the RAM window (20_memory.md R84) -/

/-- The parameters and every byte outside the RAM window are as before. -/
def RomKept (s t : State) : Prop :=
  t.cfg = s.cfg ∧ ∀ a, region s.cfg a ≠ .ram → t.mem.read a.toNat = s.mem.read a.toNat

theorem romKept_of_same {s t : State} (hcfg : t.cfg = s.cfg) (hmem : t.mem = s.mem) : RomKept s t :=
  ⟨hcfg, fun _ _ => by rw [hmem]⟩

theorem romKept_closed : CpuClosed RomKept where
  refl _ := romKept_of_same rfl rfl
  trans := fun ⟨h1, h2⟩ ⟨h3, h4⟩ => ⟨h3.trans h1, fun a ha => (h4 a (h1 ▸ ha)).trans (h2 a ha)⟩
  store s a v := ⟨s.storeByte_cfg a v, fun _ hb => s.storeByte_outside a v hb⟩
  dev _ _ := romKept_of_same rfl rfl
  lines _ _ := romKept_of_same rfl rfl
  host _ _ := romKept_of_same rfl rfl
  drawn _ _ := romKept_of_same rfl rfl
  regs _ _ := romKept_of_same rfl rfl
  cycles _ _ := romKept_of_same rfl rfl
  wait _ _ := romKept_of_same rfl rfl
  nmi _ _ := romKept_of_same rfl rfl
  cfg h := h.1
  fault _ _ := romKept_of_same rfl rfl
  running _ _ := romKept_of_same rfl rfl
  lastCall _ _ _ := romKept_of_same rfl rfl

/-- Settles O51: the relation `RomKept` allows everything a step of the CPU may do, a store of the bus included, which is
dropped outside RAM. -/
theorem romUnchanged : Obligations.RomUnchanged := by
  intro s t a h ha
  obtain ⟨hcfg, hmem⟩ := romKept_closed.cpuStep h
  refine ⟨hmem a ha, ?_⟩
  rw [State.backing, State.backing, hcfg, hmem a ha]

/-! ## A turn of the scheduler, a move of the host, the start of a run -/

/-- However a computation ends, it ends in such a state. -/
def EndsIn {α : Type} (P : State → Prop) : EStateM.Result Raise State α → Prop
  | .ok _ t => P t
  | .error _ t => P t

theorem EndsIn.imp {α : Type} {P Q : State → Prop} {r : EStateM.Result Raise State α} (h : EndsIn P r)
    (hPQ : ∀ {t}, P t → Q t) : EndsIn Q r := by
  cases r <;> exact hPQ h

section
variable {i : Nat} {cb : SyncCallback} {s t : State}

theorem fireSync_early (h : s.cycles < cellAt s.sched.lastCall i + cb.period) : fireSync i cb s = .ok ⟨⟩ s := by
  rw [fireSync, bind_ok (get_apply s), if_neg (Nat.not_le.2 h)]
  rfl

theorem fireSync_ok {v : Option Nat} (hdue : cellAt s.sched.lastCall i + cb.period ≤ s.cycles)
    (h : runCallback cb.script { value := s.cycles - cellAt s.sched.lastCall i, cycles := s.cycles } s = .ok v t) :
    fireSync i cb s = .ok ⟨⟩ (t.withSched { t.sched with lastCall := setCellAt t.sched.lastCall i t.cycles }) := by
  rw [fireSync, bind_ok (get_apply s), if_pos hdue, bind_ok h]
  rfl

theorem fireSync_error {e : Raise} (hdue : cellAt s.sched.lastCall i + cb.period ≤ s.cycles)
    (h : runCallback cb.script { value := s.cycles - cellAt s.sched.lastCall i, cycles := s.cycles } s = .error e t) :
    fireSync i cb s = .error e t := by
  rw [fireSync, bind_ok (get_apply s), if_pos hdue, bind_error h]

end

/-- The relation allows everything a boundary may do: what callbacks may do, the record of a sync callback's call, the bytes of
a request, the next phase, and a fault recorded. -/
structure BoundaryClosed (R : State → State → Prop) : Prop extends BusClosed R where
  cfg : ∀ {s t}, R s t → t.cfg = s.cfg
  fired : ∀ s i, i < s.cfg.syncCallbacks.length →
    R s (s.withSched { s.sched with lastCall := setCellAt s.sched.lastCall i s.cycles })
  poke : ∀ s a bs, fitsSpace a bs.length = true → R s (s.withMem (s.mem.load a.toNat bs))
  phase : ∀ s p, R s (s.withSched { s.sched with phase := p })
  record : ∀ s k pc info, R s (s.recordFault k pc info)

namespace BoundaryClosed
variable {R : State → State → Prop} (C : BoundaryClosed R)
include C

/-- A sync callback fires or does not (60_exceptions.md R661). -/
theorem fireSync {i : Nat} {cb : SyncCallback} {s : State} (hi : i < s.cfg.syncCallbacks.length) :
    EndsIn (R s) (fireSync i cb s) := by
  by_cases hdue : cellAt s.sched.lastCall i + cb.period ≤ s.cycles
  · cases h : runCallback cb.script { value := s.cycles - cellAt s.sched.lastCall i, cycles := s.cycles } s with
    | ok v t =>
      have ht := (runCallback_respects C.toBusClosed _ _).ok h
      rw [fireSync_ok hdue h]
      exact C.trans ht (C.fired t i (C.cfg ht ▸ hi))
    | error e t =>
      rw [fireSync_error hdue h]
      exact (runCallback_respects C.toBusClosed _ _).error h
  · rw [fireSync_early (Nat.lt_of_not_le hdue)]
    exact C.refl s

theorem fireSyncs {i : Nat} {cbs : List SyncCallback} {s : State} (hi : i + cbs.length ≤ s.cfg.syncCallbacks.length) :
    EndsIn (R s) (fireSyncs i cbs s) := by
  induction cbs generalizing i s with
  | nil => exact C.refl s
  | cons cb rest ih =>
    rw [List.length_cons] at hi
    have h := C.fireSync (cb := cb) (show i < s.cfg.syncCallbacks.length by omega)
    rw [Machine.fireSyncs]
    cases e : Machine.fireSync i cb s with
    | ok v t =>
      rw [e] at h
      rw [bind_ok e]
      exact (ih (s := t) (by rw [C.cfg h]; omega)).imp fun hu => C.trans h hu
    | error x t =>
      rw [e] at h
      rw [bind_error e]
      exact h

theorem serveRequest (r : Request) (s : State) : R s (serveRequest r s) := by
  cases r with
  | peek a n =>
    rw [Machine.serveRequest]
    split <;> exact C.host s _
  | poke a bytes =>
    rw [Machine.serveRequest]
    split
    · next h => exact C.trans (C.poke s a _ (by simpa using (Bool.and_eq_true_iff.1 h).1)) (C.host _ _)
    · exact C.host s _

theorem serveRequests (rs : List Request) (s : State) : R s (serveRequests rs s) := by
  induction rs generalizing s with
  | nil => exact C.refl s
  | cons r rest ih => exact C.trans (C.serveRequest r s) (ih _)

theorem nextBurst (s : State) : R s s.nextBurst := by
  rw [State.nextBurst]
  split
  · exact C.trans (C.phase s _) (C.drawn _ 1)
  · exact C.phase s _

theorem served (s : State) : R s (s.serveHost.postStatus).nextBurst :=
  C.trans (C.trans (C.host s _) (C.serveRequests _ _)) (C.trans (C.host _ _) (C.nextBurst _))

theorem endRun {o : Outcome} {s t : State} (ho : ∀ u, o = .next u → R s u) (h : endRun o = .next t) : R s t := by
  cases o with
  | next u =>
    cases h
    exact C.trans (ho u rfl) (C.phase u _)
  | fault f => cases h
  | refused r => cases h

theorem boundaryStep {s t : State} (h : boundaryStep s = .next t) : R s t := by
  have hb : EndsIn (R s) (Machine.fireSyncs 0 s.cfg.syncCallbacks s) := C.fireSyncs (Nat.le_of_eq (Nat.zero_add _))
  rw [Machine.boundaryStep, boundary, bind_ok (get_apply s), bind_apply] at h
  cases e : Machine.fireSyncs 0 s.cfg.syncCallbacks s with
  | ok v u =>
    rw [e] at h hb
    cases h
    exact C.trans hb (C.served u)
  | error x u =>
    rw [e] at h hb
    refine C.endRun (fun w hw => ?_) h
    rcases endFaulted_eq_next hw with ⟨v, -, rfl⟩ | ⟨a, v, -, rfl⟩ <;> exact C.trans hb (C.record ..)

end BoundaryClosed

/-- The relation allows everything a step may do, the restore of a snapshot apart: what the CPU may do, what a boundary does,
and what the host's moves do. -/
structure StepClosed (R : State → State → Prop) : Prop extends CpuClosed R, BoundaryClosed R where
  agenda : ∀ s l, R s (s.withAgenda l)

namespace StepClosed
variable {R : State → State → Prop} (C : StepClosed R)
include C

theorem countedStep {p : Phase} {s t : State} (h : countedStep p s = .next t) : R s t := by
  rw [Machine.countedStep] at h
  split at h
  · cases h
    exact C.phase s p
  · exact C.trans (C.phase s p) (C.cpuStep h)

theorem turn {s t : State} (h : turn s = .next t) : R s t := by
  rw [Machine.turn] at h
  split at h
  · exact C.cpuStep h
  · exact C.countedStep h
  · exact C.countedStep h
  · exact C.boundaryStep h
  · cases h
  · cases h

theorem hostMove {m : HostMove} {s t : State} (h : hostMove m s = .next t) (hm : ∀ snap, m ≠ .restore snap) : R s t := by
  cases m with
  | keyDown | request | takeDisplay | takeStatus | takeResponse =>
    cases h
    exact C.host s _
  | stop =>
    cases h
    exact C.running s false
  | reset => exact C.resetStep h
  | restore snap => exact absurd rfl (hm snap)

/-- A step stays within the relation, unless it is the restore of a snapshot. -/
theorem step {s t : State} (h : step s = .next t) (hs : ∀ snap rest, s.agenda ≠ Turn.host (.restore snap) :: rest) : R s t := by
  rw [Machine.step] at h
  split at h
  · exact C.turn h
  · next m rest hag =>
    split at h
    · refine C.trans (C.agenda s rest) ?_
      cases m with
      | cpu => exact C.turn h
      | host m => exact C.hostMove h fun snap e => hs snap rest (e ▸ hag)
      | startFree =>
        cases h
        exact C.nextBurst _
      | startBounded k =>
        cases h
        exact C.phase _ _
    · exact C.turn h

end StepClosed

theorem step_restore {s t : State} {snap : Snapshot} {rest : List Turn} (hag : s.agenda = .host (.restore snap) :: rest)
    (h : step s = .next t) : t = (s.withAgenda rest).restore snap ∨ turn s = .next t := by
  simp only [step, hag] at h
  split at h
  · cases h
    exact .inl rfl
  · exact .inr h

/-! ## The parameters and `cycles` -/

/-- The parameters are as before and `cycles` has not gone back. -/
def CyclesGrow (s t : State) : Prop := t.cfg = s.cfg ∧ s.cycles ≤ t.cycles

theorem cyclesGrow_of_same {s t : State} (hcfg : t.cfg = s.cfg) (hcycles : t.cycles = s.cycles) : CyclesGrow s t :=
  ⟨hcfg, Nat.le_of_eq hcycles.symm⟩

theorem cyclesGrow_closed : StepClosed CyclesGrow where
  refl _ := cyclesGrow_of_same rfl rfl
  trans := fun ⟨h1, h2⟩ ⟨h3, h4⟩ => ⟨h3.trans h1, h2.trans h4⟩
  store s a v := cyclesGrow_of_same (s.storeByte_cfg a v) (s.storeByte_cycles a v)
  dev _ _ := cyclesGrow_of_same rfl rfl
  lines _ _ := cyclesGrow_of_same rfl rfl
  host _ _ := cyclesGrow_of_same rfl rfl
  drawn _ _ := cyclesGrow_of_same rfl rfl
  regs _ _ := cyclesGrow_of_same rfl rfl
  cycles _ n := ⟨rfl, Nat.le_add_right _ n⟩
  wait _ _ := cyclesGrow_of_same rfl rfl
  nmi _ _ := cyclesGrow_of_same rfl rfl
  cfg h := h.1
  fault _ _ := cyclesGrow_of_same rfl rfl
  running _ _ := cyclesGrow_of_same rfl rfl
  lastCall _ _ _ := cyclesGrow_of_same rfl rfl
  record _ _ _ _ := cyclesGrow_of_same rfl rfl
  phase _ _ := cyclesGrow_of_same rfl rfl
  agenda _ _ := cyclesGrow_of_same rfl rfl
  poke _ _ _ _ := cyclesGrow_of_same rfl rfl
  fired _ _ _ := cyclesGrow_of_same rfl rfl

/-- Settles O52: every step but a restore stays within `CyclesGrow`, and a restore writes no parameter. -/
theorem configurationFixedCyclesGrow : Obligations.ConfigurationFixedCyclesGrow := by
  intro s t h
  refine ⟨?_, fun hs => (cyclesGrow_closed.step h hs).2⟩
  by_cases hs : ∀ snap rest, s.agenda ≠ Turn.host (.restore snap) :: rest
  · exact (cyclesGrow_closed.step h hs).1
  · push Not at hs
    obtain ⟨snap, rest, hag⟩ := hs
    rcases step_restore hag h with rfl | ht
    · rfl
    · exact (cyclesGrow_closed.turn ht).1

/-! ## The machine invariant -/

/-- The parameters are as before and the invariant, where it held, holds. -/
def InvKept (s t : State) : Prop := t.cfg = s.cfg ∧ (s.Inv → t.Inv)

theorem invKept_of_same {s t : State} (hcfg : t.cfg = s.cfg) (hmem : s.mem.wf = true → t.mem.wf = true)
    (hcalls : t.sched.lastCall.length = s.sched.lastCall.length) : InvKept s t :=
  ⟨hcfg, fun ⟨hm, hp, hl⟩ => ⟨hmem hm, hcfg ▸ hp, hcalls.trans (hcfg ▸ hl)⟩⟩

theorem length_setCellAt {l : List Nat} {i : Nat} (v : Nat) (h : i < l.length) : (setCellAt l i v).length = l.length := by
  induction l generalizing i with
  | nil => exact absurd h (Nat.not_lt_zero i)
  | cons x xs ih =>
    cases i with
    | zero => rfl
    | succ k => exact congrArg Nat.succ (ih (Nat.lt_of_succ_lt_succ h))

theorem invKept_fired (s : State) {i : Nat} (hi : i < s.cfg.syncCallbacks.length) :
    InvKept s (s.withSched { s.sched with lastCall := setCellAt s.sched.lastCall i s.cycles }) :=
  ⟨rfl, fun ⟨hm, hp, hl⟩ => ⟨hm, hp, (length_setCellAt s.cycles (hl.symm ▸ hi)).trans hl⟩⟩

theorem invKept_closed : StepClosed InvKept where
  refl _ := invKept_of_same rfl id rfl
  trans := fun ⟨h1, h2⟩ ⟨h3, h4⟩ => ⟨h3.trans h1, h4 ∘ h2⟩
  store s a v := invKept_of_same (s.storeByte_cfg a v) (fun h => State.storeByte_wf h a v) (by rw [State.storeByte_sched])
  dev _ _ := invKept_of_same rfl id rfl
  lines _ _ := invKept_of_same rfl id rfl
  host _ _ := invKept_of_same rfl id rfl
  drawn _ _ := invKept_of_same rfl id rfl
  regs _ _ := invKept_of_same rfl id rfl
  cycles _ _ := invKept_of_same rfl id rfl
  wait _ _ := invKept_of_same rfl id rfl
  nmi _ _ := invKept_of_same rfl id rfl
  cfg h := h.1
  fault _ _ := invKept_of_same rfl id rfl
  running _ _ := invKept_of_same rfl id rfl
  lastCall _ _ _ := invKept_of_same rfl id (List.length_set ..)
  record _ _ _ _ := invKept_of_same rfl id rfl
  phase _ _ := invKept_of_same rfl id rfl
  agenda _ _ := invKept_of_same rfl id rfl
  poke _ _ _ h := invKept_of_same rfl (fun hm => Memory.wf_load hm (of_decide_eq_true h)) rfl
  fired s _ hi := invKept_fired s hi

theorem invKept_restore (s : State) (snap : Snapshot) : InvKept s (s.restore snap) :=
  invKept_of_same rfl (State.restore_mem_wf snap) rfl

/-- Settles O53: every step but a restore stays within `InvKept`, and a restored snapshot's bytes are written one by one, which
keeps the canonical form. -/
theorem invariantKept : Obligations.InvariantKept := by
  intro s t hinv h
  by_cases hs : ∀ snap rest, s.agenda ≠ Turn.host (.restore snap) :: rest
  · exact (invKept_closed.step h hs).2 hinv
  · push Not at hs
    obtain ⟨snap, rest, hag⟩ := hs
    rcases step_restore hag h with rfl | ht
    · exact (invKept_closed.trans (invKept_closed.agenda s rest) (invKept_restore _ snap)).2 hinv
    · exact (invKept_closed.turn ht).2 hinv

end Sys2Proof.Machine

/-! SUPPORT. What an instruction leaves alone, on any machine: the registers it does not name, the NMI arming, the waits and the
rest of the system state (10_state.md R33 to R35, R43, R46; 60_exceptions.md R613, R681). -/

namespace Sys2Proof.Machine

section
variable {i : Instr} {s t : State}

theorem exec_ending_or_fault {b : Bounds} (B : InstrBounds i b) (hnop : i = .reset → s.cfg.resetOp = .nop)
    (h : exec i s = .next t) :
    b.ending s t ∨ ∃ e u k info, b.failing s e u ∧ t = u.recordFault k (opAddr i s) info := by
  have he := exec_ends B hnop
  rw [h] at he
  rcases he with he | ⟨e, u, hu, hf⟩
  · exact .inl he
  · rcases endFaulted_eq_next hf with ⟨v, -, rfl⟩ | ⟨a, v, -, rfl⟩ <;> exact .inr ⟨e, u, _, _, hu, rfl⟩

/-- An instruction that completes comes to an ending. -/
theorem exec_ending {b : Bounds} (B : InstrBounds i b) (hnop : i = .reset → s.cfg.resetOp = .nop)
    (h : exec i s = .next t) (hf : t.fault = none) : b.ending s t := by
  rcases exec_ending_or_fault B hnop h with he | ⟨e, u, k, info, -, rfl⟩
  · exact he
  · cases hf

/-- An instruction stays within a relation that bounds it and allows a fault to be recorded. -/
theorem exec_rel {R : State → State → Prop} (B : InstrBounds i (Bounds.ofRel R))
    (hrec : ∀ s k pc info, R s (s.recordFault k pc info)) (hnop : i = .reset → s.cfg.resetOp = .nop)
    (h : exec i s = .next t) : R s t := by
  rcases exec_ending_or_fault B hnop h with he | ⟨e, u, k, info, hu, rfl⟩
  · exact he
  · exact B.trans hu (hrec u k _ info)

end

/-! ## Registers -/

/-- The register holds the same value. -/
def ValueKept (n : RegName) (s t : State) : Prop := t.regs.value n = s.regs.value n

theorem valueKept_of_regs {n : RegName} {s t : State} (h : t.regs = s.regs) : ValueKept n s t := by rw [ValueKept, h]

theorem valueKept_bounds {n : RegName} {i : Instr} (hn : n ∉ written i) : InstrBounds i (Bounds.ofRel (ValueKept n)) where
  toBodyBounds :=
    BusClosed.bodyBounds
      { refl := fun _ => rfl
        trans := fun h1 h2 => Eq.trans h2 h1
        store := fun s a v => valueKept_of_regs (s.storeByte_regs a v)
        dev := fun _ _ => rfl
        lines := fun _ _ => rfl
        host := fun _ _ => rfl
        drawn := fun _ _ => rfl }
      (fun s k => valueKept_of_regs (s.access_regs k)) (fun _ _ => rfl) fun _ _ h => h n hn
  arm _ _ := rfl
  wait _ _ _ := rfl

/-- Settles O49: a register outside `written i` is kept along the body of i (`bodyKeepsBounds`), however it ends. -/
theorem registerFrame : Obligations.RegisterFrame := fun _ _ _ _ hnop h hn =>
  exec_rel (valueKept_bounds hn) (fun _ _ _ _ => rfl) hnop h

/-! ## The system state -/

/-- A relation that looks at no register, no cycle and nothing a callback may change bounds an instruction. -/
theorem InstrBounds.of_system {i : Instr} {R : State → State → Prop} (S : Stable R)
    (hsame : ∀ {s t : State}, t.cfg = s.cfg → t.agenda = s.agenda → t.sched = s.sched → t.fault = s.fault → t.wait = s.wait →
      t.nmiArmed = s.nmiArmed → R s t)
    (arm : armsNmi i = true → ∀ s, R s (s.withNmiArmed true)) (wait : ∀ w, startsWait i = some w → ∀ s, R s (s.withWait w)) :
    InstrBounds i (Bounds.ofRel R) where
  toBodyBounds :=
    BusClosed.bodyBounds
      { toStable := S
        store := fun s a v => hsame (by simp) (by simp) (by simp) (by simp) (by simp) (by simp)
        dev := fun _ _ => hsame rfl rfl rfl rfl rfl rfl
        lines := fun _ _ => hsame rfl rfl rfl rfl rfl rfl
        host := fun _ _ => hsame rfl rfl rfl rfl rfl rfl
        drawn := fun _ _ => hsame rfl rfl rfl rfl rfl rfl }
      (fun s n => hsame (by simp) (by simp) (by simp) (by simp) (by simp) (by simp)) (fun _ _ => hsame rfl rfl rfl rfl rfl rfl)
      fun _ _ _ => hsame rfl rfl rfl rfl rfl rfl
  arm := arm
  wait := wait

/-- A computation that leaves such a state whenever it comes to its end. -/
def Leaves {α : Type} (P : State → Prop) (x : M α) : Prop := ∀ s v t, x s = .ok v t → P t

theorem Leaves.after {α β : Type} {P : State → Prop} {x : M α} {f : α → M β} (hf : ∀ v, Leaves P (f v)) : Leaves P (x >>= f) := by
  intro s v t h
  rw [bind_apply] at h
  split at h
  · exact hf _ _ _ _ h
  · cases h

theorem leaves_of_apply {P : State → Prop} {x : M Unit} {f : State → State} (hx : ∀ s, x s = .ok ⟨⟩ (f s)) (hf : ∀ s, P (f s)) :
    Leaves P x := by
  intro s v t h
  obtain rfl : f s = t := by
    have := (hx s).symm.trans h
    cases this
    rfl
  exact hf s

theorem exec_leaves {i : Instr} {body : M Unit} {P : State → Prop} (hP : ∀ s n, P s → P (s.addCycles n)) (hbody : Leaves P body)
    {s t : State} (h : instruction i body s = .next t) (hf : t.fault = none) : P t := by
  cases hb : body s with
  | ok v u =>
    rw [instruction_ok hb] at h
    cases h
    exact hP u _ (hbody _ _ _ hb)
  | error e u =>
    rw [instruction_error hb] at h
    rcases endFaulted_eq_next h with ⟨v, -, rfl⟩ | ⟨a, v, -, rfl⟩ <;> cases hf

/-- NMI is armed where an instruction that loads S completes (60_exceptions.md R613). -/
theorem exec_arms {i : Instr} (hi : armsNmi i = true) {s t : State} (h : exec i s = .next t) (hf : t.fault = none) :
    t.nmiArmed = true := by
  have arms : Leaves (fun u => u.nmiArmed = true) (armNmi .s) := leaves_of_apply armNmi_s fun _ => rfl
  have hP : ∀ (u : State) n, u.nmiArmed = true → (u.addCycles n).nmiArmed = true := fun _ _ h => h
  cases i with
  | lds src => exact exec_leaves hP (body := load16 .s src) (.after fun _ => .after fun _ => .after fun _ => arms) h hf
  | leas x => exact exec_leaves hP (body := lea .s x) (.after fun _ => .after fun _ => arms) h hf
  | tfr r1 r2 =>
    exact exec_leaves hP (leaves_of_apply (fun u => transfer_apply u r1 r2) fun u => by
      rw [show Sel.isS r2 = true from hi]
      exact Bool.or_true _) h hf
  | exg r1 r2 =>
    exact exec_leaves hP (leaves_of_apply (fun u => exchange_apply u r1 r2) fun u => by
      show (u.nmiArmed || Sel.isS r1 || Sel.isS r2) = true
      rw [Bool.or_assoc, show (Sel.isS r1 || Sel.isS r2) = true from hi]
      exact Bool.or_true _) h hf
  | pulu m =>
    have last : Leaves (fun u => u.nmiArmed = true) (whenBit m 6 (armNmi (Stk.other .u))) := by
      rw [whenBit, if_pos (show m.getLsbD 6 = true from hi)]
      exact arms
    exact exec_leaves hP (body := pullMask .u m) (.after fun _ => .after fun _ => .after fun _ => .after fun _ => .after fun _ =>
      .after fun _ => .after fun _ => .after fun _ => last) h hf
  | _ => cases hi

/-- CWAI and SYNC that complete have started their wait (47_interrupt_ops.md R540, R542). -/
theorem exec_waits {i : Instr} {w : Wait} (hi : startsWait i = some w) {s t : State} (h : exec i s = .next t)
    (hf : t.fault = none) : t.wait = w := by
  have hP : ∀ (u : State) n, u.wait = w → (u.addCycles n).wait = w := fun _ _ h => h
  have waits : ∀ w', some w' = some w → Leaves (fun u => u.wait = w) (modify fun u => u.withWait w') := fun w' hw =>
    leaves_of_apply (f := fun u => u.withWait w') (fun _ => rfl) fun _ => Option.some.inj hw
  cases i with
  | cwai m => exact exec_leaves hP (body := clearAndWait m) (.after fun _ => .after fun _ => waits .cwai hi) h hf
  | sync => exact exec_leaves hP (waits .sync hi) h hf
  | _ => cases hi

/-- What no instruction changes: the parameters, the turns, the sync callbacks' calls and the phase. -/
structure FixedKept (s t : State) : Prop where
  cfg : t.cfg = s.cfg
  agenda : t.agenda = s.agenda
  lastCall : t.sched.lastCall = s.sched.lastCall
  phase : t.sched.phase = s.sched.phase

theorem fixedKept_stable : Stable FixedKept where
  refl _ := ⟨rfl, rfl, rfl, rfl⟩
  trans := fun ⟨a, b, c, d⟩ ⟨e, f, g, h⟩ => ⟨e.trans a, f.trans b, g.trans c, h.trans d⟩

/-! ### On a machine with no bus callback -/

/-- What an instruction leaves alone where no device answers. -/
structure DevicesKept (s t : State) : Prop where
  cfg : t.cfg = s.cfg
  dev : t.dev = s.dev
  lines : t.lines = s.lines
  host : t.host = s.host
  fault : t.fault = s.fault
  sched : t.sched = s.sched

/-- On a machine with no bus callback nothing stops a computation at an error, and it leaves the devices alone. -/
def quietBounds : Bounds :=
  ⟨fun s t => s.Quiet → DevicesKept s t, fun s t => s.Quiet → DevicesKept s t, fun s _ _ => ¬s.Quiet⟩

theorem DevicesKept.trans {s t u : State} (h : DevicesKept s t) (h' : DevicesKept t u) : DevicesKept s u :=
  ⟨h'.cfg.trans h.cfg, h'.dev.trans h.dev, h'.lines.trans h.lines, h'.host.trans h.host, h'.fault.trans h.fault,
    h'.sched.trans h.sched⟩

theorem quietBounds_sound : quietBounds.Sound where
  refl _ _ := ⟨rfl, rfl, rfl, rfl, rfl, rfl⟩
  trans h h' q := (h q).trans (h' (q.of_cfg (h q).cfg))
  ending_refl _ _ := ⟨rfl, rfl, rfl, rfl, rfl, rfl⟩
  ending_after h h' q := (h q).trans (h' (q.of_cfg (h q).cfg))
  failing_after h h' q := h' (q.of_cfg (h q).cfg)
  cost _ h q := (h q).trans ⟨rfl, rfl, rfl, rfl, rfl, rfl⟩

theorem quietBounds_keeps {α : Type} {x : M α} {v : State → α} {f : State → State} (hx : ∀ s : State, s.Quiet → x s = .ok (v s) (f s))
    (hf : ∀ s, DevicesKept s (f s)) : quietBounds.Keeps x := by
  refine .intro (fun {s w t} h q => ?_) fun {s e t} h q => ?_
  · rw [hx s q] at h
    cases h
    exact hf s
  · rw [hx s q] at h
    cases h

theorem quietBounds_instr (i : Instr) : InstrBounds i quietBounds where
  toSound := quietBounds_sound
  read8 a := quietBounds_keeps (fun _ q => read8_quiet q a) fun _ => ⟨rfl, rfl, rfl, rfl, rfl, rfl⟩
  read16 a := quietBounds_keeps (fun _ q => read16_quiet q a) fun _ => ⟨rfl, rfl, rfl, rfl, rfl, rfl⟩
  write8 a v := quietBounds_keeps (fun _ q => write8_quiet q a v) fun _ => by constructor <;> simp
  write16 a v := quietBounds_keeps (fun _ q => write16_quiet q a v) fun _ => by constructor <;> simp
  drawn _ _ _ := ⟨rfl, rfl, rfl, rfl, rfl, rfl⟩
  regs _ _ _ _ := ⟨rfl, rfl, rfl, rfl, rfl, rfl⟩
  arm _ _ _ := ⟨rfl, rfl, rfl, rfl, rfl, rfl⟩
  wait _ _ _ _ := ⟨rfl, rfl, rfl, rfl, rfl, rfl⟩

theorem exec_quiet {i : Instr} {s t : State} (q : s.Quiet) (hnop : i = .reset → s.cfg.resetOp = .nop)
    (h : exec i s = .next t) : DevicesKept s t := by
  rcases exec_ending_or_fault (quietBounds_instr i) hnop h with he | ⟨e, u, k, info, hu, -⟩
  · exact he q
  · exact absurd q hu

/-- Settles O50, a relation for each part: each bounds every instruction (`bodyKeepsBounds`); what arms NMI or starts a wait
does so in the last part of its body (`exec_arms`, `exec_waits`). -/
theorem systemStateFrame : Obligations.SystemStateFrame := by
  intro s t i hnop h
  have armed : t.fault = none → t.nmiArmed = (s.nmiArmed || armsNmi i) := by
    intro hf
    cases hi : armsNmi i with
    | true => rw [exec_arms hi h hf, Bool.or_true]
    | false =>
      rw [Bool.or_false]
      exact exec_ending (b := .ofRel fun s t => t.nmiArmed = s.nmiArmed)
        (.of_system ⟨fun _ => rfl, fun h h' => h'.trans h⟩ (fun _ _ _ _ _ h => h) (fun ha => absurd (hi.symm.trans ha) (by decide))
          fun _ _ _ => rfl) hnop h hf
  have stays : s.nmiArmed = true → t.nmiArmed = true :=
    exec_rel (R := fun s t => s.nmiArmed = true → t.nmiArmed = true)
      (.of_system ⟨fun _ => id, fun h h' => h' ∘ h⟩ (fun _ _ _ _ _ h => h.trans) (fun _ _ _ => rfl) fun _ _ _ => id)
      (fun _ _ _ _ => id) hnop h
  have unwaiting : startsWait i = none → t.fault = none → t.wait = s.wait := fun hi hf =>
    exec_ending (b := .ofRel fun s t => t.wait = s.wait)
      (.of_system ⟨fun _ => rfl, fun h h' => h'.trans h⟩ (fun _ _ _ _ h _ => h) (fun _ _ => rfl)
        fun _ hw => nomatch hi.symm.trans hw) hnop h hf
  have fixed : FixedKept s t :=
    exec_rel (.of_system fixedKept_stable (fun h1 h2 h3 _ _ _ => ⟨h1, h2, by rw [h3], by rw [h3]⟩)
      (fun _ _ => ⟨rfl, rfl, rfl, rfl⟩) fun _ _ _ => ⟨rfl, rfl, rfl, rfl⟩) (fun _ _ _ _ => ⟨rfl, rfl, rfl, rfl⟩) hnop h
  have faulted : s.fault ≠ none → t.fault ≠ none :=
    exec_rel (R := fun s t => s.fault ≠ none → t.fault ≠ none)
      (.of_system ⟨fun _ => id, fun h h' => h' ∘ h⟩ (fun _ _ _ h _ _ hs => h ▸ hs) (fun _ _ => id) fun _ _ _ => id)
      (fun _ _ _ _ _ => Option.some_ne_none _) hnop h
  refine ⟨armed, stays, fun hf => ?_, fixed.cfg, fixed.agenda, fixed.lastCall, fixed.phase, faulted, fun q => ?_⟩
  · split
    · exact exec_waits rfl h hf
    · exact exec_waits rfl h hf
    · next hc hs =>
      refine unwaiting ?_ hf
      cases i with
      | cwai m => exact absurd rfl (hc m)
      | sync => exact absurd rfl hs
      | _ => rfl
  · obtain ⟨-, hdev, hlines, hhost, hfault, hsched⟩ := exec_quiet q hnop h
    exact ⟨hdev, hlines, hhost, hfault, hsched⟩

end Sys2Proof.Machine

/-! SUPPORT. The errors of the bus: a value out of range is above 0xFF, and only a machine with bus callbacks can hang
(20_memory.md R91, R92, R95; 60_exceptions.md R600). -/

namespace Sys2Proof.Machine

/-! ## Lawful errors -/

/-- The value of an error out of range is above 0xFF. -/
def Raise.InRange : Raise → Prop
  | .outOfRange _ v => 0xFF < v
  | .peripheral _ | .hang => True

/-- The parameters are kept; an error is in range, and a hang needs a bus callback. -/
def lawful : Bounds :=
  ⟨fun s t => t.cfg = s.cfg, fun s t => t.cfg = s.cfg, fun s e t => t.cfg = s.cfg ∧ e.InRange ∧ (e = .hang → ¬s.Quiet)⟩

theorem lawful_sound : lawful.Sound where
  refl _ := rfl
  trans h h' := Eq.trans h' h
  ending_refl _ := rfl
  ending_after h h' := Eq.trans h' h
  failing_after := fun h ⟨h1, h2, h3⟩ => ⟨Eq.trans h1 h, h2, fun he q => h3 he (q.of_cfg h)⟩
  cost _ h := h

/-- The computation is lawful in this state. -/
def LawfulAt {α : Type} (s : State) (x : M α) : Prop :=
  match x s with
  | .ok _ t => lawful.along s t
  | .error e t => lawful.failing s e t

section
variable {α β : Type} {s : State}

theorem LawfulAt.bind {x : M α} {f : α → M β} (hx : LawfulAt s x) (hf : ∀ v t, x s = .ok v t → LawfulAt t (f v)) :
    LawfulAt s (x >>= f) := by
  rw [LawfulAt] at hx ⊢
  rw [bind_apply]
  cases h : x s with
  | ok v t =>
    have h' := hf v t h
    rw [LawfulAt] at h'
    rw [h] at hx
    cases e : f v t with
    | ok w u =>
      simp only [e] at h' ⊢
      exact lawful_sound.trans hx h'
    | error x u =>
      simp only [e] at h' ⊢
      exact lawful_sound.failing_after hx h'
  | error e t => simpa only [h] using hx

theorem LawfulAt.get_bind {f : State → M β} (h : LawfulAt s (f s)) : LawfulAt s (get >>= f) := h

theorem LawfulAt.pure (v : α) : LawfulAt s (Pure.pure v : M α) := show s.cfg = s.cfg from rfl

theorem LawfulAt.throw {e : Raise} (h : e.InRange) (hh : e ≠ .hang) : LawfulAt s (throw e : M α) :=
  show lawful.failing s e s from ⟨rfl, h, fun he => absurd he hh⟩

theorem LawfulAt.modify {f : State → State} (h : (f s).cfg = s.cfg) : LawfulAt s (modify f : M PUnit) := h

theorem countAccess_lawful (byCpu : Bool) (n : Nat) : LawfulAt s (countAccess byCpu n) := by
  cases byCpu with
  | true => exact .modify (s.access_cfg n)
  | false => exact .modify (f := id) rfl

end

/-! ## The bus over a runner of callbacks -/

section
variable {run : Runner} (hr : ∀ sc args (s : State), ¬s.Quiet → LawfulAt s (run sc args)) (byCpu : Bool)
include hr

theorem busReadByte_lawful (a : Word) (s : State) : LawfulAt s (busReadByte run byCpu a) := by
  refine .bind (countAccess_lawful byCpu 1) fun _ t _ => .get_bind ?_
  split
  · exact .pure _
  · next cb hcb =>
    refine .bind (hr _ _ t fun q => nomatch (q a).1.symm.trans hcb) fun r u _ => ?_
    split
    · split
      · exact .pure _
      · next hv => exact .throw (Nat.lt_of_not_le hv) Raise.noConfusion
    · exact .get_bind (.pure _)

theorem busWriteByte_lawful (a : Word) (v : Nat) (s : State) : LawfulAt s (busWriteByte run byCpu a v) := by
  rw [busWriteByte]
  split
  · refine .bind (countAccess_lawful byCpu 1) fun _ t _ => .get_bind ?_
    split
    · exact .modify (t.storeByte_cfg _ _)
    · next cb hcb =>
      refine .bind (hr _ _ t fun q => nomatch (q a).2.1.symm.trans hcb) fun r u _ => ?_
      split
      · exact .pure _
      · exact .modify (u.storeByte_cfg _ _)
  · next hv => exact .throw (Nat.lt_of_not_le hv) Raise.noConfusion

theorem busReadBytes_lawful (c : Bool) (a a' : Word) (s : State) :
    LawfulAt s (busReadByte run c a >>= fun hi => busReadByte run c a' >>= fun lo => pure (wordOf hi lo)) :=
  .bind (busReadByte_lawful hr c a s) fun _ t _ => .bind (busReadByte_lawful hr c a' t) fun _ _ _ => .pure _

theorem busReadWord_lawful (a : Word) (s : State) : LawfulAt s (busReadWord run byCpu a) := by
  refine .get_bind ?_
  split
  · exact busReadBytes_lawful hr byCpu a (a + 1) s
  · next cb hcb =>
    refine .bind (countAccess_lawful byCpu 2) fun _ t ht => .get_bind ?_
    have hcfg : t.cfg = s.cfg := by
      have h := countAccess_lawful (s := s) byCpu 2
      rwa [LawfulAt, ht] at h
    refine .bind (hr _ _ t fun q => nomatch (hcfg ▸ (q a).2.2.1).symm.trans hcb) fun r u _ => ?_
    split
    · split
      · exact .pure _
      · next hv => exact .throw (Nat.lt_trans (by decide) (Nat.lt_of_not_le hv)) Raise.noConfusion
    · exact busReadBytes_lawful hr false a (a + 1) u

theorem busWriteWord_lawful (a : Word) (v : Nat) (s : State) : LawfulAt s (busWriteWord run byCpu a v) := by
  rw [busWriteWord]
  split
  · refine .get_bind ?_
    split
    · exact .bind (busWriteByte_lawful hr byCpu a _ s) fun _ t _ => busWriteByte_lawful hr byCpu _ _ t
    · next cb hcb =>
      refine .bind (countAccess_lawful byCpu 2) fun _ t ht => .get_bind ?_
      have hcfg : t.cfg = s.cfg := by
        have h := countAccess_lawful (s := s) byCpu 2
        rwa [LawfulAt, ht] at h
      refine .bind (hr _ _ t fun q => nomatch (hcfg ▸ (q a).2.2.2).symm.trans hcb) fun r u _ => ?_
      split
      · exact .pure _
      · exact .bind (busWriteByte_lawful hr false a _ u) fun _ w _ => busWriteByte_lawful hr false _ _ w
  · next hv => exact .throw (Nat.lt_trans (by decide) (Nat.lt_of_not_le hv)) Raise.noConfusion

theorem runAct_lawful (args : CbArgs) (reply : Nat) (act : DevAct) (s : State) :
    LawfulAt s (runAct run byCpu args reply act) := by
  refine .get_bind ?_
  cases act <;> dsimp only
  case readByte => exact .bind (busReadByte_lawful hr _ _ s) fun _ _ _ => .pure _
  case readWord => exact .bind (busReadWord_lawful hr _ _ s) fun _ _ _ => .pure _
  case writeByte => exact .bind (busWriteByte_lawful hr _ _ _ s) fun _ _ _ => .pure _
  case writeWord => exact .bind (busWriteWord_lawful hr _ _ _ s) fun _ _ _ => .pure _
  case fail => exact .throw trivial Raise.noConfusion
  case setReply | answer | pass => exact .pure _
  all_goals exact .bind (.modify rfl) fun _ _ _ => .pure _

theorem runRules_lawful (args : CbArgs) (rules : List DevRule) (reply : Nat) (s : State) :
    LawfulAt s (runRules run byCpu args rules reply) := by
  induction rules generalizing reply s with
  | nil => exact .pure _
  | cons rule rest ih =>
    rw [runRules]
    refine .get_bind ?_
    split
    · exact ih reply s
    · split
      · exact .pure _
      · exact .pure _
      · exact .bind (runAct_lawful hr byCpu args reply _ s) fun v t _ => ih v t

theorem runRounds_lawful (args : CbArgs) (rules : List DevRule) (rounds reply : Nat) (s : State) :
    LawfulAt s (runRounds run byCpu args rules rounds reply) := by
  induction rounds generalizing reply s with
  | zero => exact .pure _
  | succ n ih =>
    refine .bind (runRules_lawful hr byCpu args rules reply s) fun f t _ => ?_
    cases f with
    | next reply' => exact ih reply' t
    | done v => exact .pure _

theorem runBody_lawful (sc : Script) (args : CbArgs) (s : State) : LawfulAt s (runBody run byCpu sc args) :=
  .get_bind (.bind (runRounds_lawful hr byCpu args _ _ 0 s) fun _ _ _ => .bind (.modify rfl) fun _ _ _ => .pure _)

end

/-! ## Callbacks -/

/-- Where there are bus callbacks a run to any depth is lawful: it may hang. -/
theorem runScript_lawful (d : Nat) (sc : Script) (args : CbArgs) (s : State) (q : ¬s.Quiet) : LawfulAt s (runScript d sc args) := by
  induction d generalizing sc args s with
  | zero => exact show lawful.failing s .hang s from ⟨rfl, trivial, fun _ => q⟩
  | succ d ih => exact runBody_lawful ih false sc args s

/-- Where there are none, no access of a callback reaches another, so a run one deep comes to its end. -/
theorem runScript_one_lawful (sc : Script) (args : CbArgs) (s : State) : LawfulAt s (runScript 1 sc args) :=
  runBody_lawful (runScript_lawful 0) false sc args s

theorem runCallback_lawful (sc : Script) (args : CbArgs) : lawful.Keeps (runCallback sc args) := by
  intro s
  by_cases q : s.Quiet
  · have h := runScript_one_lawful sc args s
    have hends : hangs (runScript 1 sc args s) = false := by
      refine Bool.eq_false_iff.2 fun hh => ?_
      obtain ⟨t, ht⟩ := hangs_iff.1 hh
      rw [LawfulAt, ht] at h
      obtain ⟨-, -, hq⟩ := h
      exact hq rfl q
    rw [runCallback_eq hends]
    exact h
  · obtain ⟨d, hd⟩ := runCallback_cases sc args s
    rw [hd]
    exact runScript_lawful d sc args s q

theorem lawful_stepBounds : StepBounds lawful where
  toSound := lawful_sound
  read8 a := busReadByte_lawful (fun sc args s _ => runCallback_lawful sc args s) true a
  read16 a := busReadWord_lawful (fun sc args s _ => runCallback_lawful sc args s) true a
  write8 a v := busWriteByte_lawful (fun sc args s _ => runCallback_lawful sc args s) true a v.toNat
  write16 a v := busWriteWord_lawful (fun sc args s _ => runCallback_lawful sc args s) true a v.toNat
  drawn _ _ := rfl
  regs _ _ _ := rfl
  cfg h := h
  callback := runCallback_lawful
  script sc args := runBody_lawful (fun sc args s _ => runCallback_lawful sc args s) true sc args
  wait _ _ := rfl
  nmi _ _ := rfl
  lines _ _ := rfl
  clearFault _ := rfl
  load s reply ws := s.loadFields_cfg reply ws

end Sys2Proof.Machine

/-! SUPPORT. How a step stops and what a fault records (60_exceptions.md R600, R601, R640, R662, R665; 20_memory.md R91). -/

namespace Sys2Proof.Machine

/-! ## Steps that only a hang can stop -/

/-- The outcome is a next state, or a hang on a machine with bus callbacks. -/
def OnlyHangs (s : State) : Outcome → Prop
  | .next _ => True
  | .fault f => f = .callbackHang ∧ ¬s.Quiet
  | .refused _ => False

section
variable {s t : State}

theorem OnlyHangs.of_stepEnds {pc : Word} {o : Outcome} (h : StepEnds lawful pc s o) : OnlyHangs s o := by
  match o with
  | .next _ => trivial
  | .fault f =>
    obtain ⟨hf, -, -, -, hq⟩ := h
    exact ⟨hf, hq rfl⟩

theorem OnlyHangs.of_cfg (e : t.cfg = s.cfg) {o : Outcome} (h : OnlyHangs t o) : OnlyHangs s o := by
  match o with
  | .next _ => trivial
  | .fault f => exact h.imp id fun hq q => hq (q.of_cfg e)

theorem OnlyHangs.exists_next (q : s.Quiet) {o : Outcome} (h : OnlyHangs s o) : ∃ t, o = .next t := by
  match o with
  | .next t => exact ⟨t, rfl⟩
  | .fault f => exact absurd q (h.elim fun _ hq => hq)

/-- A computation of the bus that stops at an error ends its step with a fault recorded, or hangs. -/
theorem onlyHangs_endFaulted {e : Raise} (h : lawful.failing s e t) (pc : Word) (op : Option Nat) :
    OnlyHangs s (endFaulted pc op e t) := .of_stepEnds (pc := pc) (stepEnds_endFaulted h op)

theorem cpuStep_onlyHangs (hf : s.fault = none) : OnlyHangs s (cpuStep s) := .of_stepEnds (cpuStep_stepEnds lawful_stepBounds hf)

theorem resetStep_onlyHangs (s : State) : OnlyHangs s (resetStep s) := by
  rw [resetStep]
  cases h : resetSequence s with
  | ok v t => trivial
  | error e t =>
    obtain ⟨-, -, hq⟩ := lawful_stepBounds.resetSequence.error h
    cases e with
    | peripheral v | outOfRange a v => trivial
    | hang => exact ⟨rfl, hq rfl⟩

theorem fireSync_lawful (i : Nat) (cb : SyncCallback) : lawful.Keeps (fireSync i cb) :=
  lawful_sound.seq lawful_sound.get fun _ =>
    .ite (lawful_sound.seq (runCallback_lawful _ _) fun _ => .modify fun _ => rfl) (lawful_sound.pure _)

theorem fireSyncs_lawful (i : Nat) (cbs : List SyncCallback) : lawful.Keeps (fireSyncs i cbs) := by
  induction cbs generalizing i with
  | nil => exact lawful_sound.pure _
  | cons cb rest ih => exact lawful_sound.seq (fireSync_lawful i cb) fun _ => ih (i + 1)

theorem endRun_onlyHangs {o : Outcome} (h : OnlyHangs s o) : OnlyHangs s (endRun o) := by
  match o with
  | .next _ => trivial
  | .fault f => exact h

theorem boundaryStep_onlyHangs (s : State) : OnlyHangs s (boundaryStep s) := by
  rw [boundaryStep, boundary, bind_ok (get_apply s), bind_apply]
  cases h : fireSyncs 0 s.cfg.syncCallbacks s with
  | ok v t => trivial
  | error e t => exact endRun_onlyHangs (onlyHangs_endFaulted ((fireSyncs_lawful _ _).error h) _ _)

theorem countedStep_onlyHangs (p : Phase) (s : State) : OnlyHangs s (countedStep p s) := by
  rw [countedStep]
  split
  · trivial
  · next hf => exact (cpuStep_onlyHangs (s := s.withSched { s.sched with phase := p }) hf).of_cfg rfl

/-- What a turn of the CPU and scheduler can be: only a faulted CPU before any run and the end of a run stop it otherwise. -/
theorem turn_cases (s : State) :
    OnlyHangs s (turn s) ∨ (turn s = .fault .cpuHalted ∧ s.fault ≠ none ∧ s.sched.phase = .stepped) ∨
      (turn s = .fault .runEnded ∧ (s.sched.phase = .ended ∨ s.sched.phase = .bounded 0)) := by
  rw [turn]
  split
  · next hp =>
    by_cases hf : s.fault = none
    · exact .inl (cpuStep_onlyHangs hf)
    · exact .inr (.inl ⟨cpuStep_halted hf, hf, hp⟩)
  · exact .inl (countedStep_onlyHangs _ s)
  · exact .inl (countedStep_onlyHangs _ s)
  · exact .inl (boundaryStep_onlyHangs s)
  · next hp => exact .inr (.inr ⟨rfl, .inr hp⟩)
  · next hp => exact .inr (.inr ⟨rfl, .inl hp⟩)

theorem step_eq_turn {s : State} (hag : s.agenda = []) : step s = turn s := by simp only [step, hag]

theorem step_due {m : Turn} {rest : List Turn} (hag : s.agenda = m :: rest) (hd : m.due s = true) :
    step s = takeTurn (s.withAgenda rest) m := by simp only [step, hag, hd, if_true]

theorem takeTurn_onlyHangs (s : State) {m : Turn} (hm : m ≠ .cpu) : OnlyHangs s (takeTurn s m) := by
  cases m with
  | cpu => exact absurd rfl hm
  | startFree | startBounded k => trivial
  | host m =>
    cases m with
    | reset => exact resetStep_onlyHangs s
    | keyDown | request | takeDisplay | takeStatus | takeResponse | stop | restore => trivial

/-- What a step can be. -/
theorem step_cases (s : State) :
    OnlyHangs s (step s) ∨ (step s = .fault .cpuHalted ∧ s.fault ≠ none ∧ s.sched.phase = .stepped) ∨
      (step s = .fault .runEnded ∧ (s.sched.phase = .ended ∨ s.sched.phase = .bounded 0)) := by
  cases hag : s.agenda with
  | nil =>
    rw [step_eq_turn hag]
    exact turn_cases s
  | cons m rest =>
    cases hd : m.due s with
    | false =>
      rw [step_of_not_due hag hd]
      exact turn_cases s
    | true =>
      rw [step_due hag hd]
      by_cases hm : m = .cpu
      · subst hm
        exact (turn_cases (s.withAgenda rest)).imp_left (.of_cfg rfl)
      · exact .inl ((takeTurn_onlyHangs _ hm).of_cfg rfl)

end

/-- Settles O55, from `step_cases`: what is not stopped by a halted CPU or an ended run only a hang can stop, and no machine
without bus callbacks hangs. -/
theorem stepOutcomes : Obligations.StepOutcomes := by
  intro s
  refine ⟨fun r h => ?refused, fun h => ?halted, fun h => ?ended, fun q => ⟨fun h => ?hang, fun hf he hb => ?next, ?planned⟩⟩
  case refused => rcases step_cases s with ho | ⟨ho, -⟩ | ⟨ho, -⟩ <;> simp [h, OnlyHangs] at ho
  case halted =>
    rcases step_cases s with ho | ⟨-, hf, hp⟩ | ⟨ho, -⟩
    · simp [h, OnlyHangs] at ho
    · exact ⟨hf, hp⟩
    · simp [h] at ho
  case ended =>
    rcases step_cases s with ho | ⟨ho, -⟩ | ⟨-, hp⟩
    · simp [h, OnlyHangs] at ho
    · simp [h] at ho
    · exact hp
  case hang =>
    rcases step_cases s with ho | ⟨ho, -⟩ | ⟨ho, -⟩
    · obtain ⟨t, ht⟩ := ho.exists_next q
      simp [h] at ht
    · simp [h] at ho
    · simp [h] at ho
  case next =>
    rcases step_cases s with ho | ⟨-, hf', hp⟩ | ⟨-, hp⟩
    · exact ho.exists_next q
    · exact absurd hp (hf.resolve_left hf')
    · exact absurd hp (not_or.2 ⟨he, hb⟩)
  case planned =>
    intro m rest hag hm hd
    rw [step_due hag hd]
    exact (takeTurn_onlyHangs _ hm).exists_next (s := s.withAgenda rest) (q.of_cfg rfl)

/-! ## What a fault records -/

/-- What a step leaves before it faults: the parameters, under `datasheet` the cycles, and a CPU without a fault. -/
structure Unfaulted (s t : State) : Prop where
  cfg : t.cfg = s.cfg
  cycles : s.cfg.cyclePolicy = .datasheet → t.cycles = s.cycles
  fault : s.fault = none → t.fault = none

theorem Unfaulted.of_same {s t : State} (hcfg : t.cfg = s.cfg) (hcycles : t.cycles = s.cycles) (hfault : t.fault = s.fault) :
    Unfaulted s t := ⟨hcfg, fun _ => hcycles, fun h => hfault.trans h⟩

theorem unfaulted_closed : BusClosed Unfaulted where
  refl _ := .of_same rfl rfl rfl
  trans h h' := ⟨h'.cfg.trans h.cfg, fun hp => (h'.cycles (h.cfg ▸ hp)).trans (h.cycles hp), h'.fault ∘ h.fault⟩
  store s a v := .of_same (s.storeByte_cfg a v) (s.storeByte_cycles a v) (s.storeByte_fault a v)
  dev _ _ := .of_same rfl rfl rfl
  lines _ _ := .of_same rfl rfl rfl
  host _ _ := .of_same rfl rfl rfl
  drawn _ _ := .of_same rfl rfl rfl

theorem unfaulted_access (s : State) (n : Nat) : Unfaulted s (s.access n) where
  cfg := s.access_cfg n
  cycles hp := by rw [State.access, hp]
  fault h := (s.access_fault n).trans h

/-- The bounds of a step that may fault: up to the error `Unfaulted`, and the error in range. -/
def faultBounds : Bounds :=
  ⟨Unfaulted, fun s t => s.fault = none → t.fault = none, fun s e t => Unfaulted s t ∧ e.InRange⟩

theorem faultBounds_keeps {α : Type} {x : M α} (h : Respects Unfaulted x) (hl : lawful.Keeps x) : faultBounds.Keeps x :=
  .intro h.ok fun he => by
    obtain ⟨-, hr, -⟩ := hl.error he
    exact ⟨h.error he, hr⟩

theorem faultBounds_step : StepBounds faultBounds where
  refl := unfaulted_closed.refl
  trans := unfaulted_closed.trans
  ending_refl _ := id
  ending_after h h' := h' ∘ h.fault
  failing_after h h' := ⟨unfaulted_closed.trans h h'.1, h'.2⟩
  cost _ h := h
  read8 a := faultBounds_keeps (read8_respects unfaulted_closed unfaulted_access a) (lawful_stepBounds.read8 a)
  read16 a := faultBounds_keeps (read16_respects unfaulted_closed unfaulted_access a) (lawful_stepBounds.read16 a)
  write8 a v := faultBounds_keeps (write8_respects unfaulted_closed unfaulted_access a v) (lawful_stepBounds.write8 a v)
  write16 a v := faultBounds_keeps (write16_respects unfaulted_closed unfaulted_access a v) (lawful_stepBounds.write16 a v)
  drawn := unfaulted_closed.drawn
  regs _ _ _ := .of_same rfl rfl rfl
  cfg h := h.cfg
  callback sc args := faultBounds_keeps (runCallback_respects unfaulted_closed sc args) (runCallback_lawful sc args)
  script sc args := faultBounds_keeps
    (runBody_respects unfaulted_closed (runCallback_respects unfaulted_closed) (fun _ => unfaulted_access) sc args)
    (lawful_stepBounds.script sc args)
  wait _ _ := .of_same rfl rfl rfl
  nmi _ _ := .of_same rfl rfl rfl
  lines _ _ := .of_same rfl rfl rfl
  clearFault _ := ⟨rfl, fun _ => rfl, fun _ => rfl⟩
  load s reply ws := .of_same (s.loadFields_cfg reply ws) (s.loadFields_cycles reply ws) (s.loadFields_fault reply ws)

theorem endFaultedReset_eq_next {e : Raise} {u t : State} (h : endFaultedReset e u = .next t) :
    ∃ v, t = u.recordFault .peripheralFault resetVector (.device resetVector none v) := by
  cases e with
  | peripheral v =>
    cases h
    exact ⟨v, rfl⟩
  | outOfRange a v =>
    cases h
    exact ⟨v, rfl⟩
  | hang => cases h

/-- The record of a fault, by its kind. -/
def FaultRecord.Fits (f : FaultRecord) : Prop :=
  match f.info with
  | .opcode pc op => f.kind = .unknownOpcode ∧ pc = f.pc ∧ ∀ rest, decode (opcodeBytes op ++ rest) = none
  | .range _ v => f.kind = .outOfRange ∧ 0xFF < v
  | .device pc _ _ => f.kind = .peripheralFault ∧ pc = f.pc

section
variable {s t : State} {f : FaultRecord}

theorem Faulted.record {pc : Word} (h : Faulted faultBounds pc s t) (hf : t.fault = some f) :
    (f.pc = pc ∨ (f.pc = 0xFFFE ∧ s.cfg.resetOp = .reset)) ∧ t.sched.running = false ∧
      (s.cfg.cyclePolicy = .datasheet → t.cycles = s.cycles) ∧ f.Fits := by
  cases h with
  | raised op h ht =>
    obtain ⟨hu, hr⟩ := h
    rcases endFaulted_eq_next ht with ⟨v, -, rfl⟩ | ⟨a, v, rfl, rfl⟩
    · cases hf
      exact ⟨.inl rfl, rfl, hu.cycles, rfl, rfl⟩
    · cases hf
      exact ⟨.inl rfl, rfl, hu.cycles, rfl, hr⟩
  | inReset hop h ht =>
    obtain ⟨v, rfl⟩ := endFaultedReset_eq_next ht
    cases hf
    exact ⟨.inr ⟨rfl, hop⟩, rfl, h.1.cycles, rfl, rfl⟩
  | unknown hu hop hn =>
    cases hf
    exact ⟨.inl rfl, rfl, hu.cycles, rfl, rfl, (absent_iff hop).2 hn⟩

/-- An instruction's own fault names its address and its opcode, or the value out of range. -/
theorem exec_fault {i : Instr} (hop : i = .reset → s.cfg.resetOp ≠ .reset) (hs : s.fault = none) (h : exec i s = .next t)
    (hf : t.fault = some f) : f.pc = opAddr i s ∧
      ((∃ e, f.kind = .peripheralFault ∧ f.info = .device f.pc (some (opcodeOf i)) e) ∨
        ∃ a v, 0xFF < v ∧ f.kind = .outOfRange ∧ f.info = .range a v) := by
  obtain ⟨body, hbody, he⟩ := exec_eq_instruction faultBounds_step hop
  rw [he] at h
  cases hb : body s with
  | ok v u =>
    rw [instruction_ok hb] at h
    cases h
    exact nomatch hf.symm.trans (show u.fault = none from hbody.ok hb hs)
  | error e u =>
    rw [instruction_error hb] at h
    obtain ⟨-, hr⟩ := hbody.error hb
    rcases endFaulted_eq_next h with ⟨v, -, rfl⟩ | ⟨a, v, rfl, rfl⟩
    · cases hf
      exact ⟨rfl, .inl ⟨v, rfl, rfl⟩⟩
    · cases hf
      exact ⟨rfl, .inr ⟨a, v, hr, rfl, rfl⟩⟩

/-- An extended operand is one read, at its address (30_encoding.md R137). -/
theorem operand8_ext (a : Word) (s : State) : operand8 (.mem (.ext a)) s = read8 a s := rfl

theorem exec_lda_ext_error {a : Word} {e : Raise} (h : read8 a s = .error e t) :
    exec (.lda (.mem (.ext a))) s = endFaulted (s.regs.pc - 3) (some 0xB6) e t :=
  instruction_error (body := load8 .a (.mem (.ext a))) (bind_error ((operand8_ext a s).trans h))

end

/-! ## A faulted CPU (60_exceptions.md R601, R662) -/

/-- The parameters are kept and a fault stays. -/
def FaultStays (s t : State) : Prop := t.cfg = s.cfg ∧ (s.fault ≠ none → t.fault ≠ none)

theorem faultStays_of_same {s t : State} (hcfg : t.cfg = s.cfg) (hfault : t.fault = s.fault) : FaultStays s t :=
  ⟨hcfg, fun h => hfault ▸ h⟩

theorem faultStays_closed : BoundaryClosed FaultStays where
  refl _ := faultStays_of_same rfl rfl
  trans := fun ⟨h1, h2⟩ ⟨h3, h4⟩ => ⟨h3.trans h1, h4 ∘ h2⟩
  store s a v := faultStays_of_same (s.storeByte_cfg a v) (s.storeByte_fault a v)
  dev _ _ := faultStays_of_same rfl rfl
  lines _ _ := faultStays_of_same rfl rfl
  host _ _ := faultStays_of_same rfl rfl
  drawn _ _ := faultStays_of_same rfl rfl
  cfg h := h.1
  fired _ _ _ := faultStays_of_same rfl rfl
  poke _ _ _ _ := faultStays_of_same rfl rfl
  phase _ _ := faultStays_of_same rfl rfl
  record _ _ _ _ := ⟨rfl, fun _ => Option.some_ne_none _⟩

section
variable {s t : State}

theorem countedStep_faulted (hf : s.fault ≠ none) (p : Phase) :
    countedStep p s = .next (s.withSched { s.sched with phase := p }) := by
  rw [countedStep]
  split
  · rfl
  · next h => exact absurd h hf

theorem turn_fault_stays (hf : s.fault ≠ none) (h : turn s = .next t) : t.fault ≠ none := by
  rw [turn] at h
  split at h
  · cases (cpuStep_halted hf).symm.trans h
  · rw [countedStep_faulted hf] at h
    cases h
    exact hf
  · rw [countedStep_faulted hf] at h
    cases h
    exact hf
  · exact (faultStays_closed.boundaryStep h).2 hf
  · cases h
  · cases h

theorem step_fault_stays (hf : s.fault ≠ none) (h : step s = .next t) (hr : ∀ rest, s.agenda ≠ Turn.host .reset :: rest)
    (hs : ∀ snap rest, s.agenda ≠ Turn.host (.restore snap) :: rest) : t.fault ≠ none := by
  cases hag : s.agenda with
  | nil => exact turn_fault_stays hf (step_eq_turn hag ▸ h)
  | cons m rest =>
    cases hd : m.due s with
    | false => exact turn_fault_stays hf (step_of_not_due hag hd ▸ h)
    | true =>
      rw [step_due hag hd] at h
      cases m with
      | cpu => exact turn_fault_stays (s := s.withAgenda rest) hf h
      | startFree =>
        cases h
        exact (faultStays_closed.nextBurst (s.withAgenda rest)).2 hf
      | startBounded k =>
        cases h
        exact hf
      | host m =>
        cases m with
        | reset => exact absurd hag (hr rest)
        | restore snap => exact absurd hag (hs snap rest)
        | keyDown | request | takeDisplay | takeStatus | takeResponse | stop =>
          cases h
          exact hf

theorem turn_burst {n : Nat} (hp : s.sched.phase = .burst (n + 1)) : turn s = countedStep (.burst n) s := by
  simp only [turn, hp]

theorem turn_bounded {n : Nat} (hp : s.sched.phase = .bounded (n + 1)) : turn s = countedStep (.bounded n) s := by
  simp only [turn, hp]

end

/-- Settles O56: what a step of the CPU records is in `Faulted.record`, what an instruction records in `exec_fault`, and what
clears a fault is none of the turns of `step_fault_stays`. -/
theorem faultRecording : Obligations.FaultRecording := by
  intro s t
  refine ⟨fun f hs h hf => ?cpu, fun i f hop hs h hf => exec_fault (fun hi => hop hi) hs h hf, fun a e h => ?device,
    fun a b v h => ?range, fun e hs hw hp h => ?fetch, fun hf hag n => ⟨fun hp => ?burst, fun hp => ?bounded⟩,
    step_fault_stays⟩
  case cpu =>
    have hends := cpuStep_stepEnds faultBounds_step hs
    rw [h] at hends
    rcases hends with hok | hrec
    · exact nomatch hf.symm.trans (show t.fault = none from hok hs)
    · exact hrec.record hf
  case device => rw [exec_lda_ext_error h]; rfl
  case range => rw [exec_lda_ext_error h]; rfl
  case fetch =>
    simp only [cpuStep_eq_executeOne hs hw hp, executeOne, h]
    rfl
  case burst => rw [step_eq_turn hag, turn_burst hp, countedStep_faulted hf]
  case bounded => rw [step_eq_turn hag, turn_bounded hp, countedStep_faulted hf]

end Sys2Proof.Machine

/-! SUPPORT. Loads, stores, effective addresses, arithmetic and logic on a machine with no bus callback: the states that the
bodies leave (`load8_quiet` and the lemmas beside it), seen as the whole next state of the instruction. -/

namespace Sys2Proof.Machine

/-- A body that leaves new registers and makes `n` byte transfers. -/
theorem instruction_transfers {i : Instr} {body : M Unit} {s t : State} {r : Regs} {n : Nat} {u : Unit}
    (h : body s = .ok u ((t.withRegs r).addCycles (accessCost s.cfg n))) (ht : t.cfg = s.cfg := by rfl) :
    instruction i body s = .next (t.finish i r n) := by
  rw [instruction_ok h, State.finish, ht]

/-- The same, for a body that may draw a value for H. -/
theorem instruction_draws {i : Instr} {body : M Unit} {s t : State} {kept : Bool → Nat → Prop} {r : Bool → Regs} {k : Nat}
    (h : ∃ h n, body s = .ok ⟨⟩ (((t.withRegs (r h)).drawn n).addCycles (accessCost s.cfg k)) ∧ kept h n)
    (ht : t.cfg = s.cfg := by rfl) :
    ∃ h n, kept h n ∧ instruction i body s = .next ((t.drawn n).finish i (r h) k) := by
  obtain ⟨h, n, e, hk⟩ := h
  exact ⟨h, n, hk, instruction_transfers (t := t.drawn n) (r := r h) e ht⟩

/-! ## Arming of NMI -/

section
variable {s : State} (q : s.Quiet) (r : Reg16)
include q

theorem load16_quiet_of_ne (hr : (r == .s) = false) (src : Src16) :
    load16 r src s = .ok ⟨⟩ ((s.withRegs
        (((Src16.after src s.regs).setReg16 r (Src16.value src s)).setCC
          ((Src16.after src s.regs).cc.nz16v0 (Src16.value src s)))).addCycles
        (accessCost s.cfg (Src16.transfers src))) := by
  rw [load16_quiet q, hr, Bool.or_false]
  rfl

theorem load16_quiet_s (src : Src16) :
    load16 .s src s = .ok ⟨⟩ (((s.withNmiArmed true).withRegs
        (((Src16.after src s.regs).setReg16 .s (Src16.value src s)).setCC
          ((Src16.after src s.regs).cc.nz16v0 (Src16.value src s)))).addCycles
        (accessCost s.cfg (Src16.transfers src))) := by
  rw [load16_quiet q, show (Reg16.s == .s) = true from rfl, Bool.or_true]
  rfl

theorem lea_quiet_of_ne (hr : (r == .s) = false) (x : Idx) :
    lea r x s = .ok ⟨⟩ ((s.withRegs ((Mem.after (.idx x) s.regs).setReg16 r (Mem.target (.idx x) s))).addCycles
        (accessCost s.cfg (Mem.transfers (.idx x)))) := by
  rw [lea_quiet q, hr, Bool.or_false]
  rfl

theorem lea_quiet_s (x : Idx) :
    lea .s x s = .ok ⟨⟩ (((s.withNmiArmed true).withRegs
        ((Mem.after (.idx x) s.regs).setReg16 .s (Mem.target (.idx x) s))).addCycles
        (accessCost s.cfg (Mem.transfers (.idx x)))) := by
  rw [lea_quiet q, show (Reg16.s == .s) = true from rfl, Bool.or_true]
  rfl

end

/-! ## The words that a store leaves -/

section
variable {s : State} (a v b : Word)

theorem State.backing_storeWord_other (h : b ≠ a) (h1 : b ≠ a + 1) : (s.storeWord a v).backing b = s.backing b := by
  rw [State.storeWord, State.backing_storeByte_other _ _ h1, State.backing_storeByte_other _ _ h]

theorem State.backing_storeWord_high (w : s.mem.wf = true) (hr : region s.cfg a = .ram) :
    (s.storeWord a v).backing a = highByte v := by
  rw [State.storeWord, State.backing_storeByte_other _ _ (word_add_one_ne a).symm, State.backing_storeByte w, if_pos ⟨rfl, hr⟩]

theorem State.backing_storeWord_low (w : s.mem.wf = true) (hr : region s.cfg (a + 1) = .ram) :
    (s.storeWord a v).backing (a + 1) = lowByte v := by
  rw [State.storeWord, State.backing_storeByte (State.storeByte_wf w _ _), if_pos ⟨rfl, by rwa [State.storeByte_cfg]⟩]

end

/-! ## The obligations -/

/-- Settles O1: `load8_quiet` for either accumulator. -/
theorem loadByteResult : Obligations.LoadByteResult := fun _ src q =>
  ⟨instruction_transfers (load8_quiet q .a src), instruction_transfers (load8_quiet q .b src)⟩

/-- Settles O2: `load16_quiet`, which arms NMI for S alone. -/
theorem loadWordResult : Obligations.LoadWordResult := fun _ src q =>
  ⟨instruction_transfers (load16_quiet_of_ne q .d rfl src), instruction_transfers (load16_quiet_of_ne q .x rfl src),
    instruction_transfers (load16_quiet_of_ne q .y rfl src), instruction_transfers (load16_quiet_of_ne q .u rfl src),
    instruction_transfers (load16_quiet_s q src)⟩

/-- Settles O3: `store8_quiet`, and what a stored byte changes. -/
theorem storeByteResult : Obligations.StoreByteResult := by
  intro s m q
  refine ⟨instruction_transfers (store8_quiet q .a m) (State.storeByte_cfg ..),
    instruction_transfers (store8_quiet q .b m) (State.storeByte_cfg ..), fun v a => ⟨?other, ?ram, ?dropped⟩⟩
  case other => exact State.backing_storeByte_other _ _
  case ram =>
    intro w hr
    rw [State.backing_storeByte w, if_pos ⟨rfl, hr⟩]
  case dropped => exact State.storeByte_dropped _ _

/-- Settles O4: `store16_quiet`, and what a stored word changes. -/
theorem storeWordResult : Obligations.StoreWordResult := by
  intro s m q
  have hc : ∀ v, (s.storeWord (Mem.target m s) v).cfg = s.cfg := fun v => by simp [State.storeWord]
  exact ⟨instruction_transfers (store16_quiet q .d m) (hc _), instruction_transfers (store16_quiet q .x m) (hc _),
    instruction_transfers (store16_quiet q .y m) (hc _), instruction_transfers (store16_quiet q .u m) (hc _),
    instruction_transfers (store16_quiet q .s m) (hc _),
    fun v a => ⟨State.backing_storeWord_other _ v a, State.backing_storeWord_high _ v, State.backing_storeWord_low _ v⟩⟩

/-- Settles O5: `leaZ_quiet` for X and Y, `lea_quiet` for S, which arms NMI, and U. -/
theorem loadEffectiveAddressResult : Obligations.LoadEffectiveAddressResult := fun _ x q =>
  ⟨instruction_transfers (leaZ_quiet q .x x), instruction_transfers (leaZ_quiet q .y x),
    instruction_transfers (lea_quiet_s q x), instruction_transfers (lea_quiet_of_ne q .u rfl x)⟩

/-- Settles O6: `addTo_quiet` and `addCarryTo_quiet` for either accumulator. -/
theorem addByteResult : Obligations.AddByteResult := fun _ src q =>
  ⟨instruction_transfers (addTo_quiet q .a src), instruction_transfers (addTo_quiet q .b src),
    instruction_transfers (addCarryTo_quiet q .a src), instruction_transfers (addCarryTo_quiet q .b src)⟩

/-- Settles O7: the value drawn for H is that of `subFrom_quiet`, `subBorrowFrom_quiet` and `compare8_quiet`. -/
theorem subtractByteResult : Obligations.SubtractByteResult := fun _ src q =>
  ⟨instruction_draws (subFrom_quiet q .a src), instruction_draws (subFrom_quiet q .b src),
    instruction_draws (subBorrowFrom_quiet q .a src), instruction_draws (subBorrowFrom_quiet q .b src),
    instruction_draws (compare8_quiet q .a src), instruction_draws (compare8_quiet q .b src)⟩

/-- Settles O8: `addToD_quiet`, `subFromD_quiet` and `compare16_quiet`. -/
theorem wordArithmeticResult : Obligations.WordArithmeticResult := fun _ src q =>
  ⟨instruction_transfers (addToD_quiet q src), instruction_transfers (subFromD_quiet q src),
    instruction_transfers (compare16_quiet q .d src), instruction_transfers (compare16_quiet q .x src),
    instruction_transfers (compare16_quiet q .y src), instruction_transfers (compare16_quiet q .u src),
    instruction_transfers (compare16_quiet q .s src)⟩

/-- Settles O9: `logicInto_quiet` with the operation, and `bitTest_quiet`. -/
theorem logicResult : Obligations.LogicResult := fun _ src q =>
  ⟨instruction_transfers (logicInto_quiet q .a (· &&& ·) src), instruction_transfers (logicInto_quiet q .b (· &&& ·) src),
    instruction_transfers (logicInto_quiet q .a (· ||| ·) src), instruction_transfers (logicInto_quiet q .b (· ||| ·) src),
    instruction_transfers (logicInto_quiet q .a (· ^^^ ·) src), instruction_transfers (logicInto_quiet q .b (· ^^^ ·) src),
    instruction_transfers (bitTest_quiet q .a src), instruction_transfers (bitTest_quiet q .b src)⟩

end Sys2Proof.Machine

/-! SUPPORT. Shifts, single-operand operations, multiply, decimal adjust, sign extension and the selectors: the results and
flags of the model in the words of the specification. -/

namespace Sys2Proof.Machine

/-! ## Results and flags -/

section
variable (c : CC) (a : Byte) (h : Bool)

theorem asr8Result_eq : asr8Result a = a.sshiftRight 1 := by
  ext i hi
  have hm : a.msb = a.getLsbD 7 := BitVec.msb_eq_getLsbD_last a
  simp only [asr8Result, BitVec.getElem_or, BitVec.getElem_and, BitVec.getElem_ushiftRight, BitVec.getElem_sshiftRight, hm]
  interval_cases i <;> simp

theorem CC.asr8_eq :
    c.asr8 a h = { c with n := a.getLsbD 7, z := a.sshiftRight 1 == 0, c := a.getLsbD 0, h := h } := by
  have hn : bit7 (a.sshiftRight 1) = a.getLsbD 7 := by
    rw [bit7, BitVec.getLsbD_sshiftRight, BitVec.msb_eq_getLsbD_last]
    simp
  simp only [CC.asr8, CC.nz8, asr8Result_eq, hn]

theorem CC.asl8_eq :
    c.asl8 a h = { c with n := a.getLsbD 6, z := a <<< 1 == 0, v := a.getLsbD 7 ^^ a.getLsbD 6, c := a.getLsbD 7, h := h } := by
  have hn : bit7 (a <<< 1) = a.getLsbD 6 := by simp [bit7]
  simp only [CC.asl8, CC.nz8, asl8Result, hn]

theorem neg8Result_eq : neg8Result a = -a := BitVec.zero_sub a

theorem CC.neg8_eq :
    c.neg8 a h = { c with n := (-a).getLsbD 7, z := a == 0, v := a == 0x80, c := a != 0, h := h } := by
  have hz : (-a == 0) = (a == 0) := by
    rw [Bool.eq_iff_iff, beq_iff_eq, beq_iff_eq]
    exact BitVec.neg_eq_zero_iff
  simp only [CC.neg8, CC.nz8, neg8Result_eq, hz, bit7]

theorem ror8Result_eq : ror8Result a h = (a >>> 1) ||| (BitVec.ofNat 8 h.toNat <<< 7) := BitVec.or_comm _ _

theorem CC.ror8_eq :
    c.ror8 a = { c with n := c.c, z := ((a >>> 1) ||| (BitVec.ofNat 8 c.c.toNat <<< 7)) == 0, c := a.getLsbD 0 } := by
  have hn : bit7 ((a >>> 1) ||| (BitVec.ofNat 8 c.c.toNat <<< 7)) = c.c := by
    cases c.c <;> simp [bit7]
  simp only [CC.ror8, CC.nz8, ror8Result_eq, hn]

end

/-! ## Operations on an accumulator -/

/-- `OnA(f)` and `OnB(f)`. -/
theorem onAcc_apply {f : Byte → M Byte} {r : Acc} {s t : State} {v : Byte} (h : f (s.regs.acc r) s = .ok v t) :
    onAcc f r s = .ok ⟨⟩ (t.withRegs (t.regs.setAcc r v)) := by
  simp only [onAcc, bind_apply, getRegs_apply, h, modifyRegs_apply]

theorem testAcc_apply (r : Acc) (s : State) :
    testAcc r s = .ok ⟨⟩ (s.withRegs (s.regs.setCC (s.regs.cc.nz8v0 (s.regs.acc r)))) := rfl

/-- The computation writes flags, of which one is undefined, and answers `g`. -/
def UndefinedH (f : Byte → M Byte) (g : Byte → Byte) (flags : CC → Byte → Bool → CC) : Prop :=
  ∀ (a : Byte) (t : State) (h : Bool) (n : Nat), undefFlag t.regs.cc.h t = .ok h (t.drawn n) →
    f a t = .ok (g a) ((t.withRegs (t.regs.setCC (flags t.regs.cc a h))).drawn n)

theorem asr8_undefinedH : UndefinedH asr8 (fun a => a.sshiftRight 1)
    fun c a h => { c with n := a.getLsbD 7, z := a.sshiftRight 1 == 0, c := a.getLsbD 0, h := h } := fun a t _ _ e => by
  rw [asr8_apply a e, CC.asr8_eq, asr8Result_eq]

theorem asl8_undefinedH : UndefinedH asl8 (fun a => a <<< 1)
    fun c a h => { c with n := a.getLsbD 6, z := a <<< 1 == 0, v := a.getLsbD 7 ^^ a.getLsbD 6
                          c := a.getLsbD 7, h := h } := fun a t _ _ e => by
  rw [asl8_apply a e, CC.asl8_eq, asl8Result]

theorem neg8_undefinedH : UndefinedH neg8 (fun a => -a)
    fun c a h => { c with n := (-a).getLsbD 7, z := a == 0, v := a == 0x80, c := a != 0, h := h } := fun a t _ _ e => by
  rw [neg8_apply a e, CC.neg8_eq, neg8Result_eq]

section
variable {f : Byte → M Byte} {g : Byte → Byte} {flags : CC → Byte → Bool → CC} (hf : UndefinedH f g flags) (s : State)
include hf

theorem UndefinedH.onAcc (r : Acc) :
    ∃ h n, Machine.onAcc f r s = .ok ⟨⟩ (((s.withRegs
        ((s.regs.setCC (flags s.regs.cc (s.regs.acc r) h)).setAcc r (g (s.regs.acc r)))).drawn n).addCycles
        (accessCost s.cfg 0)) ∧
      (s.cfg.undefFlags = .preserve → h = s.regs.cc.h ∧ n = 0) := by
  obtain ⟨h, n, e, hp⟩ := undefFlag_spec s.regs.cc.h s
  refine ⟨h, n, ?_, hp⟩
  rw [onAcc_apply (hf _ _ _ _ (e s rfl rfl)), accessCost_zero]
  rfl

theorem UndefinedH.onMem (q : s.Quiet) (m : Mem) :
    ∃ h n, Machine.onMem f m s = .ok ⟨⟩ ((((s.storeByte (Mem.target m s) (g (s.backing (Mem.target m s)))).withRegs
        ((Mem.after m s.regs).setCC (flags (Mem.after m s.regs).cc (s.backing (Mem.target m s)) h))).drawn n).addCycles
        (accessCost s.cfg (Mem.transfers m + 2))) ∧
      (s.cfg.undefFlags = .preserve → h = (Mem.after m s.regs).cc.h ∧ n = 0) := by
  obtain ⟨h, n, e, hp⟩ := undefFlag_spec (Mem.after m s.regs).cc.h s
  refine ⟨h, n, onMem_quiet q g m fun t hc hr hd => ?_, hp⟩
  rw [hf _ t h n (by rw [hr]; exact e t hc hd), hr]

end

/-- An operation on a memory byte whose flags are all defined. -/
theorem onMem_flags {s : State} (q : s.Quiet) {f : Byte → M Byte} {g : Byte} {m : Mem} {c : CC}
    (hf : ∀ t : State, t.regs = Mem.after m s.regs →
      f (s.backing (Mem.target m s)) t = .ok g (t.withRegs (t.regs.setCC c))) :
    onMem f m s = .ok ⟨⟩ (((s.storeByte (Mem.target m s) g).withRegs ((Mem.after m s.regs).setCC c)).addCycles
      (accessCost s.cfg (Mem.transfers m + 2))) :=
  onMem_quiet q (fun _ => g) m (n := 0) fun t _ hr _ => hf t hr

/-! ## Multiply, decimal adjust, sign extension -/

theorem mulAB_apply (s : State) :
    mulAB s = .ok ⟨⟩ (s.withRegs ((s.regs.setCC (s.regs.cc.mul s.regs.a s.regs.b)).setD (mulResult s.regs.a s.regs.b))) := rfl

theorem bit7_eq_msb (b : Byte) : bit7 b = b.msb := (BitVec.msb_eq_getLsbD_last b).symm

theorem signExtendB_high (b : Byte) : (if bit7 b then 0xFF else 0x00 : Byte) = highByte (b.signExtend 16) := by
  apply BitVec.eq_of_toNat_eq
  rw [highByte_toNat, BitVec.toNat_signExtend, bit7_eq_msb]
  have := b.isLt
  cases b.msb <;> simp <;> omega

theorem wordOf_signExtend (b : Byte) : wordOf (highByte (b.signExtend 16)) b = b.signExtend 16 := by
  apply BitVec.eq_of_toNat_eq
  rw [wordOf_toNat, highByte_toNat, BitVec.toNat_signExtend]
  have := b.isLt
  cases b.msb <;> simp <;> omega

theorem bit15_signExtend (b : Byte) : bit15 (b.signExtend 16) = b.getLsbD 7 := by
  rw [bit15, BitVec.getLsbD_signExtend, BitVec.msb_eq_getLsbD_last]
  simp

theorem signExtend_beq_zero (b : Byte) : (b.signExtend 16 == (0 : Word)) = (b == (0 : Byte)) := by
  change (b.signExtend 16 == 0#16) = (b == 0#8)
  have hm := b.msb_eq_decide
  rw [beq_zero_eq_decide, beq_zero_eq_decide, BitVec.toNat_signExtend]
  cases hb : b.msb <;> simp_all <;> omega

theorem signExtendB_apply (s : State) :
    signExtendB s = .ok ⟨⟩ (s.withRegs { s.regs with
      a := highByte (s.regs.b.signExtend 16), cc := { s.regs.cc with n := s.regs.b.getLsbD 7, z := s.regs.b == 0 } }) := by
  have h : signExtendB s = .ok ⟨⟩ (s.withRegs { s.regs with
      a := highByte (s.regs.b.signExtend 16), cc := s.regs.cc.nz16 (wordOf (highByte (s.regs.b.signExtend 16)) s.regs.b) }) := by
    rw [← signExtendB_high]
    rfl
  rw [h, wordOf_signExtend, CC.nz16, bit15_signExtend, signExtend_beq_zero]

theorem addBToX_apply (s : State) :
    modifyRegs (fun r => { r with x := r.x + zext8 r.b }) s =
      .ok ⟨⟩ (s.withRegs { s.regs with x := BitVec.ofNat 16 (s.regs.x.toNat + s.regs.b.toNat) }) := by
  have e : s.regs.x + zext8 s.regs.b = BitVec.ofNat 16 (s.regs.x.toNat + s.regs.b.toNat) :=
    BitVec.eq_of_toNat_eq (by simp [zext8])
  rw [modifyRegs_apply, e]

theorem lowNibble_toNat (a : Byte) : (lowNibble a).toNat = a.toNat % 16 := by
  simp [lowNibble]

theorem highNibble_toNat (a : Byte) : (highNibble a).toNat = a.toNat / 16 := by
  simp [highNibble, Nat.shiftRight_eq_div_pow]
  omega

/-- DAA's correction by numbers. -/
theorem daaCorrection_eq (c : CC) (a : Byte) :
    daaCorrection c a = (if 9 < a.toNat % 16 ∨ c.h = true then 0x06 else 0) +
      if 9 < a.toNat / 16 ∨ c.c = true ∨ (8 < a.toNat / 16 ∧ 9 < a.toNat % 16) then 0x60 else 0 := by
  simp only [daaCorrection, lowNibble_toNat, highNibble_toNat, Bool.or_eq_true, Bool.and_eq_true, decide_eq_true_eq, or_assoc,
    gt_iff_lt]

/-! ## The obligations -/

/-- Settles O11: each operation on the accumulator by `onAcc_apply`; ROR's bit 7 is the old carry. -/
theorem unaryAccumulatorResult : Obligations.UnaryAccumulatorResult := by
  have ror (r : Acc) (s : State) := onAcc_apply (r := r) (ror8_apply s (s.regs.acc r))
  simp only [CC.ror8_eq, ror8Result_eq] at ror
  exact ⟨fun s => ⟨instruction_finish (onAcc_apply (r := .a) (lsr8_apply s _)),
      instruction_finish (onAcc_apply (r := .a) (rol8_apply s _)), instruction_finish (ror .a s),
      instruction_finish (onAcc_apply (r := .a) (inc8_apply s _)), instruction_finish (onAcc_apply (r := .a) (dec8_apply s _)),
      instruction_finish (onAcc_apply (r := .a) (clr8_apply s _)), instruction_finish (onAcc_apply (r := .a) (com8_apply s _)),
      instruction_withRegs (testAcc_apply .a s)⟩,
    fun s => ⟨instruction_finish (onAcc_apply (r := .b) (lsr8_apply s _)),
      instruction_finish (onAcc_apply (r := .b) (rol8_apply s _)), instruction_finish (ror .b s),
      instruction_finish (onAcc_apply (r := .b) (inc8_apply s _)), instruction_finish (onAcc_apply (r := .b) (dec8_apply s _)),
      instruction_finish (onAcc_apply (r := .b) (clr8_apply s _)), instruction_finish (onAcc_apply (r := .b) (com8_apply s _)),
      instruction_withRegs (testAcc_apply .b s)⟩⟩

/-- Settles O12: the value drawn for H is that of `UndefinedH.onAcc` and `UndefinedH.onMem`. -/
theorem unaryUndefinedHResult : Obligations.UnaryUndefinedHResult :=
  ⟨fun s => ⟨instruction_draws (asr8_undefinedH.onAcc s .a), instruction_draws (asr8_undefinedH.onAcc s .b),
      instruction_draws (asl8_undefinedH.onAcc s .a), instruction_draws (asl8_undefinedH.onAcc s .b),
      instruction_draws (neg8_undefinedH.onAcc s .a), instruction_draws (neg8_undefinedH.onAcc s .b)⟩,
    fun s m q => ⟨instruction_draws (asr8_undefinedH.onMem s q m) (State.storeByte_cfg ..),
      instruction_draws (asl8_undefinedH.onMem s q m) (State.storeByte_cfg ..),
      instruction_draws (neg8_undefinedH.onMem s q m) (State.storeByte_cfg ..)⟩⟩

/-- Settles O13: `onMem_flags` with the operation, `clearMem_quiet` and `testMem_quiet`. -/
theorem unaryMemoryResult : Obligations.UnaryMemoryResult := by
  intro s m q
  refine ⟨instruction_transfers (onMem_flags q fun t hr => ?lsr) (State.storeByte_cfg ..),
    instruction_transfers (onMem_flags q fun t hr => ?rol) (State.storeByte_cfg ..),
    instruction_transfers (onMem_flags q fun t hr => ?ror) (State.storeByte_cfg ..),
    instruction_transfers (onMem_flags q fun t hr => ?inc) (State.storeByte_cfg ..),
    instruction_transfers (onMem_flags q fun t hr => ?dec) (State.storeByte_cfg ..),
    instruction_transfers (onMem_flags q fun t hr => ?com) (State.storeByte_cfg ..),
    instruction_transfers (clearMem_quiet q m) (State.storeByte_cfg ..), instruction_transfers (testMem_quiet q m)⟩
  case lsr => rw [lsr8_apply, hr]; rfl
  case rol => rw [rol8_apply, hr]; rfl
  case ror => rw [ror8_apply, hr, ror8Result_eq, CC.ror8_eq]
  case inc => rw [inc8_apply, hr]; rfl
  case dec => rw [dec8_apply, hr]; rfl
  case com => rw [com8_apply, hr]; rfl

/-- Settles O14: SEX's A is the high byte of B extended by its sign, and D is B so extended. -/
theorem miscellaneousResult : Obligations.MiscellaneousResult := fun s =>
  ⟨instruction_withRegs (mulAB_apply s), instruction_withRegs (signExtendB_apply s), instruction_withRegs (addBToX_apply s),
    instruction_withRegs (pure_apply ⟨⟩ s)⟩

/-- Settles O15: the correction by numbers is `daaCorrection_eq`; the value drawn is for V. -/
theorem decimalAdjustResult : Obligations.DecimalAdjustResult := by
  intro s
  obtain ⟨v, n, e, hp⟩ := undefFlag_spec s.regs.cc.v s
  refine ⟨v, n, hp, ?_⟩
  have h : decimalAdjust s = .ok ⟨⟩ ((s.drawn n).withRegs
      ({ s.regs with a := daaResult s.regs.cc s.regs.a }.setCC (s.regs.cc.daa s.regs.a v))) := by
    simp only [decimalAdjust, bind_apply, getRegs_apply, e s rfl rfl, modifyRegs_apply, modifyCC_apply]
    rfl
  simp only [daaResult, CC.daa, CC.nz8, daaCorrection_eq] at h
  exact instruction_finish h

/-- Settles O17: a CC written from a byte is that byte. -/
theorem selectorRules : Obligations.SelectorRules := by
  intro r v n
  refine ⟨⟨rfl, rfl, rfl, rfl, rfl, rfl, rfl, rfl, rfl, rfl, rfl⟩, ?writes, rfl⟩
  case writes =>
    cases v <;> exact ⟨rfl, rfl, rfl, rfl, rfl, rfl, rfl, rfl, rfl, ⟨_, CC.toByte_ofByte _, rfl⟩, rfl⟩

end Sys2Proof.Machine

/-! SUPPORT. Branches, calls, stack operations, software interrupts, waits and RTI on a machine with no bus callback. -/

namespace Sys2Proof.Machine

/-! ## Branches -/

theorem shortTarget_eq (pc : Word) (off : Byte) : pc + sext8 off = BitVec.ofInt 16 ((pc.toNat : Int) + off.toInt) := by
  rw [BitVec.ofInt_add, BitVec.ofInt_natCast, BitVec.ofNat_toNat, BitVec.setWidth_eq]
  rfl

theorem longTarget_eq (pc off : Word) : pc + off = BitVec.ofNat 16 (pc.toNat + off.toNat) := by
  rw [BitVec.ofNat_add, BitVec.ofNat_toNat, BitVec.ofNat_toNat, BitVec.setWidth_eq, BitVec.setWidth_eq]

/-- A short branch moves PC where its condition, read as a proposition, holds. -/
theorem branch8_goes {s : State} {cond : CC → Bool} {p : Prop} [Decidable p] (i : Instr) (off : Byte)
    (h : cond s.regs.cc = true ↔ p) :
    instruction i (branch8 cond off) s = .next (s.finish i { s.regs with
      pc := if p then BitVec.ofInt 16 ((s.regs.pc.toNat : Int) + off.toInt) else s.regs.pc } 0) := by
  refine instruction_withRegs (u := ⟨⟩) ?_
  rw [← shortTarget_eq]
  by_cases hp : p
  · simp only [branch8, bind_apply, getRegs_apply, h.mpr hp, hp, if_true, setPc_apply]
    rfl
  · simp only [branch8, bind_apply, getRegs_apply, mt h.mp hp, hp, if_false]
    rfl

theorem branch8_always {s : State} (i : Instr) (off : Byte) :
    instruction i (branch8 (fun _ => true) off) s = .next (s.finish i { s.regs with
      pc := BitVec.ofInt 16 ((s.regs.pc.toNat : Int) + off.toInt) } 0) :=
  branch8_goes (p := True) i off (by simp)

theorem branch8_never {s : State} (i : Instr) (off : Byte) :
    instruction i (branch8 (fun _ => false) off) s = .next (s.finish i { s.regs with pc := s.regs.pc } 0) :=
  branch8_goes (p := False) i off (by simp)

/-- A conditional long branch: where its condition holds PC moves, for one cycle more. -/
theorem branch16_may {s : State} {cond : CC → Bool} {p : Prop} (i : Instr) (off : Word) (h : cond s.regs.cc = true ↔ p) :
    (p → instruction i (branch16 cond off) s = .next ((s.finish i { s.regs with
      pc := BitVec.ofNat 16 (s.regs.pc.toNat + off.toNat) } 0).addCycles 1)) ∧
    (¬p → instruction i (branch16 cond off) s = .next (s.finish i s.regs 0)) := by
  refine ⟨fun hp => ?taken, fun hp => ?passed⟩
  case taken =>
    have e : branch16 cond off s = .ok ⟨⟩ ((s.withRegs (s.regs.setPc (s.regs.pc + off))).addCycles 1) := by
      simp only [branch16, bind_apply, getRegs_apply, h.mpr hp, if_true, setPc_apply, addCycles_apply]
    rw [instruction_ok e, ← longTarget_eq, State.finish, accessCost_zero, State.addCycles_zero, State.addCycles_addCycles,
      State.addCycles_addCycles, Nat.add_comm]
    rfl
  case passed =>
    refine instruction_withRegs (u := ⟨⟩) ?_
    simp only [branch16, bind_apply, getRegs_apply, mt h.mp hp]
    rfl

theorem branch16Always_goes {s : State} (i : Instr) (off : Word) :
    instruction i (branch16Always off) s = .next (s.finish i { s.regs with
      pc := BitVec.ofNat 16 (s.regs.pc.toNat + off.toNat) } 0) := by
  rw [← longTarget_eq]
  exact instruction_withRegs (modifyRegs_apply _ s)

section
variable (c : CC)

theorem condHi_iff : condHi c = true ↔ c.c = false ∧ c.z = false := by simp [condHi]
theorem condLs_iff : condLs c = true ↔ c.c = true ∨ c.z = true := by simp [condLs]
theorem condCc_iff : condCc c = true ↔ c.c = false := by simp [condCc]
theorem condNe_iff : condNe c = true ↔ c.z = false := by simp [condNe]
theorem condVc_iff : condVc c = true ↔ c.v = false := by simp [condVc]
theorem condPl_iff : condPl c = true ↔ c.n = false := by simp [condPl]
theorem condGe_iff : condGe c = true ↔ c.n = c.v := by simp [condGe]
theorem condLt_iff : condLt c = true ↔ c.n ≠ c.v := by simp [condLt]
theorem condGt_iff : condGt c = true ↔ c.z = false ∧ c.n = c.v := by simp [condGt]
theorem condLe_iff : condLe c = true ↔ c.z = true ∨ c.n ≠ c.v := by simp [condLe]

end

/-- Settles O18: `branch8_goes` with the predicate of each row. -/
theorem shortBranchResult : Obligations.ShortBranchResult := fun _ off =>
  ⟨branch8_always (.bra off) off, branch8_never (.brn off) off, branch8_goes (.bhi off) off (condHi_iff _),
    branch8_goes (.bls off) off (condLs_iff _), branch8_goes (.bcc off) off (condCc_iff _),
    branch8_goes (cond := condCs) (.bcs off) off Iff.rfl, branch8_goes (.bne off) off (condNe_iff _),
    branch8_goes (cond := condEq) (.beq off) off Iff.rfl, branch8_goes (.bvc off) off (condVc_iff _),
    branch8_goes (cond := condVs) (.bvs off) off Iff.rfl, branch8_goes (.bpl off) off (condPl_iff _),
    branch8_goes (cond := condMi) (.bmi off) off Iff.rfl, branch8_goes (.bge off) off (condGe_iff _),
    branch8_goes (.blt off) off (condLt_iff _), branch8_goes (.bgt off) off (condGt_iff _),
    branch8_goes (.ble off) off (condLe_iff _)⟩

/-- Settles O19: `branch16_may` with the predicate of each row. -/
theorem longBranchResult : Obligations.LongBranchResult := fun s off =>
  ⟨branch16Always_goes (.lbra off) off, instruction_withRegs (pure_apply ⟨⟩ s), branch16_may (.lbhi off) off (condHi_iff _),
    branch16_may (.lbls off) off (condLs_iff _), branch16_may (.lbcc off) off (condCc_iff _),
    branch16_may (cond := condCs) (.lbcs off) off Iff.rfl, branch16_may (.lbne off) off (condNe_iff _),
    branch16_may (cond := condEq) (.lbeq off) off Iff.rfl, branch16_may (.lbvc off) off (condVc_iff _),
    branch16_may (cond := condVs) (.lbvs off) off Iff.rfl, branch16_may (.lbpl off) off (condPl_iff _),
    branch16_may (cond := condMi) (.lbmi off) off Iff.rfl, branch16_may (.lbge off) off (condGe_iff _),
    branch16_may (.lblt off) off (condLt_iff _), branch16_may (.lbgt off) off (condGt_iff _),
    branch16_may (.lble off) off (condLe_iff _)⟩

/-! ## Jumps, calls and returns -/

section
variable {s : State} (q : s.Quiet)
include q

theorem jumpTo_quiet (m : Mem) :
    jumpTo m s = .ok ⟨⟩ ((s.withRegs ((Mem.after m s.regs).setPc (Mem.target m s))).addCycles
      (accessCost s.cfg (Mem.transfers m))) := by
  simp only [jumpTo, bind_apply, effectiveAddress_quiet q, setPc_apply]
  rfl

/-- A call from a state that differs in the registers and in the cycles. -/
theorem callTo_quiet (r : Regs) (n : Nat) (target : Word) :
    callTo target ((s.withRegs r).addCycles (accessCost s.cfg n)) =
      .ok ⟨⟩ (((s.storeWord (r.s - 2) r.pc).withRegs { r with s := r.s - 2, pc := target }).addCycles
        (accessCost s.cfg (n + 2))) := by
  simp only [callTo, push16, bind_apply, getRegs_apply, modifyRegs_apply]
  rw [write16_at q _ _ (by rfl)]
  simp only [setPc_apply, State.storeWord_addCycles, State.storeWord_withRegs, State.addCycles_withRegs,
    State.withRegs_withRegs, State.addCycles_addCycles, State.addCycles_regs, State.withRegs_regs, accessCost_add]
  rfl

theorem callMem_quiet (m : Mem) :
    callMem m s = .ok ⟨⟩ (((s.storeWord ((Mem.after m s.regs).s - 2) (Mem.after m s.regs).pc).withRegs
      { Mem.after m s.regs with s := (Mem.after m s.regs).s - 2, pc := Mem.target m s }).addCycles
        (accessCost s.cfg (Mem.transfers m + 2))) := by
  rw [callMem, bind_ok (effectiveAddress_quiet q m), callTo_quiet q]

theorem callRelative_quiet (off : Word) :
    callRelative off s = .ok ⟨⟩ (((s.storeWord (s.regs.s - 2) s.regs.pc).withRegs
      { s.regs with s := s.regs.s - 2, pc := s.regs.pc + off }).addCycles (accessCost s.cfg 2)) := by
  have h := callTo_quiet q s.regs 0 (s.regs.pc + off)
  rw [accessCost_zero, State.addCycles_zero] at h
  exact h

theorem returnFromCall_quiet :
    returnFromCall s = .ok ⟨⟩ ((s.withRegs { s.regs with pc := s.word s.regs.s, s := s.regs.s + 2 }).addCycles
      (accessCost s.cfg 2)) := by
  simp only [returnFromCall, pull16, bind_apply, getRegs_apply]
  rw [read16_at q _ rfl]
  simp only [modifyRegs_apply, pure_apply, setPc_apply]
  rfl

end

/-- Settles O20: the target is resolved, and then `callTo_quiet` pushes. -/
theorem jumpAndCallResult : Obligations.JumpAndCallResult := fun _ m o8 o16 q =>
  ⟨instruction_transfers (jumpTo_quiet q m), instruction_transfers (callMem_quiet q m) (State.storeWord_cfg ..),
    instruction_transfers (callRelative_quiet q (sext8 o8)) (State.storeWord_cfg ..),
    instruction_transfers (callRelative_quiet q o16) (State.storeWord_cfg ..),
    instruction_transfers (returnFromCall_quiet q)⟩

/-! ## Pushes and pulls -/

/-- What a push leaves, with its registers and transfers named. -/
theorem pushMask_transfers {s : State} (q : s.Quiet) (w : s.mem.wf = true) (k : Stk) (m : Byte) :
    ∃ mem' : Memory, pushMask k m s = .ok ⟨⟩ (((s.withMem mem').withRegs
        (s.regs.setSp k (s.regs.sp k - BitVec.ofNat 16 (maskBytes m)))).addCycles (accessCost s.cfg (maskBytes m))) ∧
      ∀ a, (s.withMem mem').backing a =
        s.overlay (s.regs.sp k - BitVec.ofNat 16 (maskBytes m)) (frameBytes k m s.regs) a := by
  obtain ⟨t, e, mem', -, rfl, hb⟩ := pushMask_quiet q w k m
  rw [frameBytes_length] at e hb
  exact ⟨mem', e, hb⟩

/-- Settles O21: `pushMask_quiet`, whose frame has the mask's number of bytes. -/
theorem pushResult : Obligations.PushResult := by
  intro s m q w k
  obtain ⟨mem', e, hb⟩ := pushMask_transfers q w k m
  refine ⟨frameBytes_length k m s.regs, mem', ?_, hb⟩
  cases k with
  | s => exact instruction_transfers (s := s) (t := s.withMem mem') e
  | u => exact instruction_transfers (s := s) (t := s.withMem mem') e

theorem exec_puls {s : State} (q : s.Quiet) (m : Byte) :
    exec (.puls m) s = .next (s.finish (.puls m) (pulledRegs s .s m) (maskBytes m)) := by
  have e := pullMask_quiet q .s m
  rw [show decide (Stk.s = Stk.u) = false from rfl, Bool.and_false, Bool.or_false, State.withNmiArmed_self] at e
  exact instruction_transfers e

theorem exec_pulu {s : State} (q : s.Quiet) (m : Byte) :
    exec (.pulu m) s = .next ((s.withNmiArmed (s.nmiArmed || m.getLsbD 6)).finish (.pulu m) (pulledRegs s .u m)
      (maskBytes m)) := by
  have e := pullMask_quiet q .u m
  rw [show decide (Stk.u = Stk.u) = true from rfl, Bool.and_true] at e
  exact instruction_transfers (t := s.withNmiArmed (s.nmiArmed || m.getLsbD 6)) e

/-- Settles O22: `pullMask_quiet`, which arms NMI where the stack is U's and the mask names S. -/
theorem pullResult : Obligations.PullResult := fun _ m q => ⟨exec_puls q m, exec_pulu q m⟩

/-! ## Bytes that lie in memory -/

/-- These bytes lie in memory from the `n`th address above `base` upward. -/
def State.Holds (s : State) (base : Word) (n : Nat) (bytes : List Byte) : Prop :=
  ∀ j v, bytes[j]? = some v → s.backing (base + BitVec.ofNat 16 (n + j)) = v

section
variable {s : State} {base : Word} {n : Nat}

theorem State.Holds.append {xs ys : List Byte} (h : s.Holds base n (xs ++ ys)) :
    s.Holds base n xs ∧ s.Holds base (n + xs.length) ys := by
  refine ⟨fun j v e => h j v ?_, fun j v e => ?_⟩
  · rw [List.getElem?_append_left (List.getElem?_eq_some_iff.mp e).1, e]
  · have := h (xs.length + j) v (by rw [List.getElem?_append_right (Nat.le_add_right ..), Nat.add_sub_cancel_left, e])
    rwa [← Nat.add_assoc] at this

/-- A byte that is there if a mask names it. -/
theorem State.Holds.byte {b : Bool} {v : Byte} {ys : List Byte} (h : s.Holds base n ((if b then [v] else []) ++ ys)) :
    (b = true → s.backing (base + BitVec.ofNat 16 n) = v) ∧ s.Holds base (n + b.toNat) ys := by
  obtain ⟨h1, h2⟩ := h.append
  cases b with
  | false => exact ⟨fun hb => absurd hb Bool.false_ne_true, h2⟩
  | true => exact ⟨fun _ => h1 0 v rfl, h2⟩

/-- A word that is there if a mask names it. -/
theorem State.Holds.word {b : Bool} {v : Word} {ys : List Byte}
    (h : s.Holds base n ((if b then [highByte v, lowByte v] else []) ++ ys)) :
    (b = true → s.word (base + BitVec.ofNat 16 n) = v) ∧ s.Holds base (n + 2 * b.toNat) ys := by
  obtain ⟨h1, h2⟩ := h.append
  cases b with
  | false => exact ⟨fun hb => absurd hb Bool.false_ne_true, h2⟩
  | true =>
    refine ⟨fun _ => ?_, h2⟩
    have e0 : s.backing (base + BitVec.ofNat 16 n) = highByte v := h1 0 _ rfl
    rw [State.word, add_ofNat_succ, e0, h1 1 (lowByte v) rfl]
    exact BitVec.eq_of_toNat_eq (by rw [wordOf_toNat, highByte_toNat, lowByte_toNat]; omega)

/-- Bytes stored over RAM lie there. -/
theorem State.Holds.of_overlay {t : State} {bytes : List Byte} (hb : ∀ a, t.backing a = s.overlay base bytes a)
    (hr : ∀ j, j < bytes.length → region s.cfg (base + BitVec.ofNat 16 j) = .ram) (hn : bytes.length ≤ 65536) :
    t.Holds base 0 bytes := by
  intro j v e
  have hj := (List.getElem?_eq_some_iff.mp e).1
  have hs : (base + BitVec.ofNat 16 j - base).toNat = j := by
    rw [BitVec.add_comm, BitVec.add_sub_cancel, BitVec.toNat_ofNat, Nat.mod_eq_of_lt (by omega)]
  rw [Nat.zero_add, hb, State.overlay, if_pos (hr j hj), hs, e]
  rfl

end

theorem maskBytes_le (m : Byte) : maskBytes m ≤ 12 := by
  have := fun i => (m.getLsbD i).toNat_le
  have h := maskBytes_eq m
  have h0 := this 0
  have h1 := this 1
  have h2 := this 2
  have h3 := this 3
  have h4 := this 4
  have h5 := this 5
  have h6 := this 6
  have h7 := this 7
  omega

theorem ite_congr_value {α : Type} {b : Bool} {x y z : α} (h : b = true → x = y) :
    (if b then x else z) = if b then y else z := by
  cases b with
  | false => rfl
  | true => exact h rfl

/-- The registers `g`, with those the mask names as in `r`, and the stack pointer past the mask's bytes. -/
def Regs.pulledFrom (g : Regs) (k : Stk) (m : Byte) (r : Regs) : Regs :=
  { cc := if m.getLsbD 0 then r.cc else g.cc
    a := if m.getLsbD 1 then r.a else g.a
    b := if m.getLsbD 2 then r.b else g.b
    dp := if m.getLsbD 3 then r.dp else g.dp
    x := if m.getLsbD 4 then r.x else g.x
    y := if m.getLsbD 5 then r.y else g.y
    s := match k with
      | .s => g.sp k + BitVec.ofNat 16 (maskBytes m)
      | .u => if m.getLsbD 6 then r.reg16 (Stk.other k) else g.s
    u := match k with
      | .s => if m.getLsbD 6 then r.reg16 (Stk.other k) else g.u
      | .u => g.sp k + BitVec.ofNat 16 (maskBytes m)
    pc := if m.getLsbD 7 then r.pc else g.pc }

/-- A pull over the bytes that a push of the registers `r` left gives back the registers that the mask names. -/
theorem pulledRegs_of_holds {s : State} {k : Stk} {m : Byte} {r : Regs}
    (h : s.Holds (s.regs.sp k) 0 (frameBytes k m r)) : pulledRegs s k m = s.regs.pulledFrom k m r := by
  obtain ⟨p0, p1, p2, p3, p4, p5, p6, p7⟩ := pullOffset_eq m
  unfold frameBytes at h
  obtain ⟨v0, h⟩ := h.byte
  obtain ⟨v1, h⟩ := h.byte
  obtain ⟨v2, h⟩ := h.byte
  obtain ⟨v3, h⟩ := h.byte
  obtain ⟨v4, h⟩ := h.word
  obtain ⟨v5, h⟩ := h.word
  obtain ⟨v6, h⟩ := h.word
  obtain ⟨v7, -⟩ := (show State.Holds s _ _ (_ ++ []) by rwa [List.append_nil]).word
  rw [← p0] at v0; rw [← p1] at v1; rw [← p2] at v2; rw [← p3] at v3
  rw [← p4] at v4; rw [← p5] at v5; rw [← p6] at v6; rw [← p7] at v7
  simp only [pulledRegs, Regs.pulledFrom, State.pullByte, State.pullWord]
  rw [ite_congr_value (z := s.regs.cc) fun hm => by rw [v0 hm, CC.ofByte_toByte], ite_congr_value v1, ite_congr_value v2,
    ite_congr_value v3, ite_congr_value v4, ite_congr_value v5, ite_congr_value v7]
  cases k <;> simp only [ite_congr_value v6]

/-! ## A push and then a pull -/

/-- The stack pointer of a push, and the registers of the pull that follows it. -/
theorem Regs.pulledFrom_pushed (r : Regs) (k : Stk) (m : Byte) (pc : Word) :
    ((r.setSp k (r.sp k - BitVec.ofNat 16 (maskBytes m))).setPc pc).pulledFrom k m r =
      r.setPc (if m.getLsbD 7 then r.pc else pc) := by
  cases k <;> apply Regs.eq_of_fields <;>
    simp [Regs.pulledFrom, Regs.setPc, Regs.setSp, Regs.sp, Regs.reg16, Stk.other]

/-- Settles O23: what the push stacked lies in RAM (`State.Holds.of_overlay`), where the pull finds it
(`pulledRegs_of_holds`). -/
theorem pushThenPullRestores : Obligations.PushThenPullRestores := by
  intro s t m k pc q w hram ht
  obtain ⟨mem', e, hb⟩ := pushMask_transfers q w k m
  have hlen := frameBytes_length k m s.regs
  obtain ⟨i, rfl⟩ : ∃ i, t = (s.withMem mem').finish i
      (s.regs.setSp k (s.regs.sp k - BitVec.ofNat 16 (maskBytes m))) (maskBytes m) := by
    cases k with
    | s => exact ⟨.pshs m, (Host.Outcome.next.inj ((instruction_transfers (t := s.withMem mem') e).symm.trans ht)).symm⟩
    | u => exact ⟨.pshu m, (Host.Outcome.next.inj ((instruction_transfers (t := s.withMem mem') e).symm.trans ht)).symm⟩
  generalize hp : ((s.withMem mem').finish i
    (s.regs.setSp k (s.regs.sp k - BitVec.ofNat 16 (maskBytes m))) (maskBytes m)) = p
  generalize hv : p.withRegs (p.regs.setPc pc) = v
  have hregs : v.regs = (s.regs.setSp k (s.regs.sp k - BitVec.ofNat 16 (maskBytes m))).setPc pc := by rw [← hv, ← hp]; rfl
  have hq : v.Quiet := q.of_cfg (by rw [← hv, ← hp]; rfl)
  have hh : v.Holds (v.regs.sp k) 0 (frameBytes k m s.regs) := by
    have hsp : v.regs.sp k = s.regs.sp k - BitVec.ofNat 16 (maskBytes m) := by rw [hregs]; cases k <;> rfl
    rw [hsp]
    refine State.Holds.of_overlay (s := s) (fun a => ?_) (by rwa [hlen]) (by have := maskBytes_le m; omega)
    rw [← hb a, ← hv, ← hp]
    rfl
  have hpulled : pulledRegs v k m = s.regs.setPc (if m.getLsbD 7 then s.regs.pc else pc) := by
    rw [pulledRegs_of_holds hh, hregs, Regs.pulledFrom_pushed]
  have hmem : v.mem = p.mem := by rw [← hv]; rfl
  cases k with
  | s => exact ⟨_, exec_puls hq m, hpulled, hmem⟩
  | u => exact ⟨_, exec_pulu hq m, hpulled, hmem⟩

/-! ## Software interrupts, waits and RTI -/

theorem maskBytes_entire : maskBytes 0xFF = 12 := by decide

theorem maskBytes_fast : maskBytes 0x81 = 3 := by decide

/-- Settles O24: `takeException_quiet` with the masks and the vector of each, over one frame. -/
theorem softwareInterruptResult : Obligations.SoftwareInterruptResult := by
  intro s q w
  obtain ⟨mem', -, hb, he⟩ := takeException_quiet q w .entire
  rw [show Frame.entire.mask = 0xFF from rfl, maskBytes_entire] at hb he
  refine ⟨mem', hb, ?swi, ?swi2, ?swi3⟩
  case swi =>
    have e := he swiEntry rfl
    simp only [swiEntry, Bool.or_true] at e
    exact instruction_transfers (t := s.withMem mem') e
  case swi2 =>
    have e := he swi2Entry rfl
    simp only [swi2Entry, Bool.or_false] at e
    exact instruction_transfers (t := s.withMem mem') e
  case swi3 =>
    have e := he swi3Entry rfl
    simp only [swi3Entry, Bool.or_false] at e
    exact instruction_transfers (t := s.withMem mem') e

/-- Settles O25: CWAI's frame is pushed with the masked CC; SYNC only waits. -/
theorem waitInstructionResult : Obligations.WaitInstructionResult := by
  intro s m q w
  refine ⟨?cwai, ?sync⟩
  case cwai =>
    obtain ⟨t, e, mem', -, rfl, hb⟩ := pushFrame_quiet
      (s := s.withRegs (s.regs.setCC (CC.ofByte (s.regs.cc.toByte &&& m)))) (q.of_cfg rfl) w .entire
    rw [frameBytes_length, show Frame.entire.mask = 0xFF from rfl, maskBytes_entire] at e hb
    have h : clearAndWait m s = .ok ⟨⟩ ((((s.withMem mem').withWait .cwai).withRegs
        { s.regs with
          cc := { CC.ofByte (s.regs.cc.toByte &&& m) with e := true }, s := s.regs.s - 12 }).addCycles
        (accessCost s.cfg 12)) := by
      simp only [clearAndWait, bind_apply, modifyCC_apply, e, modify_apply]
      rfl
    exact ⟨mem', hb, instruction_transfers (t := (s.withMem mem').withWait .cwai) h⟩
  case sync => exact instruction_finish (u := ⟨⟩) (t := s.withWait .sync) rfl

/-- Settles O26: `returnFromException_quiet`, with 9 cycles more where the pulled E is set. -/
theorem returnFromInterruptResult : Obligations.ReturnFromInterruptResult := by
  intro s q
  refine ⟨fun he => ?entire, fun he => ?fast⟩
  case entire =>
    have h := returnFromException_quiet q
    rw [if_pos he] at h
    refine (instruction_ok h).trans ?_
    simp only [State.finish, State.addCycles_addCycles, Nat.add_assoc, Nat.add_comm 9]
  case fast =>
    have h := returnFromException_quiet q
    rw [he, if_neg Bool.false_ne_true] at h
    exact instruction_transfers h

end Sys2Proof.Machine

/-! SUPPORT. The step's choice among waits, requests and instructions, the interrupt entries with their acknowledge calls, and
an entry with the RTI that undoes it (60_exceptions.md sections 2 to 4). -/

namespace Sys2Proof.Machine

variable {s t : State}

/-! ## Pending requests -/

theorem State.pending_nmi (h : s.lines.nmiLatch = true ∧ s.nmiArmed = true) : s.pending = some .nmi := by
  rw [State.pending, if_pos (s.nmiPending_iff.mpr h)]

section
variable (hn : ¬(s.lines.nmiLatch = true ∧ s.nmiArmed = true))
include hn

theorem State.pending_firq (h : s.lines.firq = true ∧ s.regs.cc.f = false) : s.pending = some .firq := by
  rw [State.pending, if_neg (mt s.nmiPending_iff.mp hn), if_pos (s.firqPending_iff.mpr h)]

variable (hf : ¬(s.lines.firq = true ∧ s.regs.cc.f = false))
include hf

theorem State.pending_irq (h : s.lines.irq = true ∧ s.regs.cc.i = false) : s.pending = some .irq := by
  rw [State.pending, if_neg (mt s.nmiPending_iff.mp hn), if_neg (mt s.firqPending_iff.mp hf),
    if_pos (s.irqPending_iff.mpr h)]

theorem State.pending_none (h : ¬(s.lines.irq = true ∧ s.regs.cc.i = false)) : s.pending = none := by
  rw [State.pending, if_neg (mt s.nmiPending_iff.mp hn), if_neg (mt s.firqPending_iff.mp hf),
    if_neg (mt s.irqPending_iff.mp h)]

end

/-- What ends a SYNC wait. -/
theorem State.syncEnds_iff : s.syncEnds = true ↔
    (s.lines.nmiLatch = true ∧ (s.nmiArmed = true ∨ s.cfg.syncNmi = .latched)) ∨ s.lines.firq = true ∨ s.lines.irq = true := by
  rw [State.syncEnds, State.syncNmiEnds, Bool.or_eq_true, Bool.or_eq_true, or_assoc]
  refine or_congr ?_ Iff.rfl
  cases h : s.cfg.syncNmi <;> simp [State.nmiPending]

/-! ## The branches of the step -/

section
variable (hf : s.fault = none)
include hf

theorem cpuStep_serve (hw : s.wait = .none) : cpuStep s = serve s := by simp only [cpuStep, hf, hw]

theorem cpuStep_cwai (hw : s.wait = .cwai) : cpuStep s = cwaiStep s := by simp only [cpuStep, hf, hw]

theorem cpuStep_sync (hw : s.wait = .sync) : cpuStep s = syncStep s := by simp only [cpuStep, hf, hw]

theorem cpuStep_cwai_entry (hw : s.wait = .cwai) {k : Irq} (hp : s.pending = some k) :
    cpuStep s = entryStep (cwaiEntry k) s := by
  rw [cpuStep_cwai hf hw]
  simp only [cwaiStep, hp]

theorem cpuStep_entry (hw : s.wait = .none) {k : Irq} (hp : s.pending = some k) :
    cpuStep s = entryStep (interruptEntry k) s := by
  rw [cpuStep_serve hf hw]
  simp only [serve, hp]

theorem cpuStep_sync_ends (hw : s.wait = .sync) (he : s.syncEnds = true) : cpuStep s = cpuStep (s.withWait .none) := by
  rw [cpuStep_sync hf hw, cpuStep_serve (s := s.withWait .none) hf rfl, syncStep, if_pos he]

end

/-- Settles O45: `cpuStep`'s branches, with the pending requests and the ending of a SYNC wait as propositions. -/
theorem cpuStepRules : Obligations.CpuStepRules := by
  intro s
  refine ⟨cpuStep_halted, fun hf => ⟨fun hw => ?cwai, fun hw => ?sync, fun hw => ?none⟩⟩
  case cwai =>
    refine ⟨fun h => cpuStep_cwai_entry hf hw (State.pending_nmi h),
      fun hn h => cpuStep_cwai_entry hf hw (State.pending_firq hn h),
      fun hn hq h => cpuStep_cwai_entry hf hw (State.pending_irq hn hq h), fun hn hq hi => ?_⟩
    rw [cpuStep_cwai hf hw]
    simp only [cwaiStep, State.pending_none hn hq hi]
  case sync =>
    refine ⟨fun h => cpuStep_sync_ends hf hw (State.syncEnds_iff.mpr h), fun hn hq hi => ?_⟩
    have he : ¬s.syncEnds = true := by
      rw [State.syncEnds_iff, hq, hi]
      simpa using hn
    rw [cpuStep_sync hf hw, syncStep, if_neg he]
  case none =>
    refine ⟨fun h => cpuStep_entry hf hw (State.pending_nmi h),
      fun hn h => cpuStep_entry hf hw (State.pending_firq hn h),
      fun hn hq h => cpuStep_entry hf hw (State.pending_irq hn hq h), fun hn hq hi => ?_⟩
    rw [cpuStep_serve hf hw]
    simp only [serve, State.pending_none hn hq hi]

/-! ## Entries -/

/-- A pending request ends a SYNC wait. -/
theorem State.syncEnds_of_pending {k : Irq} (h : s.pending = some k) : s.syncEnds = true := by
  rw [State.syncEnds_iff]
  by_cases hn : s.lines.nmiLatch = true ∧ s.nmiArmed = true
  · exact .inl ⟨hn.1, .inl hn.2⟩
  · by_cases hf : s.lines.firq = true ∧ s.regs.cc.f = false
    · exact .inr (.inl hf.1)
    · by_cases hi : s.lines.irq = true ∧ s.regs.cc.i = false
      · exact .inr (.inr hi.1)
      · rw [State.pending_none hn hf hi] at h
        exact nomatch h

/-- Outside a CWAI wait a pending request is entered, and a SYNC wait is over. -/
theorem cpuStep_of_pending (hf : s.fault = none) (hw : s.wait ≠ .cwai) {k : Irq} (hp : s.pending = some k) :
    cpuStep s = entryStep (interruptEntry k) (s.withWait .none) := by
  cases h : s.wait with
  | none =>
    rw [cpuStep_entry hf h hp, show s.withWait .none = s from State.eq_of_fields rfl rfl rfl h.symm rfl rfl rfl rfl rfl rfl rfl rfl rfl]
  | cwai => exact absurd h hw
  | sync => rw [cpuStep_sync_ends hf h (State.syncEnds_of_pending hp), cpuStep_entry (s := s.withWait .none) hf rfl hp]

/-- A callback keeps the parameters and the wait. -/
def KeepsWait (s t : State) : Prop := t.cfg = s.cfg ∧ t.wait = s.wait

theorem keepsWait_closed : BusClosed KeepsWait where
  refl _ := ⟨rfl, rfl⟩
  trans h h' := ⟨h'.1.trans h.1, h'.2.trans h.2⟩
  store _ _ _ := ⟨State.storeByte_cfg .., State.storeByte_wait ..⟩
  dev _ _ := ⟨rfl, rfl⟩
  lines _ _ := ⟨rfl, rfl⟩
  host _ _ := ⟨rfl, rfl⟩
  drawn _ _ := ⟨rfl, rfl⟩

theorem ackCalls_keepsWait {k : Irq} {u : State} (h : RunsInOrder (s.ackCalls k) u t) : KeepsWait u t := by
  refine h.respects keepsWait_closed.toStable fun x hx => ?_
  obtain ⟨d, -, rfl⟩ := List.mem_map.mp hx
  exact callOnce_respects keepsWait_closed _ _

/-- How a step ends that has come to the acknowledge calls of an entry in the state `u`. -/
def EntryEnds (s : State) (k : Irq) (u : State) (c : Nat) : Prop :=
  (∀ t, RunsInOrder (s.ackCalls k) u t → cpuStep s = .next ((t.withWait .none).addCycles c)) ∧
  (∀ e t, FailsInOrder (s.ackCalls k) u (.peripheral e) t → cpuStep s = .next (t.deviceFault s.regs.pc none e))

/-- An entry step that clears the latch, takes the exception up to the acknowledge calls, and ends with `tail`. -/
theorem entryEnds_of_entry {s0 s1 u : State} {k : Irq} {f : Frame} {c : Nat} {entry : M Unit} {tail : Unit → M Unit}
    (hs : cpuStep s = entryStep entry s0) (hpc : s0.regs.pc = s.regs.pc)
    (he : entry = clearLatch k >>= fun _ => takeException (k.entry f) >>= tail) (hl : clearLatch k s0 = .ok ⟨⟩ s1)
    (hx : takeException (k.entry f) s1 = acknowledge k u) (hc : u.cfg = s.cfg)
    (ht : ∀ t, KeepsWait u t → tail ⟨⟩ t = .ok ⟨⟩ ((t.withWait .none).addCycles c)) : EntryEnds s k u c := by
  have hk : u.ackCalls k = s.ackCalls k := by rw [State.ackCalls, hc]; rfl
  refine ⟨fun t hr => ?_, fun e t hr => ?_⟩
  · have ha : acknowledge k u = .ok ⟨⟩ t := acknowledge_ok (hk ▸ hr)
    have : entry s0 = .ok ⟨⟩ ((t.withWait .none).addCycles c) := by
      rw [he, bind_ok hl, bind_ok (hx.trans ha), ht t (ackCalls_keepsWait hr)]
    simp only [hs, entryStep, this]
  · have ha : acknowledge k u = .error (.peripheral e) t := acknowledge_error (hk ▸ hr)
    have : entry s0 = .error (.peripheral e) t := by rw [he, bind_ok hl, bind_error (hx.trans ha)]
    simp only [hs, entryStep, this, hpc]
    rfl

/-- The request lines once an entry has cleared NMI's latch. -/
def Irq.lines (k : Irq) (l : Lines) : Lines :=
  match k with
  | .nmi => { l with nmiLatch := false }
  | .firq | .irq => l

theorem clearLatch_apply (k : Irq) (s : State) : clearLatch k s = .ok ⟨⟩ (s.withLines (k.lines s.lines)) := by
  cases k <;> rfl

/-- The number of bytes of a frame (60_exceptions.md R620). -/
def Frame.size : Frame → Nat
  | .entire => 12
  | .fast => 3
  | .stacked => 0

theorem maskBytes_mask (f : Frame) : maskBytes f.mask = f.size := by
  cases f with
  | entire => exact maskBytes_entire
  | fast => exact maskBytes_fast
  | stacked => decide

/-- The state in which an entry has come to its acknowledge calls, over a frame that lies from `sp` upward. -/
def State.entered (s : State) (mem' : Memory) (w : Wait) (k : Irq) (f : Frame) (sp : Word) : State :=
  ((((s.withMem mem').withWait w).withRegs { s.regs with
    cc := { f.mark s.regs.cc with i := true, f := k.setsF || s.regs.cc.f }
    s := sp
    pc := (s.withMem mem').word k.vector }).withLines (k.lines s.lines)).addCycles (accessCost s.cfg (f.size + 2))

section
variable (q : s.Quiet) (hf : s.fault = none)
include q hf

/-- An ordinary entry. -/
theorem interruptEntry_ends (w : s.mem.wf = true) (hw : s.wait ≠ .cwai) {k : Irq} (hp : s.pending = some k) :
    ∃ mem' : Memory,
      (∀ a, (s.withMem mem').backing a = s.overlay (s.regs.s - BitVec.ofNat 16 k.frame.size)
        (frameBytes .s k.frame.mask (s.regs.setCC (k.frame.mark s.regs.cc))) a) ∧
      EntryEnds s k (s.entered mem' .none k k.frame (s.regs.s - BitVec.ofNat 16 k.frame.size)) k.cycles := by
  obtain ⟨mem', -, hb, he⟩ := takeException_quiet (s := (s.withWait .none).withLines (k.lines s.lines)) (q.of_cfg rfl) w k.frame
  rw [maskBytes_mask] at hb he
  refine ⟨mem', hb, entryEnds_of_entry (f := k.frame) (tail := fun _ => addCycles k.cycles) (cpuStep_of_pending hf hw hp) rfl rfl
    (clearLatch_apply k _) ?_ rfl fun t hk => ?_⟩
  · have := he (k.entry k.frame) rfl
    simp only [Irq.entry, Bool.or_true, Bool.or_comm _ k.setsF] at this
    exact this
  · rw [addCycles_apply, show t.withWait .none = t from
      State.eq_of_fields rfl rfl rfl hk.2.symm rfl rfl rfl rfl rfl rfl rfl rfl rfl]

/-- The entry that ends a CWAI wait stacks nothing. -/
theorem cwaiEntry_ends (hw : s.wait = .cwai) {k : Irq} (hp : s.pending = some k) :
    EntryEnds s k (s.entered s.mem .cwai k .stacked s.regs.s) s.cfg.cwaiEntryCycles := by
  have hx : takeException (k.entry .stacked) (s.withLines (k.lines s.lines)) =
      acknowledge k (s.entered s.mem .cwai k .stacked s.regs.s) := by
    simp only [takeException, Irq.entry, pushFrame, bind_apply, pure_apply, modifyCC_apply]
    rw [read16_at q _ (by rfl)]
    simp only [setPc_apply, Bool.or_true, Bool.or_comm _ k.setsF]
    exact congrArg _ (State.eq_of_fields rfl rfl rfl hw rfl rfl rfl rfl rfl rfl rfl rfl rfl)
  refine entryEnds_of_entry (f := .stacked)
    (tail := fun _ => modify (fun s => s.withWait .none) >>= fun _ => get >>= fun s => addCycles s.cfg.cwaiEntryCycles)
    (cpuStep_cwai_entry hf hw hp) rfl rfl (clearLatch_apply k s) hx rfl fun t hk => ?_
  simp only [bind_apply, modify_apply, get_apply, addCycles_apply, State.withWait_cfg, hk.1]
  rfl

end

/-- Settles O47: the pending request's entry, ordinary (`interruptEntry_ends`) or out of CWAI (`cwaiEntry_ends`). -/
theorem interruptEntryResult : Obligations.InterruptEntryResult := by
  intro s q w hf
  refine ⟨fun hw => ⟨fun h => ?nmi, fun hn h => ?firq, fun hn hq h => ?irq⟩,
    fun hw => ⟨fun h => cwaiEntry_ends q hf hw (State.pending_nmi h), fun hn h => cwaiEntry_ends q hf hw (State.pending_firq hn h),
      fun hn hq h => cwaiEntry_ends q hf hw (State.pending_irq hn hq h)⟩⟩
  case nmi =>
    obtain ⟨mem', hb, he⟩ := interruptEntry_ends q hf w hw (State.pending_nmi h)
    exact ⟨mem', hb, he⟩
  case firq =>
    obtain ⟨mem', hb, he⟩ := interruptEntry_ends q hf w hw (State.pending_firq hn h)
    exact ⟨mem', hb, he⟩
  case irq =>
    obtain ⟨mem', hb, he⟩ := interruptEntry_ends q hf w hw (State.pending_irq hn hq h)
    exact ⟨mem', hb, he⟩

/-! ## An entry and then RTI -/

theorem Frame.mask_cc {f : Frame} (hf : f ≠ .stacked) : f.mask.getLsbD 0 = true := by
  cases f with
  | entire => rfl
  | fast => rfl
  | stacked => exact absurd rfl hf

/-- The frame's own CC tells RTI which frame it is. -/
theorem exec_rti_of_holds {v : State} (q : v.Quiet) {f : Frame} (hf : f ≠ .stacked) {r : Regs}
    (h : v.Holds v.regs.s 0 (frameBytes .s f.mask (r.setCC (f.mark r.cc)))) :
    ∃ u : State, exec .rti v = .next u ∧ u.mem = v.mem ∧ u.regs = v.regs.pulledFrom .s f.mask (r.setCC (f.mark r.cc)) := by
  have hcc : CC.ofByte (v.backing v.regs.s) = f.mark r.cc := by
    have h0 := (State.Holds.byte h).1 (Frame.mask_cc hf)
    rw [show v.regs.s + BitVec.ofNat 16 0 = v.regs.s from BitVec.add_zero _] at h0
    rw [h0, CC.ofByte_toByte]
    rfl
  obtain ⟨entire, fast⟩ := returnFromInterruptResult v q
  rw [hcc] at entire fast
  have hp := pulledRegs_of_holds (k := .s) h
  cases f with
  | entire => exact ⟨_, entire rfl, rfl, hp⟩
  | fast => exact ⟨_, fast rfl, rfl, hp⟩
  | stacked => exact absurd rfl hf

theorem word_sub_add_ofNat (x : Word) {n j : Nat} (h : j < n) :
    x - BitVec.ofNat 16 n + BitVec.ofNat 16 j = x - BitVec.ofNat 16 (n - 1 - j + 1) := by
  have e : BitVec.ofNat 16 n = BitVec.ofNat 16 (n - 1 - j + 1) + BitVec.ofNat 16 j := by
    rw [← BitVec.ofNat_add]
    congr 1
    omega
  rw [e]
  generalize BitVec.ofNat 16 (n - 1 - j + 1) = y
  generalize BitVec.ofNat 16 j = z
  bv_omega

/-- With no device to acknowledge, the frame of an entry lies where RTI, from any registers with S back at it, finds it. -/
theorem entry_then_rti {k : Irq} {g : Regs} (q : s.Quiet) (w : s.mem.wf = true) (hd : s.cfg.devices = []) (hf : s.fault = none)
    (hw : s.wait ≠ .cwai) (hp : s.pending = some k)
    (hram : ∀ j, j < k.frame.size → region s.cfg (s.regs.s - BitVec.ofNat 16 (j + 1)) = .ram)
    (ht : cpuStep s = .next t) (hg : g.s = t.regs.s) :
    g.s = s.regs.s - BitVec.ofNat 16 k.frame.size ∧
    ∃ u : State, exec .rti (t.withRegs g) = .next u ∧ u.mem = t.mem ∧
      u.regs = g.pulledFrom .s k.frame.mask (s.regs.setCC (k.frame.mark s.regs.cc)) := by
  obtain ⟨mem', hb, he, -⟩ := interruptEntry_ends q hf w hw hp
  have hk : s.ackCalls k = [] := by rw [State.ackCalls, hd]; rfl
  obtain rfl := Host.Outcome.next.inj ((he _ (by rw [hk]; rfl)).symm.trans ht)
  have hsp : g.s = s.regs.s - BitVec.ofNat 16 k.frame.size := hg
  have hlen : (frameBytes .s k.frame.mask (s.regs.setCC (k.frame.mark s.regs.cc))).length = k.frame.size := by
    rw [frameBytes_length, maskBytes_mask]
  have hne : k.frame ≠ .stacked := by cases k <;> exact nofun
  refine ⟨hsp, exec_rti_of_holds ?_ hne ?_⟩
  · exact q.of_cfg rfl
  rw [State.withRegs_regs, hsp]
  refine State.Holds.of_overlay (s := s) (fun a => (hb a).symm ▸ rfl) (fun j hj => ?_) ?_
  · rw [hlen] at hj
    rw [word_sub_add_ofNat _ hj]
    exact hram _ (by omega)
  · rw [hlen]
    cases k <;> decide

/-- Settles O48, from `entry_then_rti`: an entire frame holds every register, a fast one PC and CC. -/
theorem entryThenRtiRestores : Obligations.EntryThenRtiRestores := by
  intro s t k g q w hd hf hw hp hram ht hg
  have back (n : Nat) (h : g.s = s.regs.s - BitVec.ofNat 16 n) : g.s + BitVec.ofNat 16 n = s.regs.s := by
    rw [h, BitVec.sub_add_cancel]
  have hram' : ∀ j, j < k.frame.size → region s.cfg (s.regs.s - BitVec.ofNat 16 (j + 1)) = .ram := by
    cases k <;> exact hram
  obtain ⟨hsp, u, hu, hm, hr⟩ := entry_then_rti q w hd hf hw hp hram' ht hg
  refine ⟨u, hu, hm, hr.trans ?_⟩
  cases k with
  | nmi => exact Regs.eq_of_fields rfl rfl rfl rfl rfl rfl rfl (back 12 hsp) rfl
  | firq => exact Regs.eq_of_fields rfl rfl rfl rfl rfl rfl rfl (back 3 hsp) rfl
  | irq => exact Regs.eq_of_fields rfl rfl rfl rfl rfl rfl rfl (back 12 hsp) rfl

end Sys2Proof.Machine

/-! SUPPORT. Opcode 0x3E and the reset sequence (47_interrupt_ops.md R550, 70_reset_and_hazards.md R700). -/

namespace Sys2Proof.Machine

variable {s t : State}

/-! ## A machine's handler of opcode 0x3E -/

theorem exec_reset_handler_ok {rules : List HandlerRule} (h : s.cfg.resetOp = .handler rules) {cost : Nat}
    (e : runHandler rules 0 0 s = .ok cost t) : exec .reset s = .next (t.addCycles cost) := by
  rw [exec_reset_handler h, instruction_ok (t := t.addCycles cost) (u := ⟨⟩) (by rw [resetHandler, bind_ok e]; rfl)]
  rfl

theorem exec_reset_handler_error {rules : List HandlerRule} (h : s.cfg.resetOp = .handler rules) {e : Nat}
    (he : runHandler rules 0 0 s = .error (.peripheral e) t) :
    exec .reset s = .next (t.deviceFault (s.regs.pc - 1) (some 0x3E) e) := by
  rw [exec_reset_handler h, instruction_error (t := t) (e := .peripheral e) (by rw [resetHandler, bind_error he])]
  rfl

/-- A script of one action that does not end it. -/
theorem runBody_single {act : DevAct} (h : ∀ e, act ≠ .answer e) (h' : act ≠ .pass) {args : CbArgs} {v : Nat}
    (e : runAct runCallback true args 0 act s = .ok v t) :
    runBody runCallback true { rules := [⟨.lit 1, act⟩] } args s = .ok none (t.drawn 1) := by
  have hr : runRules runCallback true args [⟨.lit 1, act⟩] 0 s = .ok (.next v) t := by
    have hg : ¬evalExpr s args 0 (.lit 1) = 0 := by simp [evalExpr]
    cases act
    case answer x => exact absurd rfl (h x)
    case pass => exact absurd rfl h'
    all_goals
      rw [runRules, bind_ok (get_apply s), if_neg hg]
      exact bind_ok e
  rw [runBody, bind_ok (get_apply s)]
  simp only [evalExpr, runRounds, bind_apply, hr, pure_apply, modify_apply]

theorem runHandler_single {sc : Script} (e : runBody runCallback true sc s.handlerArgs s = .ok none t)
    (rest : List HandlerRule) (reply cost : Nat) :
    runHandler (⟨.lit 1, .run sc⟩ :: rest) reply cost s = runHandler rest reply cost t := by
  rw [runHandler_run (by simp [evalExpr]) rfl, bind_ok e]
  rfl

theorem runHandler_price (n reply cost : Nat) :
    runHandler [⟨.lit 1, .cost (.lit n)⟩] reply cost s = .ok (cost + n) s := by
  rw [runHandler_cost (by simp [evalExpr]) rfl]
  rfl

section
variable (q : s.Quiet) (a v reply : Nat)
include q

theorem runAct_readByte_quiet :
    runAct runCallback true s.handlerArgs reply (.readByte (.lit a)) s =
      .ok (s.backing (BitVec.ofNat 16 a)).toNat (s.addCycles (accessCost s.cfg 1)) := by
  rw [runAct, bind_ok (get_apply s)]
  exact bind_ok (read8_quiet q _)

/-- What a handler's script writes is in range whatever number it gives (20_memory.md R97). -/
theorem runAct_writeByte_quiet :
    runAct runCallback true s.handlerArgs reply (.writeByte (.lit a) (.lit v)) s =
      .ok reply ((s.storeByte (BitVec.ofNat 16 a) (BitVec.ofNat 8 v)).addCycles (accessCost s.cfg 1)) := by
  rw [runAct, bind_ok (get_apply s)]
  exact bind_ok (busWriteByte_quiet q _ _ (n := v % 0x100) (by rw [BitVec.toNat_ofNat]))

theorem runAct_writeWord_quiet :
    runAct runCallback true s.handlerArgs reply (.writeWord (.lit a) (.lit v)) s =
      .ok reply ((s.storeWord (BitVec.ofNat 16 a) (BitVec.ofNat 16 v)).addCycles (accessCost s.cfg 2)) := by
  have h := write16_quiet q (BitVec.ofNat 16 a) (BitVec.ofNat 16 v)
  rw [write16, BitVec.toNat_ofNat] at h
  rw [runAct, bind_ok (get_apply s)]
  exact bind_ok h

end

/-- Settles O27: `exec_reset_handler_ok` and `exec_reset_handler_error`, and the rules one by one. -/
theorem resetStubResult : Obligations.ResetStubResult := by
  intro s
  refine ⟨fun h => ?nop, exec_reset_reset, fun rules h => ⟨fun _ _ => exec_reset_handler_ok h, fun _ _ => exec_reset_handler_error h⟩,
    fun rule rest reply cost => ⟨rfl, runHandler_skip, fun hg => ⟨fun sc ha => ⟨fun v t e => ?run, fun e t he => ?fails⟩,
      fun ws ha => runHandler_load hg ha, fun e ha => runHandler_cost hg ha⟩⟩, fun h => ?swap,
    fun a v n q => ⟨fun h => ?read, fun h => ?byte, fun h => ?word⟩⟩
  case nop =>
    rw [exec_reset_nop h, instruction_ok (addCycles_apply 2 s)]
    rfl
  case run => rw [runHandler_run hg ha, bind_ok e]
  case fails => rw [runHandler_run hg ha, bind_error he]
  case swap =>
    have e : ∀ t : State, runHandler [⟨.lit 1, .cost (.lit 7)⟩] 0 0 t = .ok 7 t := fun t => runHandler_price 7 0 0
    refine exec_reset_handler_ok h ((runHandler_load (by simp [evalExpr]) rfl).trans ((e _).trans (congrArg _ ?_)))
    simp [State.loadFields, State.setField, evalExpr, State.handlerArgs, State.cpuView, cellAt]
  case read =>
    have e := runBody_single (fun _ => DevAct.noConfusion) DevAct.noConfusion (runAct_readByte_quiet q a 0)
    refine exec_reset_handler_ok h ((runHandler_single e _ 0 0).trans ?_)
    rw [runHandler_price, Nat.zero_add]
  case byte =>
    have e := runBody_single (fun _ => DevAct.noConfusion) DevAct.noConfusion (runAct_writeByte_quiet q a v 0)
    exact exec_reset_handler_ok h (runHandler_single e [] 0 0)
  case word =>
    have e := runBody_single (fun _ => DevAct.noConfusion) DevAct.noConfusion (runAct_writeWord_quiet q a v 0)
    exact exec_reset_handler_ok h (runHandler_single e [] 0 0)

/-! ## The reset sequence -/

theorem resetCalls_eq (s : State) :
    s.resetCalls = (s.cfg.devices.map Device.reset).map fun sc => callOnce sc { } := by
  rw [State.resetCalls, List.map_map]
  rfl

/-- Device resets keep the parameters. -/
theorem resetCalls_cfg (h : RunsInOrder s.resetCalls s t) : t.cfg = s.cfg := by
  refine (h.respects keepsWait_closed.toStable fun x hx => ?_).1
  obtain ⟨d, -, rfl⟩ := List.mem_map.mp hx
  exact callOnce_respects keepsWait_closed _ _

theorem resetSequence_ok (q : s.Quiet) (h : RunsInOrder s.resetCalls s t) :
    resetSequence s = .ok ⟨⟩ (((((((t.withRegs ((t.regs.atReset t.draws).setPc (t.word resetVector))).withWait .none).withNmiArmed
      false).withLines { t.lines with nmiLatch := false }).withFault none).drawn 5).addCycles (accessCost s.cfg 2)) := by
  have hc := resetCalls_cfg h
  rw [resetCalls_eq] at h
  rw [resetSequence, bind_ok (get_apply s), bind_ok (runAll_ok _ h)]
  simp only [bind_apply, modify_apply]
  rw [read16_at q _ (by exact hc)]
  rfl

theorem resetSequence_error {e : Raise} (h : FailsInOrder s.resetCalls s e t) : resetSequence s = .error e t := by
  rw [resetCalls_eq] at h
  rw [resetSequence, bind_ok (get_apply s), bind_error (runAll_error _ h)]

/-- Settles O28, from `resetSequence_ok`: the values drawn are those of `Regs.atReset`. -/
theorem resetSequenceResult : Obligations.ResetSequenceResult := by
  intro s t q
  refine ⟨fun h => ?ok, fun e h => ?error⟩
  case ok =>
    obtain ⟨g, hg⟩ : ∃ g, g = t.regs.atReset t.draws := ⟨_, rfl⟩
    refine ⟨g.a, g.b, g.x, g.y, g.u, g.s, g.cc.h, g.cc.n, g.cc.z, g.cc.v, g.cc.c, 5, ?_⟩
    subst hg
    simp only [resetStep, resetSequence_ok q h]
    rfl
  case error =>
    simp only [resetStep, resetSequence_error h]
    rfl

/-- Settles O54: the state after reset, field by field. -/
theorem resetState : Obligations.ResetState :=
  ⟨⟨rfl, rfl, rfl⟩, rfl, rfl, rfl, rfl, rfl, rfl, rfl, rfl, rfl, rfl⟩

end Sys2Proof.Machine

/-! SUPPORT. The rows of the indexed sub-modes (30_encoding.md R140) and the cost of every instruction. -/

namespace Sys2Proof.Machine

/-! ## Sums over the integers -/

theorem ofInt_toNat_add (w : Word) (d : Int) : BitVec.ofInt 16 ((w.toNat : Int) + d) = w + BitVec.ofInt 16 d := by
  rw [BitVec.ofInt_add, BitVec.ofInt_natCast, BitVec.ofNat_toNat, BitVec.setWidth_eq]

theorem ofInt_toNat (w : Word) : BitVec.ofInt 16 (w.toNat : Int) = w := by
  rw [BitVec.ofInt_natCast, BitVec.ofNat_toNat, BitVec.setWidth_eq]

theorem ofInt_toNat_add_toNat (w x : Word) : BitVec.ofInt 16 ((w.toNat : Int) + (x.toNat : Int)) = w + x := by
  rw [ofInt_toNat_add, ofInt_toNat]

theorem ofInt_toNat_sub (w : Word) (n : Nat) : BitVec.ofInt 16 ((w.toNat : Int) - n) = w - BitVec.ofNat 16 n := by
  rw [Int.sub_eq_add_neg, ofInt_toNat_add, BitVec.ofInt_neg, BitVec.ofInt_natCast, BitVec.sub_eq_add_neg]

/-! ## Post-bytes -/

/-- The number of a base register in a post-byte (30_encoding.md R139). -/
def IdxReg.number : IdxReg → Nat
  | .x => 0
  | .y => 1
  | .u => 2
  | .s => 3

theorem off5_postByte_toNat (r : IdxReg) (n : BitVec 5) : (Idx.postByte (.off5 r n)).toNat = 32 * IdxReg.number r + n.toNat := by
  revert n
  cases r <;> decide

theorem mode_postByte_toNat (r : IdxReg) (ind : Bool) (m : IdxMode) :
    (Idx.postByte (.mode r ind m)).toNat = 128 + 32 * IdxReg.number r + (if ind then 16 else 0) + m.code.toNat := by
  have h : ∀ c : BitVec 4, (((1#1 ++ r.code) ++ BitVec.ofBool ind) ++ c).toNat =
      128 + 32 * IdxReg.number r + (if ind then 16 else 0) + c.toNat := by
    cases r <;> cases ind <;> decide
  exact h m.code

/-- A row of the sub-mode table: post-byte and offset bytes, address and registers after, whether the address is read through,
extra cycles. -/
def IndexedRow (g : Regs) (r : IdxReg) (ind : Bool) (m : IdxMode) (code : Nat) (offset : List Byte) (ea : Int) (after : Regs)
    (through : Bool) (extra : Nat) : Prop :=
  (∃ pb : Byte, (Idx.mode r ind m).bytes = pb :: offset ∧
    pb.toNat = 128 + 32 * IdxReg.number r + (if ind then 16 else 0) + code) ∧
  Mem.baseEA (.idx (.mode r ind m)) g = (BitVec.ofInt 16 ea, after) ∧ Mem.indirect (.idx (.mode r ind m)) = through ∧
  Idx.extra (.mode r ind m) = extra

/-- A row from the address, the registers after and the extra cycles. -/
theorem indexedRow {g : Regs} {r : IdxReg} {ind : Bool} {m : IdxMode} {ea : Int} {a : Word} {after : Regs} {extra : Nat}
    (hm : modeEA (IdxReg.toReg16 r) m g = (a, after)) (ha : BitVec.ofInt 16 ea = a) (he : Idx.extra (.mode r ind m) = extra) :
    IndexedRow g r ind m m.code.toNat m.offsetBytes ea after (modeIndirect ind m) extra :=
  ⟨⟨_, rfl, mode_postByte_toNat r ind m⟩, hm.trans (by rw [ha]), rfl, he⟩

/-! ## The read through an address -/

theorem State.word_toNat (s : State) (a : Word) :
    (s.word a).toNat = 256 * (s.backing a).toNat + (s.backing (BitVec.ofNat 16 (a.toNat + 1))).toNat := by
  have e : BitVec.ofNat 16 (a.toNat + 1) = a + 1 := by
    rw [BitVec.ofNat_add, BitVec.ofNat_toNat, BitVec.setWidth_eq]
    rfl
  rw [State.word, wordOf_toNat, e]

theorem effectiveAddress_reserved (s : State) (r : IdxReg) (ind : Bool) (m : BitVec 4) :
    effectiveAddress (.idx (.mode r ind (.reserved m))) s = .ok 0xFFFF s := rfl

theorem moved_eq (g : Regs) (r : Reg16) (d : Int) :
    g.setReg16 r (BitVec.ofInt 16 (((g.reg16 r).toNat : Int) + d)) = g.setReg16 r (g.reg16 r + BitVec.ofInt 16 d) := by
  rw [ofInt_toNat_add]

theorem extra_mode (r : IdxReg) (ind : Bool) (m : IdxMode) (h : modeIndirect ind m = ind) :
    Idx.extra (.mode r ind m) = if ind then IdxMode.baseExtra m + 3 else IdxMode.baseExtra m := by
  rw [Idx.extra, h]
  cases ind <;> rfl

theorem directAddress_eq (dp n : Byte) : wordOf dp n = BitVec.ofNat 16 (256 * dp.toNat + n.toNat) := by
  rw [← wordOf_toNat, BitVec.ofNat_toNat, BitVec.setWidth_eq]

/-- Settles O33: each row by `indexedRow`, its address over the integers. -/
theorem indexedModes : Obligations.IndexedModes := by
  intro g r ind n5 n8 n16
  have dec (w : Word) (n : Nat) : (w - BitVec.ofNat 16 n) = w + BitVec.ofInt 16 (-n) := by
    rw [← ofInt_toNat_sub, Int.sub_eq_add_neg, ofInt_toNat_add]
  refine ⟨⟨_, rfl, off5_postByte_toNat r n5⟩, ⟨Prod.ext (ofInt_toNat_add _ _).symm rfl, rfl, rfl⟩,
    indexedRow (m := .inc1) (Prod.ext rfl (moved_eq g _ 1).symm) (ofInt_toNat _) (extra_mode r ind _ rfl),
    indexedRow (m := .inc2) (Prod.ext rfl (moved_eq g _ 2).symm) (ofInt_toNat _) (extra_mode r ind _ rfl),
    indexedRow (m := .dec1) (Prod.ext rfl ?dec1) (ofInt_toNat_sub _ 1) (extra_mode r ind _ rfl),
    indexedRow (m := .dec2) (Prod.ext rfl ?dec2) (ofInt_toNat_sub _ 2) (extra_mode r ind _ rfl),
    indexedRow (m := .zero) rfl (ofInt_toNat _) (extra_mode r ind _ rfl),
    indexedRow (m := .accB) rfl (ofInt_toNat_add _ _) (extra_mode r ind _ rfl),
    indexedRow (m := .accA) rfl (ofInt_toNat_add _ _) (extra_mode r ind _ rfl),
    indexedRow (m := .off8 n8) rfl (ofInt_toNat_add _ _) (extra_mode r ind _ rfl),
    indexedRow (m := .off16 n16) rfl (ofInt_toNat_add_toNat _ _) (extra_mode r ind _ rfl),
    indexedRow (m := .accD) rfl (ofInt_toNat_add_toNat _ _) (extra_mode r ind _ rfl),
    indexedRow (m := .pcr8 n8) rfl (ofInt_toNat_add _ _) (extra_mode r ind _ rfl),
    indexedRow (m := .pcr16 n16) rfl (ofInt_toNat_add_toNat _ _) (extra_mode r ind _ rfl),
    indexedRow (m := .extInd n16) rfl (ofInt_toNat _) rfl,
    fun m _ => ⟨indexedRow (m := .reserved m) rfl rfl rfl, fun s => effectiveAddress_reserved s r ind m⟩,
    Prod.ext (directAddress_eq _ _) rfl, rfl, fun m hm => ?direct, fun _ => rfl,
    fun s m => ⟨fun hi => if_neg (by simp [hi]), fun hi => ?through, rfl, rfl, rfl, rfl, rfl, rfl, rfl, State.word_toNat s _, rfl⟩⟩
  case dec1 => exact (congrArg _ (dec _ 1)).trans (moved_eq g _ (-1)).symm
  case dec2 => exact (congrArg _ (dec _ 2)).trans (moved_eq g _ (-2)).symm
  case direct => rcases hm with rfl | rfl <;> exact ⟨rfl, rfl⟩
  case through =>
    rw [Mem.target, if_pos hi]
    exact State.word_toNat s _

/-! ## Cycles -/

/-- A statement about each of a list, as a conjunction. -/
theorem forall_mem_of_forall {α : Type} {p : α → Prop} {l : List α} (h : l.Forall p) : ∀ a, a ∈ l → p a :=
  List.forall_iff_forall_mem.mp h

/-- Settles O34: the table's rows, each by computation. -/
theorem instructionCosts : Obligations.InstructionCosts := by
  intro v m w x r1 r2
  refine ⟨forall_mem_of_forall ?_, forall_mem_of_forall ?_, forall_mem_of_forall ?_, forall_mem_of_forall ?_,
    forall_mem_of_forall ?_, forall_mem_of_forall ?_, forall_mem_of_forall ?_, ⟨rfl, rfl, rfl⟩, ⟨rfl, rfl, rfl⟩,
    forall_mem_of_forall ?_, forall_mem_of_forall ?_, forall_mem_of_forall ?_, forall_mem_of_forall ?_,
    forall_mem_of_forall ?_, forall_mem_of_forall ?_, forall_mem_of_forall ?_, forall_mem_of_forall ?_,
    forall_mem_of_forall ?_, forall_mem_of_forall ?_, forall_mem_of_forall ?_, forall_mem_of_forall ?_,
    forall_mem_of_forall ?_, forall_mem_of_forall ?_⟩
  all_goals
    simp only [List.Forall]
    and_intros
    all_goals rfl

end Sys2Proof.Machine

/-! SUPPORT. The accesses to the bus on any machine, branch by branch (20_memory.md R92 to R98). -/

namespace Sys2Proof.Machine

variable {s t : State}

/-! ## Registrations -/

/-- The later of two registrations is called (20_memory.md R88). -/
theorem lookup_append (rs : List Registration) (g : Registration) (a : Word) :
    lookup (rs ++ [g]) a =
      if g.range.lo.toNat ≤ a.toNat ∧ a.toNat ≤ g.range.hi.toNat then some g.script else lookup rs a := by
  rw [lookup, List.foldl_append]
  change (if covers g.range a = true then some g.script else lookup rs a) = _
  simp only [covers, Bool.and_eq_true, decide_eq_true_eq]

/-! ## Counted accesses -/

/-- The state with `n` byte transfers counted, if they are the CPU's and under `source` (20_memory.md R98). -/
def State.counted (s : State) (byCpu : Bool) (n : Nat) : State :=
  if byCpu = true ∧ s.cfg.cyclePolicy = .source then s.addCycles n else s

theorem State.counted_cfg (s : State) (byCpu : Bool) (n : Nat) : (s.counted byCpu n).cfg = s.cfg := by
  unfold State.counted
  split <;> rfl

theorem countAccess_counted (s : State) (byCpu : Bool) (n : Nat) : countAccess byCpu n s = .ok ⟨⟩ (s.counted byCpu n) := by
  rw [countAccess, modify_apply, State.counted, State.access]
  cases byCpu <;> cases s.cfg.cyclePolicy <;> rfl

/-! ## What no callback answers -/

section
variable (s : State) (a : Word)

theorem State.backing_eq_ite : s.backing a =
    if (s.cfg.ramWindow.lo.toNat ≤ a.toNat ∧ a.toNat ≤ s.cfg.ramWindow.hi.toNat) ∨
      (s.cfg.romWindow.lo.toNat ≤ a.toNat ∧ a.toNat ≤ s.cfg.romWindow.hi.toNat)
    then s.mem.read a.toNat else 0 := by
  simp only [State.backing, region, covers, Bool.and_eq_true, decide_eq_true_eq]
  by_cases h : s.cfg.ramWindow.lo.toNat ≤ a.toNat ∧ a.toNat ≤ s.cfg.ramWindow.hi.toNat
  · simp only [h, true_or, if_true, and_self]
  · by_cases h' : s.cfg.romWindow.lo.toNat ≤ a.toNat ∧ a.toNat ≤ s.cfg.romWindow.hi.toNat
    · simp only [h, h', or_true, if_true, if_false, and_self]
    · simp only [h, h', or_false, if_false]

theorem State.storeByte_eq_ite (v : Byte) : s.storeByte a v =
    if s.cfg.ramWindow.lo.toNat ≤ a.toNat ∧ a.toNat ≤ s.cfg.ramWindow.hi.toNat
    then s.withMem (s.mem.write a.toNat v) else s := by
  simp only [State.storeByte, region, covers, Bool.and_eq_true, decide_eq_true_eq]
  by_cases h : s.cfg.ramWindow.lo.toNat ≤ a.toNat ∧ a.toNat ≤ s.cfg.ramWindow.hi.toNat
  · simp only [h, if_true, and_self]
  · by_cases h' : s.cfg.romWindow.lo.toNat ≤ a.toNat ∧ a.toNat ≤ s.cfg.romWindow.hi.toNat
    · simp only [h, h', if_true, if_false, and_self]
    · simp only [h, h', if_false]

theorem State.storeByte_read_other (v : Byte) {b : Nat} (h : b ≠ a.toNat) : (s.storeByte a v).mem.read b = s.mem.read b := by
  rw [State.storeByte_eq_ite]
  split
  · exact Memory.read_write_other v s.mem h
  · rfl

end

/-! ## Bytes -/

section
variable {run : Runner} {byCpu : Bool} {a : Word}

theorem busReadByte_none (h : lookup s.cfg.registry.readByte a = none) :
    busReadByte run byCpu a s = .ok ((s.counted byCpu 1).backing a) (s.counted byCpu 1) := by
  rw [busReadByte, bind_ok (countAccess_counted ..), bind_ok (get_apply _)]
  simp only [State.counted_cfg, h, pure_apply]

theorem busReadByte_some {cb : Script} (h : lookup s.cfg.registry.readByte a = some cb) :
    busReadByte run byCpu a s = (run cb { addr := a.toNat, cycles := (s.counted byCpu 1).cycles } >>= fun r =>
      match r with
      | some v => if v ≤ 0xFF then return BitVec.ofNat 8 v else throw (.outOfRange a v)
      | none => do return (← get).backing a) (s.counted byCpu 1) := by
  rw [busReadByte, bind_ok (countAccess_counted ..), bind_ok (get_apply _)]
  simp only [State.counted_cfg, h] <;> rfl

variable {v : Nat} (hv : v ≤ 0xFF)
include hv

theorem busWriteByte_none (h : lookup s.cfg.registry.writeByte a = none) :
    busWriteByte run byCpu a v s = .ok ⟨⟩ ((s.counted byCpu 1).storeByte a (BitVec.ofNat 8 v)) := by
  rw [busWriteByte, if_pos hv, bind_ok (countAccess_counted ..), bind_ok (get_apply _)]
  simp only [State.counted_cfg, h, modify_apply]

theorem busWriteByte_some {cb : Script} (h : lookup s.cfg.registry.writeByte a = some cb) :
    busWriteByte run byCpu a v s = (run cb { addr := a.toNat, value := v, cycles := (s.counted byCpu 1).cycles } >>= fun r =>
      match r with
      | some _ => return ()
      | none => modify fun s => s.storeByte a (BitVec.ofNat 8 v)) (s.counted byCpu 1) := by
  rw [busWriteByte, if_pos hv, bind_ok (countAccess_counted ..), bind_ok (get_apply _)]
  simp only [State.counted_cfg, h] <;> rfl

end

theorem busWriteByte_range {run : Runner} {byCpu : Bool} {a : Word} {v : Nat} (hv : 0xFF < v) :
    busWriteByte run byCpu a v s = .error (.outOfRange a v) s := by
  rw [busWriteByte, if_neg (by omega)]
  rfl

/-- Settles O39: the branches of a byte access. -/
theorem byteAccessRules : Obligations.ByteAccessRules := by
  intro s a v byCpu
  refine ⟨⟨rfl, fun rs g => lookup_append rs g a⟩, fun h => ?readNone, fun cb h => ⟨fun w t e hw => ?answer, fun w t e hw => ?range,
    fun t e => ?pass, fun e t he => ?error⟩, busWriteByte_range, fun hv h => ?writeNone,
    fun hv cb h => ⟨fun w t e => ?consumed, fun t e => ?passed, fun e t he => ?failed⟩⟩
  case readNone =>
    rw [busReadByte_none h, State.backing_eq_ite]
    rfl
  case answer => exact (busReadByte_some h).trans ((bind_ok e).trans (by simp only [if_pos hw, pure_apply]))
  case range => exact (busReadByte_some h).trans ((bind_ok e).trans (by simp only [if_neg (Nat.not_le.mpr hw), throw_apply]))
  case pass =>
    refine (busReadByte_some h).trans ((bind_ok e).trans ?_)
    simp only [bind_apply, get_apply, pure_apply, State.backing_eq_ite]
  case error => exact (busReadByte_some h).trans (bind_error he)
  case writeNone =>
    rw [busWriteByte_none hv h, State.storeByte_eq_ite]
    rfl
  case consumed => exact (busWriteByte_some hv h).trans (bind_ok e)
  case passed =>
    refine (busWriteByte_some hv h).trans ((bind_ok e).trans ?_)
    simp only [modify_apply, State.storeByte_eq_ite]
  case failed => exact (busWriteByte_some hv h).trans (bind_error he)

/-! ## Words -/

/-- Two byte reads, the high byte first (20_memory.md R93). -/
def readBytes (run : Runner) (byCpu : Bool) (a : Word) : M Word := do
  let hi ← busReadByte run byCpu a
  let lo ← busReadByte run byCpu (a + 1)
  return wordOf hi lo

/-- Two byte writes, the high byte first (20_memory.md R96). -/
def writeBytes (run : Runner) (byCpu : Bool) (a : Word) (v : Nat) : M Unit := do
  busWriteByte run byCpu a (v / 0x100)
  busWriteByte run byCpu (a + 1) (v % 0x100)

section
variable {run : Runner} {byCpu : Bool} {a : Word}

theorem busReadWord_none (h : lookup s.cfg.registry.readWord a = none) :
    busReadWord run byCpu a s = readBytes run byCpu a s := by
  rw [busReadWord, bind_ok (get_apply _)]
  simp only [h]
  rfl

theorem busReadWord_some {cb : Script} (h : lookup s.cfg.registry.readWord a = some cb) :
    busReadWord run byCpu a s = (run cb { addr := a.toNat, cycles := (s.counted byCpu 2).cycles } >>= fun r =>
      match r with
      | some w => if w ≤ 0xFFFF then return BitVec.ofNat 16 w else throw (.outOfRange a w)
      | none => readBytes run false a) (s.counted byCpu 2) := by
  rw [busReadWord, bind_ok (get_apply _)]
  simp only [h]
  rw [bind_ok (countAccess_counted ..), bind_ok (get_apply _)]
  rfl

variable {v : Nat} (hv : v ≤ 0xFFFF)
include hv

theorem busWriteWord_none (h : lookup s.cfg.registry.writeWord a = none) :
    busWriteWord run byCpu a v s = writeBytes run byCpu a v s := by
  rw [busWriteWord, if_pos hv, bind_ok (get_apply _)]
  simp only [h]
  rfl

theorem busWriteWord_some {cb : Script} (h : lookup s.cfg.registry.writeWord a = some cb) :
    busWriteWord run byCpu a v s = (run cb { addr := a.toNat, value := v, cycles := (s.counted byCpu 2).cycles } >>= fun r =>
      match r with
      | some _ => return ()
      | none => writeBytes run false a v) (s.counted byCpu 2) := by
  rw [busWriteWord, if_pos hv, bind_ok (get_apply _)]
  simp only [h]
  rw [bind_ok (countAccess_counted ..), bind_ok (get_apply _)]
  rfl

end

theorem busWriteWord_range {run : Runner} {byCpu : Bool} {a : Word} {v : Nat} (hv : 0xFFFF < v) :
    busWriteWord run byCpu a v s = .error (.outOfRange a v) s := by
  rw [busWriteWord, if_neg (by omega)]
  rfl

theorem second_eq (a : Word) : BitVec.ofNat 16 (a.toNat + 1) = a + 1 := by
  rw [BitVec.ofNat_add, BitVec.ofNat_toNat, BitVec.setWidth_eq]
  rfl

theorem wordOf_eq_ofNat (h l : Byte) : wordOf h l = BitVec.ofNat 16 (256 * h.toNat + l.toNat) := directAddress_eq h l

/-- How two byte reads end. -/
theorem readBytes_rules (c : Bool) (a : Word) (u : State) :
    (∀ hi lo t1 t2, busReadByte runCallback c a u = .ok hi t1 →
      busReadByte runCallback c (BitVec.ofNat 16 (a.toNat + 1)) t1 = .ok lo t2 →
      readBytes runCallback c a u = .ok (BitVec.ofNat 16 (256 * hi.toNat + lo.toNat)) t2) ∧
    (∀ e t, busReadByte runCallback c a u = .error e t → readBytes runCallback c a u = .error e t) ∧
    (∀ hi e t1 t2, busReadByte runCallback c a u = .ok hi t1 →
      busReadByte runCallback c (BitVec.ofNat 16 (a.toNat + 1)) t1 = .error e t2 →
      readBytes runCallback c a u = .error e t2) := by
  rw [second_eq]
  refine ⟨fun hi lo t1 t2 h1 h2 => ?_, fun e t h1 => ?_, fun hi e t1 t2 h1 h2 => ?_⟩
  · rw [readBytes, bind_ok h1, bind_ok h2, pure_apply, wordOf_eq_ofNat]
  · rw [readBytes, bind_error h1]
  · rw [readBytes, bind_ok h1, bind_error h2]

/-- How two byte writes end. -/
theorem writeBytes_rules (c : Bool) (a : Word) (v : Nat) (u : State) :
    (∀ t1 t2, busWriteByte runCallback c a (v / 256) u = .ok ⟨⟩ t1 →
      busWriteByte runCallback c (BitVec.ofNat 16 (a.toNat + 1)) (v % 256) t1 = .ok ⟨⟩ t2 →
      writeBytes runCallback c a v u = .ok ⟨⟩ t2) ∧
    (∀ e t, busWriteByte runCallback c a (v / 256) u = .error e t → writeBytes runCallback c a v u = .error e t) ∧
    (∀ e t1 t2, busWriteByte runCallback c a (v / 256) u = .ok ⟨⟩ t1 →
      busWriteByte runCallback c (BitVec.ofNat 16 (a.toNat + 1)) (v % 256) t1 = .error e t2 →
      writeBytes runCallback c a v u = .error e t2) := by
  rw [second_eq]
  refine ⟨fun t1 t2 h1 h2 => ?_, fun e t h1 => ?_, fun e t1 t2 h1 h2 => ?_⟩
  · rw [writeBytes, bind_ok h1, h2]
  · rw [writeBytes, bind_error h1]
  · rw [writeBytes, bind_ok h1, h2]

/-- Settles O40: the branches of a word access. -/
theorem wordAccessRules : Obligations.WordAccessRules := by
  intro s a v byCpu
  have reads {c u} (h : busReadWord runCallback byCpu a s = readBytes runCallback c a u) := h ▸ readBytes_rules c a u
  have writes {c u} (h : busWriteWord runCallback byCpu a v s = writeBytes runCallback c a v u) := h ▸ writeBytes_rules c a v u
  refine ⟨fun h => reads (busReadWord_none h), fun cb h => ⟨fun w t e hw => ?answer, fun w t e hw => ?range,
    fun t e => reads ((busReadWord_some h).trans (bind_ok e)), fun e t he => (busReadWord_some h).trans (bind_error he)⟩,
    busWriteWord_range, fun hv h => writes (busWriteWord_none hv h),
    fun hv cb h => ⟨fun w t e => (busWriteWord_some hv h).trans (bind_ok e),
      fun t e => writes ((busWriteWord_some hv h).trans (bind_ok e)), fun e t he => (busWriteWord_some hv h).trans (bind_error he)⟩⟩
  case answer => exact (busReadWord_some h).trans ((bind_ok e).trans (by simp only [if_pos hw, pure_apply]))
  case range => exact (busReadWord_some h).trans ((bind_ok e).trans (by simp only [if_neg (Nat.not_le.mpr hw), throw_apply]))

/-! ## A word written and read back -/

theorem State.counted_true (s : State) (n : Nat) : s.counted true n = s.addCycles (accessCost s.cfg n) := by
  rw [State.counted, accessCost]
  cases h : s.cfg.cyclePolicy with
  | source => rfl
  | datasheet => rfl

theorem State.storeWord_eq_withMem (s : State) (a v : Word) : s.storeWord a v = s.withMem (s.storeWord a v).mem := by
  apply State.eq_of_fields <;> simp [State.storeWord]

section
variable (a v : Word)

/-- A word write that no callback sees. -/
theorem write16_none (hw : lookup s.cfg.registry.writeWord a = none) (h0 : lookup s.cfg.registry.writeByte a = none)
    (h1 : lookup s.cfg.registry.writeByte (a + 1) = none) :
    write16 a v s = .ok ⟨⟩ ((s.storeWord a v).addCycles (accessCost s.cfg 2)) := by
  have hv := v.isLt
  rw [write16, busWriteWord_none (by omega) hw, writeBytes, bind_ok (busWriteByte_none (by omega) h0),
    busWriteByte_none (by omega) (by rw [State.storeByte_cfg, State.counted_cfg]; exact h1)]
  rw [highByte_eq, lowByte_eq, State.counted_true, State.counted_true]
  simp only [State.storeByte_addCycles, State.storeByte_cfg, State.addCycles_cfg, State.addCycles_addCycles, accessCost_add,
    State.storeWord]

/-- A word read that no callback sees. -/
theorem read16_none (hr : lookup s.cfg.registry.readWord a = none) (h0 : lookup s.cfg.registry.readByte a = none)
    (h1 : lookup s.cfg.registry.readByte (a + 1) = none) :
    read16 a s = .ok (s.word a) (s.addCycles (accessCost s.cfg 2)) := by
  rw [read16, busReadWord_none hr, readBytes, bind_ok (busReadByte_none h0),
    bind_ok (busReadByte_none (by rw [State.counted_cfg]; exact h1)), pure_apply]
  simp only [State.counted_true, State.addCycles_backing, State.addCycles_cfg, State.addCycles_addCycles, accessCost_add, State.word]

end

theorem State.backing_of_ram {a : Word} (h : region s.cfg a = .ram) : s.backing a = s.mem.read a.toNat := by
  simp only [State.backing, h]

/-- Settles O41: what a word store leaves is what `write16_none` writes and `read16_none` reads. -/
theorem wordReadBack : Obligations.WordReadBack := by
  intro s a v w hr0 hr1 hww hrw hb
  obtain ⟨hwa, hra⟩ := hb a (.inl rfl)
  obtain ⟨hwb, hrb⟩ := hb (a + 1) (.inr rfl)
  have hcfg : (s.storeWord a v).cfg = s.cfg := State.storeWord_cfg ..
  have hi := State.backing_storeWord_high a v w hr0
  have lo := State.backing_storeWord_low a v w hr1
  refine ⟨(s.storeWord a v).mem, State.storeByte_wf (State.storeByte_wf w _ _) _ _, ?_, ?_, ?_, ?_, fun b h0 h1 => ?_⟩
  · rw [write16_none a v hww hwa hwb, ← State.storeWord_eq_withMem]
  · rw [← State.storeWord_eq_withMem, read16_none a (by rw [State.addCycles_cfg, hcfg]; exact hrw)
      (by rw [State.addCycles_cfg, hcfg]; exact hra) (by rw [State.addCycles_cfg, hcfg]; exact hrb), State.word,
      State.addCycles_backing, State.addCycles_backing, hi, lo, wordOf_high_low, State.addCycles_cfg, hcfg]
  · rw [← hi, State.backing_of_ram (by rw [hcfg]; exact hr0)]
  · rw [← lo, State.backing_of_ram (by rw [hcfg]; exact hr1)]
  · rw [State.storeWord, State.storeByte_read_other _ _ _ h1, State.storeByte_read_other _ _ _ h0]

end Sys2Proof.Machine

/-! SUPPORT. What a callback can reach and what it can see (20_memory.md R89), and callbacks that callbacks call (R91). -/

namespace Sys2Proof.Machine

/-! ## Computations that see no register and clear no latch -/

section
variable {α β : Type}

/-- The ending of a computation, with its state changed. -/
def mapState (f : State → State) : EStateM.Result Raise State α → EStateM.Result Raise State α
  | .ok v t => .ok v (f t)
  | .error e t => .error e (f t)

/-- The state a computation ends in. -/
def finalState : EStateM.Result Raise State α → State
  | .ok _ t | .error _ t => t

/-- On the machine with other registers the computation does and answers the same, and a set NMI latch stays set. -/
def Isolated (x : M α) : Prop :=
  ∀ s, (∀ r, x (s.withRegs r) = mapState (fun t => t.withRegs r) (x s)) ∧
    (s.lines.nmiLatch = true → (finalState (x s)).lines.nmiLatch = true)

theorem Isolated.pure (v : α) : Isolated (Pure.pure v : M α) := fun _ => ⟨fun _ => rfl, id⟩

theorem Isolated.throw (e : Raise) : Isolated (throw e : M α) := fun _ => ⟨fun _ => rfl, id⟩

theorem Isolated.modify {f : State → State} (hr : ∀ s r, f (s.withRegs r) = (f s).withRegs r)
    (hl : ∀ s, s.lines.nmiLatch = true → (f s).lines.nmiLatch = true) : Isolated (modify f : M PUnit) :=
  fun s => ⟨fun r => by simp only [modify_apply, hr, mapState], hl s⟩

theorem Isolated.bind {x : M α} {f : α → M β} (hx : Isolated x) (hf : ∀ v, Isolated (f v)) : Isolated (x >>= f) := by
  intro s
  obtain ⟨hr, hl⟩ := hx s
  simp only [bind_apply, hr]
  cases e : x s with
  | ok v t =>
    rw [e] at hl
    exact ⟨(hf v t).1, fun h => (hf v t).2 (hl h)⟩
  | error e' t =>
    rw [e] at hl
    exact ⟨fun _ => rfl, hl⟩

/-- A computation that reads the state sees none of its registers. -/
theorem Isolated.get_bind {f : State → M β} (hr : ∀ s r, f (s.withRegs r) = f s) (hf : ∀ s, Isolated (f s)) :
    Isolated (get >>= f) := by
  intro s
  simp only [bind_apply, get_apply, hr]
  exact hf s s

end

/-! ## Scripts -/

theorem evalExpr_withRegs (s : State) (r : Regs) (args : CbArgs) (reply : Nat) (e : DevExpr) :
    evalExpr (s.withRegs r) args reply e = evalExpr s args reply e := by
  induction e <;> simp_all [evalExpr, State.view]

theorem evalExpr_withRegs_eq (s : State) (r : Regs) : evalExpr (s.withRegs r) = evalExpr s :=
  funext fun args => funext fun reply => funext fun e => evalExpr_withRegs s r args reply e

/-- A store of the bus. -/
theorem storeByte_isolated (a : Word) (v : Byte) : Isolated (modify fun s => s.storeByte a v : M PUnit) :=
  .modify (fun s r => State.storeByte_withRegs s a v r) fun s h => by rwa [State.storeByte_lines]

/-- A callback's own accesses count nothing. -/
theorem countAccess_isolated (n : Nat) : Isolated (countAccess false n) := .modify (fun _ _ => rfl) fun _ h => h

section
variable {run : Runner} (h : ∀ sc args, Isolated (run sc args))
include h

theorem busReadByte_isolated (a : Word) : Isolated (busReadByte run false a) := by
  refine .bind (countAccess_isolated 1) fun _ => .get_bind (fun _ _ => rfl) fun s => ?_
  split
  · exact .pure _
  · refine .bind (h _ _) fun r => ?_
    split
    · split
      · exact .pure _
      · exact .throw _
    · exact .get_bind (fun _ _ => rfl) fun _ => .pure _

theorem busWriteByte_isolated (a : Word) (v : Nat) : Isolated (busWriteByte run false a v) := by
  unfold busWriteByte
  split
  · refine .bind (countAccess_isolated 1) fun _ => .get_bind (fun _ _ => rfl) fun s => ?_
    split
    · exact storeByte_isolated _ _
    · refine .bind (h _ _) fun r => ?_
      split
      · exact .pure _
      · exact storeByte_isolated _ _
  · exact .throw _

theorem readBytes_isolated (a : Word) : Isolated (readBytes run false a) :=
  .bind (busReadByte_isolated h _) fun _ => .bind (busReadByte_isolated h _) fun _ => .pure _

theorem writeBytes_isolated (a : Word) (v : Nat) : Isolated (writeBytes run false a v) :=
  .bind (busWriteByte_isolated h _ _) fun _ => busWriteByte_isolated h _ _

theorem busReadWord_isolated (a : Word) : Isolated (busReadWord run false a) := by
  refine .get_bind (fun _ _ => rfl) fun s => ?_
  split
  · exact readBytes_isolated h a
  · refine .bind (countAccess_isolated 2) fun _ => .get_bind (fun _ _ => rfl) fun _ => .bind (h _ _) fun r => ?_
    split
    · split
      · exact .pure _
      · exact .throw _
    · exact readBytes_isolated h a

theorem busWriteWord_isolated (a : Word) (v : Nat) : Isolated (busWriteWord run false a v) := by
  unfold busWriteWord
  split
  · refine .get_bind (fun _ _ => rfl) fun s => ?_
    split
    · exact writeBytes_isolated h a v
    · refine .bind (countAccess_isolated 2) fun _ => .get_bind (fun _ _ => rfl) fun _ => .bind (h _ _) fun r => ?_
      split
      · exact .pure _
      · exact writeBytes_isolated h a v
  · exact .throw _

omit h in
theorem modifyHost_isolated (f : HostQueues → HostQueues) : Isolated (modifyHost f) := .modify (fun _ _ => rfl) fun _ h => h

theorem runAct_isolated (args : CbArgs) (reply : Nat) (act : DevAct) : Isolated (runAct run false args reply act) := by
  refine .get_bind (fun s r => by rw [evalExpr_withRegs_eq]) fun s => ?_
  cases act <;> dsimp only
  case setCell | setIrq | setFirq => exact .bind (.modify (fun _ _ => rfl) fun _ h => h) fun _ => .pure _
  case latchNmi => exact .bind (.modify (fun _ _ => rfl) fun _ _ => rfl) fun _ => .pure _
  case world => exact .bind (.modify (fun _ _ => rfl) fun s h => by simp [State.freeWorld, h]) fun _ => .pure _
  case readByte => exact .bind (busReadByte_isolated h _) fun _ => .pure _
  case readWord => exact .bind (busReadWord_isolated h _) fun _ => .pure _
  case writeByte => exact .bind (busWriteByte_isolated h _ _) fun _ => .pure _
  case writeWord => exact .bind (busWriteWord_isolated h _ _) fun _ => .pure _
  case fail => exact .throw _
  case setReply | answer | pass => exact .pure _
  all_goals exact .bind (modifyHost_isolated _) fun _ => .pure _

theorem runRules_isolated (args : CbArgs) (rules : List DevRule) (reply : Nat) :
    Isolated (runRules run false args rules reply) := by
  induction rules generalizing reply with
  | nil => exact .pure _
  | cons rule rest ih =>
    unfold runRules
    refine .get_bind (fun s r => by rw [evalExpr_withRegs_eq]) fun s => ?_
    split
    · exact ih reply
    · split
      · exact .pure _
      · exact .pure _
      · exact .bind (runAct_isolated h args reply _) fun _ => ih _

theorem runRounds_isolated (args : CbArgs) (rules : List DevRule) (rounds reply : Nat) :
    Isolated (runRounds run false args rules rounds reply) := by
  induction rounds generalizing reply with
  | zero => exact .pure _
  | succ n ih =>
    refine .bind (runRules_isolated h args rules reply) fun f => ?_
    cases f with
    | next reply' => exact ih reply'
    | done v => exact .pure _

theorem runBody_isolated (sc : Script) (args : CbArgs) : Isolated (runBody run false sc args) := by
  refine .get_bind (fun s r => by rw [evalExpr_withRegs_eq]) fun s => .bind (runRounds_isolated h _ _ _ _) fun _ => ?_
  exact .bind (.modify (fun _ _ => rfl) fun _ h => h) fun _ => .pure _

end

theorem runScript_isolated (d : Nat) (sc : Script) (args : CbArgs) : Isolated (runScript d sc args) := by
  induction d generalizing sc args with
  | zero => exact .throw _
  | succ d ih => exact runBody_isolated ih sc args

/-! ## Callbacks at any depth -/

theorem hangs_mapState (f : State → State) (x : EStateM.Result Raise State (Option Nat)) : hangs (mapState f x) = hangs x := by
  cases x with
  | ok v t => rfl
  | error e t => cases e <;> rfl

/-- A callback that comes to its end at no depth ends as its run at the first depth does. -/
theorem runCallback_of_hangs {sc : Script} {args : CbArgs} {s : State} (h : ∀ d, hangs (runScript d sc args s) = true) :
    runCallback sc args s = runScript Config.callbackDepth sc args s := by
  have hd : deepen sc args s Config.callbackDepth = none := by
    cases e : deepen sc args s Config.callbackDepth with
    | none => rfl
    | some r =>
      obtain ⟨d, -, rfl, hn⟩ := deepen_some e
      rw [h d] at hn
      exact nomatch hn
  obtain ⟨t, e⟩ := hangs_iff.mp (h Config.callbackDepth)
  simp only [runCallback, e, hd]

theorem runCallback_isolated (sc : Script) (args : CbArgs) : Isolated (runCallback sc args) := by
  intro s
  have same (d : Nat) (r : Regs) : hangs (runScript d sc args (s.withRegs r)) = hangs (runScript d sc args s) := by
    rw [(runScript_isolated d sc args s).1 r, hangs_mapState]
  by_cases h : ∀ d, hangs (runScript d sc args s) = true
  · rw [runCallback_of_hangs h]
    refine ⟨fun r => ?_, (runScript_isolated _ sc args s).2⟩
    rw [runCallback_of_hangs fun d => (same d r).trans (h d)]
    exact (runScript_isolated _ sc args s).1 r
  · obtain ⟨d, hd⟩ := not_forall.mp h
    rw [Bool.not_eq_true] at hd
    rw [runCallback_eq hd]
    refine ⟨fun r => ?_, (runScript_isolated d sc args s).2⟩
    rw [runCallback_eq ((same d r).trans hd)]
    exact (runScript_isolated d sc args s).1 r

/-- What a callback leaves as it was, the latch apart. -/
structure CallbackFrame (s t : State) : Prop where
  regs : t.regs = s.regs
  cycles : t.cycles = s.cycles
  wait : t.wait = s.wait
  nmiArmed : t.nmiArmed = s.nmiArmed
  fault : t.fault = s.fault
  cfg : t.cfg = s.cfg
  sched : t.sched = s.sched
  agenda : t.agenda = s.agenda
  rom : ∀ a : Word, region s.cfg a ≠ .ram → t.mem.read a.toNat = s.mem.read a.toNat

theorem callbackFrame_closed : BusClosed CallbackFrame where
  refl _ := ⟨rfl, rfl, rfl, rfl, rfl, rfl, rfl, rfl, fun _ _ => rfl⟩
  trans h h' := ⟨h'.regs.trans h.regs, h'.cycles.trans h.cycles, h'.wait.trans h.wait, h'.nmiArmed.trans h.nmiArmed,
    h'.fault.trans h.fault, h'.cfg.trans h.cfg, h'.sched.trans h.sched, h'.agenda.trans h.agenda,
    fun a ha => (h'.rom a (by rwa [h.cfg])).trans (h.rom a ha)⟩
  store s a v := ⟨State.storeByte_regs .., State.storeByte_cycles .., State.storeByte_wait .., State.storeByte_nmiArmed ..,
    State.storeByte_fault .., State.storeByte_cfg .., State.storeByte_sched .., State.storeByte_agenda ..,
    fun _ hb => State.storeByte_outside s a v hb⟩
  dev _ _ := ⟨rfl, rfl, rfl, rfl, rfl, rfl, rfl, rfl, fun _ _ => rfl⟩
  lines _ _ := ⟨rfl, rfl, rfl, rfl, rfl, rfl, rfl, rfl, fun _ _ => rfl⟩
  host _ _ := ⟨rfl, rfl, rfl, rfl, rfl, rfl, rfl, rfl, fun _ _ => rfl⟩
  drawn _ _ := ⟨rfl, rfl, rfl, rfl, rfl, rfl, rfl, rfl, fun _ _ => rfl⟩

/-- Settles O42: `CallbackFrame` allows all that a callback does, and a callback is `Isolated`. -/
theorem callbackIsolation : Obligations.CallbackIsolation := by
  intro script args s
  obtain ⟨hr, hl⟩ := runCallback_isolated script args s
  refine ⟨fun v t e => ⟨?_, fun r => ?_⟩, fun e t he => ⟨?_, fun r => ?_⟩⟩
  · obtain ⟨h1, h2, h3, h4, h5, h6, h7, h8, h9⟩ := (runCallback_respects callbackFrame_closed script args).ok e
    rw [e] at hl
    exact ⟨h1, h2, h3, h4, h5, h6, h7, h8, hl, h9⟩
  · rw [hr, e]
    rfl
  · obtain ⟨h1, h2, h3, h4, h5, h6, h7, h8, h9⟩ := (runCallback_respects callbackFrame_closed script args).error he
    rw [he] at hl
    exact ⟨h1, h2, h3, h4, h5, h6, h7, h8, hl, h9⟩
  · rw [hr, he]
    rfl

/-! ## Nesting -/

theorem hangs_eq_false {x : EStateM.Result Raise State (Option Nat)} (h : ∀ t, x ≠ .error .hang t) : hangs x = false := by
  rw [← Bool.not_eq_true, hangs_iff]
  exact fun ⟨t, e⟩ => h t e

/-- A callback runs its own script with every callback that its accesses reach run to its end in turn. -/
theorem runCallback_eq_runBody {sc : Script} {args : CbArgs} {s : State} (h : hangs (runCallback sc args s) = false) :
    runCallback sc args s = runBody runCallback false sc args s := by
  obtain ⟨d, hd⟩ : ∃ d, hangs (runScript d sc args s) = false := by
    by_contra hn
    rw [runCallback_hangs_iff.mpr fun d => by simpa using fun e => hn ⟨d, e⟩] at h
    exact nomatch h
  rw [runCallback_eq hd]
  cases d with
  | zero => exact nomatch hd
  | succ d =>
    have hup : RunnerUpTo (runScript d) runCallback := fun sc args s => by
      by_cases hh : hangs (runScript d sc args s) = true
      · exact .inl (hangs_iff.mp hh)
      · exact .inr (runCallback_eq (by simpa using hh))
    rcases runBody_upTo hup false sc args s with ⟨t, e⟩ | e
    · rw [show runScript (d + 1) sc args s = runBody (runScript d) false sc args s from rfl, e] at hd
      exact nomatch hd
    · exact e.symm

theorem runBody_apply {run : Runner} {byCpu : Bool} (sc : Script) (args : CbArgs) (s : State) :
    runBody run byCpu sc args s =
      match runRounds run byCpu args sc.rules (evalExpr s args 0 sc.rounds) 0 s with
      | .ok v t => .ok v (t.drawn 1)
      | .error e t => .error e t := by
  rw [runBody, bind_ok (get_apply s), bind_apply]
  cases runRounds run byCpu args sc.rules (evalExpr s args 0 sc.rounds) 0 s <;> rfl

/-- Settles O43: `runCallback_eq`, `runCallback_hangs_iff` and `runCallback_eq_runBody`. -/
theorem callbackNesting : Obligations.CallbackNesting := by
  intro script args s
  refine ⟨fun d h => runCallback_eq (hangs_eq_false h), ?iff, fun h => ?_⟩
  case iff =>
    rw [← hangs_iff, runCallback_hangs_iff]
    exact forall_congr' fun d => hangs_iff
  rw [runCallback_eq_runBody (hangs_eq_false h)]
  exact runBody_apply script args s

end Sys2Proof.Machine

/-! SUPPORT. What the host does between steps (60_exceptions.md R673, R681, R684; 20_memory.md R83), and construction
(70_reset_and_hazards.md R702). -/

namespace Sys2Proof.Machine

/-! ## A run of bytes loaded and read -/

/-- Loaded bytes read back from their first address on, and every other address as before. -/
theorem Memory.read_load {m : Memory} {a : Nat} {bs : List Byte} (h : m.wf = true) (ha : a + bs.length ≤ 65536) (b : Nat) :
    (m.load a bs).read b = if b < a then m.read b else (bs[b - a]?).getD (m.read b) := by
  induction bs generalizing m a with
  | nil => simp [Memory.load]
  | cons v vs ih =>
    rw [List.length_cons] at ha
    rw [Memory.load, ih (Memory.wf_write h (by omega)) (by omega), Memory.read_write v h]
    rcases Nat.lt_trichotomy b a with hlt | rfl | hgt
    · rw [if_pos (by omega), if_neg (by omega), if_pos hlt]
    · simp
    · obtain ⟨d, rfl⟩ := Nat.exists_eq_add_of_lt hgt
      rw [if_neg (by omega), if_neg (by omega), if_neg (by omega), show a + d + 1 - (a + 1) = d by omega,
        show a + d + 1 - a = d + 1 by omega, List.getElem?_cons_succ]

@[simp] theorem peekBytes_length (s : State) (a : Word) (n : Nat) : (peekBytes s a n).length = n := by
  induction n generalizing a with
  | zero => rfl
  | succ n ih => simp [peekBytes, ih]

theorem peekBytes_getElem? {s : State} {a : Word} {n j : Nat} (hj : j < n) :
    (peekBytes s a n)[j]? = some (s.backing (a + BitVec.ofNat 16 j)) := by
  induction n generalizing a j with
  | zero => exact absurd hj (Nat.not_lt_zero j)
  | succ n ih =>
    cases j with
    | zero => simp [peekBytes]
    | succ k =>
      rw [peekBytes, List.getElem?_cons_succ, ih (Nat.lt_of_succ_lt_succ hj), BitVec.add_assoc,
        BitVec.add_comm 1, ← BitVec.ofNat_add_ofNat]
      rfl

/-! ## Requests (60_exceptions.md R684) -/

section
variable {s : State} {a : Word} {n : Nat} {bytes : List Nat}

theorem serveRequest_peek (h : a.toNat + n ≤ 65536) :
    serveRequest (.peek a n) s = s.withHost { s.host with respQ := s.host.respQ ++ [.bytes (peekBytes s a n)] } := by
  simp [serveRequest, fitsSpace, h]

theorem serveRequest_peek_refused (h : 65536 < a.toNat + n) :
    serveRequest (.peek a n) s = s.withHost { s.host with respQ := s.host.respQ ++ [.outOfRange] } := by
  simp [serveRequest, fitsSpace, Nat.not_le.2 h]

/-- The bytes fit and each is a byte. -/
theorem serveRequest_poke (h : a.toNat + bytes.length ≤ 65536) (hb : ∀ b, b ∈ bytes → b ≤ 0xFF) :
    serveRequest (.poke a bytes) s =
      (s.withMem (s.mem.load a.toNat (bytes.map (BitVec.ofNat 8)))).withHost
        { s.host with respQ := s.host.respQ ++ [.done] } := by
  have hall : bytes.all (fun b => decide (b ≤ 0xFF)) = true := by simpa using hb
  rw [serveRequest, if_pos (by rw [hall, fitsSpace, decide_eq_true h]; rfl)]

theorem serveRequest_poke_refused (h : 65536 < a.toNat + bytes.length ∨ ∃ b, b ∈ bytes ∧ 0xFF < b) :
    serveRequest (.poke a bytes) s = s.withHost { s.host with respQ := s.host.respQ ++ [.outOfRange] } := by
  rw [serveRequest, if_neg]
  simp only [fitsSpace, Bool.and_eq_true, decide_eq_true_eq, List.all_eq_true, not_and]
  intro hfit hall
  rcases h with h | ⟨b, hb, h⟩
  · omega
  · exact absurd (hall b hb) (Nat.not_le.2 h)

theorem toNat_read_poked {j b : Nat} (hm : s.mem.wf = true) (h : a.toNat + bytes.length ≤ 65536)
    (hb : ∀ b, b ∈ bytes → b ≤ 0xFF) (hj : bytes[j]? = some b) :
    ((s.mem.load a.toNat (bytes.map (BitVec.ofNat 8))).read (a.toNat + j)).toNat = b := by
  rw [Memory.read_load hm (by rwa [List.length_map]), if_neg (by omega), Nat.add_sub_cancel_left, List.getElem?_map, hj]
  have := hb b (List.mem_of_getElem? hj)
  simp only [Option.map_some, Option.getD_some, BitVec.toNat_ofNat]
  omega

theorem read_poked_other {c : Nat} (hm : s.mem.wf = true) (h : a.toNat + bytes.length ≤ 65536)
    (hc : c < a.toNat ∨ a.toNat + bytes.length ≤ c) :
    (s.mem.load a.toNat (bytes.map (BitVec.ofNat 8))).read c = s.mem.read c := by
  rw [Memory.read_load hm (by rwa [List.length_map])]
  split
  · rfl
  · rw [List.getElem?_eq_none (by rw [List.length_map]; omega)]
    rfl

end

/-- A host's turn comes at once, but for a restore, which waits for a boundary. -/
theorem step_host {s : State} {m : HostMove} {rest : List Turn} (hag : s.agenda = .host m :: rest)
    (hd : ∀ snap, m = .restore snap → s.sched.phase = .burst 0) : step s = hostMove m (s.withAgenda rest) := by
  refine step_due hag ?_
  cases m with
  | restore snap => exact s.atBoundary_iff.2 (hd snap rfl)
  | keyDown | request | takeDisplay | takeStatus | takeResponse | stop | reset => rfl

/-- Settles O58: each request is its rule, a poke's bytes read back by `Memory.read_load`, and each host move is its arm of
`hostMove`. -/
theorem hostRequestRules : Obligations.HostRequestRules := by
  intro s a n bytes
  refine ⟨fun h => ⟨peekBytes s a n, peekBytes_length .., fun j hj => peekBytes_getElem? hj, serveRequest_peek h⟩,
    serveRequest_peek_refused, fun hm h hb => ⟨_, serveRequest_poke h hb, rfl, rfl, ?_, ?_, ?_⟩, serveRequest_poke_refused, ?_⟩
  · exact Memory.wf_load hm (by rwa [List.length_map])
  · exact fun j b hj => toNat_read_poked hm h hb hj
  · exact fun c hc => read_poked_other hm h hc
  · intro m rest hag
    cases m with
    | restore snap => exact fun hp => step_host hag fun _ _ => hp
    | keyDown | request | takeDisplay | takeStatus | takeResponse | stop | reset =>
      refine (step_host hag ?_).trans rfl
      exact fun _ e => nomatch e

/-! ## Construction (70_reset_and_hazards.md R702) -/

section
variable {cfg : Params} {ramInit : Memory} {image : List Byte} {dev : List Nat}

/-- The windows are disjoint ranges and the image fits in the ROM window. -/
def Constructible (cfg : Params) (image : List Byte) : Prop := Params.wf cfg = true ∧ image.length ≤ romSize cfg

theorem Params.wf_iff (cfg : Params) : Params.wf cfg = true ↔
    cfg.ramWindow.lo.toNat ≤ cfg.ramWindow.hi.toNat ∧ cfg.romWindow.lo.toNat ≤ cfg.romWindow.hi.toNat ∧
      (cfg.ramWindow.hi.toNat < cfg.romWindow.lo.toNat ∨ cfg.romWindow.hi.toNat < cfg.ramWindow.lo.toNat) := by
  simp [Params.wf, and_assoc]

/-- The store of a machine that has just been constructed: `ram_init` in the RAM window, then the image. -/
def builtStore (cfg : Params) (ramInit : Memory) (image : List Byte) : Memory :=
  Memory.load (Memory.writeAll [] (ramPart cfg ramInit)) cfg.romWindow.lo.toNat image

theorem construct_some (h : Constructible cfg image) :
    construct cfg ramInit image dev = some (blankMachine cfg (builtStore cfg ramInit image) dev) := by
  simp [construct, h.1, h.2, builtStore]

theorem construct_none (h : ¬Constructible cfg image) : construct cfg ramInit image dev = none := by
  simpa [construct, Constructible] using h

theorem region_eq_ram_iff (a : Word) :
    region cfg a = .ram ↔ cfg.ramWindow.lo.toNat ≤ a.toNat ∧ a.toNat ≤ cfg.ramWindow.hi.toNat := by
  unfold region
  split
  · next h => simpa [covers] using h
  · next h => split <;> simpa [covers] using h

theorem mem_rom_of_region {a : Word} (h : region cfg a = .rom) :
    cfg.romWindow.lo.toNat ≤ a.toNat ∧ a.toNat ≤ cfg.romWindow.hi.toNat := by
  unfold region at h
  split at h
  · cases h
  · split at h
    · simpa [covers] using ‹covers cfg.romWindow a = true›
    · cases h

theorem not_mem_rom_of_region {a : Word} (h : region cfg a = .unmapped) :
    a.toNat < cfg.romWindow.lo.toNat ∨ cfg.romWindow.hi.toNat < a.toNat := by
  unfold region at h
  split at h
  · cases h
  · split at h
    · cases h
    · have := ‹¬covers cfg.romWindow a = true›
      simp [covers] at this
      omega

/-- Before the image is loaded the store is `ram_init` in the RAM window and blank elsewhere. -/
theorem read_ramFill (hr : ramInit.wf = true) (a : Word) :
    (Memory.writeAll [] (ramPart cfg ramInit)).read a.toNat =
      if region cfg a = .ram then ramInit.read a.toNat else blankByte := by
  rw [Memory.read_writeAll Memory.wf_nil (ramPart_wf cfg hr), ramPart_read]
  simp only [Memory.read]
  split <;> simp_all

theorem ramFill_wf (cfg : Params) (ramInit : Memory) : Memory.wf (Memory.writeAll [] (ramPart cfg ramInit)) = true :=
  Memory.wf_writeAll Memory.wf_nil fun _ => ramPart_addr_lt

/-- The image lies in the ROM window, so below 2^16. -/
theorem Constructible.image_fits (h : Constructible cfg image) : cfg.romWindow.lo.toNat + image.length ≤ 65536 := by
  have hw := (Params.wf_iff cfg).1 h.1
  have hl := h.2
  have := cfg.romWindow.hi.isLt
  unfold romSize at hl
  omega

theorem Constructible.store_wf (h : Constructible cfg image) : Memory.wf (builtStore cfg ramInit image) = true :=
  Memory.wf_load (ramFill_wf cfg ramInit) h.image_fits

theorem Constructible.store_read (h : Constructible cfg image) (hr : ramInit.wf = true) (a : Word) :
    (builtStore cfg ramInit image).read a.toNat =
      if a.toNat < cfg.romWindow.lo.toNat then if region cfg a = .ram then ramInit.read a.toNat else blankByte
      else (image[a.toNat - cfg.romWindow.lo.toNat]?).getD
        (if region cfg a = .ram then ramInit.read a.toNat else blankByte) := by
  rw [builtStore, Memory.read_load (ramFill_wf cfg ramInit) h.image_fits, read_ramFill hr]

/-- The image holds nothing for an address outside the ROM window. -/
theorem Constructible.image_getElem? (h : Constructible cfg image) {a : Nat} (hlo : cfg.romWindow.lo.toNat ≤ a)
    (ha : cfg.romWindow.hi.toNat < a) : image[a - cfg.romWindow.lo.toNat]? = none := by
  have hw := (Params.wf_iff cfg).1 h.1
  have hl := h.2
  unfold romSize at hl
  exact List.getElem?_eq_none (by omega)

/-- An address outside the ROM window holds `ram_init` in RAM and the blank byte elsewhere. -/
theorem Constructible.store_read_outside (h : Constructible cfg image) (hr : ramInit.wf = true) {a : Word}
    (ha : a.toNat < cfg.romWindow.lo.toNat ∨ cfg.romWindow.hi.toNat < a.toNat) :
    (builtStore cfg ramInit image).read a.toNat =
      if region cfg a = .ram then ramInit.read a.toNat else blankByte := by
  rw [h.store_read hr]
  by_cases hlo : a.toNat < cfg.romWindow.lo.toNat
  · rw [if_pos hlo]
  · rw [if_neg hlo, h.image_getElem? (by omega) (by omega)]
    rfl

theorem Constructible.store_read_ram (h : Constructible cfg image) (hr : ramInit.wf = true) {a : Word}
    (ha : region cfg a = .ram) : (builtStore cfg ramInit image).read a.toNat = ramInit.read a.toNat := by
  have hin := (region_eq_ram_iff a).1 ha
  have hw := (Params.wf_iff cfg).1 h.1
  rw [h.store_read_outside hr (by omega), if_pos ha]

theorem Constructible.store_read_rom (h : Constructible cfg image) (hr : ramInit.wf = true) {a : Word}
    (ha : region cfg a = .rom) :
    (builtStore cfg ramInit image).read a.toNat = (image[a.toNat - cfg.romWindow.lo.toNat]?).getD 0 := by
  rw [h.store_read hr, if_neg (Nat.not_lt.2 (mem_rom_of_region ha).1), if_neg (by rw [ha]; decide)]
  rfl

theorem Constructible.store_read_unmapped (h : Constructible cfg image) (hr : ramInit.wf = true) {a : Word}
    (ha : region cfg a = .unmapped) : (builtStore cfg ramInit image).read a.toNat = 0 := by
  rw [h.store_read_outside hr (not_mem_rom_of_region ha), if_neg (by rw [ha]; decide)]
  rfl

/-- The windows' and the image's conditions as the spec writes them. -/
theorem constructible_iff : Constructible cfg image ↔
    cfg.ramWindow.lo.toNat ≤ cfg.ramWindow.hi.toNat ∧ cfg.romWindow.lo.toNat ≤ cfg.romWindow.hi.toNat ∧
      (cfg.ramWindow.hi.toNat < cfg.romWindow.lo.toNat ∨ cfg.romWindow.hi.toNat < cfg.ramWindow.lo.toNat) ∧
      image.length ≤ cfg.romWindow.hi.toNat - cfg.romWindow.lo.toNat + 1 := by
  rw [Constructible, Params.wf_iff, romSize]
  tauto

end

/-- Settles O60: the store is the RAM fill with the image loaded over it, and the ROM window keeps the two apart. -/
theorem constructionRules : Obligations.ConstructionRules := by
  intro cfg ramInit image dev hr
  refine ⟨fun h => construct_none (mt constructible_iff.1 h), fun hlegal => ?_⟩
  have h := constructible_iff.2 hlegal
  refine ⟨_, construct_some h, ⟨h.store_wf, h.1, List.length_map _⟩, rfl, rfl, rfl, rfl, rfl, rfl, ?_,
    fun a => h.store_read_ram hr, fun a => h.store_read_rom hr, fun a => h.store_read_unmapped hr⟩
  intro n hn
  obtain ⟨_, _, rfl⟩ := List.mem_map.1 hn
  rfl

end Sys2Proof.Machine

/-! SUPPORT. Burst boundaries, starts of runs and bounded runs (60_exceptions.md R661 to R665, R682, R684). -/

namespace Sys2Proof.Machine

section
variable {s t : State}

/-! ## Sync callbacks in order (60_exceptions.md R661) -/

theorem fireSyncs_ok {i : Nat} {cbs : List SyncCallback}
    (h : RunsInOrder ((cbs.zipIdx i).map fun e => fireSync e.2 e.1) s t) : fireSyncs i cbs s = .ok ⟨⟩ t := by
  induction cbs generalizing i s with
  | nil =>
    cases (h : t = s)
    rfl
  | cons cb rest ih =>
    obtain ⟨u, hfire, hrest⟩ := h
    rw [fireSyncs, bind_ok hfire, ih hrest]

theorem fireSyncs_error {i : Nat} {cbs : List SyncCallback} {e : Raise}
    (h : FailsInOrder ((cbs.zipIdx i).map fun e => fireSync e.2 e.1) s e t) : fireSyncs i cbs s = .error e t := by
  induction cbs generalizing i s with
  | nil => exact h.elim
  | cons cb rest ih =>
    rcases h with hfail | ⟨u, hfire, hrest⟩
    · rw [fireSyncs, bind_error hfail]
    · rw [fireSyncs, bind_ok hfire, ih hrest]

/-- A due callback that ends well keeps the registers and `cycles`, which its call is recorded with. -/
theorem fireSync_recorded {i : Nat} {cb : SyncCallback} {v : Option Nat}
    (hdue : cellAt s.sched.lastCall i + cb.period ≤ s.cycles)
    (h : runCallback cb.script { value := s.cycles - cellAt s.sched.lastCall i, cycles := s.cycles } s = .ok v t) :
    t.cycles = s.cycles ∧ t.regs = s.regs ∧
      fireSync i cb s = .ok ⟨⟩ (t.withSched { t.sched with lastCall := setCellAt t.sched.lastCall i s.cycles }) := by
  have hframe := (runCallback_respects callbackFrame_closed _ _).ok h
  exact ⟨hframe.cycles, hframe.regs, hframe.cycles ▸ fireSync_ok hdue h⟩

/-! ## The boundary (60_exceptions.md R662, R663, R682) -/

/-- What a whole boundary leaves as it was: the parameters, `cycles` and the registers. -/
structure BoundaryFrame (s t : State) : Prop where
  cfg : t.cfg = s.cfg
  cycles : t.cycles = s.cycles
  regs : t.regs = s.regs

theorem boundaryFrame_closed : BoundaryClosed BoundaryFrame where
  refl _ := ⟨rfl, rfl, rfl⟩
  trans h h' := ⟨h'.cfg.trans h.cfg, h'.cycles.trans h.cycles, h'.regs.trans h.regs⟩
  store s a v := ⟨s.storeByte_cfg a v, s.storeByte_cycles a v, s.storeByte_regs a v⟩
  dev _ _ := ⟨rfl, rfl, rfl⟩
  lines _ _ := ⟨rfl, rfl, rfl⟩
  host _ _ := ⟨rfl, rfl, rfl⟩
  drawn _ _ := ⟨rfl, rfl, rfl⟩
  cfg h := h.cfg
  fired _ _ _ := ⟨rfl, rfl, rfl⟩
  poke _ _ _ _ := ⟨rfl, rfl, rfl⟩
  phase _ _ := ⟨rfl, rfl, rfl⟩
  record _ _ _ _ := ⟨rfl, rfl, rfl⟩

/-- The status posted after the requests is that of the step's first state. -/
theorem postStatus_serveHost (h : BoundaryFrame s t) :
    t.serveHost.postStatus =
      t.serveHost.withHost { t.serveHost.host with statusQ := some ⟨s.cycles, s.regs.pc, s.regs.cc⟩ } := by
  have hserved : BoundaryFrame s t.serveHost :=
    boundaryFrame_closed.trans h
      (boundaryFrame_closed.trans (boundaryFrame_closed.host t _) (boundaryFrame_closed.serveRequests _ _))
  rw [State.postStatus, hserved.cycles, hserved.regs]

theorem boundaryStep_ok (h : RunsInOrder s.syncCalls s t) :
    boundaryStep s = .next (t.serveHost.withHost
      { t.serveHost.host with statusQ := some ⟨s.cycles, s.regs.pc, s.regs.cc⟩ }).nextBurst := by
  have hfire : fireSyncs 0 s.cfg.syncCallbacks s = .ok ⟨⟩ t := fireSyncs_ok h
  have hframe : EndsIn (BoundaryFrame s) (fireSyncs 0 s.cfg.syncCallbacks s) :=
    boundaryFrame_closed.fireSyncs (Nat.le_of_eq (Nat.zero_add _))
  rw [hfire] at hframe
  rw [boundaryStep, boundary, bind_ok (get_apply s), bind_ok hfire, modify_apply, postStatus_serveHost hframe]

theorem boundaryStep_error {e : Nat} (h : FailsInOrder s.syncCalls s (.peripheral e) t) :
    boundaryStep s =
      .next ((t.deviceFault s.regs.pc none e).withSched { t.sched with running := false, phase := .ended }) := by
  rw [boundaryStep, boundary, bind_ok (get_apply s), bind_error (fireSyncs_error h)]
  rfl

theorem turn_boundary (hp : s.sched.phase = .burst 0) : turn s = boundaryStep s := by simp only [turn, hp]

/-! ## Starts of runs, and turns after a run (60_exceptions.md R662, R665) -/

theorem State.idle_of_phase (h : s.sched.phase = .stepped ∨ s.sched.phase = .bounded 0 ∨ s.sched.phase = .ended) :
    s.idle = true := by
  rcases h with h | h | h <;> simp only [State.idle, h]

theorem State.not_idle_of_phase {n : Nat} (h : s.sched.phase = .burst n ∨ s.sched.phase = .bounded (n + 1)) :
    s.idle = false := by
  rcases h with h | h <;> simp only [State.idle, h]

theorem turn_runEnded (h : s.sched.phase = .bounded 0 ∨ s.sched.phase = .ended) : turn s = .fault .runEnded := by
  rcases h with h | h <;> simp only [turn, h]

theorem countedStep_unfaulted (hf : s.fault = none) (p : Phase) :
    countedStep p s = cpuStep (s.withSched { s.sched with phase := p }) := by
  rw [countedStep]
  split
  · next hs => cases hf.symm.trans hs
  · rfl

/-! ## Bounded runs -/

/-- What a step of the CPU leaves of the scheduler's loop: the parameters, the phase and the turns. -/
structure LoopFrame (s t : State) : Prop where
  cfg : t.cfg = s.cfg
  phase : t.sched.phase = s.sched.phase
  agenda : t.agenda = s.agenda

theorem loopFrame_closed : CpuClosed LoopFrame where
  refl _ := ⟨rfl, rfl, rfl⟩
  trans h h' := ⟨h'.cfg.trans h.cfg, h'.phase.trans h.phase, h'.agenda.trans h.agenda⟩
  store s a v := ⟨s.storeByte_cfg a v, by rw [s.storeByte_sched], s.storeByte_agenda a v⟩
  dev _ _ := ⟨rfl, rfl, rfl⟩
  lines _ _ := ⟨rfl, rfl, rfl⟩
  host _ _ := ⟨rfl, rfl, rfl⟩
  drawn _ _ := ⟨rfl, rfl, rfl⟩
  regs _ _ := ⟨rfl, rfl, rfl⟩
  cycles _ _ := ⟨rfl, rfl, rfl⟩
  wait _ _ := ⟨rfl, rfl, rfl⟩
  nmi _ _ := ⟨rfl, rfl, rfl⟩
  cfg h := h.cfg
  fault _ _ := ⟨rfl, rfl, rfl⟩
  running _ _ := ⟨rfl, rfl, rfl⟩
  lastCall _ _ _ := ⟨rfl, rfl, rfl⟩

theorem countedStep_loopFrame {p : Phase} (h : countedStep p s = .next t) :
    LoopFrame (s.withSched { s.sched with phase := p }) t := by
  by_cases hf : s.fault = none
  · rw [countedStep_unfaulted hf] at h
    exact loopFrame_closed.cpuStep h
  · rw [countedStep_faulted hf] at h
    cases h
    exact loopFrame_closed.refl _

/-- A turn of a bounded run on a machine with no bus callback: it is made, and one step fewer is left. -/
theorem step_bounded {k : Nat} (hag : s.agenda = []) (hp : s.sched.phase = .bounded (k + 1)) (q : s.Quiet) :
    ∃ t, step s = .next t ∧ t.agenda = [] ∧ t.sched.phase = .bounded k ∧ t.Quiet := by
  obtain ⟨t, ht⟩ := (countedStep_onlyHangs (.bounded k) s).exists_next q
  have hframe := countedStep_loopFrame ht
  exact ⟨t, by rw [step_eq_turn hag, turn_bounded hp, ht], hframe.agenda.trans hag, hframe.phase, q.of_cfg hframe.cfg⟩

theorem run_succ {m : Host.Core} {k : Nat} {s t : m.State} (h : m.step s = .next t) : m.run (k + 1) s = m.run k t := by
  rw [Host.Core.run, h]

/-- All the steps of a bounded run are made, by induction on their number. -/
theorem run_bounded {k : Nat} (hag : s.agenda = []) (hp : s.sched.phase = .bounded k) (q : s.Quiet) :
    ∃ u : State, Sys2Proof.core.run k s = .next u ∧ u.agenda = [] ∧ u.sched.phase = .bounded 0 := by
  induction k generalizing s with
  | zero => exact ⟨s, rfl, hag, hp⟩
  | succ k ih =>
    obtain ⟨t, ht, hag', hp', q'⟩ := step_bounded hag hp q
    obtain ⟨u, hu, hend⟩ := ih hag' hp' q'
    exact ⟨u, (run_succ (m := Sys2Proof.core) ht).trans hu, hend⟩

end

/-- Settles O57: the boundary by `boundaryStep_ok` and `boundaryStep_error`, a bounded run by induction on its steps. -/
theorem boundaryRules : Obligations.BoundaryRules := by
  intro s t next
  refine ⟨fun i cb => ⟨fireSync_early, fun hdue => ⟨fun v h => fireSync_recorded hdue h, fun e h => fireSync_error hdue h⟩⟩,
    fun hag hp => ?boundary, fun k rest hp => ?starts, fun n k rest hp hag => ?waits, fun hag => ?bounded⟩
  case boundary =>
    rw [step_eq_turn hag, turn_boundary hp]
    exact ⟨boundaryStep_ok, fun e h => boundaryStep_error h⟩
  case starts =>
    have hidle := State.idle_of_phase hp
    exact ⟨fun hag => step_due hag hidle, fun hag => step_due hag hidle⟩
  case waits =>
    have hbusy := State.not_idle_of_phase hp
    exact hag.elim (fun h => step_of_not_due h hbusy) (fun h => step_of_not_due h hbusy)
  case bounded =>
    refine ⟨fun n hp => ?_, fun hp => (step_eq_turn hag).trans (turn_runEnded hp), fun k hp q => ?_⟩
    · rw [step_eq_turn hag, turn_bounded hp]
      exact ⟨fun hf => countedStep_unfaulted hf _, fun hf => countedStep_faulted hf _⟩
    · obtain ⟨u, hrun, hag', hend⟩ := run_bounded hag hp q
      exact ⟨u, hrun, hend, (step_eq_turn hag').trans (turn_runEnded (.inl hend))⟩

end Sys2Proof.Machine

/-! SUPPORT. What a step fetches on a machine with no bus callback: the bytes that stand at PC (30_encoding.md R131, R133). -/

namespace Sys2Proof.Machine

/-! ## Fetched bytes -/

/-- The state after a fetch of `n` bytes: PC moved past them and the reads counted. -/
def State.afterFetch (s : State) (n : Nat) : State := (s.withRegs (s.fetchedRegs n)).addCycles (accessCost s.cfg n)

theorem State.afterFetch_zero (s : State) : s.afterFetch 0 = s := by
  rw [State.afterFetch, accessCost_zero, State.fetchedRegs, show s.regs.pc + BitVec.ofNat 16 0 = s.regs.pc from BitVec.add_zero _]
  rfl

theorem State.afterFetch_afterFetch (s : State) (m n : Nat) : (s.afterFetch m).afterFetch n = s.afterFetch (m + n) := by
  have hregs : (s.afterFetch m).fetchedRegs n = s.fetchedRegs (m + n) := fetchedRegs_fetchedRegs rfl n
  show ((s.afterFetch m).withRegs _).addCycles (accessCost s.cfg n) = (s.withRegs _).addCycles (accessCost s.cfg (m + n))
  rw [hregs, ← accessCost_add, ← State.addCycles_addCycles]
  rfl

/-- The bytes stand in the store from PC on. -/
def State.Shows (s : State) (l : List Byte) : Prop := peekBytes s s.regs.pc l.length = l

theorem peekBytes_congr {s t : State} (h : ∀ a, t.backing a = s.backing a) (a : Word) (n : Nat) :
    peekBytes t a n = peekBytes s a n := by
  induction n generalizing a with
  | zero => rfl
  | succ n ih => rw [peekBytes, peekBytes, h, ih]

theorem shows_peekBytes (s : State) (n : Nat) : s.Shows (peekBytes s s.regs.pc n) := by
  rw [State.Shows, peekBytes_length]

section
variable {s : State} {v w : Byte} {l : List Byte}

/-- After a fetch of the first byte the others stand at PC. -/
theorem shows_cons : s.Shows (v :: l) ↔ s.backing s.regs.pc = v ∧ (s.afterFetch 1).Shows l := by
  rw [State.Shows, State.Shows, List.length_cons, peekBytes, List.cons.injEq,
    peekBytes_congr (s := s) (t := s.afterFetch 1) fun _ => rfl]
  rfl

theorem shows_cons_cons :
    s.Shows (v :: w :: l) ↔ s.backing s.regs.pc = v ∧ s.backing (s.regs.pc + 1) = w ∧ (s.afterFetch 2).Shows l := by
  rw [shows_cons, shows_cons, State.afterFetch_afterFetch]
  rfl

variable (q : s.Quiet)
include q

theorem fetchByte_quiet (h : s.Shows (v :: l)) : fetchByte s = .ok v (s.afterFetch 1) := by
  rw [fetchByte, bind_ok (getRegs_apply s), bind_ok (read8_quiet q _), (shows_cons.1 h).1]
  rfl

theorem fetchWord_quiet (h : s.Shows (v :: w :: l)) : fetchWord s = .ok [v, w] (s.afterFetch 2) := by
  obtain ⟨hv, hw, -⟩ := shows_cons_cons.1 h
  rw [fetchWord, bind_ok (getRegs_apply s), bind_ok (read16_quiet q _), State.word, hv, hw, highByte_wordOf, lowByte_wordOf]
  rfl

theorem fetchByteList_quiet (h : s.Shows (v :: l)) :
    (fetchByte >>= fun b => pure [b] : M (List Byte)) s = .ok [v] (s.afterFetch 1) := by
  rw [bind_ok (fetchByte_quiet q h)]
  rfl

/-! ## An instruction's bytes -/

theorem fetchOpcode_quiet {op : Nat} (hop : IsOpcode op) (h : s.Shows (opcodeBytes op ++ l)) :
    fetchOpcode s = .ok op (s.afterFetch (opcodeBytes op).length) ∧ (s.afterFetch (opcodeBytes op).length).Shows l := by
  rcases opcodeBytes_cases hop with ⟨b, he, hp, rfl⟩ | ⟨p, b, he, hp, rfl⟩
  · rw [he] at h ⊢
    refine ⟨?_, (shows_cons.1 h).2⟩
    rw [fetchOpcode, bind_ok (fetchByte_quiet q h), hp]
    rfl
  · rw [he] at h ⊢
    refine ⟨?_, (shows_cons_cons.1 h).2.2⟩
    rw [fetchOpcode, bind_ok (fetchByte_quiet q h), hp, if_pos rfl,
      bind_ok (fetchByte_quiet (s := s.afterFetch 1) (q.of_cfg rfl) (shows_cons.1 h).2), State.afterFetch_afterFetch]
    rfl

/-- The offset bytes of an indexed operand, which are the ones its decoding takes. -/
theorem fetchOffset_quiet {pb : Byte} {x : Idx} {rest : List Byte} (hdec : decodeIdx (pb :: l) = some (x, rest))
    (h : s.Shows l) : ∃ bs, l = bs ++ rest ∧ fetchOffset (offsetOf pb) s = .ok bs (s.afterFetch bs.length) := by
  simp only [decodeIdx] at hdec
  cases ho : offsetOf pb with
  | none =>
    rw [ho] at hdec
    cases hdec
    exact ⟨[], rfl, by rw [List.length_nil, State.afterFetch_zero]; rfl⟩
  | byte =>
    rw [ho] at hdec
    match l, hdec with
    | n :: l, hdec =>
      cases hdec
      exact ⟨[n], rfl, fetchByteList_quiet q h⟩
  | word =>
    rw [ho] at hdec
    match l, hdec with
    | hi :: lo :: l, hdec =>
      cases hdec
      exact ⟨[hi, lo], rfl, fetchWord_quiet q h⟩

/-- The operand bytes of a row, which are the ones its decoding takes. -/
theorem fetchOperand_quiet {form : Form} {i : Instr} {rest : List Byte} (hdec : decodeForm form l = some (i, rest))
    (h : s.Shows l) : ∃ bs, l = bs ++ rest ∧ fetchOperand form s = .ok bs (s.afterFetch bs.length) := by
  match form, l, hdec with
  | .inh j, l, hdec =>
    cases hdec
    exact ⟨[], rfl, by rw [List.length_nil, State.afterFetch_zero]; rfl⟩
  | .byte f, b :: l, hdec =>
    cases hdec
    exact ⟨[b], rfl, fetchByteList_quiet q h⟩
  | .word f, hi :: lo :: l, hdec =>
    cases hdec
    exact ⟨[hi, lo], rfl, fetchWord_quiet q h⟩
  | .idx f, pb :: l, hdec =>
    obtain ⟨⟨x, rest'⟩, hx, he⟩ := Option.map_eq_some_iff.1 hdec
    cases he
    obtain ⟨bs, rfl, hfetch⟩ := fetchOffset_quiet (s := s.afterFetch 1) (q.of_cfg rfl) hx (shows_cons.1 h).2
    refine ⟨pb :: bs, rfl, ?_⟩
    rw [fetchOperand, bind_ok (fetchByte_quiet q h), bind_ok hfetch, State.afterFetch_afterFetch, List.length_cons,
      Nat.add_comm]
    rfl

/-- The bytes taken are the instruction's own: what follows them is no part of it. -/
theorem executeOne_quiet {i : Instr} {rest : List Byte} (hdec : decode l = some (i, rest)) (h : s.Shows l) :
    executeOne s = exec i (s.afterFetch (instrLength i)) := by
  obtain ⟨op, tail, hop, rfl, hrow⟩ := decode_eq_some hdec
  obtain ⟨form, hform, hoperand⟩ := Option.bind_eq_some_iff.1 hrow
  obtain ⟨hfetch, hshows⟩ := fetchOpcode_quiet q hop h
  obtain ⟨bs, rfl, hbs⟩ := fetchOperand_quiet (s := s.afterFetch _) (q.of_cfg rfl) hoperand hshows
  obtain ⟨hwf, henc⟩ := encodeOfDecode _ _ _ hdec
  have henc : opcodeBytes op ++ bs = encode i := List.append_cancel_right (by rw [List.append_assoc, henc])
  have hall : decode (opcodeBytes op ++ bs) = some (i, []) := by
    rw [henc, ← List.append_nil (encode i)]
    exact decodeOfEncode i [] hwf
  simp only [executeOne, hfetch, hform, hbs, hall, State.afterFetch_afterFetch, instrLength, ← henc, List.length_append]

end

/-- Where no fault, wait or request stands in the way, the CPU's step is the instruction at PC. -/
theorem cpuStep_quiet {s : State} {i : Instr} {rest : List Byte} {n : Nat} (q : s.Quiet) (hf : s.fault = none)
    (hw : s.wait = .none) (hp : s.pending = none) (hdec : decode (peekBytes s s.regs.pc n) = some (i, rest)) :
    cpuStep s = exec i (s.afterFetch (instrLength i)) := by
  rw [cpuStep_eq_executeOne hf hw hp, executeOne_quiet q hdec (shows_peekBytes s n)]

theorem turn_stepped {s : State} (hp : s.sched.phase = .stepped) : turn s = cpuStep s := by simp only [turn, hp]

/-- Settles O44, from `cpuStep_quiet`; in a run or burst the phase changes first, which the fetches do not see. -/
theorem stepRunsDecodedInstruction : Obligations.StepRunsDecodedInstruction := by
  intro s i rest q hag hf hw hp hdec fetched
  have hcounted (p : Phase) : countedStep p s = exec i (fetched (s.withSched { s.sched with phase := p })) := by
    have hpeek : peekBytes (s.withSched { s.sched with phase := p }) s.regs.pc 5 = peekBytes s s.regs.pc 5 :=
      peekBytes_congr (fun _ => rfl) _ 5
    rw [countedStep_unfaulted hf]
    exact cpuStep_quiet (q.of_cfg rfl) hf hw hp ((congrArg decode hpeek).trans hdec)
  rw [step_eq_turn hag]
  refine ⟨fun hphase => ?_, fun n => ⟨fun hphase => ?_, fun hphase => ?_⟩⟩
  · rw [turn_stepped hphase]
    exact cpuStep_quiet q hf hw hp hdec
  · rw [turn_bounded hphase, hcounted]
  · rw [turn_burst hphase, hcounted]

end Sys2Proof.Machine
